-- ==== Sys2Proof/Word.lean ====
section
/-! DEFINITION. The plain words and numbers of the block: bytes, ports, buses, targets, slots, table indices. -/

namespace Sys2Proof

/-- One byte of a frame, a slot or a profile. -/
abbrev Byte := BitVec 8

/-- An upstream port, P0 to P3 (00_scope 0.4). -/
abbrev Port := Fin 4

/-- A downstream bus, B0 or B1 (00_scope 0.4). -/
abbrev Bus := Fin 2

/-- A target, T0 to T7 (00_scope 0.4). -/
abbrev Target := Fin 8

/-- One of a port's four data slots, S0 to S3 (R138). -/
abbrev SlotIx := Fin 4

/-- The index of a region entry, 0 to 31 (R2). -/
abbrev EntryIx := Fin 32

end Sys2Proof
end

