-- ==== Sys2Proof/Syntax.lean ====
section
/-! DEFINITION. The commands of the block: one constructor per row of spec/opcode_table.json. -/

namespace Sys2Proof

/-- The two moments of a frame that answers: the capture of its reply at the last request byte, and the release of its chip
select (R182). -/
inductive Moment where
  | capture
  | release
  deriving DecidableEq, Repr

/-- The commands. `bytes` is always the list of complete bytes that the master has clocked after the code byte (R178). -/
inductive Instr where
  /-- R153, R154. -/
  | submit (p : Port) (bytes : List Byte)
  /-- R160. -/
  | cancel (p : Port) (bytes : List Byte)
  /-- R164. -/
  | hold (p : Port) (bytes : List Byte)
  /-- R164. -/
  | unhold (p : Port) (bytes : List Byte)
  /-- R140. -/
  | load (p : Port) (bytes : List Byte)
  /-- R141. -/
  | fetch (p : Port) (m : Moment) (bytes : List Byte)
  /-- R142. -/
  | release (p : Port) (bytes : List Byte)
  /-- R159. -/
  | collect (p : Port) (m : Moment) (bytes : List Byte)
  /-- R176. -/
  | cause (p : Port) (m : Moment) (bytes : List Byte)
  /-- R175. -/
  | causeEnable (p : Port) (bytes : List Byte)
  /-- R191. -/
  | summary (p : Port) (m : Moment) (bytes : List Byte)
  /-- R165. -/
  | portReset (p : Port) (bytes : List Byte)
  /-- R8. -/
  | readEntry (p : Port) (m : Moment) (bytes : List Byte)
  /-- R34. -/
  | readTarget (p : Port) (m : Moment) (bytes : List Byte)
  /-- R6. -/
  | stageEntry (p : Port) (bytes : List Byte)
  /-- R7. -/
  | copyActive (p : Port) (bytes : List Byte)
  /-- R10, R11. -/
  | apply (p : Port) (bytes : List Byte)
  /-- R12 to R14. -/
  | applySucceeds
  /-- R30, R31. -/
  | setupTarget (p : Port) (bytes : List Byte)
  /-- R32. -/
  | removeTarget (p : Port) (bytes : List Byte)
  /-- R115. -/
  | resetTarget (p : Port) (bytes : List Byte)
  /-- R116. -/
  | targetResetClaim (t : Target)
  /-- R95. -/
  | resetBus (p : Port) (bytes : List Byte)
  /-- R96, R97. -/
  | busResetClaim (b : Bus)
  /-- R80. -/
  | busMode (p : Port) (bytes : List Byte)
  /-- R180: a frame whose code is absent from the frame code table. -/
  | badcode (p : Port) (code : Byte) (bytes : List Byte)
  /-- R178: the chip select is released before any complete byte. -/
  | frameWithoutCode (p : Port)
  /-- R179: the chip select falls. -/
  | summaryByte (p : Port)
  /-- R94, and the device-reset value of every piece of state. -/
  | deviceReset
  /-- R184, R178: RESET# rises with AUTH[1:0] at `auth` and the chip selects of the ports in `csLow` already low. -/
  | resetRelease (auth : BitVec 2) (csLow : BitVec 4)
  /-- R43. -/
  | admission
  /-- R56. -/
  | insertion
  /-- R15, R16: the bus takes the oldest revocation claim issued to it. -/
  | revocationClaim (b : Bus)
  /-- R161, R162: the bus takes the oldest cancel claim that the port has sent to it. -/
  | cancelClaim (p : Port) (b : Bus)
  /-- R69. -/
  | choice (b : Bus)
  /-- R86: `sdi` holds the eight samples of SDI, the first in bit 7 (R83). -/
  | dataByteReceived (b : Bus) (sdi : Byte)
  /-- R87. -/
  | dataByteSent (b : Bus)
  /-- R91. -/
  | readFrameEnd (b : Bus)
  /-- R87. -/
  | writeEnableFrameEnd (b : Bus)
  /-- R104. -/
  | programPairEnd (b : Bus)
  /-- R107. -/
  | erasePairEnd (b : Bus)
  /-- R89: `sdi` holds the eight samples of SDI in the status byte, the first in bit 7 (R83). -/
  | statusFrameEnd (b : Bus) (sdi : Byte)
  /-- R126. -/
  | suspendFrameEnd (b : Bus)
  /-- R134. -/
  | resumeFrameEnd (b : Bus)
  /-- R117. -/
  | resetFrameEnd (b : Bus)
  /-- R102. -/
  | pollTimerExpiry (t : Target)
  /-- R106. -/
  | programTimerExpiry (t : Target)
  /-- R110, R129. -/
  | busyTimeReachesTel (t : Target)
  /-- R123. -/
  | holdOffTimerExpiry (t : Target)
  /-- R129. -/
  | suspendLatencyTimerExpiry (t : Target)
  /-- R133. -/
  | suspendedTimerExpiry (t : Target)
  /-- R117. -/
  | recoveryTimerExpiry (t : Target)
  /-- R158, R59: the port takes the refusal that the Admission Unit posts. -/
  | completionPost
  deriving DecidableEq, Repr

/-- The frame code table of R180. -/
def frameCodes : List Byte :=
  [0x10, 0x11, 0x12, 0x13, 0x20, 0x21, 0x22, 0x30, 0x31, 0x32, 0x33, 0x3F, 0x40, 0x41] ++
    [0x50, 0x51, 0x52, 0x58, 0x59, 0x5A, 0x5C, 0x5D]

end Sys2Proof
end

