-- ==== Sys2Proof/Decode.lean ====
section
/-! DEFINITION. Reading commands off the links: the complete bytes of a frame from its bits (R178), and the frame that they spell
by the code table (R180). The decoder of table words reads nothing: no row of spec/opcode_table.json gives bits. -/

namespace Sys2Proof

/-- The byte that eight bits spell, the most significant first (R178). -/
def byteOfBits (b7 b6 b5 b4 b3 b2 b1 b0 : Bool) : Byte := BitVec.ofBoolListBE [b7, b6, b5, b4, b3, b2, b1, b0]

/-- The complete bytes of a frame, from the bits sampled at the rising edges of SCK; the bits of a byte that CS# cuts short are
discarded (R178). -/
def completeBytes : List Bool → List Byte
  | b7 :: b6 :: b5 :: b4 :: b3 :: b2 :: b1 :: b0 :: rest => byteOfBits b7 b6 b5 b4 b3 b2 b1 b0 :: completeBytes rest
  | _ => []

/-- The frame of a code at its release, with the bytes clocked after the code (R180). -/
def frameOfCode (p : Port) (code : Byte) (bytes : List Byte) : Instr :=
  match code.toNat with
  | 0x10 => .submit p bytes
  | 0x11 => .cancel p bytes
  | 0x12 => .hold p bytes
  | 0x13 => .unhold p bytes
  | 0x20 => .load p bytes
  | 0x21 => .fetch p .release bytes
  | 0x22 => .release p bytes
  | 0x30 => .collect p .release bytes
  | 0x31 => .cause p .release bytes
  | 0x32 => .causeEnable p bytes
  | 0x33 => .summary p .release bytes
  | 0x3F => .portReset p bytes
  | 0x40 => .readEntry p .release bytes
  | 0x41 => .readTarget p .release bytes
  | 0x50 => .stageEntry p bytes
  | 0x51 => .copyActive p bytes
  | 0x52 => .apply p bytes
  | 0x58 => .setupTarget p bytes
  | 0x59 => .removeTarget p bytes
  | 0x5A => .resetTarget p bytes
  | 0x5C => .resetBus p bytes
  | 0x5D => .busMode p bytes
  | _ => .badcode p code bytes

/-- The command at the release of a frame in which these complete bytes were clocked: the first is the code (R178, R180). -/
def frameOfBytes (p : Port) : List Byte → Instr
  | [] => .frameWithoutCode p
  | code :: bytes => frameOfCode p code bytes

/-- The capture that falls due when these bytes have been clocked: at the last request byte of a frame that answers (R182). -/
def captureOfBytes (p : Port) : List Byte → Option Instr
  | [] => none
  | code :: bytes =>
    match code.toNat, bytes.length with
    | 0x21, 2 => some (.fetch p .capture bytes)
    | 0x30, 0 => some (.collect p .capture bytes)
    | 0x31, 0 => some (.cause p .capture bytes)
    | 0x33, 0 => some (.summary p .capture bytes)
    | 0x40, 2 => some (.readEntry p .capture bytes)
    | 0x41, 1 => some (.readTarget p .capture bytes)
    | _, _ => none

/-- The commands of one whole frame, from the bits sampled between a fall and the next rise of CS#: the summary byte at the fall
(R179), the capture if one falls due (R182), and the release (R178, R180). -/
def frameOfBits (p : Port) (bits : List Bool) : List Instr :=
  let bytes := completeBytes bits
  .summaryByte p :: ((List.range (bytes.length + 1)).filterMap fun n => captureOfBytes p (bytes.take n)) ++ [frameOfBytes p bytes]

/-- The command that a word of `nbits` bits spells by the table's bits: none, as no row has any. -/
def decodeTableWord (_nbits _w : Nat) : Option Instr := none

end Sys2Proof
end

