-- ==== Sys2Proof/Config.lean ====
section
/-! DEFINITION. The fixed sizes and times of the block, each with the rule that gives it. The spec leaves no value of any
command open, so there is no free value here. -/

namespace Sys2Proof.Config

/-- A submission ring holds at most 8 entries (R40). -/
abbrev ringSize : Nat := 8

/-- A port has 16 credits (R152). -/
abbrev credits : Nat := 16

/-- A work list holds at most 24 items (R64). -/
abbrev listSize : Nat := 24

/-- A data slot has offsets 0 to 255 (R138). -/
abbrev slotBytes : Nat := 256

/-- A policy page is 4 KiB (R1). -/
abbrev policyPage : Nat := 4096

/-- Periods of the internal 200 MHz clock in one microsecond (00_scope 0.6, R22, R108). -/
abbrev ticksPerMicrosecond : Nat := 200

/-- Periods of the internal 200 MHz clock in one millisecond (R26, R108). -/
abbrev ticksPerMillisecond : Nat := 200000

/-- The deselect interval tDSL, in half clocks of the new frame's target (R83). -/
abbrev deselectHalfClocks : Nat := 4

/-- One byte occupies 16 half clocks (R22). -/
abbrev byteHalfClocks : Nat := 16

/-- DESIGN CHOICE (log 1), unsafe: the authority port of `State.reset`. The spec gives none before AUTH is sampled. -/
abbrev resetAuthority : Port := 0

end Sys2Proof.Config
end

