-- ==== Sys2Proof/Machine/State.lean ====
section
/-! DEFINITION. The state of the block as plain data, and its device-reset values. -/

namespace Sys2Proof.Machine

/-- The contents of a data slot: (offset, byte) cells in canonical form (`Memory.wf`). An unlisted offset reads 0x00, the
reset content of R138. -/
abbrev Memory := List Host.Cell

/-! ### The policy table (R1, R2) -/

/-- What a later APPLY that changes the entry does to work admitted under it (R1). -/
inductive RegionMode where
  | polite
  | strict
  deriving DecidableEq, Repr

/-- A region entry (R1). `ports` has bit n for Pn; `rights` has READ, PROGRAM, ERASE, STATUS, URGENT in bits 0 to 4. -/
structure RegionEntry where
  valid : Bool
  ports : BitVec 4
  base : BitVec 20
  size : BitVec 20
  target : BitVec 4
  offset : BitVec 20
  rights : BitVec 5
  mode : RegionMode
  deriving DecidableEq, Repr

/-- The device-reset value of an entry (R2). -/
def RegionEntry.empty : RegionEntry :=
  { valid := false, ports := 0, base := 0, size := 0, target := 0, offset := 0, rights := 0, mode := .polite }

/-- A table of 32 entries (R2). -/
abbrev Table := Vector RegionEntry 32

/-- A change to the staged table that waits behind an APPLY (R4). -/
inductive Edit where
  | stage (index : EntryIx) (entry : RegionEntry)
  | copyActive
  deriving DecidableEq, Repr

/-- The Policy Unit (R2). `applies` counts the APPLYs that have succeeded and are not yet taken, `edits` the staged-table
changes behind them (R4). -/
structure PolicyUnit where
  staged : Table
  active : Table
  generation : BitVec 16
  failure : Option EntryIx
  applies : Nat
  edits : List Edit
  deriving DecidableEq, Repr

/-! ### Target records (R21 to R29) -/

/-- Gap modes (R22). -/
inductive GapMode where
  | none
  | everyByte
  | afterHeader
  deriving DecidableEq, Repr

/-- Bit order within a byte of a downstream frame (R22). -/
inductive BitOrder where
  | msbFirst
  | lsbFirst
  deriving DecidableEq, Repr

/-- The number of address bytes (R23). -/
inductive AddressWidth where
  | three
  | four
  deriving DecidableEq, Repr

/-- The erase unit (R23). -/
inductive EraseUnit where
  | kib4
  | kib32
  | kib64
  deriving DecidableEq, Repr

/-- A target's profile (R22 to R26). Capacity is held as its code c, for 2^c MiB, and page size as its code, for 64 * 2^c
bytes (R189). -/
structure Profile where
  divider : BitVec 6
  csSetup : BitVec 3
  csHold : BitVec 3
  gapLength : BitVec 4
  gapMode : GapMode
  bitOrder : BitOrder
  addressWidth : AddressWidth
  dummyBytes : BitVec 4
  capacityCode : Fin 9
  pageCode : BitVec 2
  eraseUnit : EraseUnit
  resetLength : Fin 3
  readOpcode : Byte
  writeEnableOpcode : Byte
  programOpcode : Byte
  eraseOpcode : Byte
  statusOpcode : Byte
  suspendOpcode : Byte
  resumeOpcode : Byte
  resetOpcode1 : Byte
  resetOpcode2 : Byte
  busyMask : Byte
  failMask : Byte
  suspendedMask : Byte
  tPI : BitVec 16
  tPL : BitVec 16
  tEL : BitVec 16
  tSH : BitVec 16
  tSL : BitVec 16
  tSX : Byte
  nsus : BitVec 4
  tRR : BitVec 16
  deriving DecidableEq, Repr

/-- Every profile field zero: the profile of an ABSENT target (R21, R35). -/
def Profile.zero : Profile :=
  { divider := 0, csSetup := 0, csHold := 0, gapLength := 0, gapMode := .none, bitOrder := .msbFirst,
    addressWidth := .three, dummyBytes := 0, capacityCode := 0, pageCode := 0, eraseUnit := .kib4, resetLength := 0,
    readOpcode := 0, writeEnableOpcode := 0, programOpcode := 0, eraseOpcode := 0, statusOpcode := 0, suspendOpcode := 0,
    resumeOpcode := 0, resetOpcode1 := 0, resetOpcode2 := 0, busyMask := 0, failMask := 0, suspendedMask := 0, tPI := 0,
    tPL := 0, tEL := 0, tSH := 0, tSL := 0, tSX := 0, nsus := 0, tRR := 0 }

/-- The eight target states (section 2.3). -/
inductive TargetState where
  | absent
  | idle
  | programming
  | erasing
  | suspending
  | suspended
  | faulted
  | resetting
  deriving DecidableEq, Repr

/-- A timer is stopped, running or expired (R29). A running timer holds the period it was started with and the time elapsed
since, in 5 ns clock periods. -/
inductive Timer where
  | stopped
  | running (period elapsed : Nat)
  | expired
  deriving DecidableEq, Repr

/-- The unit under erase: its first physical address and its size (R28). -/
structure UnitRange where
  first : Nat
  size : EraseUnit
  deriving DecidableEq, Repr

/-- The pending reset of a RESETTING target (R28). -/
structure PendingReset where
  toSend : Nat
  recovering : Bool
  deriving DecidableEq, Repr

/-- A target record (R21, R28, R29). `owner` is the reference (`Item.uid`) of the owner item; `busyTime` counts 5 ns clock
periods (R108); `held` is the suspended timer. -/
structure TargetRecord where
  profile : Profile
  state : TargetState
  owner : Option Nat
  unit : Option UnitRange
  suspendCount : Nat
  busyTime : Nat
  pendingReset : Option PendingReset
  poll : Timer
  program : Timer
  holdOff : Timer
  latency : Timer
  held : Timer
  recovery : Timer
  deriving DecidableEq, Repr

/-- An ABSENT target: zero profile, no live field, every timer stopped (R28, R32, R35). -/
def TargetRecord.absent : TargetRecord :=
  { profile := .zero, state := .absent, owner := none, unit := none, suspendCount := 0, busyTime := 0,
    pendingReset := none, poll := .stopped, program := .stopped, holdOff := .stopped, latency := .stopped,
    held := .stopped, recovery := .stopped }

/-! ### Requests, completion records and slots (R37, R157, R138) -/

/-- The kinds of request (R37). -/
inductive Kind where
  | read
  | program
  | erase
  | status
  deriving DecidableEq, Repr

/-- A request descriptor (R37). -/
structure Request where
  tag : Byte
  kind : Kind
  urgent : Bool
  fence : Bool
  slot : Option SlotIx
  address : BitVec 32
  length : BitVec 16
  deriving DecidableEq, Repr

/-- The outcomes of a completion (R157). -/
inductive Ending where
  | done
  | refused
  | failed
  | cancelled
  | truncated
  deriving DecidableEq, Repr

/-- The reasons of a completion; `none` stands beside DONE (R157, R187). -/
inductive Reason where
  | none
  | noRegion
  | span
  | rights
  | outside
  | page
  | align
  | targetDown
  | revoked
  | timeout
  | devFail
  | aborted
  | cancelled
  deriving DecidableEq, Repr

/-- A completion record (R157). The fields that R157 gives only to some kinds are 0 or empty for the others, and the layout
of R187 shows their absent markers. -/
structure Completion where
  tag : Byte
  kind : Kind
  outcome : Ending
  reason : Reason
  bytesMoved : Nat
  unitsDone : Nat
  headBytes : List Byte
  region : Option EntryIx
  target : Option Target
  generation : Option (BitVec 16)
  suspendTotal : Nat
  cancelSeen : Bool
  deriving DecidableEq, Repr

/-- Who may use a slot (R138, R139). -/
inductive SlotState where
  | free
  | held
  | committed
  deriving DecidableEq, Repr

/-- The state a slot returns to (R138). -/
inductive ReturnState where
  | free
  | held
  deriving DecidableEq, Repr

/-- A data slot (R138). -/
structure Slot where
  state : SlotState
  data : Memory
  valid : Nat
  ret : Option ReturnState
  deriving DecidableEq, Repr

/-- A FREE slot: valid length 0 and every byte 0x00 (R138). -/
def Slot.freed : Slot := { state := .free, data := [], valid := 0, ret := none }

/-! ### The Port Unit (R152, R168, R178, R183) -/

/-- The five attention causes (R168). -/
inductive Cause where
  | fault
  | error
  | complete
  | space
  | policy
  deriving DecidableEq, Repr

/-- A set of causes (R168). -/
structure CauseSet where
  fault : Bool
  error : Bool
  complete : Bool
  space : Bool
  policy : Bool
  deriving DecidableEq, Repr

/-- No cause (R168). -/
def CauseSet.empty : CauseSet := { fault := false, error := false, complete := false, space := false, policy := false }

/-- The enable set after device reset and PORT RESET: FAULT, ERROR, COMPLETE (R168). -/
def CauseSet.default : CauseSet := { fault := true, error := true, complete := true, space := false, policy := false }

/-- The frame results (R183). -/
inductive Result where
  | ok
  | full
  | dupTag
  | slotState
  | badField
  | unknownTag
  | notAuth
  | framing
  | badCode
  | notNow
  | applyFail
  deriving DecidableEq, Repr

/-- What a frame that answers captured at its last request byte (R182): the reply bytes, and what its release needs. For
CAUSE, `again` says that the captured cause was raised after the capture (R176). -/
inductive Captured where
  | fetch (result : Result) (reply : List Byte)
  | collect (record : Option Completion)
  | cause (reported : Option Cause) (again : Bool)
  | summary (reply : List Byte)
  | readEntry (result : Result) (reply : List Byte)
  | readTarget (result : Result) (reply : List Byte)
  deriving DecidableEq, Repr

/-- The upstream link of a port (R178, R179, R182). `sdo` is the model's record of the bytes SDO carried during the last
released frame (log 12). -/
structure Link where
  isOpen : Bool
  ignoring : Bool
  summary : Byte
  captured : Option Captured
  sdo : List Byte
  deriving DecidableEq, Repr

/-- A link with no frame open. -/
def Link.closed : Link := { isOpen := false, ignoring := false, summary := 0, captured := none, sdo := [] }

/-- A Port Unit (R152, R138, R168, R178, R183). -/
structure PortUnit where
  ring : List Request
  tags : List Byte
  queue : List Completion
  credits : Nat
  hold : Bool
  slots : Vector Slot 4
  pending : CauseSet
  enable : CauseSet
  watermark : Nat
  armed : Bool
  last : Result
  link : Link
  deriving DecidableEq, Repr

/-- The device-reset values of a Port Unit (R138, R152, R168, R183). -/
def PortUnit.reset : PortUnit :=
  { ring := [], tags := [], queue := [], credits := 0, hold := false, slots := Vector.replicate 4 Slot.freed,
    pending := .empty, enable := .default, watermark := 1, armed := false, last := .ok, link := .closed }

/-! ### Work lists and frames (R61, R62, R82) -/

/-- The states of a work item (R63). -/
inductive ItemState where
  | queued
  | active
  | ownerBusy
  | ownerSuspended
  deriving DecidableEq, Repr

/-- The drop reasons of an ERASE (R62). -/
inductive DropReason where
  | none
  | cancelled
  | revoked
  deriving DecidableEq, Repr

/-- A work item (R62). `uid` is the model's form of a reference to the item (log 10). -/
structure Item where
  uid : Nat
  port : Port
  tag : Byte
  kind : Kind
  urgent : Bool
  target : Target
  address : Nat
  length : Nat
  unitsRequested : Nat
  unitsDone : Nat
  drop : DropReason
  slot : Option SlotIx
  region : EntryIx
  generation : BitVec 16
  bytesMoved : Nat
  headBytes : List Byte
  suspendCount : Nat
  cancelSeen : Bool
  orphan : Bool
  state : ItemState
  deriving DecidableEq, Repr

/-- Bus modes (R79). -/
inductive BusMode where
  | run
  | halt
  | float
  deriving DecidableEq, Repr

/-- The kinds of downstream frame (R82). -/
inductive FrameKind where
  | read
  | programPair
  | erasePair
  | status
  | poll
  | suspend
  | resume
  | reset
  deriving DecidableEq, Repr

/-- The direction of a data phase (R82). -/
inductive Direction where
  | none
  | input
  | output
  deriving DecidableEq, Repr

/-- The position in a frame pair (R82). -/
inductive PairPosition where
  | first
  | second
  deriving DecidableEq, Repr

/-- The phase of the frame in flight (R82), with the deselect interval of R83 that precedes the assertion. -/
inductive Phase where
  | deselect
  | setup
  | byte
  | pause
  | hold
  deriving DecidableEq, Repr

/-- The progress of the current frame (R82): the phase, the bytes fully shifted, and the clock periods spent in the phase. -/
structure Progress where
  phase : Phase
  bytes : Nat
  spent : Nat
  deriving DecidableEq, Repr

/-- The framing fields that a frame record copies from the profile (R82). -/
structure Framing where
  divider : BitVec 6
  csSetup : BitVec 3
  csHold : BitVec 3
  gapLength : BitVec 4
  gapMode : GapMode
  bitOrder : BitOrder
  deriving DecidableEq, Repr

/-- The record of the frame or frame pair in flight (R82). For a pair, `writeEnable` is the header of its first frame and
`header` that of its second. `address` is the physical address the frame carries (for an ERASE PAIR the unit address, R88).
`earlyEnd` holds, once requested, how many bytes of the frame are shifted in all (R92). -/
structure FrameRecord where
  kind : FrameKind
  target : Target
  item : Option Nat
  framing : Framing
  writeEnable : List Byte
  header : List Byte
  address : Nat
  direction : Direction
  count : Nat
  pair : Option PairPosition
  progress : Progress
  earlyEnd : Option Nat
  overtaken : Bool
  deriving DecidableEq, Repr

/-- A cancel claim names its item. `behind` counts the bus reset claims of the bus that were issued before it and are not yet
taken: the authority's cancel claims come before its later bus reset claims only (R160). -/
structure CancelClaim where
  port : Port
  item : Nat
  behind : Nat
  deriving DecidableEq, Repr

/-- A revocation claim carries the revoked indices and the new generation (R14). -/
structure Revocation where
  indices : List EntryIx
  generation : BitVec 16
  deriving DecidableEq, Repr

/-- A Bus Engine (R61), with the claims issued to it and not yet taken (R66). -/
structure BusEngine where
  list : List Item
  mode : BusMode
  frame : Option FrameRecord
  portPtr : Port
  pollPtr : Fin 4
  sinceRelease : Nat
  cancels : List CancelClaim
  revocations : List Revocation
  resets : Nat
  deriving DecidableEq, Repr

/-- The device-reset values of a Bus Engine (R61). -/
def BusEngine.reset : BusEngine :=
  { list := [], mode := .run, frame := none, portPtr := 0, pollPtr := 0, sinceRelease := 0, cancels := [],
    revocations := [], resets := 0 }

/-! ### The Admission Unit (R42) -/

/-- What an admission under way has come to: the insertion of R56 (the item's `uid` is given when the Bus Engine takes it) or
the refusal of R59. -/
inductive Decision where
  | insert (item : Item)
  | refuse (slot : Option SlotIx) (record : Completion)
  deriving DecidableEq, Repr

/-- An admission under way, from its lookup to its end (R4, R41). `target` is the target whose record it has read (R48);
absent for NOREGION. -/
structure Admitting where
  port : Port
  target : Option Target
  decision : Decision
  deriving DecidableEq, Repr

/-- The Admission Unit (R42). -/
structure AdmissionUnit where
  current : Option Admitting
  pointer : Port
  blocked : Vector (Option Bus) 4
  deriving DecidableEq, Repr

/-- The device-reset values of the Admission Unit (R42). -/
def AdmissionUnit.reset : AdmissionUnit := { current := none, pointer := 3, blocked := Vector.replicate 4 none }

/-! ### The whole block -/

/-- A limit whose expiry faults a target (R112). -/
inductive Limit where
  | program
  | busyTime
  | latency
  deriving DecidableEq, Repr

/-- An event that waits for the end of the admission under way (R33, R41, R52, R165). -/
inductive Waiting where
  /-- A frame of a port, or a later frame event of a port one of whose frames waits. -/
  | frame (i : Instr)
  /-- A CANCEL that named the head under admission. -/
  | cancelHead (p : Port) (tag : Byte)
  /-- A limit expiry. -/
  | expiry (t : Target) (limit : Limit)
  /-- A target reset claim. -/
  | targetReset (t : Target)
  /-- A bus reset claim. -/
  | busReset (b : Bus)
  deriving DecidableEq, Repr

/-- The state of the block. `pending` is the queue of waiting commands, first in, first out. -/
structure State where
  ports : Vector PortUnit 4
  policy : PolicyUnit
  admission : AdmissionUnit
  targets : Vector TargetRecord 8
  buses : Vector BusEngine 2
  resetClaims : List Target
  waiting : List Waiting
  resetLow : Bool
  authority : Port
  nextUid : Nat
  pending : List Instr
  deriving DecidableEq, Repr

/-- The device-reset values of the Policy Unit (R2). -/
def PolicyUnit.reset : PolicyUnit :=
  { staged := Vector.replicate 32 .empty, active := Vector.replicate 32 .empty, generation := 0, failure := none,
    applies := 0, edits := [] }

/-- The block right after device reset, RESET# released (R2, R35, R42, R61, R138, R152, R168, R183). DESIGN CHOICE (log 1),
unsafe: the authority port, which the spec fixes only by sampling AUTH. -/
def State.reset : State :=
  { ports := Vector.replicate 4 .reset, policy := .reset, admission := .reset, targets := Vector.replicate 8 .absent,
    buses := Vector.replicate 2 .reset, resetClaims := [], waiting := [], resetLow := false,
    authority := Config.resetAuthority, nextUid := 0, pending := [] }

/-- No command of this block ends in a fault: the type has no constructor (log 4). -/
inductive Fault where
  deriving DecidableEq, Repr

/-- The refusals. -/
inductive Refusal where
  /-- A command that has no meaning in this model. No arm of `exec` answers it: every row has its meaning. Safe. -/
  | notModelled (mnemonic : String)
  deriving DecidableEq, Repr

end Sys2Proof.Machine
end

