-- ==== Sys2Proof/Machine/Operands.lean ====
section
/-! DEFINITION. Reading the fields of upstream frames and laying out replies (R185 to R191). In every parser byte 0 is the
byte after the frame code; multi-byte fields come most significant byte first (section 11.7). -/

namespace Sys2Proof.Machine

/-- Byte `i` of a list, 0x00 beyond its end. -/
def byteAt (bytes : List Byte) (i : Nat) : Byte := bytes.getD i 0

/-- Two bytes from position `i`, most significant first. -/
def word16At (bytes : List Byte) (i : Nat) : BitVec 16 := byteAt bytes i ++ byteAt bytes (i + 1)

/-- Three bytes from position `i`, most significant first. -/
def word24At (bytes : List Byte) (i : Nat) : BitVec 24 := word16At bytes i ++ byteAt bytes (i + 2)

/-- Four bytes from position `i`, most significant first. -/
def word32At (bytes : List Byte) (i : Nat) : BitVec 32 := word16At bytes i ++ word16At bytes (i + 2)

/-- The two bytes of a 16-bit field, most significant first. -/
def bytes16 (w : BitVec 16) : List Byte := [w.extractLsb' 8 8, w.extractLsb' 0 8]

/-- The three bytes of a 20-bit page field; the top four bits read 0 (R188). -/
def bytes20 (w : BitVec 20) : List Byte := [(w.extractLsb' 16 4).setWidth 8, w.extractLsb' 8 8, w.extractLsb' 0 8]

/-- The three bytes of a 24-bit field. -/
def bytes24 (w : BitVec 24) : List Byte := [w.extractLsb' 16 8, w.extractLsb' 8 8, w.extractLsb' 0 8]

/-- The four bytes of a 32-bit field. -/
def bytes32 (w : BitVec 32) : List Byte :=
  [w.extractLsb' 24 8, w.extractLsb' 16 8, w.extractLsb' 8 8, w.extractLsb' 0 8]

/-- A flag as a bit at position `i` of a byte. -/
def flagBit (flag : Bool) (i : Nat) : Byte := if flag then (1 : Byte) <<< i else 0

/-- A number below `n` read from a byte, or none. -/
def below (n : Nat) (b : Byte) : Option (Fin n) := if h : b.toNat < n then some ⟨b.toNat, h⟩ else none

/-! ### SUBMIT (R186, R153 check 3) -/

/-- The kind codes of R186. -/
def Kind.ofCode (c : BitVec 3) : Option Kind :=
  match c.toNat with
  | 0 => some .read
  | 1 => some .program
  | 2 => some .erase
  | 3 => some .status
  | _ => none

/-- The kind codes of R186, R187 and R190. -/
def Kind.code : Kind → Byte
  | .read => 0
  | .program => 1
  | .erase => 2
  | .status => 3

/-- The slot codes of R186: 0 to 3 a slot, 7 absent, 4 to 6 nothing. -/
def slotOfCode (c : BitVec 3) : Option (Option SlotIx) :=
  if h : c.toNat < 4 then some (some ⟨c.toNat, h⟩) else if c.toNat = 7 then some none else none

/-- The combinations of kind, length and slot that SUBMIT accepts (R38, R153 check 3). -/
def Request.shapeOk (kind : Kind) (slot : Option SlotIx) (length : Nat) : Bool :=
  match kind with
  | .read => 1 ≤ length && length ≤ 256 && (slot.isSome || length ≤ 4)
  | .program => 1 ≤ length && length ≤ 256 && slot.isSome
  | .erase => 1 ≤ length && length ≤ 16 && slot.isNone
  | .status => length == 0 && slot.isNone

/-- The descriptor of a SUBMIT frame (R186), or none for a BADFIELD of R153 check 3. -/
def Request.ofBytes (bytes : List Byte) : Option Request :=
  let flags := byteAt bytes 1
  let length := word16At bytes 6
  match Kind.ofCode (flags.extractLsb' 0 3), slotOfCode (flags.extractLsb' 5 3) with
  | some kind, some slot =>
    if Request.shapeOk kind slot length.toNat then
      some { tag := byteAt bytes 0, kind, urgent := flags.getLsbD 3, fence := flags.getLsbD 4, slot,
             address := word32At bytes 2, length }
    else none
  | _, _ => none

/-- The slot code of R186. -/
def slotCode : Option SlotIx → Byte
  | some k => BitVec.ofNat 8 k.val
  | none => 7

/-- The eight bytes of a SUBMIT frame after its code (R186). -/
def Request.toBytes (r : Request) : List Byte :=
  [r.tag, r.kind.code ||| flagBit r.urgent 3 ||| flagBit r.fence 4 ||| (slotCode r.slot <<< 5)] ++
    bytes32 r.address ++ bytes16 r.length

/-! ### Region entries (R188) -/

/-- The 12 bytes of a region entry from position `i`. -/
def RegionEntry.ofBytes (bytes : List Byte) (i : Nat) : RegionEntry :=
  { valid := (byteAt bytes i).getLsbD 7
    mode := if (byteAt bytes i).getLsbD 6 then .strict else .polite
    ports := (byteAt bytes i).extractLsb' 0 4
    rights := (byteAt bytes (i + 1)).extractLsb' 0 5
    target := (byteAt bytes (i + 2)).extractLsb' 0 4
    base := (word24At bytes (i + 3)).extractLsb' 0 20
    size := (word24At bytes (i + 6)).extractLsb' 0 20
    offset := (word24At bytes (i + 9)).extractLsb' 0 20 }

/-- The 12 bytes of a region entry; bits that the layout does not assign read 0. -/
def RegionEntry.toBytes (e : RegionEntry) : List Byte :=
  [flagBit e.valid 7 ||| flagBit (decide (e.mode = .strict)) 6 ||| e.ports.setWidth 8, e.rights.setWidth 8,
    e.target.setWidth 8] ++ bytes20 e.base ++ bytes20 e.size ++ bytes20 e.offset

/-! ### Profiles (R189, R27) -/

/-- The gap-mode codes of R189. -/
def GapMode.ofCode (c : BitVec 2) : Option GapMode :=
  match c.toNat with
  | 0 => some .none
  | 1 => some .everyByte
  | 2 => some .afterHeader
  | _ => Option.none

/-- The gap-mode codes of R189. -/
def GapMode.code : GapMode → Byte
  | .none => 0
  | .everyByte => 1
  | .afterHeader => 2

/-- The erase-unit codes of R189. -/
def EraseUnit.ofCode (c : BitVec 2) : Option EraseUnit :=
  match c.toNat with
  | 0 => some .kib4
  | 1 => some .kib32
  | 2 => some .kib64
  | _ => none

/-- The erase-unit codes of R189 and R190. -/
def EraseUnit.code : EraseUnit → Byte
  | .kib4 => 0
  | .kib32 => 1
  | .kib64 => 2

/-- The size of an erase unit in bytes (R23). -/
def EraseUnit.bytes : EraseUnit → Nat
  | .kib4 => 4096
  | .kib32 => 32768
  | .kib64 => 65536

/-- The capacity in bytes (R23, R189). -/
def Profile.capacity (pr : Profile) : Nat := 2 ^ pr.capacityCode.val * 1048576

/-- The page size in bytes (R23, R189). -/
def Profile.pageSize (pr : Profile) : Nat := 64 * 2 ^ pr.pageCode.toNat

/-- The conditions of R27 on a profile whose codes all name listed values: the time parameters within R26, and items 2 to 5.
The capacity exceeds 16 MiB when its code is above 4. -/
def Profile.valid (pr : Profile) : Bool :=
  8 ≤ pr.tPI.toNat && pr.tPI.toNat ≤ 4095 && 1 ≤ pr.tPL.toNat && 1 ≤ pr.tEL.toNat && pr.tEL.toNat ≤ 16383 &&
    1 ≤ pr.tSL.toNat && pr.tSL.toNat ≤ 1023 && 1 ≤ pr.tSX.toNat && 1 ≤ pr.tRR.toNat &&
    (pr.capacityCode.val ≤ 4 || decide (pr.addressWidth = .four)) && pr.busyMask != 0 &&
    (pr.nsus == 0 || (pr.suspendedMask != 0 && pr.suspendedMask &&& pr.busyMask == 0))

/-- The profile in the 31 bytes from position `i` (R189), or none where R27 finds it invalid. -/
def Profile.ofBytes (bytes : List Byte) (i : Nat) : Option Profile :=
  let f := fun k => byteAt bytes (i + k)
  match GapMode.ofCode ((f 2).extractLsb' 4 2), EraseUnit.ofCode ((f 4).extractLsb' 4 2),
      below 9 ((f 3).extractLsb' 4 4 |>.setWidth 8), below 3 ((f 4).extractLsb' 6 2 |>.setWidth 8) with
  | some gapMode, some eraseUnit, some capacityCode, some resetLength =>
    let pr : Profile :=
      { divider := (f 0).extractLsb' 0 6
        csSetup := (f 1).extractLsb' 0 3
        csHold := (f 1).extractLsb' 4 3
        gapLength := (f 2).extractLsb' 0 4
        gapMode
        bitOrder := if (f 2).getLsbD 6 then .lsbFirst else .msbFirst
        addressWidth := if (f 2).getLsbD 7 then .four else .three
        dummyBytes := (f 3).extractLsb' 0 4
        capacityCode
        pageCode := (f 4).extractLsb' 0 2
        eraseUnit
        resetLength
        readOpcode := f 5
        writeEnableOpcode := f 6
        programOpcode := f 7
        eraseOpcode := f 8
        statusOpcode := f 9
        suspendOpcode := f 10
        resumeOpcode := f 11
        resetOpcode1 := f 12
        resetOpcode2 := f 13
        busyMask := f 14
        failMask := f 15
        suspendedMask := f 16
        tPI := word16At bytes (i + 17)
        tPL := word16At bytes (i + 19)
        tEL := word16At bytes (i + 21)
        tSH := word16At bytes (i + 23)
        tSL := word16At bytes (i + 25)
        tSX := f 27
        nsus := (f 28).extractLsb' 0 4
        tRR := word16At bytes (i + 29) }
    if (f 0).toNat ≤ 63 && (f 28).toNat ≤ 15 && pr.valid then some pr else none
  | _, _, _, _ => none

/-- The 31 bytes of a profile (R189); bits that the layout does not assign read 0. -/
def Profile.toBytes (pr : Profile) : List Byte :=
  [pr.divider.setWidth 8,
    pr.csSetup.setWidth 8 ||| (pr.csHold.setWidth 8 <<< 4),
    pr.gapLength.setWidth 8 ||| (pr.gapMode.code <<< 4) ||| flagBit (decide (pr.bitOrder = .lsbFirst)) 6 |||
      flagBit (decide (pr.addressWidth = .four)) 7,
    pr.dummyBytes.setWidth 8 ||| (BitVec.ofNat 8 pr.capacityCode.val <<< 4),
    pr.pageCode.setWidth 8 ||| (pr.eraseUnit.code <<< 4) ||| (BitVec.ofNat 8 pr.resetLength.val <<< 6),
    pr.readOpcode, pr.writeEnableOpcode, pr.programOpcode, pr.eraseOpcode, pr.statusOpcode, pr.suspendOpcode,
    pr.resumeOpcode, pr.resetOpcode1, pr.resetOpcode2, pr.busyMask, pr.failMask, pr.suspendedMask] ++
    bytes16 pr.tPI ++ bytes16 pr.tPL ++ bytes16 pr.tEL ++ bytes16 pr.tSH ++ bytes16 pr.tSL ++
    [pr.tSX, pr.nsus.setWidth 8] ++ bytes16 pr.tRR

/-! ### Causes and modes (R185) -/

/-- The enable set of CAUSE ENABLE, or none when bits 7 to 5 are not all 0 (R175, R185). -/
def CauseSet.ofByte (b : Byte) : Option CauseSet :=
  if b.extractLsb' 5 3 = 0 then
    some { fault := b.getLsbD 0, error := b.getLsbD 1, complete := b.getLsbD 2, space := b.getLsbD 3,
           policy := b.getLsbD 4 }
  else none

/-- A cause set as H4 and H5 show it (R191). -/
def CauseSet.toByte (c : CauseSet) : Byte :=
  flagBit c.fault 0 ||| flagBit c.error 1 ||| flagBit c.complete 2 ||| flagBit c.space 3 ||| flagBit c.policy 4

/-- The cause codes of the CAUSE reply (R185). -/
def causeCode : Option Cause → Byte
  | none => 0
  | some .fault => 1
  | some .error => 2
  | some .complete => 3
  | some .space => 4
  | some .policy => 5

/-- The mode codes of BUS MODE (R185). -/
def BusMode.ofByte (b : Byte) : Option BusMode :=
  match b.toNat with
  | 0 => some .run
  | 1 => some .halt
  | 2 => some .float
  | _ => none

/-- The result codes of R183. -/
def Result.code : Result → BitVec 4
  | .ok => 0
  | .full => 1
  | .dupTag => 2
  | .slotState => 3
  | .badField => 4
  | .unknownTag => 5
  | .notAuth => 6
  | .framing => 7
  | .badCode => 8
  | .notNow => 9
  | .applyFail => 10

/-! ### Completion records (R187) -/

/-- The outcome codes of R187. -/
def Ending.code : Ending → Byte
  | .done => 0
  | .refused => 1
  | .failed => 2
  | .cancelled => 3
  | .truncated => 4

/-- The reason codes of R187. -/
def Reason.code : Reason → Byte
  | .none => 0
  | .noRegion => 1
  | .span => 2
  | .rights => 3
  | .outside => 4
  | .page => 5
  | .align => 6
  | .targetDown => 7
  | .revoked => 8
  | .timeout => 9
  | .devFail => 10
  | .aborted => 11
  | .cancelled => 12

/-- Bytes 3 and 4 of a record: bytes moved, units done, or 0xFFFF for STATUS (R187). -/
def Completion.amount (c : Completion) : BitVec 16 :=
  match c.kind with
  | .read | .program => BitVec.ofNat 16 c.bytesMoved
  | .erase => BitVec.ofNat 16 c.unitsDone
  | .status => 0xFFFF

/-- Byte 5 of a record: the head byte count, or 0xFF for PROGRAM and ERASE (R187). -/
def Completion.headCount (c : Completion) : Byte :=
  match c.kind with
  | .read | .status => BitVec.ofNat 8 c.headBytes.length
  | .program | .erase => 0xFF

/-- Bytes 6 to 9 of a record (R187). -/
def Completion.headField (c : Completion) : List Byte :=
  match c.kind with
  | .read | .status => [byteAt c.headBytes 0, byteAt c.headBytes 1, byteAt c.headBytes 2, byteAt c.headBytes 3]
  | .program | .erase => [0, 0, 0, 0]

/-- The 15 bytes of a completion record (R187). -/
def Completion.toBytes (c : Completion) : List Byte :=
  [flagBit true 7 ||| flagBit c.cancelSeen 6 ||| (c.outcome.code <<< 3) ||| c.kind.code, c.tag, c.reason.code] ++
    bytes16 c.amount ++ [c.headCount] ++ c.headField ++
    [match c.region with
      | some i => flagBit true 7 ||| BitVec.ofNat 8 i.val
      | none => 0,
      (match c.target with
        | some t => flagBit true 7 ||| BitVec.ofNat 8 t.val
        | none => 0) ||| flagBit c.generation.isSome 6] ++
    bytes16 (c.generation.getD 0) ++
    [match c.kind with
      | .erase => BitVec.ofNat 8 c.suspendTotal
      | .read | .program | .status => 0xFF]

/-- The COLLECT reply: the record, or the empty marker of 15 zero bytes (R187). -/
def collectReply : Option Completion → List Byte
  | some c => c.toBytes
  | none => List.replicate 15 0

end Sys2Proof.Machine
end

