-- ==== Sys2Proof/Machine/Flags.lean ====
section
/-! DEFINITION. The conditions the block computes: the judgement of a status byte (R25, R101), the cause set and ATTN# (R169
to R173), and the summary byte (R179). -/

namespace Sys2Proof.Machine

/-! ### Status bytes (R25, R101) -/

/-- The judgement of a status byte: busy, or busy clear with failed and suspended weighed (R101). -/
inductive Judgement where
  | busy
  | clear (failed suspended : Bool)
  deriving DecidableEq, Repr

/-- A status byte under a profile's masks: a busy bit governs, and only a busy-clear byte is weighed further (R25, R101). -/
def Profile.judge (pr : Profile) (status : Byte) : Judgement :=
  if status &&& pr.busyMask = 0 then .clear (status &&& pr.failMask != 0) (status &&& pr.suspendedMask != 0) else .busy

/-! ### Cause sets (R168, R169) -/

/-- A cause is in a set. -/
def CauseSet.has (c : CauseSet) : Cause → Bool
  | .fault => c.fault
  | .error => c.error
  | .complete => c.complete
  | .space => c.space
  | .policy => c.policy

/-- A set with a cause put in or taken out. -/
def CauseSet.put (c : CauseSet) (x : Cause) (on : Bool) : CauseSet :=
  match x with
  | .fault => { c with fault := on }
  | .error => { c with error := on }
  | .complete => { c with complete := on }
  | .space => { c with space := on }
  | .policy => { c with policy := on }

/-- The causes in priority order (section 10.1). -/
def Cause.byPriority : List Cause := [.fault, .error, .complete, .space, .policy]

/-- The highest-priority cause that is pending and enabled (R176). -/
def PortUnit.topCause (u : PortUnit) : Option Cause :=
  Cause.byPriority.find? (fun c => u.pending.has c && u.enable.has c)

/-- A pending cause is enabled (R169). -/
def PortUnit.attentionPending (u : PortUnit) : Bool := u.topCause.isSome

/-! ### Judging the causes -/

/-- The ERROR condition: a record in the queue is not DONE (R171). -/
def PortUnit.errorHolds (u : PortUnit) : Bool := u.queue.any (fun r => decide (r.outcome ≠ .done))

/-- The COMPLETE condition: the queue holds at least watermark records (R172). -/
def PortUnit.completeHolds (u : PortUnit) : Bool := decide (u.watermark ≤ u.queue.length)

/-- ERROR and COMPLETE judged again (R171, R172). -/
def PortUnit.judge (u : PortUnit) : PortUnit :=
  { u with pending := { u.pending with error := u.errorHolds, complete := u.completeHolds } }

/-- The capture of a CAUSE frame that reported `c` learns that `c` was raised after it (R176). -/
def Captured.mark (x : Captured) (c : Cause) : Captured :=
  match x with
  | .cause (some r) again => .cause (some r) (again || decide (r = c))
  | other => other

/-- A raise of a report-cleared cause: it becomes pending, whatever the enable set (R169, R170, R174). -/
def PortUnit.raise (u : PortUnit) (c : Cause) : PortUnit :=
  { u with pending := u.pending.put c true, link := { u.link with captured := u.link.captured.map (·.mark c) } }

/-- At least 2 free ring entries and 2 free credits (R173). -/
def PortUnit.spaceHolds (u : PortUnit) : Bool :=
  decide (u.ring.length + 2 ≤ Config.ringSize) && decide (u.credits + 2 ≤ Config.credits)

/-- SPACE judged after a rise in free ring entries or credits: only while armed, and then the flag is cleared (R173). -/
def PortUnit.judgeSpace (u : PortUnit) : PortUnit :=
  if u.armed && u.spaceHolds then { u.raise .space with armed := false } else u

/-- A FULL refusal: SPACE is armed and leaves the pending set (R173). -/
def PortUnit.arm (u : PortUnit) : PortUnit := { u with armed := true, pending := u.pending.put .space false }

/-! ### The summary byte (R179) -/

/-- A SUBMIT would find a ring entry and a credit free (R179 bit 5, R153 check 1). -/
def PortUnit.submitRoom (u : PortUnit) : Bool :=
  decide (u.ring.length < Config.ringSize) && decide (u.credits < Config.credits)

/-- The summary byte of a port (R179). -/
def PortUnit.summaryByte (u : PortUnit) : Byte :=
  flagBit u.attentionPending 7 ||| flagBit (!u.queue.isEmpty) 6 ||| flagBit u.submitRoom 5 ||| flagBit u.hold 4 |||
    u.last.code.setWidth 8

end Sys2Proof.Machine
end

