-- ==== Sys2Proof/Machine/Ops.lean ====
section
/-! DEFINITION. The named operations over the state: slot contents, slots, ports, timers, targets, frame progress, work lists,
completions, target faults and resets, and time. -/

namespace Sys2Proof.Machine

/-! ### Reading and replacing one of a fixed number of like things -/

/-- Element `i`. -/
def pick {α : Type} {n : Nat} (v : Vector α n) (i : Fin n) : α := v[i.val]

/-- The vector with element `i` replaced. -/
def put {α : Type} {n : Nat} (v : Vector α n) (i : Fin n) (x : α) : Vector α n := v.set i.val x

/-- Port Unit `p`. -/
def State.port (s : State) (p : Port) : PortUnit := pick s.ports p

/-- Port Unit `p` replaced. -/
def State.setPort (s : State) (p : Port) (u : PortUnit) : State := { s with ports := put s.ports p u }

/-- Port Unit `p` changed. -/
def State.modPort (s : State) (p : Port) (f : PortUnit → PortUnit) : State := s.setPort p (f (s.port p))

/-- Target record `t`. -/
def State.target (s : State) (t : Target) : TargetRecord := pick s.targets t

/-- Target record `t` replaced. -/
def State.setTarget (s : State) (t : Target) (r : TargetRecord) : State := { s with targets := put s.targets t r }

/-- Target record `t` changed. -/
def State.modTarget (s : State) (t : Target) (f : TargetRecord → TargetRecord) : State := s.setTarget t (f (s.target t))

/-- Bus Engine `b`. -/
def State.bus (s : State) (b : Bus) : BusEngine := pick s.buses b

/-- Bus Engine `b` replaced. -/
def State.setBus (s : State) (b : Bus) (e : BusEngine) : State := { s with buses := put s.buses b e }

/-- Bus Engine `b` changed. -/
def State.modBus (s : State) (b : Bus) (f : BusEngine → BusEngine) : State := s.setBus b (f (s.bus b))

/-- The ports in number order. -/
def allPorts : List Port := [0, 1, 2, 3]

/-- The bus of a target: T0 to T3 on B0, T4 to T7 on B1 (R21). -/
def busOf (t : Target) : Bus := if t.val < 4 then 0 else 1

/-- The chip select of a target on its bus (R21). -/
def chipSelectOf (t : Target) : Fin 4 := ⟨t.val % 4, Nat.mod_lt _ (by decide)⟩

/-- The target behind chip select `c` of bus `b` (R21). -/
def targetOf (b : Bus) (c : Fin 4) : Target := ⟨4 * b.val + c.val, by omega⟩

/-- The targets of a bus in number order (R21). -/
def targetsOf (b : Bus) : List Target := [targetOf b 0, targetOf b 1, targetOf b 2, targetOf b 3]

/-! ### Slot contents (R138) -/

/-- The byte at an offset; an unlisted offset reads 0x00 (R138). -/
def Memory.read : Memory → Nat → Byte
  | [], _ => 0
  | (a, v) :: rest, x => if a = x then v else Memory.read rest x

/-- A cell put into a list in canonical form; the value 0x00 removes the cell. -/
def Memory.insert : Memory → Nat → Byte → Memory
  | [], x, w => if w = 0 then [] else [(x, w)]
  | (a, v) :: rest, x, w =>
    if x < a then (if w = 0 then (a, v) :: rest else (x, w) :: (a, v) :: rest)
    else if x = a then (if w = 0 then rest else (x, w) :: rest)
    else (a, v) :: Memory.insert rest x w

/-- A byte written at an offset of a slot, 0 to 255 (R138). -/
def Memory.write (m : Memory) (x : Nat) (w : Byte) : Memory := if x < Config.slotBytes then m.insert x w else m

/-- Bytes written one after another from an offset (R140). -/
def Memory.writeAll : Memory → Nat → List Byte → Memory
  | m, _, [] => m
  | m, x, w :: ws => Memory.writeAll (m.write x w) (x + 1) ws

/-- Every byte from offset `n` up made 0x00 (R147). -/
def Memory.truncate (m : Memory) (n : Nat) : Memory := m.filter (fun c => decide (c.1 < n))

/-- The bytes from offset `x` to 255, a byte at or above `valid` as 0x00 (R141). -/
def Memory.bytesFrom (m : Memory) (x valid : Nat) : List Byte :=
  (List.range (Config.slotBytes - x)).map (fun k => if x + k < valid then m.read (x + k) else 0)

/-- The canonical form above a bound: offsets rising from `lo`, below 256, and no cell equal to what an unlisted offset reads
as. -/
def Memory.wfFrom : Nat → Memory → Bool
  | _, [] => true
  | lo, (a, v) :: rest => decide (lo ≤ a) && decide (a < Config.slotBytes) && v != 0 && Memory.wfFrom (a + 1) rest

/-- The canonical form of slot contents. -/
def Memory.wf (m : Memory) : Bool := Memory.wfFrom 0 m

/-! ### Slots (R139 to R149) -/

/-- A slot's state as a return state (R143). -/
def SlotState.asReturn : SlotState → ReturnState
  | .held => .held
  | .free | .committed => .free

/-- A return state as a slot state (R146, R147). -/
def ReturnState.asState : ReturnState → SlotState
  | .free => .free
  | .held => .held

/-- The commitment of a slot (R143). -/
def Slot.commit (k : Slot) : Slot := { k with state := .committed, ret := some k.state.asReturn }

/-- The slot back in its return state, contents and valid length as committed (R147). -/
def Slot.restore (k : Slot) : Slot := { k with state := (k.ret.getD .free).asState, ret := none }

/-- The slot of a READ that moved `n` bytes, `n` greater than 0 (R147). -/
def Slot.filled (k : Slot) (n : Nat) : Slot := { state := .held, data := k.data.truncate n, valid := n, ret := none }

/-- The return of a slot, by kind, outcome and bytes moved (R146, R147). -/
def Slot.giveBack (k : Slot) (kind : Kind) (outcome : Ending) (moved : Nat) : Slot :=
  match kind with
  | .program => if outcome = .done then .freed else { k with state := .held, ret := none }
  | .read | .erase | .status => if 0 < moved then k.filled moved else k.restore

/-- A slot accepts a SUBMIT of this kind and length (R139, R143). -/
def Slot.accepts (k : Slot) (kind : Kind) (length : Nat) : Bool :=
  match k.state, kind with
  | .committed, _ => false
  | .free, .program => false
  | .held, .program => decide (length ≤ k.valid)
  | .free, _ | .held, _ => true

/-- Slot `k` of a port changed. -/
def PortUnit.modSlot (u : PortUnit) (k : SlotIx) (f : Slot → Slot) : PortUnit :=
  { u with slots := put u.slots k (f (pick u.slots k)) }

/-- The slot that a request may name, changed; a request without a slot changes none. -/
def PortUnit.modSlot? (u : PortUnit) (k : Option SlotIx) (f : Slot → Slot) : PortUnit :=
  match k with
  | some i => u.modSlot i f
  | none => u

/-! ### Postings and orphans (R145, R158, R166) -/

/-- A record is posted: its slot returned and the causes judged again, all in one event (R145, R158). -/
def PortUnit.post (u : PortUnit) (slot : Option SlotIx) (r : Completion) : PortUnit :=
  let v := u.modSlot? slot (fun k => k.giveBack r.kind r.outcome r.bytesMoved)
  PortUnit.judge { v with queue := v.queue ++ [r] }

/-- An orphan has left its list: its completion is discarded, its slot freed, a credit freed, SPACE judged (R148, R166). -/
def PortUnit.dropOrphan (u : PortUnit) (slot : Option SlotIx) : PortUnit :=
  let v := u.modSlot? slot (fun _ => .freed)
  PortUnit.judgeSpace { v with credits := v.credits - 1 }

/-! ### Work lists (R62 to R66) -/

/-- The item that a reference designates. -/
def BusEngine.find (e : BusEngine) (uid : Nat) : Option Item := e.list.find? (fun it => it.uid == uid)

/-- The item that a reference designates, changed. -/
def BusEngine.modItem (e : BusEngine) (uid : Nat) (f : Item → Item) : BusEngine :=
  { e with list := e.list.map (fun it => if it.uid = uid then f it else it) }

/-- The list without the item that a reference designates; the others keep their order (R64). -/
def BusEngine.remove (e : BusEngine) (uid : Nat) : BusEngine :=
  { e with list := e.list.filter (fun it => it.uid != uid) }

/-- Some item names the target, whatever its state (R67). -/
def BusEngine.names (e : BusEngine) (t : Target) : Bool := e.list.any (fun it => decide (it.target = t))

/-- The number of non-orphan items of a port (R67). -/
def BusEngine.countOf (e : BusEngine) (p : Port) : Nat := (e.list.filter (fun it => decide (it.port = p) && !it.orphan)).length

/-- Every head found blocked by the full list of `b` is released (R46). -/
def State.releaseBlocked (s : State) (b : Bus) : State :=
  let free := fun (x : Option Bus) => if x = some b then none else x
  let v := s.admission.blocked
  { s with admission := { s.admission with
      blocked := #v[free (pick v 0), free (pick v 1), free (pick v 2), free (pick v 3)] } }

/-- An item leaves its list (R46, R64). -/
def State.leaveList (s : State) (b : Bus) (uid : Nat) : State := (s.modBus b (·.remove uid)).releaseBlocked b

/-- An item leaves its list and its record is posted, or discarded when the item is an orphan (R63, R145, R166). -/
def State.finish (s : State) (b : Bus) (it : Item) (r : Completion) : State :=
  (s.leaveList b it.uid).modPort it.port
    (fun u => if it.orphan then u.dropOrphan it.slot else u.post it.slot r)

/-- Several items leave the list, in list order, each with its own record (R66). -/
def State.finishAll (s : State) (b : Bus) (its : List Item) (record : Item → Completion) : State :=
  its.foldl (fun s it => s.finish b it (record it)) s

/-! ### Completion records of items (R15, R91, R98, R111, R113, R161) -/

/-- The record of an item as it stands: bytes moved, head bytes, units done and suspend total as counted (R91, R98). -/
def Item.record (it : Item) (outcome : Ending) (reason : Reason) : Completion :=
  { tag := it.tag, kind := it.kind, outcome, reason, bytesMoved := it.bytesMoved, unitsDone := it.unitsDone,
    headBytes := it.headBytes, region := some it.region, target := some it.target, generation := some it.generation,
    suspendTotal := it.suspendCount, cancelSeen := it.cancelSeen }

/-- The record of an item removed while QUEUED: no bytes moved and no head bytes (R15, R113, R161). -/
def Item.recordQueued (it : Item) (outcome : Ending) (reason : Reason) : Completion :=
  { it.record outcome reason with bytesMoved := 0, headBytes := [] }

/-- The record of an owner: a PROGRAM owner reports its full length, and no owner has head bytes (R111). -/
def Item.recordOwner (it : Item) (outcome : Ending) (reason : Reason) : Completion :=
  { it.record outcome reason with bytesMoved := if it.kind = .program then it.length else 0, headBytes := [] }

/-- A drop reason as the reason of a TRUNCATED record (R65). -/
def DropReason.asReason : DropReason → Reason
  | .none => .none
  | .cancelled => .cancelled
  | .revoked => .revoked

/-- The record of an ERASE whose last requested unit has ended well: DONE, or TRUNCATED with its drop reason (R65). -/
def Item.recordUnitsDone (it : Item) : Completion :=
  if it.drop = .none then it.recordOwner .done .none else it.recordOwner .truncated it.drop.asReason

/-- The address of the unit to be erased next (R62). -/
def Item.unitAddress (it : Item) (unit : EraseUnit) : Nat := it.address + it.unitsDone * unit.bytes

/-- An ERASE has units left after the one under way (R16, R162). -/
def Item.moreUnits (it : Item) : Bool := decide (it.kind = .erase) && decide (it.unitsDone + 1 < it.unitsRequested)

/-- The units after the one under way are dropped (R16, R162). -/
def Item.shed (it : Item) (why : DropReason) : Item :=
  { it with unitsRequested := it.unitsDone + 1, drop := if it.drop = .none then why else it.drop }

/-! ### Timers (R29) -/

/-- A timer started for a period: a period of 0 has elapsed at once (R29, R123). -/
def Timer.start (period : Nat) : Timer := if period = 0 then .expired else .running period 0

/-- `n` clock periods pass on a timer; it does not run past its period before its expiry is taken (log 11). -/
def Timer.elapse (x : Timer) (n : Nat) : Timer :=
  match x with
  | .running period elapsed => .running period (min period (elapsed + n))
  | .stopped => .stopped
  | .expired => .expired

/-- The time a running timer still has to run; none for a timer that is not running (R29). -/
def Timer.remaining : Timer → Option Nat
  | .running period elapsed => some (period - elapsed)
  | .stopped | .expired => none

/-- The periods of the timers (R26, R29). -/
def Profile.pollPeriod (pr : Profile) : Nat := pr.tPI.toNat * Config.ticksPerMicrosecond
/-- tPL in clock periods (R26). -/
def Profile.programPeriod (pr : Profile) : Nat := pr.tPL.toNat * Config.ticksPerMicrosecond
/-- tEL in clock periods (R108). -/
def Profile.eraseLimit (pr : Profile) : Nat := pr.tEL.toNat * Config.ticksPerMillisecond
/-- tSH in clock periods (R26). -/
def Profile.holdOffPeriod (pr : Profile) : Nat := pr.tSH.toNat * Config.ticksPerMicrosecond
/-- tSL in clock periods (R26). -/
def Profile.latencyPeriod (pr : Profile) : Nat := pr.tSL.toNat * Config.ticksPerMicrosecond
/-- tSX in clock periods (R26). -/
def Profile.heldPeriod (pr : Profile) : Nat := pr.tSX.toNat * Config.ticksPerMillisecond
/-- tRR in clock periods (R26). -/
def Profile.recoveryPeriod (pr : Profile) : Nat := pr.tRR.toNat * Config.ticksPerMicrosecond

/-! ### Target records (R28, R29) -/

/-- Every timer stopped (R29). -/
def TargetRecord.stopTimers (r : TargetRecord) : TargetRecord :=
  { r with poll := .stopped, program := .stopped, holdOff := .stopped, latency := .stopped, held := .stopped,
           recovery := .stopped }

/-- The entry to IDLE: no owner, no unit, counts 0, no pending reset, timers stopped (R28, R29). -/
def TargetRecord.toIdle (r : TargetRecord) : TargetRecord :=
  { r.stopTimers with state := .idle, owner := none, unit := none, suspendCount := 0, busyTime := 0, pendingReset := none }

/-- The entry to FAULTED: suspend count and busy time keep their values (R28, R112). -/
def TargetRecord.toFaulted (r : TargetRecord) : TargetRecord :=
  { r.stopTimers with state := .faulted, owner := none, unit := none, pendingReset := none }

/-- The entry to RESETTING, with the profile's full reset sequence to send; with none to send the recovery timer starts at
once (R116, R119). -/
def TargetRecord.toResetting (r : TargetRecord) : TargetRecord :=
  { r.stopTimers with
    state := .resetting, owner := none, unit := none, suspendCount := 0, busyTime := 0,
    pendingReset := some { toSend := r.profile.resetLength.val, recovering := decide (r.profile.resetLength.val = 0) },
    recovery := if r.profile.resetLength.val = 0 then .start r.profile.recoveryPeriod else .stopped }

/-- The busy time counts in this state (R28, R108). -/
def TargetRecord.counting (r : TargetRecord) : Bool := decide (r.state = .erasing) || decide (r.state = .suspending)

/-- `n` clock periods pass for a target (R29, R108). -/
def TargetRecord.elapse (n : Nat) (r : TargetRecord) : TargetRecord :=
  { r with poll := r.poll.elapse n, program := r.program.elapse n, holdOff := r.holdOff.elapse n,
           latency := r.latency.elapse n, held := r.held.elapse n, recovery := r.recovery.elapse n,
           busyTime := if r.counting then max r.busyTime (min r.profile.eraseLimit (r.busyTime + n)) else r.busyTime }

/-- A target is present (R21). -/
def TargetRecord.present (r : TargetRecord) : Bool := decide (r.state ≠ .absent)

/-- The state part of quietness: ABSENT, IDLE or FAULTED (R33). -/
def TargetRecord.atRest (r : TargetRecord) : Bool :=
  match r.state with
  | .absent | .idle | .faulted => true
  | .programming | .erasing | .suspending | .suspended | .resetting => false

/-- A target is quiet (R33). -/
def State.quiet (s : State) (t : Target) : Bool := (s.target t).atRest && !(s.bus (busOf t)).names t

/-! ### The frame in flight (R82 to R92) -/

/-- One half clock of a framing, in 5 ns clock periods (R22). -/
def Framing.halfClock (f : Framing) : Nat := f.divider.toNat + 1

/-- The header of the current frame of a record (R84). -/
def FrameRecord.currentHeader (r : FrameRecord) : List Byte :=
  if r.pair = some .first then r.writeEnable else r.header

/-- The data bytes of the current frame of a record (R84). -/
def FrameRecord.currentCount (r : FrameRecord) : Nat := if r.pair = some .first then 0 else r.count

/-- The bytes of the current frame (R84). -/
def FrameRecord.totalBytes (r : FrameRecord) : Nat := r.currentHeader.length + r.currentCount

/-- The bytes the current frame will shift: all of them, or as many as an early end leaves (R92). -/
def FrameRecord.limit (r : FrameRecord) : Nat := r.earlyEnd.getD r.totalBytes

/-- The data bytes the current frame will move (R92). -/
def FrameRecord.dataLimit (r : FrameRecord) : Nat := r.limit - r.currentHeader.length

/-- A pause stands after `n` shifted bytes (R85). -/
def FrameRecord.pauseAfter (r : FrameRecord) (n : Nat) : Bool :=
  r.framing.gapLength != 0 &&
    match r.framing.gapMode with
    | .none => false
    | .everyByte => true
    | .afterHeader => decide (n = r.currentHeader.length) && decide (0 < r.currentCount)

/-- The progress once `n` bytes have been fully shifted (R83, R85). -/
def FrameRecord.afterBytes (r : FrameRecord) (n : Nat) : Progress :=
  { phase := if r.limit ≤ n then .hold else if r.pauseAfter n then .pause else .byte, bytes := n, spent := 0 }

/-- The length of the present phase in clock periods (R22, R83). -/
def FrameRecord.phaseTicks (r : FrameRecord) : Nat :=
  r.framing.halfClock *
    match r.progress.phase with
    | .deselect => Config.deselectHalfClocks
    | .setup => r.framing.csSetup.toNat
    | .byte => Config.byteHalfClocks
    | .pause => r.framing.gapLength.toNat
    | .hold => r.framing.csHold.toNat

/-- The progress after the present phase (R83, R85, R92). -/
def FrameRecord.nextPhase (r : FrameRecord) : Progress :=
  match r.progress.phase with
  | .deselect => { phase := .setup, bytes := 0, spent := 0 }
  | .setup => { phase := if r.limit = 0 then .hold else .byte, bytes := 0, spent := 0 }
  | .byte => r.afterBytes (r.progress.bytes + 1)
  | .pause => { phase := .byte, bytes := r.progress.bytes, spent := 0 }
  | .hold => r.progress

/-- The end of the present phase is a command of its own: the release of the chip select, or a data byte of a READ or of a
program frame (R86, R87; log 11). -/
def FrameRecord.awaitsEvent (r : FrameRecord) : Bool :=
  match r.progress.phase with
  | .hold => true
  | .byte => decide (r.currentHeader.length ≤ r.progress.bytes) &&
      (decide (r.kind = .read) || decide (r.kind = .programPair))
  | .deselect | .setup | .pause => false

/-- `n` clock periods pass for the frame in flight, through at most `fuel` phases; it stands still where a command is awaited
(log 11). -/
def FrameRecord.elapse : (fuel n : Nat) → FrameRecord → FrameRecord
  | 0, _, r => r
  | fuel + 1, n, r =>
    if r.progress.spent + n < r.phaseTicks then { r with progress := { r.progress with spent := r.progress.spent + n } }
    else if r.awaitsEvent then { r with progress := { r.progress with spent := r.phaseTicks } }
    else FrameRecord.elapse fuel (r.progress.spent + n - r.phaseTicks) { r with progress := r.nextPhase }

/-- How many phases the current frame has at most: deselect, setup, hold, and two for each byte. -/
def FrameRecord.phases (r : FrameRecord) : Nat := 2 * r.totalBytes + 4

/-- The bytes that a READ shifts in all when its early end is requested now: none further in SETUP or a PAUSE, the byte being
shifted otherwise, and no change once the hold has begun (R92). R92 does not name the tDSL interval before the assertion; that
a request made there acts as in SETUP, with the select still asserted for the setup and the hold and no byte shifted, is the
model's choice (log 13). -/
def FrameRecord.cut (r : FrameRecord) : Option Nat :=
  match r.progress.phase with
  | .deselect | .setup => some 0
  | .byte => some (r.progress.bytes + 1)
  | .pause => some r.progress.bytes
  | .hold => none

/-- The early end of a READ is requested; a second request changes nothing (R92, R93). A PAUSE is cut off at once. -/
def FrameRecord.endEarly (r : FrameRecord) : FrameRecord :=
  if r.kind = .read && r.earlyEnd.isNone then
    { r with earlyEnd := r.cut
             progress := if r.progress.phase = .pause then { r.progress with phase := .hold, spent := 0 } else r.progress }
  else r

/-- `n` clock periods pass on a bus (R83, R85). -/
def BusEngine.elapse (n : Nat) (e : BusEngine) : BusEngine :=
  { e with frame := e.frame.map (fun r => r.elapse r.phases n), sinceRelease := e.sinceRelease + n }

/-- `n` periods of the 200 MHz clock pass for the whole block: timers, busy times and frames in flight (R29, R85, R108). -/
def State.elapse (n : Nat) (s : State) : State :=
  let t := fun i => (s.target i).elapse n
  { s with targets := #v[t 0, t 1, t 2, t 3, t 4, t 5, t 6, t 7]
           buses := #v[(s.bus 0).elapse n, (s.bus 1).elapse n] }

/-! ### Admissions that hold events back (R33, R41, R52) -/

/-- An admission has read the record of `t` and has not ended (R33, R52). -/
def State.admittingTarget (s : State) (t : Target) : Bool :=
  match s.admission.current with
  | some a => decide (a.target = some t)
  | none => false

/-- An admission has read the record of a target on `b` and has not ended (R52, R95). -/
def State.admittingBus (s : State) (b : Bus) : Bool :=
  match s.admission.current with
  | some a => (a.target.map busOf) == some b
  | none => false

/-- The head of port `p` is under admission (R41). -/
def State.admittingPort (s : State) (p : Port) : Bool :=
  match s.admission.current with
  | some a => decide (a.port = p)
  | none => false

/-- An event joins those that wait for the end of the admission. -/
def State.wait (s : State) (w : Waiting) : State := { s with waiting := s.waiting ++ [w] }

/-- An event that came before the admission began goes ahead of all that wait for its end (R52). -/
def State.waitFirst (s : State) (w : Waiting) : State := { s with waiting := w :: s.waiting }

/-- A frame to `t` is in flight on its bus (R115). -/
def State.frameTo (s : State) (t : Target) : Bool :=
  match (s.bus (busOf t)).frame with
  | some r => decide (r.target = t)
  | none => false

/-! ### Owners, faults and resets of targets (R65, R111 to R113, R116, R119) -/

/-- The owner of a target leaves the list with an outcome (R111). -/
def State.finishOwner (s : State) (t : Target) (owner : Option Nat) (outcome : Ending) (reason : Reason) : State :=
  match owner.bind (s.bus (busOf t)).find with
  | some it => s.finish (busOf t) it (it.recordOwner outcome reason)
  | none => s

/-- An erase unit of `t` has ended well: units done rises, and the owner completes or returns to QUEUED (R65). -/
def State.unitEndedWell (s : State) (t : Target) (owner : Option Nat) : State :=
  match owner.bind (s.bus (busOf t)).find with
  | some it =>
    let it' := { it with unitsDone := it.unitsDone + 1 }
    if it'.unitsDone = it'.unitsRequested then s.finish (busOf t) it' it'.recordUnitsDone
    else s.modBus (busOf t) (·.modItem it.uid (fun x => { x with unitsDone := x.unitsDone + 1, state := .queued }))
  | none => s

/-- The fan-out of a fault: the QUEUED items of the target leave FAILED/TARGETDOWN (R113). -/
def State.fanOut (s : State) (t : Target) : State :=
  s.finishAll (busOf t) ((s.bus (busOf t)).list.filter (fun it => decide (it.target = t) && decide (it.state = .queued)))
    (fun it => it.recordQueued .failed .targetDown)

/-- The mapping query: the union of the port sets of the valid active entries that name the target (R5). -/
def PolicyUnit.mapping (u : PolicyUnit) (t : Target) : BitVec 4 :=
  u.active.toList.foldl (fun acc e => if e.valid && e.target.toNat == t.val then acc ||| e.ports else acc) 0

/-- A cause is raised at every port of a set (R13, R112). -/
def State.raiseAt (s : State) (ports : BitVec 4) (c : Cause) : State :=
  allPorts.foldl (fun s p => if ports.getLsbD p.val then s.modPort p (·.raise c) else s) s

/-- A target enters FAULTED, in one event: the owner completes, the fan-out follows, and FAULT is raised (R112). -/
def State.fault (s : State) (t : Target) : State :=
  let owner := (s.target t).owner
  let s1 := (s.modTarget t (·.toFaulted)).finishOwner t owner .failed .timeout
  let s2 := s1.fanOut t
  s2.raiseAt (s2.policy.mapping t) .fault

/-- The Target Tracker takes a target reset claim; on a RESETTING or ABSENT target it has no effect (R115, R116). -/
def State.takeTargetReset (s : State) (t : Target) : State :=
  match (s.target t).state with
  | .absent | .resetting => s
  | .idle | .programming | .erasing | .suspending | .suspended | .faulted =>
    let owner := (s.target t).owner
    (s.finishOwner t owner .failed .aborted).modTarget t (·.toResetting)

/-! ### Claims on a work list (R15, R16, R96, R97, R161, R162) -/

/-- The frame in flight on a bus, when it serves the item that `uid` designates. -/
def BusEngine.frameOf (e : BusEngine) (uid : Nat) : Option FrameRecord :=
  e.frame.filter (fun r => r.item == some uid)

/-- A cancel claim is taken on its item (R161, R162). An item that has left the list, or an orphan, is not reached. -/
def State.cancelItem (s : State) (b : Bus) (uid : Nat) : State :=
  match (s.bus b).find uid with
  | none => s
  | some it =>
    if it.orphan then s
    else if it.state = .queued then
      let it' := { it with cancelSeen := true }
      let truncated := decide (it.kind = .erase) && decide (0 < it.unitsDone)
      s.finish b it' (it'.recordQueued (if truncated then .truncated else .cancelled) .cancelled)
    else
      let s1 := s.modBus b (·.modItem uid (fun x =>
        let y := { x with cancelSeen := true }
        if y.moreUnits then y.shed .cancelled else y))
      if it.kind = .read && it.state = .active then
        match (s1.bus b).frameOf uid with
        | some r => if it.bytesMoved < r.dataLimit then s1.modBus b (fun e => { e with frame := some r.endEarly }) else s1
        | none => s1
      else s1

/-- The cancel claims that a port has sent to a bus, those that `sel` names, are taken in the order sent (R160). -/
def State.takeCancels (s : State) (p : Port) (b : Bus) (sel : CancelClaim → Bool) : State :=
  let mine := fun (c : CancelClaim) => decide (c.port = p) && sel c
  let s1 := s.modBus b (fun e => { e with cancels := e.cancels.filter (fun c => !mine c) })
  ((s.bus b).cancels.filter mine).foldl (fun s c => s.cancelItem b c.item) s1

/-- An event that waits is a bus reset claim of `b`. -/
def Waiting.isResetOf (w : Waiting) (b : Bus) : Bool :=
  match w with
  | .busReset b' => decide (b' = b)
  | .frame _ | .cancelHead _ _ | .expiry _ _ | .targetReset _ => false

/-- The bus reset claims of a bus that are issued and not yet taken (R95). -/
def State.resetsIssued (s : State) (b : Bus) : Nat := (s.bus b).resets + (s.waiting.filter (·.isResetOf b)).length

/-- One bus reset claim fewer stands before the cancel claims of a bus. -/
def BusEngine.closeRanks (e : BusEngine) : BusEngine :=
  { e with cancels := e.cancels.map (fun c => { c with behind := c.behind - 1 }) }

/-- An item is reached by a revocation of these indices. -/
def Item.revokedBy (it : Item) (rv : Revocation) : Bool := rv.indices.contains it.region

/-- The record of a QUEUED item removed by a revocation (R15). -/
def Item.recordRevoked (it : Item) : Completion :=
  it.recordQueued (if decide (it.kind = .erase) && decide (0 < it.unitsDone) then .truncated else .failed) .revoked

/-- A revocation claim is taken whole: QUEUED items of the revoked indices leave, running multi-unit erases shed units (R15,
R16, R17). -/
def State.revoke (s : State) (b : Bus) (rv : Revocation) : State :=
  let out := (s.bus b).list.filter (fun it => decide (it.state = .queued) && it.revokedBy rv)
  let s1 := s.finishAll b out (·.recordRevoked)
  s1.modBus b (fun e => { e with list := e.list.map (fun it =>
    if decide (it.state ≠ .queued) && it.revokedBy rv && it.moreUnits then it.shed .revoked else it) })

/-- The revocation claims issued to a bus are taken, in APPLY order (R14). -/
def State.takeRevocations (s : State) (b : Bus) : State :=
  let all := (s.bus b).revocations
  let s1 := s.modBus b (fun e => { e with revocations := [] })
  all.foldl (fun s rv => s.revoke b rv) s1

/-- A bus reset claim is taken as one event at the Bus Engine and the Target Tracker (R96, R97, R119). The cancel claims that
the authority's Port Unit sent before it are taken before it (R160). -/
def State.takeBusReset (s : State) (b : Bus) : State :=
  let s0 := (s.takeCancels s.authority b (fun c => decide (c.behind = 0))).modBus b (·.closeRanks)
  let inFlight := (s0.bus b).frame.bind (·.item)
  let out := (s0.bus b).list.filter (fun it => some it.uid != inFlight)
  let s1 := s0.finishAll b out (fun it => it.record .failed .aborted)
  let s2 := s1.modBus b (fun e => { e with frame := e.frame.map (fun r => { r.endEarly with overtaken := true }) })
  (targetsOf b).foldl (fun s t => s.modTarget t (fun r => if r.present then r.toResetting else r)) s2

/-! ### Region lookups (R3, R20) -/

/-- The entry matches the port and the first byte (R3). -/
def RegionEntry.covers (e : RegionEntry) (p : Port) (address : Nat) : Bool :=
  e.valid && e.ports.getLsbD p.val && decide (e.base.toNat * Config.policyPage ≤ address) &&
    decide (address < e.base.toNat * Config.policyPage + e.size.toNat * Config.policyPage)

/-- The indices 0 to 31 in order. -/
def allEntries : List EntryIx := List.finRange 32

/-- The region lookup: the lowest-index entry of the active table that qualifies (R3). -/
def PolicyUnit.lookup (u : PolicyUnit) (p : Port) (address : Nat) : Option EntryIx :=
  allEntries.find? (fun i => (pick u.active i).covers p address)

/-- A right of an entry, by its bit: READ 0, PROGRAM 1, ERASE 2, STATUS 3, URGENT 4 (R1, R38). -/
def Kind.rightBit : Kind → Nat
  | .read => 0
  | .program => 1
  | .erase => 2
  | .status => 3

end Sys2Proof.Machine
end

