-- ==== Sys2Proof/Machine/Policy.lean ====
section
/-! DEFINITION. The taking of a successful APPLY (R4, R12 to R14, R46): the table put in force, the causes, the claims and the
released heads, and the moments at which the APPLYs that stand are taken. -/

namespace Sys2Proof.Machine

/-- A change to the staged table (R6, R7). -/
def PolicyUnit.edit (u : PolicyUnit) (e : Edit) : PolicyUnit :=
  match e with
  | .stage i entry => { u with staged := put u.staged i entry }
  | .copyActive => { u with staged := u.active }

/-- Two versions of an entry count as different: validity differs, or both are valid and some field differs (R12 step 1). -/
def RegionEntry.changed (old new : RegionEntry) : Bool :=
  (old.valid != new.valid) || (old.valid && new.valid && decide (old ≠ new))

/-- The changed indices (R12 step 1). -/
def PolicyUnit.changedIndices (u : PolicyUnit) : List EntryIx :=
  allEntries.filter (fun i => (pick u.active i).changed (pick u.staged i))

/-- The port set of an entry; an invalid version names no ports (R13). -/
def RegionEntry.namedPorts (e : RegionEntry) : BitVec 4 := if e.valid then e.ports else 0

/-- The ports named by the old or new version of a changed index (R13). -/
def PolicyUnit.policyPorts (u : PolicyUnit) : BitVec 4 :=
  u.changedIndices.foldl
    (fun acc i => acc ||| (pick u.active i).namedPorts ||| (pick u.staged i).namedPorts) 0

/-- The revoked indices: changed, with a valid STRICT old entry (R14). -/
def PolicyUnit.revokedIndices (u : PolicyUnit) : List EntryIx :=
  u.changedIndices.filter (fun i => (pick u.active i).valid && decide ((pick u.active i).mode = .strict))

/-- The tables, generation and failure index after a successful APPLY (R12 steps 2 to 4); the staged-table changes behind the
last waiting APPLY follow it (R4). -/
def PolicyUnit.applied (u : PolicyUnit) : PolicyUnit :=
  let v := { u with active := u.staged, generation := u.generation + 1, failure := none, applies := u.applies - 1 }
  if v.applies = 0 then { v.edits.foldl PolicyUnit.edit v with edits := [] } else v

/-- A successful APPLY is taken, one event at the Policy Unit (R12 to R14, R46). -/
def State.applyTaken (s : State) : State :=
  let revoked := s.policy.revokedIndices
  let claim : Revocation := { indices := revoked, generation := s.policy.generation + 1 }
  let s1 := { s with policy := s.policy.applied
                     admission := { s.admission with blocked := Vector.replicate 4 none } }
  let s2 := s1.raiseAt s.policy.policyPorts .policy
  if revoked.isEmpty then s2
  else (s2.modBus 0 (fun e => { e with revocations := e.revocations ++ [claim] })).modBus 1
    (fun e => { e with revocations := e.revocations ++ [claim] })

/-- Every APPLY that waits is taken, in the order of their releases (R4). -/
def State.takeApplies : Nat → State → State
  | 0, s => s
  | n + 1, s => State.takeApplies n s.applyTaken

/-- A successful APPLY stands, and no admission makes it wait (R4). -/
def State.applyStands (s : State) : Bool := s.admission.current.isNone && s.policy.applies != 0

/-- The APPLYs that stand are taken where no admission makes them wait: before any later frame or lookup, so that nothing that
the spec lets a frame or a lookup see comes between an APPLY and its taking (R4, log 8). -/
def State.settleApplies (s : State) : State := if s.applyStands then s.takeApplies s.policy.applies else s

end Sys2Proof.Machine
end

