-- ==== Sys2Proof/Machine/Standing.lean ====
section
/-! DEFINITION. What stands ready to be taken: a successful APPLY, a bus reset claim, a target reset claim that nothing holds
back (R4, R95, R115). Whatever stands ready is taken before anything that could see that it is not yet taken. -/

namespace Sys2Proof.Machine

/-- A target reset claim that has been sent is taken, unless an admission that has read the target holds it back. It then waits
ahead of all else that waits for that admission, since it reached the Target Tracker before the admission's read, as a claim
sent after the read does not stand ready (R52, R115, log 9). -/
def State.settleTargetReset (s : State) (t : Target) : State :=
  let s1 := { s with resetClaims := s.resetClaims.filter (fun x => decide (x ≠ t)) }
  if s.admittingTarget t then s1.waitFirst (.targetReset t) else s1.takeTargetReset t

/-- A bus reset claim that has been sent is taken, unless an admission that has read a target of the bus holds it back (R95). -/
def State.settleBusReset (s : State) (b : Bus) : State :=
  let s1 := s.modBus b (fun e => { e with resets := e.resets - 1 })
  if s.admittingBus b then s1.wait (.busReset b) else s1.takeBusReset b

/-- A target reset claim stands ready: it has been sent, no frame to the target is in flight on its bus, and no admission lies
between its read of the target and its end (R115). -/
def State.targetResetReady (s : State) (t : Target) : Bool :=
  s.resetClaims.contains t && !s.frameTo t && !s.admittingTarget t

/-- A bus reset claim stands ready: one has been sent, and no admission that has read a target of the bus holds it back (R95). -/
def State.busResetReady (s : State) (b : Bus) : Bool := (s.bus b).resets != 0 && !s.admittingBus b

/-- Something stands ready: an APPLY (R4), a bus reset claim (R95) or a target reset claim (R115). -/
def State.stands (s : State) : Bool :=
  s.applyStands || s.busResetReady 0 || s.busResetReady 1 || s.resetClaims.any s.targetResetReady

/-- The oldest `n` bus reset claims of a bus are taken. -/
def State.settleBusResets (b : Bus) : Nat → State → State
  | 0, s => s
  | n + 1, s => State.settleBusResets b n (s.settleBusReset b)

/-- The bus reset claims of a bus that stand ready are taken (R95). -/
def State.settleBus (s : State) (b : Bus) : State :=
  if s.admittingBus b then s else State.settleBusResets b (s.bus b).resets s

/-- The target reset claims that stand ready are taken, in the order in which they were sent (R115). -/
def State.settleTargets (s : State) : State :=
  s.resetClaims.foldl (fun u t => if u.targetResetReady t then u.settleTargetReset t else u) s

/-- Everything that stands ready is taken: before an upstream frame, a lookup, a choice, an event that waited for an admission,
and before time passes. So a target reset claim that nothing holds back is taken at once, as R115 gives: nothing finds the
block between the claim and its taking but an event that the spec lets come in either order (R99, R118, log 8, log 9). -/
def State.settle (s : State) : State := ((s.settleApplies.settleBus 0).settleBus 1).settleTargets

end Sys2Proof.Machine
end

