-- ==== Sys2Proof/Machine/Upstream.lean ====
section
/-! DEFINITION. What every upstream frame shares: opening and closing a frame, the length check, capture and release of a
reply (R178 to R183), and the frames that wait for an admission to end (R33, R41, R165). -/

namespace Sys2Proof.Machine

/-- The port on which a frame event arrives; none for the other commands. -/
def portOfFrame : Instr → Option Port
  | .submit p _ | .cancel p _ | .hold p _ | .unhold p _ | .load p _ | .fetch p _ _ | .release p _ | .collect p _ _
  | .cause p _ _ | .causeEnable p _ | .summary p _ _ | .portReset p _ | .readEntry p _ _ | .readTarget p _ _
  | .stageEntry p _ | .copyActive p _ | .apply p _ | .setupTarget p _ | .removeTarget p _ | .resetTarget p _
  | .resetBus p _ | .busMode p _ | .badcode p _ _ | .frameWithoutCode p | .summaryByte p => some p
  | .applySucceeds | .targetResetClaim _ | .busResetClaim _ | .deviceReset | .resetRelease _ _ | .admission
  | .insertion | .revocationClaim _ | .cancelClaim _ _ | .choice _ | .dataByteReceived _ _ | .dataByteSent _
  | .readFrameEnd _ | .writeEnableFrameEnd _ | .programPairEnd _ | .erasePairEnd _ | .statusFrameEnd _ _
  | .suspendFrameEnd _ | .resumeFrameEnd _ | .resetFrameEnd _ | .pollTimerExpiry _ | .programTimerExpiry _
  | .busyTimeReachesTel _ | .holdOffTimerExpiry _ | .suspendLatencyTimerExpiry _ | .suspendedTimerExpiry _
  | .recoveryTimerExpiry _ | .completionPost => none

/-- An event that waits is a frame of port `p`. -/
def Waiting.isFrameOf (w : Waiting) (p : Port) : Bool :=
  match w with
  | .frame i => portOfFrame i == some p
  | .cancelHead _ _ | .expiry _ _ | .targetReset _ | .busReset _ => false

/-- A frame of port `p` waits, so that the port's later frames are taken after it (R33, R165). -/
def State.frameWaits (s : State) (p : Port) : Bool := s.waiting.any (·.isFrameOf p)

/-- The port ignores its pins: RESET# is low, or the assertion was low when RESET# rose (R178). -/
def State.deaf (s : State) (p : Port) : Bool := s.resetLow || (s.port p).link.ignoring

/-- The fall of the chip select: the summary byte is captured and a frame opens (R178, R179). -/
def PortUnit.fall (u : PortUnit) : PortUnit :=
  { u with link := { u.link with isOpen := true, ignoring := false, summary := u.summaryByte, captured := none } }

/-- The frame that a command of the port belongs to, opened now unless its fall came before (log 5). -/
def State.openFrame (s : State) (p : Port) : State :=
  s.modPort p (fun u => if u.link.isOpen then u else u.fall)

/-- A frame event reaches its port: ignored, made to wait, or taken. Whatever stands ready is taken first (R4, R115, log 8, log
9). A frame that an admission holds back waits with its frame open, so that its summary byte is the one of its fall (R179). -/
def State.upstream (s : State) (p : Port) (i : Instr) (mustWait : Bool) (take : State → State) : State :=
  if s.deaf p then s
  else if s.frameWaits p then s.wait (.frame i)
  else if mustWait then (s.settle.openFrame p).wait (.frame i)
  else take s.settle

/-- The bytes that SDO carries while `n` bytes are clocked: the summary byte, 0x00 through the request and filler bytes, the
reply, then 0x00 (R179 to R182). `request` counts the code byte. -/
def sdoBytes (summary : Byte) (request : Nat) (reply : List Byte) (n : Nat) : List Byte :=
  (summary :: (List.replicate request 0 ++ reply ++ List.replicate n 0)).take n

/-- The release of the chip select: the result is recorded and the frame is over (R178, R183). `n` counts the bytes after the
code byte. -/
def PortUnit.rise (u : PortUnit) (result : Result) (request n : Nat) (reply : List Byte) : PortUnit :=
  { u with last := result
           link := { u.link with isOpen := false, captured := none,
                                 sdo := sdoBytes u.link.summary request reply (n + 1) } }

/-- A frame of port `p` closes. -/
def State.closeFrame (s : State) (p : Port) (result : Result) (request n : Nat) (reply : List Byte) : State :=
  s.modPort p (·.rise result request n reply)

/-- A frame without a reply, taken at its release: below its required length it gives FRAMING and changes nothing, otherwise
its own checks and effect give the result (R181). `need` counts the code byte. -/
def State.plainFrame (s : State) (p : Port) (need : Nat) (bytes : List Byte) (act : State → State × Result) : State :=
  let s1 := s.openFrame p
  if bytes.length + 1 < need then s1.closeFrame p .framing need bytes.length []
  else (act s1).1.closeFrame p (act s1).2 need bytes.length []

/-- The reply bytes of a capture; a failed check leaves every reply byte 0x00 (R182). -/
def Captured.reply : Captured → List Byte
  | .fetch _ reply | .summary reply | .readEntry _ reply | .readTarget _ reply => reply
  | .collect record => collectReply record
  | .cause reported _ => [causeCode reported]

/-- The capture of a reply, once the `request` bytes have been received (R182). -/
def State.captureFrame (s : State) (p : Port) (request : Nat) (bytes : List Byte) (grab : State → Captured) : State :=
  let s1 := s.openFrame p
  if bytes.length + 1 < request then s1
  else s1.modPort p (fun u => { u with link := { u.link with captured := some (grab s1) } })

/-- The release of a frame that answers. Below its required length it gives FRAMING and changes nothing (R181). A capture of
this kind of frame taken before is used; without one the capture is made now (log 5). -/
def State.replyFrame (s : State) (p : Port) (request need : Nat) (bytes : List Byte) (mine : Captured → Bool)
    (grab : State → Captured) (act : State → Captured → State × Result) : State :=
  let s1 := s.openFrame p
  if bytes.length + 1 < request then s1.closeFrame p .framing request bytes.length []
  else
    let c := ((s1.port p).link.captured.filter mine).getD (grab s1)
    if bytes.length + 1 < need then s1.closeFrame p .framing request bytes.length c.reply
    else (act s1 c).1.closeFrame p (act s1 c).2 request bytes.length c.reply

/-! ### The upstream SDO pin (R178, R179, R182) -/

/-- The request bytes, the code counted, after which a capture is made (R182). -/
def Captured.requestBytes : Captured → Nat
  | .fetch _ _ | .readEntry _ _ => 3
  | .readTarget _ _ => 2
  | .collect _ | .cause _ _ | .summary _ => 1

/-- Byte `n` of the frame in progress as SDO carries it: the summary byte, then 0x00, and after the filler the captured reply
(R179, R181, R182). -/
def Link.byteOut (l : Link) (n : Nat) : Byte :=
  if n = 0 then l.summary
  else match l.captured with
    | some c => if n ≤ c.requestBytes then 0 else byteAt c.reply (n - c.requestBytes - 1)
    | none => 0

/-- SDO of a port `edges` falling edges of SCK after the fall of CS#: none is high impedance, as while CS# is high; else the bit
it drives, most significant first, the first one from the fall on (R178). While RESET# is low, through an ignored assertion, and
while a released frame waits, the view shows high impedance (log 13). -/
def State.upstreamSdo (s : State) (p : Port) (edges : Nat) : Option Bool :=
  if s.deaf p || s.frameWaits p || !(s.port p).link.isOpen then none
  else some (((s.port p).link.byteOut (edges / 8)).getLsbD (7 - edges % 8))

end Sys2Proof.Machine
end

