-- ==== Sys2Proof/Machine/RequestFrames.lean ====
section
/-! DEFINITION. The frames of the request side and the data slots: SUBMIT, CANCEL, HOLD, UNHOLD, LOAD, FETCH, RELEASE, COLLECT
and PORT RESET (R139 to R143, R149, R153 to R167). -/

namespace Sys2Proof.Machine

/-! ### SUBMIT (R153, R154) -/

/-- The checks of SUBMIT, in order; the descriptor when all pass (R153). -/
def PortUnit.checkSubmit (u : PortUnit) (bytes : List Byte) : Except Result Request :=
  if !u.submitRoom then .error .full
  else if u.tags.contains (byteAt bytes 0) then .error .dupTag
  else match Request.ofBytes bytes with
    | none => .error .badField
    | some r =>
      match r.slot with
      | some k => if (pick u.slots k).accepts r.kind r.length.toNat then .ok r else .error .slotState
      | none => .ok r

/-- The acceptance of a SUBMIT, one event (R143, R154). -/
def PortUnit.accept (u : PortUnit) (r : Request) : PortUnit :=
  let v := u.modSlot? r.slot (·.commit)
  { v with ring := v.ring ++ [r], credits := v.credits + 1, tags := v.tags ++ [r.tag] }

/-- SUBMIT at its release. A FULL refusal arms SPACE (R173). -/
def takeSubmit (p : Port) (bytes : List Byte) (s : State) : State :=
  s.plainFrame p 9 bytes fun s =>
    match (s.port p).checkSubmit bytes with
    | .ok r => (s.modPort p (·.accept r), .ok)
    | .error .full => (s.modPort p (·.arm), .full)
    | .error e => (s, e)

/-- SUBMIT (R153). -/
def execSubmit (p : Port) (bytes : List Byte) (s : State) : Host.Outcome State Fault Refusal :=
  .next (s.upstream p (.submit p bytes) false (takeSubmit p bytes))

/-! ### CANCEL (R160) -/

/-- The record of a ring entry removed by CANCEL (R160). -/
def Request.recordCancelled (r : Request) : Completion :=
  { tag := r.tag, kind := r.kind, outcome := .cancelled, reason := .cancelled, bytesMoved := 0, unitsDone := 0,
    headBytes := [], region := none, target := none, generation := none, suspendTotal := 0, cancelSeen := true }

/-- The non-orphan work item of a port and tag, with its bus. -/
def State.itemOf (s : State) (p : Port) (tag : Byte) : Option (Bus × Item) :=
  let own := fun (it : Item) => decide (it.port = p) && decide (it.tag = tag) && !it.orphan
  match (s.bus 0).list.find? own with
  | some it => some (0, it)
  | none => ((s.bus 1).list.find? own).map (fun it => (1, it))

/-- A ring entry leaves by CANCEL: its record is posted, SPACE is judged, and a blocked finding of its port ends when it was
the head (R42, R46, R160, R173). -/
def State.cancelEntry (s : State) (p : Port) (r : Request) : State :=
  let wasHead := ((s.port p).ring.head?.map (·.tag)) == some r.tag
  let s1 := s.modPort p fun u =>
    PortUnit.judgeSpace ({ u with ring := u.ring.filter (fun x => x.tag != r.tag) }.post r.slot r.recordCancelled)
  if wasHead then { s1 with admission := { s1.admission with blocked := put s1.admission.blocked p none } } else s1

/-- The effect of a CANCEL whose tag is in the table: on a ring entry, on a work item by a claim, or none on a record (R160). -/
def State.cancelTag (s : State) (p : Port) (tag : Byte) : State :=
  match (s.port p).ring.find? (fun r => r.tag == tag) with
  | some r => s.cancelEntry p r
  | none =>
    match s.itemOf p tag with
    | some (b, it) =>
      s.modBus b (fun e => { e with cancels := e.cancels ++ [{ port := p, item := it.uid, behind := s.resetsIssued b }] })
    | none => s

/-- The tag names the head under admission (R41). -/
def State.headUnderAdmission (s : State) (p : Port) (tag : Byte) : Bool :=
  s.admittingPort p && (((s.port p).ring.head?.map (·.tag)) == some tag)

/-- CANCEL at its release; for the head under admission its effect waits (R41, R160). -/
def takeCancel (p : Port) (bytes : List Byte) (s : State) : State :=
  s.plainFrame p 2 bytes fun s =>
    let tag := byteAt bytes 0
    if !(s.port p).tags.contains tag then (s, .unknownTag)
    else if s.headUnderAdmission p tag then (s.wait (.cancelHead p tag), .ok)
    else (s.cancelTag p tag, .ok)

/-- CANCEL (R160). -/
def execCancel (p : Port) (bytes : List Byte) (s : State) : Host.Outcome State Fault Refusal :=
  .next (s.upstream p (.cancel p bytes) false (takeCancel p bytes))

/-! ### HOLD and UNHOLD (R164) -/

/-- HOLD at its release. -/
def takeHold (p : Port) (bytes : List Byte) (s : State) : State :=
  s.plainFrame p 1 bytes fun s => (s.modPort p (fun u => { u with hold := true }), .ok)

/-- HOLD (R164). -/
def execHold (p : Port) (bytes : List Byte) (s : State) : Host.Outcome State Fault Refusal :=
  .next (s.upstream p (.hold p bytes) false (takeHold p bytes))

/-- UNHOLD at its release. -/
def takeUnhold (p : Port) (bytes : List Byte) (s : State) : State :=
  s.plainFrame p 1 bytes fun s => (s.modPort p (fun u => { u with hold := false }), .ok)

/-- UNHOLD (R164). -/
def execUnhold (p : Port) (bytes : List Byte) (s : State) : Host.Outcome State Fault Refusal :=
  .next (s.upstream p (.unhold p bytes) false (takeUnhold p bytes))

/-! ### LOAD, FETCH and RELEASE (R140 to R142) -/

/-- A slot loaded with data from an offset (R140). -/
def Slot.load (k : Slot) (offset : Nat) (data : List Byte) : Slot :=
  { state := .held, data := k.data.writeAll offset data, valid := max k.valid (offset + data.length), ret := none }

/-- LOAD at its release (R140). -/
def takeLoad (p : Port) (bytes : List Byte) (s : State) : State :=
  s.plainFrame p 3 bytes fun s =>
    match below 4 (byteAt bytes 0) with
    | none => (s, .badField)
    | some k =>
      let offset := (byteAt bytes 1).toNat
      let data := bytes.drop 2
      if Config.slotBytes < offset + data.length then (s, .badField)
      else if (pick (s.port p).slots k).state = .committed then (s, .slotState)
      else (s.modPort p (·.modSlot k (·.load offset data)), .ok)

/-- LOAD (R140). -/
def execLoad (p : Port) (bytes : List Byte) (s : State) : Host.Outcome State Fault Refusal :=
  .next (s.upstream p (.load p bytes) false (takeLoad p bytes))

/-- The check and capture of FETCH at its offset byte (R141). -/
def grabFetch (p : Port) (bytes : List Byte) (s : State) : Captured :=
  match below 4 (byteAt bytes 0) with
  | none => .fetch .badField []
  | some k =>
    let slot := pick (s.port p).slots k
    if slot.state = .committed then .fetch .slotState []
    else .fetch .ok (slot.data.bytesFrom (byteAt bytes 1).toNat slot.valid)

/-- A capture made by FETCH. -/
def Captured.isFetch : Captured → Bool
  | .fetch _ _ => true
  | .collect _ | .cause _ _ | .summary _ | .readEntry _ _ | .readTarget _ _ => false

/-- The result that a check made at the capture gave (R182). -/
def Captured.result : Captured → Result
  | .fetch r _ | .readEntry r _ | .readTarget r _ => r
  | .collect _ | .cause _ _ | .summary _ => .ok

/-- FETCH at its capture or release (R141). -/
def takeFetch (p : Port) (m : Moment) (bytes : List Byte) (s : State) : State :=
  match m with
  | .capture => s.captureFrame p 3 bytes (grabFetch p bytes)
  | .release => s.replyFrame p 3 3 bytes Captured.isFetch (grabFetch p bytes) fun s c => (s, c.result)

/-- FETCH (R141). -/
def execFetch (p : Port) (m : Moment) (bytes : List Byte) (s : State) : Host.Outcome State Fault Refusal :=
  .next (s.upstream p (.fetch p m bytes) false (takeFetch p m bytes))

/-- RELEASE at its release (R142). -/
def takeRelease (p : Port) (bytes : List Byte) (s : State) : State :=
  s.plainFrame p 2 bytes fun s =>
    match below 4 (byteAt bytes 0) with
    | none => (s, .badField)
    | some k =>
      if (pick (s.port p).slots k).state = .committed then (s, .slotState)
      else (s.modPort p (·.modSlot k (fun _ => .freed)), .ok)

/-- RELEASE (R142). -/
def execRelease (p : Port) (bytes : List Byte) (s : State) : Host.Outcome State Fault Refusal :=
  .next (s.upstream p (.release p bytes) false (takeRelease p bytes))

/-! ### COLLECT (R159) -/

/-- The capture of COLLECT: the front record, or the empty marker. -/
def grabCollect (p : Port) (s : State) : Captured := .collect (s.port p).queue.head?

/-- A capture made by COLLECT. -/
def Captured.isCollect : Captured → Bool
  | .collect _ => true
  | .fetch _ _ | .cause _ _ | .summary _ | .readEntry _ _ | .readTarget _ _ => false

/-- The front record is collected: it leaves the queue, its tag the table, its credit is freed, and the causes are judged
(R159, R171 to R173). -/
def PortUnit.collectFront (u : PortUnit) (r : Completion) : PortUnit :=
  PortUnit.judgeSpace (PortUnit.judge
    { u with queue := u.queue.tail, tags := u.tags.filter (fun t => t != r.tag), credits := u.credits - 1 })

/-- The release of a COLLECT whose whole reply was clocked (R159). -/
def State.endCollect (s : State) (p : Port) (c : Captured) : State × Result :=
  match c with
  | .collect (some r) => (s.modPort p (·.collectFront r), .ok)
  | .collect none | .fetch _ _ | .cause _ _ | .summary _ | .readEntry _ _ | .readTarget _ _ => (s, .ok)

/-- COLLECT at its capture or release (R159, R180). -/
def takeCollect (p : Port) (m : Moment) (bytes : List Byte) (s : State) : State :=
  match m with
  | .capture => s.captureFrame p 1 bytes (grabCollect p)
  | .release => s.replyFrame p 1 17 bytes Captured.isCollect (grabCollect p) fun s c => s.endCollect p c

/-- COLLECT (R159). -/
def execCollect (p : Port) (m : Moment) (bytes : List Byte) (s : State) : Host.Outcome State Fault Refusal :=
  .next (s.upstream p (.collect p m bytes) false (takeCollect p m bytes))

/-! ### PORT RESET (R149, R165, R168) -/

/-- An item that a port reset removes: QUEUED, of the port and no orphan (R165 step 2). -/
def Item.removedByPortReset (it : Item) (p : Port) : Bool :=
  decide (it.port = p) && decide (it.state = .queued) && !it.orphan

/-- The list after a port reset: QUEUED items of the port gone, its running items orphans (R165 steps 2 and 3). -/
def BusEngine.portReset (e : BusEngine) (p : Port) : BusEngine :=
  let kept := e.list.filter (fun it => !it.removedByPortReset p)
  { e with list := kept.map (fun it => if it.port = p then { it with orphan := true } else it) }

/-- One bus takes the port reset; a removed item releases the heads blocked by the bus (R46). -/
def State.portResetBus (s : State) (p : Port) (b : Bus) : State :=
  let s1 := s.modBus b (·.portReset p)
  if (s.bus b).list.any (·.removedByPortReset p) then s1.releaseBlocked b else s1

/-- The items of a port in both lists. -/
def State.itemsOf (s : State) (p : Port) : List Item :=
  ((s.bus 0).list ++ (s.bus 1).list).filter (fun it => decide (it.port = p))

/-- The slots after a port reset: those committed to an orphan stay, the others are freed (R149). -/
def PortUnit.slotsKept (u : PortUnit) (items : List Item) : Vector Slot 4 :=
  let keep := fun (k : SlotIx) => if items.any (fun it => it.slot == some k) then pick u.slots k else .freed
  #v[keep 0, keep 1, keep 2, keep 3]

/-- The Port Unit after a port reset, `items` being its orphans (R165 steps 1 and 4 to 7, R168). -/
def PortUnit.portReset (u : PortUnit) (items : List Item) : PortUnit :=
  { u with ring := [], tags := [], queue := [], credits := items.length, hold := false, slots := u.slotsKept items,
           pending := .empty, enable := .default, watermark := 1, armed := false }

/-- PORT RESET is taken, one event at the Port Unit and both Bus Engines; the port's earlier cancel claims come first (R160,
R165). -/
def State.portReset (s : State) (p : Port) : State :=
  let s1 := (s.takeCancels p 0 (fun _ => true)).takeCancels p 1 (fun _ => true)
  let s2 := (s1.portResetBus p 0).portResetBus p 1
  let s3 := s2.modPort p (·.portReset (s2.itemsOf p))
  { s3 with admission := { s3.admission with blocked := put s3.admission.blocked p none } }

/-- PORT RESET at its release (R165). -/
def takePortReset (p : Port) (bytes : List Byte) (s : State) : State :=
  s.plainFrame p 1 bytes fun s => (s.portReset p, .ok)

/-- PORT RESET; it waits for an admission of the port's head to end (R41, R165). -/
def execPortReset (p : Port) (bytes : List Byte) (s : State) : Host.Outcome State Fault Refusal :=
  .next (s.upstream p (.portReset p bytes) (s.admittingPort p) (takePortReset p bytes))

end Sys2Proof.Machine
end

