-- ==== Sys2Proof/Machine/CauseFrames.lean ====
section
/-! DEFINITION. CAUSE, CAUSE ENABLE, SUMMARY, the summary byte, BADCODE and frames without a code (R175 to R180, R191). -/

namespace Sys2Proof.Machine

/-! ### CAUSE and CAUSE ENABLE (R175, R176) -/

/-- The capture of CAUSE: the highest-priority pending enabled cause, or NONE (R176). -/
def grabCause (p : Port) (s : State) : Captured := .cause (s.port p).topCause false

/-- A capture made by CAUSE. -/
def Captured.isCause : Captured → Bool
  | .cause _ _ => true
  | .fetch _ _ | .collect _ | .summary _ | .readEntry _ _ | .readTarget _ _ => false

/-- A report clears FAULT, SPACE and POLICY; ERROR and COMPLETE stay (R176). -/
def Cause.reportCleared : Cause → Bool
  | .fault | .space | .policy => true
  | .error | .complete => false

/-- The release of a CAUSE whose reply byte was clocked in full: a report-cleared cause leaves the pending set unless it was
raised after the capture (R176). -/
def State.endCause (s : State) (p : Port) (c : Captured) : State × Result :=
  match c with
  | .cause (some x) again =>
    if x.reportCleared && !again then (s.modPort p (fun u => { u with pending := u.pending.put x false }), .ok)
    else (s, .ok)
  | .cause none _ | .collect _ | .fetch _ _ | .summary _ | .readEntry _ _ | .readTarget _ _ => (s, .ok)

/-- CAUSE at its capture or release (R176, R180). -/
def takeCause (p : Port) (m : Moment) (bytes : List Byte) (s : State) : State :=
  match m with
  | .capture => s.captureFrame p 1 bytes (grabCause p)
  | .release => s.replyFrame p 1 3 bytes Captured.isCause (grabCause p) fun s c => s.endCause p c

/-- CAUSE (R176). -/
def execCause (p : Port) (m : Moment) (bytes : List Byte) (s : State) : Host.Outcome State Fault Refusal :=
  .next (s.upstream p (.cause p m bytes) false (takeCause p m bytes))

/-- CAUSE ENABLE at its release: the enable set and the watermark are replaced and COMPLETE judged again (R175, R185). -/
def takeCauseEnable (p : Port) (bytes : List Byte) (s : State) : State :=
  s.plainFrame p 3 bytes fun s =>
    let watermark := (byteAt bytes 1).toNat
    match CauseSet.ofByte (byteAt bytes 0) with
    | some enable =>
      if 1 ≤ watermark && watermark ≤ 16 then
        (s.modPort p (fun u => PortUnit.judge { u with enable, watermark }), .ok)
      else (s, .badField)
    | none => (s, .badField)

/-- CAUSE ENABLE (R175). -/
def execCauseEnable (p : Port) (bytes : List Byte) (s : State) : Host.Outcome State Fault Refusal :=
  .next (s.upstream p (.causeEnable p bytes) false (takeCauseEnable p bytes))

/-- ATTN# of a port is asserted: a pending cause is enabled, and RESET# is not low (R169). -/
def State.attn (s : State) (p : Port) : Bool := !s.resetLow && (s.port p).attentionPending

/-! ### SUMMARY (R191) -/

/-- The three bytes of a slot in the SUMMARY reply (R191, R151). -/
def Slot.summaryBytes (k : Slot) : List Byte :=
  (match k.state with
    | .free => (0 : Byte)
    | .held => 1
    | .committed => 2) :: bytes16 (BitVec.ofNat 16 k.valid)

/-- The 23 bytes of the SUMMARY reply of port `p` (R191). -/
def State.summaryReply (s : State) (p : Port) : List Byte :=
  let u := s.port p
  [BitVec.ofNat 8 p.val ||| (BitVec.ofNat 8 s.authority.val <<< 4) ||| flagBit (decide (s.authority = p)) 7,
    BitVec.ofNat 8 u.ring.length, BitVec.ofNat 8 u.credits, BitVec.ofNat 8 u.queue.length, u.pending.toByte,
    u.enable.toByte, (BitVec.ofNat 8 u.watermark).extractLsb' 0 5 |>.setWidth 8 |>.or (flagBit u.armed 7)] ++
    bytes16 s.policy.generation ++
    [match s.policy.failure with
      | some i => BitVec.ofNat 8 i.val
      | none => 0xFF] ++
    (pick u.slots 0).summaryBytes ++ (pick u.slots 1).summaryBytes ++ (pick u.slots 2).summaryBytes ++
    (pick u.slots 3).summaryBytes ++ [u.last.code.setWidth 8 ||| flagBit u.hold 4]

/-- The capture of SUMMARY (R191). -/
def grabSummary (p : Port) (s : State) : Captured := .summary (s.summaryReply p)

/-- A capture made by SUMMARY. -/
def Captured.isSummary : Captured → Bool
  | .summary _ => true
  | .fetch _ _ | .collect _ | .cause _ _ | .readEntry _ _ | .readTarget _ _ => false

/-- SUMMARY at its capture or release; it clears nothing (R177, R191). -/
def takeSummary (p : Port) (m : Moment) (bytes : List Byte) (s : State) : State :=
  match m with
  | .capture => s.captureFrame p 1 bytes (grabSummary p)
  | .release => s.replyFrame p 1 1 bytes Captured.isSummary (grabSummary p) fun s c => (s, c.result)

/-- SUMMARY (R191). -/
def execSummary (p : Port) (m : Moment) (bytes : List Byte) (s : State) : Host.Outcome State Fault Refusal :=
  .next (s.upstream p (.summary p m bytes) false (takeSummary p m bytes))

/-! ### The link itself (R178 to R180) -/

/-- BADCODE at its release: the frame has no effect beyond its result (R180). A code of the table is no BADCODE (log 2). -/
def takeBadcode (p : Port) (code : Byte) (bytes : List Byte) (s : State) : State :=
  if frameCodes.contains code then s else (s.openFrame p).closeFrame p .badCode 1 bytes.length []

/-- BADCODE (R180). -/
def execBadcode (p : Port) (code : Byte) (bytes : List Byte) (s : State) : Host.Outcome State Fault Refusal :=
  .next (s.upstream p (.badcode p code bytes) false (takeBadcode p code bytes))

/-- A frame released before any complete byte: the link closes, no result is recorded (R178). -/
def takeFrameWithoutCode (p : Port) (s : State) : State :=
  s.modPort p (fun u => { u with link := { u.link with isOpen := false, captured := none } })

/-- FRAME_WITHOUT_CODE (R178). -/
def execFrameWithoutCode (p : Port) (s : State) : Host.Outcome State Fault Refusal :=
  .next (s.upstream p (.frameWithoutCode p) false (takeFrameWithoutCode p))

/-- The fall of CS# (R179). -/
def takeSummaryByte (p : Port) (s : State) : State := s.modPort p (·.fall)

/-- SUMMARY_BYTE (R179), after whatever stands ready (R4, R115, log 9). It ends the ignoring of an assertion that was low at the rise
of RESET# (R178). -/
def execSummaryByte (p : Port) (s : State) : Host.Outcome State Fault Refusal :=
  .next (if s.resetLow then s
    else if s.frameWaits p then s.wait (.frame (.summaryByte p)) else takeSummaryByte p s.settle)

end Sys2Proof.Machine
end

