-- ==== Sys2Proof/Machine/PolicyFrames.lean ====
section
/-! DEFINITION. The Policy Unit: READ ENTRY, STAGE ENTRY, COPY ACTIVE, APPLY and the taking of a successful APPLY (R4, R6 to
R14). -/

namespace Sys2Proof.Machine

/-! ### READ ENTRY (R8) -/

/-- The check and capture of READ ENTRY at its index byte: selector and index first, then the authority for STAGED (R8). -/
def grabReadEntry (p : Port) (bytes : List Byte) (s : State) : Captured :=
  let show' := fun (t : Table) (i : EntryIx) =>
    Captured.readEntry .ok ((pick t i).toBytes ++ bytes16 s.policy.generation)
  match (byteAt bytes 0).toNat, below 32 (byteAt bytes 1) with
  | 0, some i => show' s.policy.active i
  | 1, some i => if p = s.authority then show' s.policy.staged i else .readEntry .notAuth []
  | _, _ => .readEntry .badField []

/-- A capture made by READ ENTRY. -/
def Captured.isReadEntry : Captured → Bool
  | .readEntry _ _ => true
  | .fetch _ _ | .collect _ | .cause _ _ | .summary _ | .readTarget _ _ => false

/-- READ ENTRY at its capture or release (R8). -/
def takeReadEntry (p : Port) (m : Moment) (bytes : List Byte) (s : State) : State :=
  match m with
  | .capture => s.captureFrame p 3 bytes (grabReadEntry p bytes)
  | .release => s.replyFrame p 3 3 bytes Captured.isReadEntry (grabReadEntry p bytes) fun s c => (s, c.result)

/-- READ ENTRY (R8). -/
def execReadEntry (p : Port) (m : Moment) (bytes : List Byte) (s : State) : Host.Outcome State Fault Refusal :=
  .next (s.upstream p (.readEntry p m bytes) false (takeReadEntry p m bytes))

/-! ### STAGE ENTRY and COPY ACTIVE (R6, R7) -/

/-- A change to the staged table is taken, or follows the APPLYs that wait for an admission (R4). -/
def PolicyUnit.stageEdit (u : PolicyUnit) (e : Edit) : PolicyUnit :=
  if u.applies = 0 then u.edit e else { u with edits := u.edits ++ [e] }

/-- The Policy Unit changed. -/
def State.modPolicy (s : State) (f : PolicyUnit → PolicyUnit) : State := { s with policy := f s.policy }

/-- STAGE ENTRY at its release (R6, R188). -/
def takeStageEntry (p : Port) (bytes : List Byte) (s : State) : State :=
  s.plainFrame p 14 bytes fun s =>
    if p ≠ s.authority then (s, .notAuth)
    else match below 32 (byteAt bytes 0) with
      | none => (s, .badField)
      | some i => (s.modPolicy (·.stageEdit (.stage i (RegionEntry.ofBytes bytes 1))), .ok)

/-- STAGE ENTRY (R6). -/
def execStageEntry (p : Port) (bytes : List Byte) (s : State) : Host.Outcome State Fault Refusal :=
  .next (s.upstream p (.stageEntry p bytes) false (takeStageEntry p bytes))

/-- COPY ACTIVE at its release (R7). -/
def takeCopyActive (p : Port) (bytes : List Byte) (s : State) : State :=
  s.plainFrame p 1 bytes fun s =>
    if p ≠ s.authority then (s, .notAuth) else (s.modPolicy (·.stageEdit .copyActive), .ok)

/-- COPY ACTIVE (R7). -/
def execCopyActive (p : Port) (bytes : List Byte) (s : State) : Host.Outcome State Fault Refusal :=
  .next (s.upstream p (.copyActive p bytes) false (takeCopyActive p bytes))

/-! ### APPLY (R10 to R14) -/

/-- A valid entry meets the five requirements of R10; an invalid entry is not checked. -/
def RegionEntry.passes (e : RegionEntry) : Bool :=
  !e.valid || (e.ports != 0 && decide (1 ≤ e.size.toNat) && decide (e.size.toNat ≤ 65536) &&
    decide (e.base.toNat + e.size.toNat ≤ 1048576) && decide (e.offset.toNat + e.size.toNat ≤ 65536) &&
    decide (e.target.toNat ≤ 7))

/-- The lowest index whose staged entry fails (R11). -/
def PolicyUnit.failingIndex (u : PolicyUnit) : Option EntryIx :=
  allEntries.find? (fun i => !(pick u.staged i).passes)

/-- APPLY at its release: it fails with APPLYFAIL and a failure index (R11), or succeeds and is handed to the Policy Unit
(R4, R12), which takes it by APPLY_SUCCEEDS, before the next frame or lookup, or at the end of the admission (log 8). -/
def takeApply (p : Port) (bytes : List Byte) (s : State) : State :=
  s.plainFrame p 1 bytes fun s =>
    if p ≠ s.authority then (s, .notAuth)
    else match s.policy.failingIndex with
      | some i => (s.modPolicy (fun u => { u with failure := some i }), .applyFail)
      | none => (s.modPolicy (fun u => { u with applies := u.applies + 1 }), .ok)

/-- APPLY (R10, R11). -/
def execApply (p : Port) (bytes : List Byte) (s : State) : Host.Outcome State Fault Refusal :=
  .next (s.upstream p (.apply p bytes) false (takeApply p bytes))

/-- APPLY_SUCCEEDS: the oldest APPLY that has succeeded is taken; not while an admission lies between its lookup and its end
(R4, R12). -/
def execApplySucceeds (s : State) : Host.Outcome State Fault Refusal :=
  .next (if s.policy.applies = 0 || s.admission.current.isSome then s else s.applyTaken)

end Sys2Proof.Machine
end

