-- ==== Sys2Proof/Machine/TargetFrames.lean ====
section
/-! DEFINITION. Targets and buses as the authority handles them: READ TARGET, SETUP TARGET, REMOVE TARGET, RESET TARGET, RESET
BUS, BUS MODE and the two reset claims (R30 to R34, R80, R95 to R97, R115, R116). -/

namespace Sys2Proof.Machine

/-! ### READ TARGET (R34, R190) -/

/-- The state codes of R190. -/
def TargetState.code : TargetState → Byte
  | .absent => 0
  | .idle => 1
  | .programming => 2
  | .erasing => 3
  | .suspending => 4
  | .suspended => 5
  | .faulted => 6
  | .resetting => 7

/-- Bytes G33 and G34: the owner and its tag (R190). -/
def ownerBytes : Option Item → List Byte
  | some it =>
    [flagBit true 7 ||| flagBit it.orphan 6 ||| (BitVec.ofNat 8 it.port.val <<< 4) ||| it.kind.code, it.tag]
  | none => [0, 0]

/-- Bytes G35 to G39: the unit under erase (R190). -/
def unitBytes : Option UnitRange → List Byte
  | some u => (flagBit true 7 ||| u.size.code) :: bytes32 (BitVec.ofNat 32 u.first)
  | none => [0, 0, 0, 0, 0]

/-- Byte G44: the pending reset (R190). -/
def pendingResetByte : Option PendingReset → Byte
  | some pr => BitVec.ofNat 8 pr.toSend ||| flagBit pr.recovering 7
  | none => 0

/-- The 45 bytes of the READ TARGET reply (R190). -/
def State.targetReply (s : State) (t : Target) : List Byte :=
  let r := s.target t
  [BitVec.ofNat 8 t.val, r.state.code] ++ r.profile.toBytes ++ ownerBytes (r.owner.bind (s.bus (busOf t)).find) ++
    unitBytes r.unit ++ [BitVec.ofNat 8 r.suspendCount] ++
    bytes24 (BitVec.ofNat 24 (r.busyTime / Config.ticksPerMicrosecond)) ++ [pendingResetByte r.pendingReset]

/-- The check and capture of READ TARGET at its target byte (R34). -/
def grabReadTarget (bytes : List Byte) (s : State) : Captured :=
  match below 8 (byteAt bytes 0) with
  | some t => .readTarget .ok (s.targetReply t)
  | none => .readTarget .badField []

/-- A capture made by READ TARGET. -/
def Captured.isReadTarget : Captured → Bool
  | .readTarget _ _ => true
  | .fetch _ _ | .collect _ | .cause _ _ | .summary _ | .readEntry _ _ => false

/-- READ TARGET at its capture or release (R34). -/
def takeReadTarget (p : Port) (m : Moment) (bytes : List Byte) (s : State) : State :=
  match m with
  | .capture => s.captureFrame p 2 bytes (grabReadTarget bytes)
  | .release => s.replyFrame p 2 2 bytes Captured.isReadTarget (grabReadTarget bytes) fun s c => (s, c.result)

/-- READ TARGET (R34). -/
def execReadTarget (p : Port) (m : Moment) (bytes : List Byte) (s : State) : Host.Outcome State Fault Refusal :=
  .next (s.upstream p (.readTarget p m bytes) false (takeReadTarget p m bytes))

/-! ### SETUP TARGET and REMOVE TARGET (R30 to R33) -/

/-- A profile stored: an ABSENT target becomes IDLE, IDLE and FAULTED stay (R31). -/
def TargetRecord.setup (r : TargetRecord) (pr : Profile) : TargetRecord :=
  if r.state = .absent then { TargetRecord.absent with profile := pr, state := .idle } else { r with profile := pr }

/-- SETUP TARGET at its release: authority, target number, profile, quietness, in this order (R30). -/
def takeSetupTarget (p : Port) (bytes : List Byte) (s : State) : State :=
  s.plainFrame p 33 bytes fun s =>
    if p ≠ s.authority then (s, .notAuth)
    else match below 8 (byteAt bytes 0), Profile.ofBytes bytes 1 with
      | none, _ => (s, .badField)
      | some _, none => (s, .badField)
      | some t, some pr => if s.quiet t then (s.modTarget t (·.setup pr), .ok) else (s, .notNow)

/-- A SETUP TARGET that reaches the Target Tracker while an admission has read this target's record (R33). -/
def State.setupWaits (s : State) (p : Port) (bytes : List Byte) : Bool :=
  decide (p = s.authority) && decide (32 ≤ bytes.length) && (Profile.ofBytes bytes 1).isSome &&
    match below 8 (byteAt bytes 0) with
    | some t => s.admittingTarget t
    | none => false

/-- SETUP TARGET (R30, R31). -/
def execSetupTarget (p : Port) (bytes : List Byte) (s : State) : Host.Outcome State Fault Refusal :=
  .next (s.upstream p (.setupTarget p bytes) (s.setupWaits p bytes) (takeSetupTarget p bytes))

/-- The states in which REMOVE TARGET may be taken (R32). -/
def TargetRecord.removable (r : TargetRecord) : Bool := decide (r.state = .idle) || decide (r.state = .faulted)

/-- REMOVE TARGET at its release (R32). -/
def takeRemoveTarget (p : Port) (bytes : List Byte) (s : State) : State :=
  s.plainFrame p 2 bytes fun s =>
    if p ≠ s.authority then (s, .notAuth)
    else match below 8 (byteAt bytes 0) with
      | none => (s, .badField)
      | some t =>
        if (s.target t).removable && s.quiet t then (s.setTarget t .absent, .ok) else (s, .notNow)

/-- A REMOVE TARGET that reaches the Target Tracker while an admission has read this target's record (R33). -/
def State.removeWaits (s : State) (p : Port) (bytes : List Byte) : Bool :=
  decide (p = s.authority) && decide (1 ≤ bytes.length) &&
    match below 8 (byteAt bytes 0) with
    | some t => s.admittingTarget t
    | none => false

/-- REMOVE TARGET (R32). -/
def execRemoveTarget (p : Port) (bytes : List Byte) (s : State) : Host.Outcome State Fault Refusal :=
  .next (s.upstream p (.removeTarget p bytes) (s.removeWaits p bytes) (takeRemoveTarget p bytes))

/-! ### RESET TARGET and its claim (R115, R116) -/

/-- A target reset claim reaches the Target Tracker: it waits for an admission that has read the target, else it stands ready
to be taken (R52, R115). -/
def State.sendTargetReset (s : State) (t : Target) : State :=
  if s.admittingTarget t then s.wait (.targetReset t) else { s with resetClaims := s.resetClaims ++ [t] }

/-- RESET TARGET at its release: the result is recorded and a claim is sent (R115). -/
def takeResetTarget (p : Port) (bytes : List Byte) (s : State) : State :=
  s.plainFrame p 2 bytes fun s =>
    if p ≠ s.authority then (s, .notAuth)
    else match below 8 (byteAt bytes 0) with
      | none => (s, .badField)
      | some t =>
        match (s.target t).state with
        | .absent | .resetting => (s, .notNow)
        | .idle | .programming | .erasing | .suspending | .suspended | .faulted => (s.sendTargetReset t, .ok)

/-- RESET TARGET (R115). -/
def execResetTarget (p : Port) (bytes : List Byte) (s : State) : Host.Outcome State Fault Refusal :=
  .next (s.upstream p (.resetTarget p bytes) false (takeResetTarget p bytes))

/-- TARGET_RESET_CLAIM: the claim on `t` is taken, once any frame in flight to it has ended (R115, R116). -/
def execTargetResetClaim (t : Target) (s : State) : Host.Outcome State Fault Refusal :=
  .next (if s.resetClaims.contains t && !s.frameTo t then s.settleTargetReset t else s)

/-! ### RESET BUS and its claim (R95 to R97) -/

/-- A bus reset claim is issued: it waits for an admission that has read a target of the bus, else it stands ready (R95). -/
def State.sendBusReset (s : State) (b : Bus) : State :=
  if s.admittingBus b then s.wait (.busReset b) else s.modBus b (fun e => { e with resets := e.resets + 1 })

/-- RESET BUS at its release (R95). -/
def takeResetBus (p : Port) (bytes : List Byte) (s : State) : State :=
  s.plainFrame p 2 bytes fun s =>
    if p ≠ s.authority then (s, .notAuth)
    else match below 2 (byteAt bytes 0) with
      | none => (s, .badField)
      | some b => (s.sendBusReset b, .ok)

/-- RESET BUS (R95). -/
def execResetBus (p : Port) (bytes : List Byte) (s : State) : Host.Outcome State Fault Refusal :=
  .next (s.upstream p (.resetBus p bytes) false (takeResetBus p bytes))

/-- BUS_RESET_CLAIM: the oldest bus reset claim of `b` is taken (R96, R97, R119). -/
def execBusResetClaim (b : Bus) (s : State) : Host.Outcome State Fault Refusal :=
  .next (if (s.bus b).resets = 0 then s else s.settleBusReset b)

/-! ### BUS MODE (R79 to R81) -/

/-- FLOAT is refused: the bus is not in FLOAT, and a frame is in flight or a target of the bus is not at rest (R80 check 3). -/
def State.floatRefused (s : State) (b : Bus) : Bool :=
  decide ((s.bus b).mode ≠ .float) &&
    ((s.bus b).frame.isSome || (targetsOf b).any (fun t => !(s.target t).atRest))

/-- BUS MODE at its release (R80). -/
def takeBusMode (p : Port) (bytes : List Byte) (s : State) : State :=
  s.plainFrame p 3 bytes fun s =>
    if p ≠ s.authority then (s, .notAuth)
    else match below 2 (byteAt bytes 0), BusMode.ofByte (byteAt bytes 1) with
      | some b, some mode =>
        if decide (mode = .float) && s.floatRefused b then (s, .notNow)
        else (s.modBus b (fun e => { e with mode }), .ok)
      | _, _ => (s, .badField)

/-- BUS MODE (R80). -/
def execBusMode (p : Port) (bytes : List Byte) (s : State) : Host.Outcome State Fault Refusal :=
  .next (s.upstream p (.busMode p bytes) false (takeBusMode p bytes))

/-! ### Device reset (R2, R35, R42, R61, R94, R138, R152, R168, R184) -/

/-- DEVICE_RESET: RESET# is low; every block takes its device-reset values and every request is discarded (R94). The authority
port keeps its old value until AUTH is sampled; nothing reads it meanwhile (log 1). -/
def execDeviceReset (s : State) : Host.Outcome State Fault Refusal :=
  .next { State.reset with resetLow := true, authority := s.authority, pending := s.pending }

/-- The link of a port as RESET# rises: an assertion already low is ignored (R178). -/
def PortUnit.releaseReset (u : PortUnit) (csLow : Bool) : PortUnit :=
  { u with link := { u.link with ignoring := csLow } }

/-- RESET_RELEASE: as RESET# rises AUTH[1:0] is sampled (R184) and low chip selects are ignored (R178). With RESET# high the
edge cannot come (log 2). -/
def execResetRelease (auth : BitVec 2) (csLow : BitVec 4) (s : State) : Host.Outcome State Fault Refusal :=
  .next (if s.resetLow then
      allPorts.foldl (fun s p => s.modPort p (·.releaseReset (csLow.getLsbD p.val)))
        { s with resetLow := false, authority := auth.toFin }
    else s)

end Sys2Proof.Machine
end

