-- ==== Sys2Proof/Machine/Downstream.lean ====
section
/-! DEFINITION. The Bus Engines: the choice at a frame boundary (R68 to R77, R122, R124, R132), the frames in flight (R82 to
R93) and what their ends bring about (R91, R97, R101 to R109, R117, R120, R126 to R130, R134). -/

namespace Sys2Proof.Machine

/-! ### Eligibility (R72, R75, R76) -/

/-- The physical range of an item overlaps the unit under erase: they share an address (R75). -/
def Item.overlaps (it : Item) (u : UnitRange) : Bool :=
  decide (max it.address u.first < min (it.address + it.length) (u.first + u.size.bytes))

/-- An item's kind may start in its target's state (R75). -/
def Item.stateAllows (it : Item) (r : TargetRecord) : Bool :=
  match it.kind, r.state with
  | .read, .idle => true
  | .read, .suspended =>
    match r.unit with
    | some u => !it.overlaps u
    | none => true
  | .program, .idle => true
  | .erase, .idle => true
  | .status, .idle | .status, .programming | .status, .erasing | .status, .suspended => true
  | _, _ => false

/-- An earlier item holds back a later one: same port and target, in any state, unless the later is an urgent READ or STATUS
and the earlier an ERASE (R76). -/
def Item.holdsBack (earlier later : Item) : Bool :=
  decide (earlier.port = later.port) && decide (earlier.target = later.target) &&
    !(later.urgent && (decide (later.kind = .read) || decide (later.kind = .status)) && decide (earlier.kind = .erase))

/-- An item passes the ordering of R76. -/
def BusEngine.passesOrder (e : BusEngine) (it : Item) : Bool :=
  (e.list.takeWhile (fun x => x.uid != it.uid)).all (fun x => !x.holdsBack it)

/-- Eligible apart from the target state (R72). -/
def BusEngine.eligibleApart (e : BusEngine) (it : Item) : Bool := decide (it.state = .queued) && e.passesOrder it

/-- Eligible (R72, R75, R76). -/
def State.eligible (s : State) (b : Bus) (it : Item) : Bool :=
  (s.bus b).eligibleApart it && it.stateAllows (s.target it.target)

/-! ### The conditions of suspension (R122, R124, R132) -/

/-- An item is a trigger for a target (R124). -/
def State.trigger (s : State) (b : Bus) (t : Target) (it : Item) : Bool :=
  decide (it.target = t) && decide (it.kind = .read) && it.urgent && (s.bus b).eligibleApart it &&
    match (s.target t).unit with
    | some u => !it.overlaps u
    | none => true

/-- The suspend condition of a target (R122). -/
def State.suspendCondition (s : State) (b : Bus) (t : Target) : Bool :=
  let r := s.target t
  decide (r.state = .erasing) && decide (0 < r.profile.nsus.toNat) && decide (r.suspendCount < r.profile.nsus.toNat) &&
    decide (r.holdOff = .expired) && decide ((s.bus b).mode = .run) && (s.bus b).list.any (s.trigger b t)

/-- The resume condition of a target (R132). -/
def State.resumeCondition (s : State) (b : Bus) (t : Target) : Bool :=
  let r := s.target t
  decide (r.state = .suspended) &&
    (decide (r.held = .expired) || !(s.bus b).list.any (fun it =>
      decide (it.target = t) && (decide (it.kind = .read) || decide (it.kind = .status)) && s.eligible b it))

/-- A poll of a target is due (R71). -/
def TargetRecord.pollDue (r : TargetRecord) : Bool :=
  decide (r.poll = .expired) &&
    (decide (r.state = .programming) || decide (r.state = .erasing) || decide (r.state = .suspending))

/-- A reset frame of a target is still to send (R70). -/
def TargetRecord.resetDue (r : TargetRecord) : Bool :=
  decide (r.state = .resetting) &&
    match r.pendingReset with
    | some pr => decide (0 < pr.toSend)
    | none => false

/-! ### The six levels (R69 to R74) -/

/-- What a choice takes: a maintenance frame to a target, an urgent item, or a normal item. -/
inductive Chosen where
  | maintenance (kind : FrameKind) (t : Target)
  | urgentItem (it : Item)
  | normalItem (it : Item)
  deriving DecidableEq, Repr

/-- Level 1: the lowest-numbered target with a reset frame to send (R70). -/
def State.level1 (s : State) (b : Bus) : Option Chosen :=
  ((targetsOf b).find? (fun t => (s.target t).resetDue)).map (Chosen.maintenance .reset)

/-- Level 2: the first due poll from the poll pointer on, in cyclic order (R71). -/
def State.level2 (s : State) (b : Bus) : Option Chosen :=
  let c := (s.bus b).pollPtr
  ([c, c + 1, c + 2, c + 3].find? (fun k => (s.target (targetOf b k)).pollDue)).map
    (fun k => .maintenance .poll (targetOf b k))

/-- Level 3: the lowest-numbered target whose resume condition holds (R72). -/
def State.level3 (s : State) (b : Bus) : Option Chosen :=
  ((targetsOf b).find? (s.resumeCondition b)).map (Chosen.maintenance .resume)

/-- Level 4: the lowest-numbered target whose suspend condition holds (R72). -/
def State.level4 (s : State) (b : Bus) : Option Chosen :=
  ((targetsOf b).find? (s.suspendCondition b)).map (Chosen.maintenance .suspend)

/-- Level 5: the oldest eligible urgent QUEUED item (R73). -/
def State.level5 (s : State) (b : Bus) : Option Chosen :=
  ((s.bus b).list.find? (fun it => it.urgent && s.eligible b it)).map Chosen.urgentItem

/-- Level 6: the oldest eligible normal item of the first port, from the port pointer on, that has one (R74). -/
def State.level6 (s : State) (b : Bus) : Option Chosen :=
  let p := (s.bus b).portPtr
  ([p, p + 1, p + 2, p + 3].findSome? (fun q =>
    (s.bus b).list.find? (fun it => decide (it.port = q) && !it.urgent && s.eligible b it))).map Chosen.normalItem

/-- The first level that offers anything; the mode decides which are considered (R69, R79). -/
def State.choose (s : State) (b : Bus) : Option Chosen :=
  match (s.bus b).mode with
  | .float => none
  | .halt => s.level1 b <|> s.level2 b <|> s.level3 b
  | .run => s.level1 b <|> s.level2 b <|> s.level3 b <|> s.level4 b <|> s.level5 b <|> s.level6 b

/-! ### Building a frame (R82, R84, R36) -/

/-- The framing fields of a profile (R82). -/
def Profile.framing (pr : Profile) : Framing :=
  { divider := pr.divider, csSetup := pr.csSetup, csHold := pr.csHold, gapLength := pr.gapLength, gapMode := pr.gapMode,
    bitOrder := pr.bitOrder }

/-- The address bytes of a frame, most significant first, as many as the address width (R84). -/
def Profile.addressBytes (pr : Profile) (address : Nat) : List Byte :=
  match pr.addressWidth with
  | .three => (bytes32 (BitVec.ofNat 32 address)).drop 1
  | .four => bytes32 (BitVec.ofNat 32 address)

/-- The phase in which a whole frame stands as its chip select is asserted: SETUP, or its first byte where cs setup is 0 (R83). -/
def Framing.firstPhase (f : Framing) : Phase := if f.csSetup = 0 then .byte else .setup

/-- The progress at a choice: the deselect interval still to run, or the assertion at once when it is over (R83). The interval is
counted from the last frame's release, through a stay in FLOAT too, which is the model's choice (log 17). -/
def BusEngine.startProgress (e : BusEngine) (f : Framing) : Progress :=
  if Config.deselectHalfClocks * f.halfClock ≤ e.sinceRelease then { phase := f.firstPhase, bytes := 0, spent := 0 }
  else { phase := .deselect, bytes := 0, spent := e.sinceRelease }

/-- The record of a maintenance frame (R82, R84, R90). -/
def State.maintenanceFrame (s : State) (b : Bus) (kind : FrameKind) (t : Target) : FrameRecord :=
  let r := s.target t
  let pr := r.profile
  let toSend := (r.pendingReset.map (·.toSend)).getD 0
  let opcode := match kind with
    | .poll | .status => pr.statusOpcode
    | .suspend => pr.suspendOpcode
    | .resume => pr.resumeOpcode
    | .reset => if toSend = pr.resetLength.val then pr.resetOpcode1 else pr.resetOpcode2
    | .read => pr.readOpcode
    | .programPair => pr.programOpcode
    | .erasePair => pr.eraseOpcode
  { kind, target := t, item := none, framing := pr.framing, writeEnable := [], header := [opcode], address := 0,
    direction := if kind = .poll then .input else .none, count := if kind = .poll then 1 else 0, pair := none,
    progress := (s.bus b).startProgress pr.framing, earlyEnd := none, overtaken := false }

/-- The record of an item's frame or frame pair (R77, R82, R84, R88). -/
def State.itemFrame (s : State) (b : Bus) (it : Item) : FrameRecord :=
  let pr := (s.target it.target).profile
  let base : FrameRecord :=
    { kind := .status, target := it.target, item := some it.uid, framing := pr.framing, writeEnable := [],
      header := [pr.statusOpcode], address := 0, direction := .input, count := 1, pair := none,
      progress := (s.bus b).startProgress pr.framing, earlyEnd := none, overtaken := false }
  match it.kind with
  | .status => base
  | .read =>
    { base with kind := .read, address := it.address, count := it.length,
                header := pr.readOpcode :: (pr.addressBytes it.address ++ List.replicate pr.dummyBytes.toNat 0) }
  | .program =>
    { base with kind := .programPair, writeEnable := [pr.writeEnableOpcode], address := it.address,
                header := pr.programOpcode :: pr.addressBytes it.address, direction := .output, count := it.length,
                pair := some .first }
  | .erase =>
    let unit := it.unitAddress pr.eraseUnit
    { base with kind := .erasePair, writeEnable := [pr.writeEnableOpcode], address := unit,
                header := pr.eraseOpcode :: pr.addressBytes unit, direction := .none, count := 0, pair := some .first }

/-- A bus starts a frame. -/
def BusEngine.start (e : BusEngine) (r : FrameRecord) : BusEngine := { e with frame := some r }

/-- An item becomes ACTIVE and its frame starts (R77). -/
def State.startItem (s : State) (b : Bus) (it : Item) : State :=
  s.modBus b (fun e => (e.modItem it.uid (fun x => { x with state := .active })).start (s.itemFrame b it))

/-- What a choice brings about: the frame starts, an item becomes ACTIVE, and the poll or port pointer moves (R71, R74,
R77). -/
def State.startChosen (s : State) (b : Bus) (c : Chosen) : State :=
  match c with
  | .maintenance kind t =>
    s.modBus b (fun e => { e.start (s.maintenanceFrame b kind t) with
      pollPtr := if kind = .poll then chipSelectOf t + 1 else e.pollPtr })
  | .urgentItem it => s.startItem b it
  | .normalItem it => (s.startItem b it).modBus b (fun e => { e with portPtr := it.port + 1 })

/-- CHOICE: with the activity IDLE, the first level that offers something is taken; nothing to choose leaves the bus IDLE (R68,
R69). Whatever stands ready is taken before the choice (R115, log 9). -/
def execChoice (b : Bus) (s : State) : Host.Outcome State Fault Refusal :=
  .next (match (s.bus b).frame with
    | some _ => s
    | none =>
      let s1 := s.settle
      match s1.choose b with
      | some c => s1.startChosen b c
      | none => s1)

/-! ### Data bytes (R86, R87) -/

/-- The frame in flight on a bus together with the item it serves. -/
def BusEngine.serving (e : BusEngine) : Option (FrameRecord × Item) :=
  match e.frame with
  | some r => (r.item.bind e.find).map (fun it => (r, it))
  | none => none

/-- An item with one more byte received: bytes moved rises, and the first four bytes are head bytes (R86). -/
def Item.receive (it : Item) (data : Byte) : Item :=
  { it with bytesMoved := it.bytesMoved + 1
            headBytes := if it.bytesMoved < 4 then it.headBytes ++ [data] else it.headBytes }

/-- The byte received as eight samples of SDI, the first of them in bit 7: with MSB FIRST the first sample is bit 7 of the byte,
with LSB FIRST bit 0 (R22, R83). -/
def BitOrder.received (o : BitOrder) (sdi : Byte) : Byte :=
  match o with
  | .msbFirst => sdi
  | .lsbFirst => sdi.reverse

/-- DATA_BYTE_RECEIVED: the next data byte of the READ in flight, while one is still to come (R86, R92), put together from its
eight samples in the bit order of the frame (R83). One event counts the byte and ends it, although its eighth bit is sampled a
half clock before its end: the model's choice (log 16). -/
def execDataByteReceived (b : Bus) (sdi : Byte) (s : State) : Host.Outcome State Fault Refusal :=
  .next (match (s.bus b).serving with
    | some (r, it) =>
      if r.kind = .read && decide (it.bytesMoved < r.dataLimit) then
        let data := r.framing.bitOrder.received sdi
        (s.modBus b (fun e => (e.modItem it.uid (·.receive data)).start
          { r with progress := r.afterBytes (r.header.length + it.bytesMoved + 1) })).modPort it.port
            (·.modSlot? it.slot (fun k => { k with data := k.data.write it.bytesMoved data }))
      else s
    | none => s)

/-- DATA_BYTE_SENT: the next data byte of the program frame in flight, counted and ended in one event (R87, log 16). -/
def execDataByteSent (b : Bus) (s : State) : Host.Outcome State Fault Refusal :=
  .next (match (s.bus b).serving with
    | some (r, it) =>
      if decide (r.kind = .programPair) && decide (r.pair = some .second) && decide (it.bytesMoved < r.count) then
        s.modBus b (fun e => (e.modItem it.uid (fun x => { x with bytesMoved := x.bytesMoved + 1 })).start
          { r with progress := r.afterBytes (r.header.length + it.bytesMoved + 1) })
      else s
    | none => s)

/-! ### The end of a frame (R91, R97, R115) -/

/-- The record is discarded and the activity is IDLE; a target reset claim that waited for this frame is then taken (R91 step
3, R115). -/
def State.releaseBus (s : State) (b : Bus) (t : Target) : State :=
  let s1 := s.modBus b (fun e => { e with frame := none, sinceRelease := 0 })
  if s1.resetClaims.contains t then s1.settleTargetReset t else s1

/-- The record of a READ whose frame has ended (R91, R93, R97). -/
def FrameRecord.readRecord (r : FrameRecord) (it : Item) : Completion :=
  if r.overtaken then it.record .failed .aborted
  else if r.earlyEnd.isSome then it.record .truncated .cancelled
  else it.record .done .none

/-- READ_FRAME_END: once every data byte that the frame moves has been received (R91, R92). -/
def execReadFrameEnd (b : Bus) (s : State) : Host.Outcome State Fault Refusal :=
  .next (match (s.bus b).serving with
    | some (r, it) =>
      if r.kind = .read && decide (r.dataLimit ≤ it.bytesMoved) then
        (s.finish b it (r.readRecord it)).releaseBus b r.target
      else s
    | none => s)

/-- WRITE_ENABLE_FRAME_END: the pair position moves to SECOND; the second frame follows tDSL later (R83, R87). -/
def execWriteEnableFrameEnd (b : Bus) (s : State) : Host.Outcome State Fault Refusal :=
  .next (match (s.bus b).frame with
    | some r =>
      if r.pair = some .first then
        s.modBus b (·.start { r with pair := some .second, progress := { phase := .deselect, bytes := 0, spent := 0 } })
      else s
    | none => s)

/-- A target enters PROGRAMMING (R104). -/
def TargetRecord.toProgramming (r : TargetRecord) (owner : Nat) : TargetRecord :=
  { r with state := .programming, owner := some owner, poll := .start r.profile.pollPeriod,
           program := .start r.profile.programPeriod }

/-- An item becomes OWNER-BUSY and keeps its place (R104, R107). -/
def State.makeOwner (s : State) (b : Bus) (uid : Nat) : State :=
  s.modBus b (·.modItem uid (fun x => { x with state := .ownerBusy }))

/-- PROGRAM_PAIR_END: once every data byte has been sent. An overtaken pair aborts its item (R87, R97, R104). -/
def execProgramPairEnd (b : Bus) (s : State) : Host.Outcome State Fault Refusal :=
  .next (match (s.bus b).serving with
    | some (r, it) =>
      if decide (r.kind = .programPair) && decide (r.pair = some .second) && decide (r.count ≤ it.bytesMoved) then
        (if r.overtaken then s.finish b it (it.record .failed .aborted)
          else (s.modTarget r.target (·.toProgramming it.uid)).makeOwner b it.uid).releaseBus b r.target
      else s
    | none => s)

/-- A target enters ERASING with the unit at `address` (R107). -/
def TargetRecord.toErasing (r : TargetRecord) (owner address : Nat) : TargetRecord :=
  { r with state := .erasing, owner := some owner, unit := some { first := address, size := r.profile.eraseUnit },
           suspendCount := 0, busyTime := 0, holdOff := .start r.profile.holdOffPeriod,
           poll := .start r.profile.pollPeriod }

/-- ERASE_PAIR_END: the unit's start is handed to the Tracker. An overtaken pair aborts its item (R88, R97, R107). -/
def execErasePairEnd (b : Bus) (s : State) : Host.Outcome State Fault Refusal :=
  .next (match (s.bus b).serving with
    | some (r, it) =>
      if decide (r.kind = .erasePair) && decide (r.pair = some .second) then
        (if r.overtaken then s.finish b it (it.record .failed .aborted)
          else (s.modTarget r.target (·.toErasing it.uid r.address)).makeOwner b it.uid).releaseBus b r.target
      else s
    | none => s)

/-! ### Status results (R101, R105, R109, R127, R128, R130) -/

/-- The poll timer starts again (R102). -/
def TargetRecord.restartPoll (r : TargetRecord) : TargetRecord := { r with poll := .start r.profile.pollPeriod }

/-- An erase unit ends: the target becomes IDLE, and the owner fails, completes or returns to QUEUED (R109, R128). -/
def State.eraseUnitEnd (s : State) (t : Target) (failed : Bool) : State :=
  let owner := (s.target t).owner
  let s1 := s.modTarget t (·.toIdle)
  if failed then s1.finishOwner t owner .failed .devFail else s1.unitEndedWell t owner

/-- A program ends: the target becomes IDLE and the owner completes (R105). -/
def State.programEnd (s : State) (t : Target) (failed : Bool) : State :=
  let owner := (s.target t).owner
  let s1 := s.modTarget t (·.toIdle)
  if failed then s1.finishOwner t owner .failed .devFail else s1.finishOwner t owner .done .none

/-- The hold is confirmed: the target becomes SUSPENDED and the suspended timer starts (R130). -/
def TargetRecord.toSuspended (r : TargetRecord) : TargetRecord :=
  { r with state := .suspended, latency := .stopped, poll := .stopped, held := .start r.profile.heldPeriod }

/-- The Target Tracker takes a status result (R101). -/
def State.statusResult (s : State) (t : Target) (status : Byte) : State :=
  match (s.target t).state, (s.target t).profile.judge status with
  | .programming, .busy => s.modTarget t (·.restartPoll)
  | .programming, .clear failed _ => s.programEnd t failed
  | .erasing, .busy => s.modTarget t (·.restartPoll)
  | .erasing, .clear failed _ => s.eraseUnitEnd t failed
  | .suspending, .busy => s.modTarget t (·.restartPoll)
  | .suspending, .clear _ true => s.modTarget t (·.toSuspended)
  | .suspending, .clear failed false => s.eraseUnitEnd t failed
  | .absent, _ | .idle, _ | .suspended, _ | .faulted, _ | .resetting, _ => s

/-- A STATUS item leaves with the raw status byte as its one head byte (R89, R91, R98). -/
def State.finishStatusItem (s : State) (b : Bus) (r : FrameRecord) (status : Byte) : State :=
  match r.item.bind (s.bus b).find with
  | some it =>
    let rec' := if r.overtaken then it.record .failed .aborted else it.record .done .none
    s.finish b it { rec' with headBytes := [status] }
  | none => s

/-- STATUS_FRAME_END: the byte, put together from its eight samples in the bit order of the frame (R83), goes to the Tracker
unless overtaken, then a STATUS item completes (R89, R91, R97). -/
def execStatusFrameEnd (b : Bus) (sdi : Byte) (s : State) : Host.Outcome State Fault Refusal :=
  .next (match (s.bus b).frame with
    | some r =>
      if decide (r.kind = .status) || decide (r.kind = .poll) then
        let status := r.framing.bitOrder.received sdi
        ((if r.overtaken then s else s.statusResult r.target status).finishStatusItem b r status).releaseBus b r.target
      else s
    | none => s)

/-! ### Suspend, resume and reset frames (R117, R120, R126, R134) -/

/-- A target enters SUSPENDING (R126). -/
def TargetRecord.toSuspending (r : TargetRecord) : TargetRecord :=
  { r with state := .suspending, suspendCount := r.suspendCount + 1, latency := .start r.profile.latencyPeriod,
           holdOff := .stopped }

/-- The owner item of a target, changed. -/
def State.modOwner (s : State) (t : Target) (f : Item → Item) : State :=
  match (s.target t).owner with
  | some uid => s.modBus (busOf t) (·.modItem uid f)
  | none => s

/-- The Tracker takes the end of a suspend; it has no effect unless the target is ERASING (R126). -/
def State.suspendEnd (s : State) (t : Target) : State :=
  if (s.target t).state = .erasing then
    (s.modOwner t (fun x => { x with state := .ownerSuspended, suspendCount := x.suspendCount + 1 })).modTarget t
      (·.toSuspending)
  else s

/-- SUSPEND_FRAME_END (R120, R126). -/
def execSuspendFrameEnd (b : Bus) (s : State) : Host.Outcome State Fault Refusal :=
  .next (match (s.bus b).frame with
    | some r =>
      if r.kind = .suspend then (if r.overtaken then s else s.suspendEnd r.target).releaseBus b r.target else s
    | none => s)

/-- A SUSPENDED target returns to ERASING; the busy time counts on from its held value (R134). -/
def TargetRecord.toResumed (r : TargetRecord) : TargetRecord :=
  { r with state := .erasing, held := .stopped, holdOff := .start r.profile.holdOffPeriod,
           poll := .start r.profile.pollPeriod }

/-- The Tracker takes the end of a resume (R134). -/
def State.resumeEnd (s : State) (t : Target) : State :=
  if (s.target t).state = .suspended then
    (s.modOwner t (fun x => { x with state := .ownerBusy })).modTarget t (·.toResumed)
  else s

/-- RESUME_FRAME_END (R120, R134). -/
def execResumeFrameEnd (b : Bus) (s : State) : Host.Outcome State Fault Refusal :=
  .next (match (s.bus b).frame with
    | some r =>
      if r.kind = .resume then (if r.overtaken then s else s.resumeEnd r.target).releaseBus b r.target else s
    | none => s)

/-- One reset frame has been sent; after the last the recovery timer starts (R117). -/
def TargetRecord.resetSent (r : TargetRecord) : TargetRecord :=
  match r.state, r.pendingReset with
  | .resetting, some pr =>
    if pr.toSend ≤ 1 then
      { r with pendingReset := some { toSend := 0, recovering := true }, recovery := .start r.profile.recoveryPeriod }
    else { r with pendingReset := some { pr with toSend := pr.toSend - 1 } }
  | _, _ => r

/-- RESET_FRAME_END (R117, R120). -/
def execResetFrameEnd (b : Bus) (s : State) : Host.Outcome State Fault Refusal :=
  .next (match (s.bus b).frame with
    | some r =>
      if r.kind = .reset then
        (if r.overtaken then s else s.modTarget r.target (·.resetSent)).releaseBus b r.target
      else s
    | none => s)

/-! ### What the pins show (R81, R83) -/

/-- The levels of a bus's pins. In FLOAT they are released. `select` is the asserted chip select, `clock` is SCK, `data` is SDO
where the spec gives its level: while a byte is shifted and while a pause holds its last bit (log 13). -/
inductive Pins where
  | released
  | driven (select : Option (Fin 4)) (clock : Bool) (data : Option Bool)
  deriving DecidableEq, Repr

/-- The byte that SDO sends as byte `n` of the current frame: header, slot data, or 0x00 while one is received (R83, R84). -/
def State.byteSent (s : State) (b : Bus) (r : FrameRecord) (n : Nat) : Byte :=
  if n < r.currentHeader.length then byteAt r.currentHeader n
  else match r.direction, (s.bus b).serving with
    | .output, some (_, it) =>
      match it.slot with
      | some k => (pick (s.port it.port).slots k).data.read (n - r.currentHeader.length)
      | none => 0
    | _, _ => 0

/-- Bit `i` in sending order of a byte: bit 7 first with MSB FIRST, bit 0 first with LSB FIRST (R83). -/
def BitOrder.bit (o : BitOrder) (w : Byte) (i : Nat) : Bool :=
  match o with
  | .msbFirst => w.getLsbD (7 - i)
  | .lsbFirst => w.getLsbD i

/-- The half clock of the byte being shifted, 0 to 15. -/
def FrameRecord.halfClockOfByte (r : FrameRecord) : Nat := min 15 (r.progress.spent / r.framing.halfClock)

/-- The pins of a bus: two half clocks for each bit, SCK high in the second (R81, R83). -/
def State.pins (s : State) (b : Bus) : Pins :=
  match (s.bus b).mode, (s.bus b).frame with
  | .float, _ => .released
  | _, none => .driven none false none
  | _, some r =>
    let select := some (chipSelectOf r.target)
    match r.progress.phase with
    | .deselect => .driven none false none
    | .byte =>
      .driven select (r.halfClockOfByte % 2 == 1)
        (some (r.framing.bitOrder.bit (s.byteSent b r r.progress.bytes) (r.halfClockOfByte / 2)))
    | .pause => .driven select false (some (r.framing.bitOrder.bit (s.byteSent b r (r.progress.bytes - 1)) 7))
    | .setup | .hold => .driven select false none

/-- The bit, in line order, of a data or status byte whose level on SDI is sampled in this clock period: at each rising edge of
SCK in a byte that the frame receives. The level on SDI counts at no other moment (R83). -/
def FrameRecord.sampledBit (r : FrameRecord) : Option Nat :=
  let half := r.framing.halfClock
  if r.progress.phase = .byte ∧ r.direction = .input ∧ r.currentHeader.length ≤ r.progress.bytes ∧
      r.progress.spent % (2 * half) = half then some (r.progress.spent / (2 * half))
  else none

/-- The number of pauses of the current frame (R85). -/
def FrameRecord.pauses (r : FrameRecord) : Nat :=
  match r.framing.gapMode with
  | .none => 0
  | .everyByte => r.totalBytes - 1
  | .afterHeader => if 0 < r.currentCount then 1 else 0

/-- The duration of the current frame in half clocks, when it runs to its end (R85). -/
def FrameRecord.duration (r : FrameRecord) : Nat :=
  r.framing.csSetup.toNat + Config.byteHalfClocks * r.totalBytes + r.pauses * r.framing.gapLength.toNat +
    r.framing.csHold.toNat

end Sys2Proof.Machine
end

