-- ==== Sys2Proof/Machine/Timers.lean ====
section
/-! DEFINITION. The timer expiries of the Target Tracker (R29, R102, R106, R110, R117, R123, R129, R133). An expiry in the
queue says that the timer has run to its end, so the time it still had passes for the whole block (log 11). A stopped timer
does not expire. -/

namespace Sys2Proof.Machine

/-- A timer has run its full period and is not yet expired. -/
def Timer.ripe : Timer → Bool
  | .running period elapsed => decide (period ≤ elapsed)
  | .stopped | .expired => false

/-- A limit of a target has run out and still stands (R106, R110, R129). -/
def TargetRecord.overLimit (r : TargetRecord) (l : Limit) : Bool :=
  match l with
  | .program => decide (r.state = .programming) && r.program.ripe
  | .busyTime => r.counting && decide (r.profile.eraseLimit ≤ r.busyTime)
  | .latency => decide (r.state = .suspending) && r.latency.ripe

/-- A limit expiry is taken: the target faults if the limit still stands run out (R106, R110, R112, R129). -/
def State.takeLimit (s : State) (t : Target) (l : Limit) : State := if (s.target t).overLimit l then s.fault t else s

/-- A limit expiry reaches the Tracker; it waits for an admission that has read the target (R52, R112). -/
def State.limitExpires (s : State) (t : Target) (l : Limit) : State :=
  if s.admittingTarget t then s.wait (.expiry t l) else s.takeLimit t l

/-- The expiry of what `left` measures in a target: the time it still has to run, none where it does not run. That time passes
for the whole block (log 11), and whatever stands ready is taken before time passes, so that a reset it brings can stop the
timer first. With no time left, the order of the queue stands, as R118 allows. -/
def State.expire (s : State) (t : Target) (left : TargetRecord → Option Nat) (act : State → State) : State :=
  match left (s.target t) with
  | none => s
  | some n =>
    let s1 := if n = 0 then s else s.settle
    match left (s1.target t) with
    | some m => act (s1.elapse m)
    | none => s1

/-- The busy time that an ERASING or SUSPENDING target still has before its limit tEL (R108). -/
def TargetRecord.busyLeft (r : TargetRecord) : Option Nat :=
  if r.counting then some (r.profile.eraseLimit - r.busyTime) else none

/-- POLL_TIMER_EXPIRY: one poll becomes due (R71, R102). -/
def execPollTimerExpiry (t : Target) (s : State) : Host.Outcome State Fault Refusal :=
  .next (s.expire t (·.poll.remaining) (·.modTarget t (fun r => { r with poll := .expired })))

/-- PROGRAM_TIMER_EXPIRY: the target faults and its owner completes FAILED/TIMEOUT (R106, R112). -/
def execProgramTimerExpiry (t : Target) (s : State) : Host.Outcome State Fault Refusal :=
  .next (s.expire t (·.program.remaining) (·.limitExpires t .program))

/-- BUSY_TIME_REACHES_TEL: the busy time of an ERASING or SUSPENDING target reaches tEL and faults it (R108, R110, R129). -/
def execBusyTimeReachesTel (t : Target) (s : State) : Host.Outcome State Fault Refusal :=
  .next (s.expire t TargetRecord.busyLeft (·.limitExpires t .busyTime))

/-- HOLD_OFF_TIMER_EXPIRY: the suspend condition can hold at the next choice (R123). -/
def execHoldOffTimerExpiry (t : Target) (s : State) : Host.Outcome State Fault Refusal :=
  .next (s.expire t (·.holdOff.remaining) (·.modTarget t (fun r => { r with holdOff := .expired })))

/-- SUSPEND_LATENCY_TIMER_EXPIRY: the SUSPENDING target faults (R129). -/
def execSuspendLatencyTimerExpiry (t : Target) (s : State) : Host.Outcome State Fault Refusal :=
  .next (s.expire t (·.latency.remaining) (·.limitExpires t .latency))

/-- SUSPENDED_TIMER_EXPIRY: the resume condition holds at every choice until the erase is resumed (R133). -/
def execSuspendedTimerExpiry (t : Target) (s : State) : Host.Outcome State Fault Refusal :=
  .next (s.expire t (·.held.remaining) (·.modTarget t (fun r => { r with held := .expired })))

/-- RECOVERY_TIMER_EXPIRY: the RESETTING target becomes IDLE (R117). -/
def execRecoveryTimerExpiry (t : Target) (s : State) : Host.Outcome State Fault Refusal :=
  .next (s.expire t (·.recovery.remaining) (·.modTarget t (·.toIdle)))

end Sys2Proof.Machine
end

