-- ==== Sys2Proof/Machine/Admission.lean ====
section
/-! DEFINITION. The Admission Unit (R41 to R60), the end of an admission and the events that waited for it (R4, R33, R41, R52,
R165), and the claims of a port or the Policy Unit on a work list (R15, R161). -/

namespace Sys2Proof.Machine

/-! ### Choosing a head (R43, R44) -/

/-- A head with fence set is blocked while its port has a non-orphan item in either list (R44). -/
def State.fenceBlocks (s : State) (p : Port) (r : Request) : Bool :=
  r.fence && decide (0 < (s.bus 0).countOf p + (s.bus 1).countOf p)

/-- The head of a port that is not passed over (R43). -/
def State.headToServe (s : State) (p : Port) : Option Request :=
  match (s.port p).ring with
  | [] => none
  | r :: _ =>
    if (s.port p).hold || s.fenceBlocks p r || (pick s.admission.blocked p).isSome then none else some r

/-- The first port not passed over, starting after the pointer, with its head (R43). -/
def State.nextHead (s : State) : Option (Port × Request) :=
  let p := s.admission.pointer
  [p + 1, p + 2, p + 3, p].findSome? (fun q => (s.headToServe q).map (fun r => (q, r)))

/-! ### The admission checks (R47 to R55) -/

/-- The record of a refusal (R60). -/
def Request.recordRefused (r : Request) (reason : Reason) (region : Option EntryIx) (target : Option Target) : Completion :=
  { tag := r.tag, kind := r.kind, outcome := .refused, reason, bytesMoved := 0, unitsDone := 0, headBytes := [], region,
    target, generation := none, suspendTotal := 0, cancelSeen := false }

/-- The erase unit that the admission reads: zero for an ABSENT target (R48). -/
def TargetRecord.admissionUnit (r : TargetRecord) : Nat := if r.present then r.profile.eraseUnit.bytes else 0

/-- The number of upstream addresses that a request covers; an ERASE that reaches an ABSENT target covers one (R38, R48). -/
def Request.span (r : Request) (eraseUnit : Nat) : Nat :=
  match r.kind with
  | .read | .program => r.length.toNat
  | .erase => if eraseUnit = 0 then 1 else r.length.toNat * eraseUnit
  | .status => 1

/-- The physical address of the first byte (R51). -/
def RegionEntry.translate (e : RegionEntry) (address : Nat) : Nat :=
  e.offset.toNat * Config.policyPage + (address - e.base.toNat * Config.policyPage)

/-- The entry grants the kind, and URGENT to an urgent request (R50). -/
def RegionEntry.grants (e : RegionEntry) (r : Request) : Bool :=
  e.rights.getLsbD r.kind.rightBit && (!r.urgent || e.rights.getLsbD 4)

/-- Steps 2 to 7, in order: the reason of the first check that fails, or none (section 3.4, R49 to R55). -/
def refusalOf (e : RegionEntry) (tr : TargetRecord) (r : Request) : Option Reason :=
  let span := r.span tr.admissionUnit
  let address := r.address.toNat
  let physical := e.translate address
  let last := physical + span - 1
  if e.base.toNat * Config.policyPage + e.size.toNat * Config.policyPage < address + span then some .span
  else if !e.grants r then some .rights
  else if tr.state = .absent ∨ tr.state = .faulted then some .targetDown
  else if tr.profile.capacity ≤ last then some .outside
  else match r.kind with
    | .program =>
      if physical / tr.profile.pageSize = last / tr.profile.pageSize then none else some .page
    | .erase => if physical % tr.profile.eraseUnit.bytes = 0 then none else some .align
    | .read | .status => none

/-- The new work item (R56). -/
def Request.item (r : Request) (p : Port) (t : Target) (e : RegionEntry) (region : EntryIx) (generation : BitVec 16) : Item :=
  { uid := 0, port := p, tag := r.tag, kind := r.kind, urgent := r.urgent, target := t,
    address := e.translate r.address.toNat,
    length := match r.kind with
      | .read | .program => r.length.toNat
      | .erase | .status => 0
    unitsRequested := match r.kind with
      | .erase => r.length.toNat
      | .read | .program | .status => 0
    unitsDone := 0, drop := .none, slot := r.slot, region, generation, bytesMoved := 0, headBytes := [],
    suspendCount := 0, cancelSeen := false, orphan := false, state := .queued }

/-- The target an entry names. APPLY admits no target above 7 (R10), so the number is never cut short in a run. -/
def RegionEntry.targetIx (e : RegionEntry) : Target := ⟨e.target.toNat % 8, Nat.mod_lt _ (by decide)⟩

/-- A head that is not fence-blocked is taken: lookup, full-list test, one read of the target, and the checks. With the full
list the blocked finding is set and nothing else changes (R45); otherwise the unit is admitting until the Bus Engine takes the
insertion or the port takes the refusal (R47 to R59). -/
def State.admitHead (s : State) (p : Port) (r : Request) : State :=
  let admitting := fun (t : Option Target) (d : Decision) =>
    { s with admission := { s.admission with current := some { port := p, target := t, decision := d } } }
  match s.policy.lookup p r.address.toNat with
  | none => admitting none (.refuse r.slot (r.recordRefused .noRegion none none))
  | some i =>
    let e := pick s.policy.active i
    let t := e.targetIx
    if Config.listSize ≤ (s.bus (busOf t)).list.length then
      { s with admission := { s.admission with blocked := put s.admission.blocked p (some (busOf t)) } }
    else match refusalOf e (s.target t) r with
      | some reason => admitting (some t) (.refuse r.slot (r.recordRefused reason (some i) (some t)))
      | none => admitting (some t) (.insert (r.item p t e i s.policy.generation))

/-- ADMISSION: the idle unit takes the next head (R43). Whatever stands ready is taken before the lookup (R4, R115). -/
def execAdmission (s : State) : Host.Outcome State Fault Refusal :=
  .next (match s.admission.current with
    | some _ => s
    | none =>
      let s1 := s.settle
      match s1.nextHead with
      | some (p, r) => s1.admitHead p r
      | none => s1)

/-! ### The end of an admission (R4, R33, R41, R52, R165) -/

/-- A frame event that waited is taken. -/
def takeFrame (i : Instr) (s : State) : State :=
  match i with
  | .submit p bytes => takeSubmit p bytes s
  | .cancel p bytes => takeCancel p bytes s
  | .hold p bytes => takeHold p bytes s
  | .unhold p bytes => takeUnhold p bytes s
  | .load p bytes => takeLoad p bytes s
  | .fetch p m bytes => takeFetch p m bytes s
  | .release p bytes => takeRelease p bytes s
  | .collect p m bytes => takeCollect p m bytes s
  | .cause p m bytes => takeCause p m bytes s
  | .causeEnable p bytes => takeCauseEnable p bytes s
  | .summary p m bytes => takeSummary p m bytes s
  | .portReset p bytes => takePortReset p bytes s
  | .readEntry p m bytes => takeReadEntry p m bytes s
  | .readTarget p m bytes => takeReadTarget p m bytes s
  | .stageEntry p bytes => takeStageEntry p bytes s
  | .copyActive p bytes => takeCopyActive p bytes s
  | .apply p bytes => takeApply p bytes s
  | .setupTarget p bytes => takeSetupTarget p bytes s
  | .removeTarget p bytes => takeRemoveTarget p bytes s
  | .resetTarget p bytes => takeResetTarget p bytes s
  | .resetBus p bytes => takeResetBus p bytes s
  | .busMode p bytes => takeBusMode p bytes s
  | .badcode p code bytes => takeBadcode p code bytes s
  | .frameWithoutCode p => takeFrameWithoutCode p s
  | .summaryByte p => takeSummaryByte p s
  | .applySucceeds | .targetResetClaim _ | .busResetClaim _ | .deviceReset | .resetRelease _ _ | .admission
  | .insertion | .revocationClaim _ | .cancelClaim _ _ | .choice _ | .dataByteReceived _ _ | .dataByteSent _
  | .readFrameEnd _ | .writeEnableFrameEnd _ | .programPairEnd _ | .erasePairEnd _ | .statusFrameEnd _ _
  | .suspendFrameEnd _ | .resumeFrameEnd _ | .resetFrameEnd _ | .pollTimerExpiry _ | .programTimerExpiry _
  | .busyTimeReachesTel _ | .holdOffTimerExpiry _ | .suspendLatencyTimerExpiry _ | .suspendedTimerExpiry _
  | .recoveryTimerExpiry _ | .completionPost => s

/-- The CANCEL of what was the head under admission is taken against the admission's outcome: a refusal's record is left alone,
and an item inserted is reached while it is QUEUED, so its claim is taken at once, after the claims that the port sent to that
bus before it (R41, R57, R160). -/
def State.cancelHead (s : State) (p : Port) (tag : Byte) : State :=
  match (s.port p).ring.find? (fun r => r.tag == tag), s.itemOf p tag with
  | none, some (b, _) => (s.cancelTag p tag).takeCancels p b (fun _ => true)
  | none, none | some _, _ => s.cancelTag p tag

/-- An event that waited for the admission is taken, after whatever stands ready (R4, R115): a target reset claim unless it waits
on for a frame to its target that is in flight (R115). -/
def takeWaiting (w : Waiting) (s : State) : State :=
  let s1 := s.settle
  match w with
  | .frame i => takeFrame i s1
  | .cancelHead p tag => s1.cancelHead p tag
  | .expiry t l => s1.takeLimit t l
  | .targetReset t => if s1.frameTo t then { s1 with resetClaims := s1.resetClaims ++ [t] } else s1.takeTargetReset t
  | .busReset b => s1.takeBusReset b

/-- The admission ends: the unit is idle, the APPLYs that waited are taken (R4), and then the other events that waited, in the
order in which they came (R52). That the APPLYs come before the other events is the model's choice (log 7, log 8): the spec
orders a waiting APPLY against no other event that waits, and R5 allows the mapping query of a fault on either side of it. -/
def State.endAdmission (s : State) : State :=
  let waited := s.waiting
  let s1 := { s with admission := { s.admission with current := none }, waiting := [] }
  waited.foldl (fun s w => takeWaiting w s) s1.settleApplies

/-- The head leaves its ring as served: the pointer moves to its port, a blocked finding ends, SPACE is judged (R42, R56, R59,
R173). -/
def State.headServed (s : State) (p : Port) : State :=
  let s1 := { s with admission := { s.admission with pointer := p, blocked := put s.admission.blocked p none } }
  s1.modPort p (fun u => PortUnit.judgeSpace { u with ring := u.ring.tail })

/-- The Bus Engine appends a new item at the tail of its list (R56, R64). -/
def State.append (s : State) (it : Item) : State :=
  let s1 := s.modBus (busOf it.target) (fun e => { e with list := e.list ++ [{ it with uid := s.nextUid }] })
  { s1 with nextUid := s.nextUid + 1 }

/-- INSERTION: the Bus Engine takes the insertion claim, after the revocation claims of earlier APPLYs (R14, R56, R57). -/
def execInsertion (s : State) : Host.Outcome State Fault Refusal :=
  .next (match s.admission.current with
    | some { port := p, target := _, decision := .insert it } =>
      (((s.takeRevocations (busOf it.target)).append it).headServed p).endAdmission
    | some { port := _, target := _, decision := .refuse _ _ } => s
    | none => s)

/-- COMPLETION_POST: the port takes the refusal that the Admission Unit posts; its slot returns and the admission ends (R59,
R145, R158, log 6). -/
def execCompletionPost (s : State) : Host.Outcome State Fault Refusal :=
  .next (match s.admission.current with
    | some { port := p, target := _, decision := .refuse slot r } =>
      ((s.modPort p (·.post slot r)).headServed p).endAdmission
    | some { port := _, target := _, decision := .insert _ } => s
    | none => s)

/-! ### Revocation and cancel claims (R15, R16, R161, R162) -/

/-- REVOCATION_CLAIM: the bus takes the oldest revocation claim issued to it (R14 to R17). -/
def execRevocationClaim (b : Bus) (s : State) : Host.Outcome State Fault Refusal :=
  .next (match (s.bus b).revocations with
    | [] => s
    | rv :: rest => (s.modBus b (fun e => { e with revocations := rest })).revoke b rv)

/-- The claims without the first one of a port. -/
def dropFirstOf (p : Port) : List CancelClaim → List CancelClaim
  | [] => []
  | c :: rest => if c.port = p then rest else c :: dropFirstOf p rest

/-- CANCEL_CLAIM: the bus takes the oldest cancel claim that the port has sent to it (R160 to R162). -/
def execCancelClaim (p : Port) (b : Bus) (s : State) : Host.Outcome State Fault Refusal :=
  .next (match (s.bus b).cancels.find? (fun c => decide (c.port = p)) with
    | some c => (s.modBus b (fun e => { e with cancels := dropFirstOf p e.cancels })).cancelItem b c.item
    | none => s)

end Sys2Proof.Machine
end

