-- ==== Sys2Proof/Machine/Dispatch.lean ====
section
/-! DEFINITION. One arm per command: each calls its meaning. -/

namespace Sys2Proof.Machine

/-- A command's effect on everything but the queue. -/
def exec (i : Instr) (s : State) : Host.Outcome State Fault Refusal :=
  match i with
  | .submit p bytes => Sys2Proof.Machine.execSubmit p bytes s
  | .cancel p bytes => Sys2Proof.Machine.execCancel p bytes s
  | .hold p bytes => Sys2Proof.Machine.execHold p bytes s
  | .unhold p bytes => Sys2Proof.Machine.execUnhold p bytes s
  | .load p bytes => Sys2Proof.Machine.execLoad p bytes s
  | .fetch p m bytes => Sys2Proof.Machine.execFetch p m bytes s
  | .release p bytes => Sys2Proof.Machine.execRelease p bytes s
  | .collect p m bytes => Sys2Proof.Machine.execCollect p m bytes s
  | .cause p m bytes => Sys2Proof.Machine.execCause p m bytes s
  | .causeEnable p bytes => Sys2Proof.Machine.execCauseEnable p bytes s
  | .summary p m bytes => Sys2Proof.Machine.execSummary p m bytes s
  | .portReset p bytes => Sys2Proof.Machine.execPortReset p bytes s
  | .readEntry p m bytes => Sys2Proof.Machine.execReadEntry p m bytes s
  | .readTarget p m bytes => Sys2Proof.Machine.execReadTarget p m bytes s
  | .stageEntry p bytes => Sys2Proof.Machine.execStageEntry p bytes s
  | .copyActive p bytes => Sys2Proof.Machine.execCopyActive p bytes s
  | .apply p bytes => Sys2Proof.Machine.execApply p bytes s
  | .applySucceeds => Sys2Proof.Machine.execApplySucceeds s
  | .setupTarget p bytes => Sys2Proof.Machine.execSetupTarget p bytes s
  | .removeTarget p bytes => Sys2Proof.Machine.execRemoveTarget p bytes s
  | .resetTarget p bytes => Sys2Proof.Machine.execResetTarget p bytes s
  | .targetResetClaim t => Sys2Proof.Machine.execTargetResetClaim t s
  | .resetBus p bytes => Sys2Proof.Machine.execResetBus p bytes s
  | .busResetClaim b => Sys2Proof.Machine.execBusResetClaim b s
  | .busMode p bytes => Sys2Proof.Machine.execBusMode p bytes s
  | .badcode p code bytes => Sys2Proof.Machine.execBadcode p code bytes s
  | .frameWithoutCode p => Sys2Proof.Machine.execFrameWithoutCode p s
  | .summaryByte p => Sys2Proof.Machine.execSummaryByte p s
  | .deviceReset => Sys2Proof.Machine.execDeviceReset s
  | .resetRelease auth csLow => Sys2Proof.Machine.execResetRelease auth csLow s
  | .admission => Sys2Proof.Machine.execAdmission s
  | .insertion => Sys2Proof.Machine.execInsertion s
  | .revocationClaim b => Sys2Proof.Machine.execRevocationClaim b s
  | .cancelClaim p b => Sys2Proof.Machine.execCancelClaim p b s
  | .choice b => Sys2Proof.Machine.execChoice b s
  | .dataByteReceived b sdi => Sys2Proof.Machine.execDataByteReceived b sdi s
  | .dataByteSent b => Sys2Proof.Machine.execDataByteSent b s
  | .readFrameEnd b => Sys2Proof.Machine.execReadFrameEnd b s
  | .writeEnableFrameEnd b => Sys2Proof.Machine.execWriteEnableFrameEnd b s
  | .programPairEnd b => Sys2Proof.Machine.execProgramPairEnd b s
  | .erasePairEnd b => Sys2Proof.Machine.execErasePairEnd b s
  | .statusFrameEnd b sdi => Sys2Proof.Machine.execStatusFrameEnd b sdi s
  | .suspendFrameEnd b => Sys2Proof.Machine.execSuspendFrameEnd b s
  | .resumeFrameEnd b => Sys2Proof.Machine.execResumeFrameEnd b s
  | .resetFrameEnd b => Sys2Proof.Machine.execResetFrameEnd b s
  | .pollTimerExpiry t => Sys2Proof.Machine.execPollTimerExpiry t s
  | .programTimerExpiry t => Sys2Proof.Machine.execProgramTimerExpiry t s
  | .busyTimeReachesTel t => Sys2Proof.Machine.execBusyTimeReachesTel t s
  | .holdOffTimerExpiry t => Sys2Proof.Machine.execHoldOffTimerExpiry t s
  | .suspendLatencyTimerExpiry t => Sys2Proof.Machine.execSuspendLatencyTimerExpiry t s
  | .suspendedTimerExpiry t => Sys2Proof.Machine.execSuspendedTimerExpiry t s
  | .recoveryTimerExpiry t => Sys2Proof.Machine.execRecoveryTimerExpiry t s
  | .completionPost => Sys2Proof.Machine.execCompletionPost s

end Sys2Proof.Machine
end

