-- ==== Sys2Proof/Machine/Step.lean ====
section
/-! DEFINITION. One step: the command at the front of the queue, or, on an empty queue, one 5 ns period of the internal clock
(log 3), before which whatever stands ready is taken (R115, log 9). -/

namespace Sys2Proof.Machine

/-- The step. -/
def step (s : State) : Host.Outcome State Fault Refusal :=
  match s.pending with
  | [] => .next (s.settle.elapse 1)
  | c :: rest => exec c { s with pending := rest }

/-- The state with the command that a table word spells at the front of its queue. No row gives bits, so no word spells one. -/
def State.withFetchWord (s : State) (nbits w : Nat) : State :=
  match decodeTableWord nbits w with
  | some c => { s with pending := c :: s.pending }
  | none => s

end Sys2Proof.Machine
end

