-- ==== Sys2Proof/Safety.lean ====
section
/-! DEFINITION. The terms in which claims about the block are made: when a frame is taken, which parts of the state a command
may touch, the frame lengths of R180, and the conditions that every step keeps. -/

namespace Sys2Proof.Machine

/-! ### When a frame reaches its port (R178, R33, R41, R165) -/

/-- A frame of the port is taken as it comes: RESET# is high, no assertion is ignored, no earlier frame of the port waits, and
nothing stands ready that would be taken first (R4, R115, log 8, log 9). -/
def State.hears (s : State) (p : Port) : Prop :=
  s.deaf p = false ∧ s.frameWaits p = false ∧ s.stands = false

/-- The capture in force at a release: one of this kind of frame made since the fall, else what would be captured now (log
5). -/
def Link.inForce (l : Link) (mine : Captured → Bool) (now : Captured) : Captured :=
  if l.isOpen then (l.captured.filter mine).getD now else now

/-- The bytes of a frame command, those after its code. -/
def bytesOf : Instr → List Byte
  | .submit _ bytes | .cancel _ bytes | .hold _ bytes | .unhold _ bytes | .load _ bytes | .fetch _ _ bytes
  | .release _ bytes | .collect _ _ bytes | .cause _ _ bytes | .causeEnable _ bytes | .summary _ _ bytes
  | .portReset _ bytes | .readEntry _ _ bytes | .readTarget _ _ bytes | .stageEntry _ bytes | .copyActive _ bytes
  | .apply _ bytes | .setupTarget _ bytes | .removeTarget _ bytes | .resetTarget _ bytes | .resetBus _ bytes
  | .busMode _ bytes | .badcode _ _ bytes => bytes
  | .applySucceeds | .targetResetClaim _ | .busResetClaim _ | .deviceReset | .resetRelease _ _ | .admission
  | .insertion | .revocationClaim _ | .cancelClaim _ _ | .choice _ | .dataByteReceived _ _ | .dataByteSent _
  | .readFrameEnd _ | .writeEnableFrameEnd _ | .programPairEnd _ | .erasePairEnd _ | .statusFrameEnd _ _
  | .suspendFrameEnd _ | .resumeFrameEnd _ | .resetFrameEnd _ | .pollTimerExpiry _ | .programTimerExpiry _
  | .busyTimeReachesTel _ | .holdOffTimerExpiry _ | .suspendLatencyTimerExpiry _ | .suspendedTimerExpiry _
  | .recoveryTimerExpiry _ | .completionPost | .frameWithoutCode _ | .summaryByte _ => []

/-- The required length of a frame that is released, its code byte counted (R180); none for what is no such frame. -/
def requiredLength : Instr → Option Nat
  | .submit _ _ => some 9
  | .cancel _ _ => some 2
  | .hold _ _ | .unhold _ _ => some 1
  | .load _ _ => some 3
  | .fetch _ .release _ => some 3
  | .release _ _ => some 2
  | .collect _ .release _ => some 17
  | .cause _ .release _ => some 3
  | .causeEnable _ _ => some 3
  | .summary _ .release _ => some 1
  | .portReset _ _ => some 1
  | .readEntry _ .release _ => some 3
  | .readTarget _ .release _ => some 2
  | .stageEntry _ _ => some 14
  | .copyActive _ _ | .apply _ _ => some 1
  | .setupTarget _ _ => some 33
  | .removeTarget _ _ | .resetTarget _ _ | .resetBus _ _ => some 2
  | .busMode _ _ => some 3
  | .fetch _ .capture _ | .collect _ .capture _ | .cause _ .capture _ | .summary _ .capture _
  | .readEntry _ .capture _ | .readTarget _ .capture _ | .badcode _ _ _ => none
  | .applySucceeds | .targetResetClaim _ | .busResetClaim _ | .deviceReset | .resetRelease _ _ | .admission
  | .insertion | .revocationClaim _ | .cancelClaim _ _ | .choice _ | .dataByteReceived _ _ | .dataByteSent _
  | .readFrameEnd _ | .writeEnableFrameEnd _ | .programPairEnd _ | .erasePairEnd _ | .statusFrameEnd _ _
  | .suspendFrameEnd _ | .resumeFrameEnd _ | .resetFrameEnd _ | .pollTimerExpiry _ | .programTimerExpiry _
  | .busyTimeReachesTel _ | .holdOffTimerExpiry _ | .suspendLatencyTimerExpiry _ | .suspendedTimerExpiry _
  | .recoveryTimerExpiry _ | .completionPost | .frameWithoutCode _ | .summaryByte _ => none

/-- An admission under way makes this frame wait, though its port listens (R33, R41, R165). -/
def State.heldBack (s : State) (c : Instr) : Bool :=
  match c with
  | .portReset p _ => s.admittingPort p
  | .setupTarget p bytes => s.setupWaits p bytes
  | .removeTarget p bytes => s.removeWaits p bytes
  | _ => false

/-- The summary byte of the frame in progress: the one captured at its fall, or, where the command opens the frame, the one
captured now (R179, log 5). -/
def PortUnit.frameSummary (u : PortUnit) : Byte := if u.link.isOpen then u.link.summary else u.summaryByte

/-- What SDO carries over `n + 1` bytes of a frame: the summary byte, 0x00 through the rest of the request and the filler,
the reply, and 0x00 (R179, R181, R182). -/
def PortUnit.carries (u : PortUnit) (request : Nat) (reply : List Byte) (n : Nat) : List Byte :=
  (u.frameSummary :: (List.replicate request 0 ++ reply ++ List.replicate n 0)).take (n + 1)

/-- The link of a port after the capture of a frame that answers: open, with the summary byte of the fall (R178, R179, R182). -/
def PortUnit.linkHolding (u : PortUnit) (c : Captured) : Link :=
  { isOpen := true, ignoring := false, summary := u.frameSummary, captured := some c, sdo := u.link.sdo }

/-- The link of a port after the release of a frame whose SDO carried these bytes: closed, with nothing captured (R178, R179). -/
def PortUnit.linkReleased (u : PortUnit) (sdo : List Byte) : Link :=
  { isOpen := false, ignoring := false, summary := u.frameSummary, captured := none, sdo }

/-! ### Which parts of the state a command touches -/

/-- At most Port Unit `p` differs. -/
def OnlyPort (p : Port) (s t : State) : Prop := t = { s with ports := t.ports } ∧ ∀ q, q ≠ p → t.port q = s.port q

/-- At most target record `x` differs. -/
def OnlyTarget (x : Target) (s t : State) : Prop :=
  t = { s with targets := t.targets } ∧ ∀ y, y ≠ x → t.target y = s.target y

/-- At most Bus Engine `b` differs. -/
def OnlyBus (b : Bus) (s t : State) : Prop := t = { s with buses := t.buses } ∧ ∀ c, c ≠ b → t.bus c = s.bus c

/-- At most the Port Units of `ps`, the target records of `ts`, the Bus Engine `b` and the blocked findings differ. -/
structure Within (ps : Port → Prop) (ts : Target → Prop) (b : Bus) (s t : State) : Prop where
  ports : ∀ p, ¬ ps p → t.port p = s.port p
  targets : ∀ x, ¬ ts x → t.target x = s.target x
  bus : ∀ c, c ≠ b → t.bus c = s.bus c
  rest : t = { s with ports := t.ports, targets := t.targets, buses := t.buses, admission := t.admission }
  admission : t.admission = { s.admission with blocked := t.admission.blocked }

/-- The completion record of an item: tag, kind, region index, target, generation and cancel-seen as in the item, units done
and suspend total as counted, and the outcome, reason, bytes moved and head bytes given (R157). -/
def Item.report (it : Item) (outcome : Ending) (reason : Reason) (moved : Nat) (heads : List Byte) : Completion :=
  { tag := it.tag, kind := it.kind, outcome, reason, bytesMoved := moved, unitsDone := it.unitsDone, headBytes := heads,
    region := some it.region, target := some it.target, generation := some it.generation,
    suspendTotal := it.suspendCount, cancelSeen := it.cancelSeen }

/-- The completion record of a refusal (R60). -/
def Request.refusal (r : Request) (reason : Reason) (region : Option EntryIx) (target : Option Target) : Completion :=
  { tag := r.tag, kind := r.kind, outcome := .refused, reason, bytesMoved := 0, unitsDone := 0, headBytes := [], region,
    target, generation := none, suspendTotal := 0, cancelSeen := false }

/-- The bytes moved of an owner's record: the length of a PROGRAM (R111). -/
def Item.ownerMoved (it : Item) : Nat := if it.kind = .program then it.length else 0

/-- The record of a target made RESETTING by a target reset or a bus reset (R116, R119). -/
def TargetRecord.inReset (r : TargetRecord) : TargetRecord :=
  { profile := r.profile, state := .resetting, owner := none, unit := none, suspendCount := 0, busyTime := 0,
    pendingReset := some { toSend := r.profile.resetLength.val, recovering := decide (r.profile.resetLength.val = 0) },
    poll := .stopped, program := .stopped, holdOff := .stopped, latency := .stopped, held := .stopped,
    recovery := if r.profile.resetLength.val = 0 then Timer.start (r.profile.tRR.toNat * 200) else .stopped }

/-- The record of a target that has entered IDLE (R28, R29). -/
def TargetRecord.inIdle (r : TargetRecord) : TargetRecord :=
  { profile := r.profile, state := .idle, owner := none, unit := none, suspendCount := 0, busyTime := 0,
    pendingReset := none, poll := .stopped, program := .stopped, holdOff := .stopped, latency := .stopped,
    held := .stopped, recovery := .stopped }

/-- The record of a target that has entered FAULTED: suspend count and busy time are kept (R28, R112). -/
def TargetRecord.inFault (r : TargetRecord) : TargetRecord :=
  { profile := r.profile, state := .faulted, owner := none, unit := none, suspendCount := r.suspendCount,
    busyTime := r.busyTime, pendingReset := none, poll := .stopped, program := .stopped, holdOff := .stopped,
    latency := .stopped, held := .stopped, recovery := .stopped }

/-- One clock period of a frame in flight where the command of each data byte comes as its byte ends (R85 to R87). -/
def FrameRecord.tick (r : FrameRecord) : FrameRecord :=
  let t := r.elapse r.phases 1
  if t.progress.phase = .byte ∧ t.progress.spent = t.phaseTicks then { t with progress := t.afterBytes (t.progress.bytes + 1) }
  else t

/-! ### Conditions that every step keeps -/

/-- The contents of every slot are in canonical form (R138). -/
def SlotsCanonical (s : State) : Prop := ∀ p k, Memory.wf (pick (s.port p).slots k).data = true

/-- ERROR and COMPLETE are pending exactly while their conditions hold (R171, R172). -/
def CausesJudged (s : State) : Prop :=
  ∀ p, (s.port p).pending.error = (s.port p).queue.any (fun r => decide (r.outcome ≠ .done)) ∧
    (s.port p).pending.complete = decide ((s.port p).watermark ≤ (s.port p).queue.length)

/-- A ring holds at most 8 entries and a list at most 24 items (R40, R64); while an insertion is to come its list has room
(R45). -/
def WithinBounds (s : State) : Prop :=
  (∀ p, (s.port p).ring.length ≤ 8) ∧ (∀ b, (s.bus b).list.length ≤ 24) ∧
    ∀ p t it, s.admission.current = some { port := p, target := t, decision := .insert it } →
      (s.bus (busOf it.target)).list.length < 24

/-- In FLOAT no frame is in flight (R78, R80). -/
def FloatIsQuiet (s : State) : Prop := ∀ b, (s.bus b).mode = .float → (s.bus b).frame = none

/-- Every item names a target of its list's bus (R64). -/
def ItemsOnTheirBus (s : State) : Prop := ∀ b, ∀ it ∈ (s.bus b).list, busOf it.target = b

/-- The references of the items of a list are distinct, and every later item gets a new one (log 10). -/
def ReferencesDistinct (s : State) : Prop :=
  ∀ b, ((s.bus b).list.map (·.uid)).Nodup ∧ ∀ it ∈ (s.bus b).list, it.uid < s.nextUid

/-- Only an admission makes an event wait (R33, R41, R52, R165). -/
def NothingWaitsIdle (s : State) : Prop := s.admission.current = none → s.waiting = []

/-! #### The accounts of a port, and the owners of targets (R28, R138, R155, R156) -/

/-- The kind of the frame that serves a kind of request (R82). -/
def Kind.served : Kind → FrameKind
  | .read => .read
  | .program => .programPair
  | .erase => .erasePair
  | .status => .status

/-- The states of a target that has an owner (R28). -/
def TargetState.owned (x : TargetState) : Prop := x = .programming ∨ x = .erasing ∨ x = .suspending ∨ x = .suspended

/-- The states of a target with a unit under erase (R28). -/
def TargetState.hasUnit (x : TargetState) : Prop := x = .erasing ∨ x = .suspending ∨ x = .suspended

/-- The live fields that a target has in its state, and no others (R28). -/
structure TargetRecord.Lives (r : TargetRecord) : Prop where
  owner : r.owner ≠ none ↔ r.state.owned
  unit : r.unit ≠ none ↔ r.state.hasUnit
  pendingReset : r.pendingReset ≠ none ↔ r.state = .resetting
  counts : ¬r.state.hasUnit → r.state ≠ .faulted → r.suspendCount = 0 ∧ r.busyTime = 0

/-- What a Port Unit accounts for, `own` being the items of its port in both lists. -/
structure PortAccount (own : List Item) (u : PortUnit) : Prop where
  /-- Ring entries, items and records together are the credits in use, at most 16 (R156). -/
  credits : u.credits = u.ring.length + own.length + u.queue.length ∧ u.credits ≤ 16
  /-- The tag table holds the tags of ring entries, items that are no orphans, and records, each at most once (R155). -/
  tags : ∀ tag, u.tags.count tag ≤ 1 ∧ u.tags.count tag = u.ring.countP (fun r => r.tag == tag) +
    own.countP (fun it => it.tag == tag && !it.orphan) + u.queue.countP (fun r => r.tag == tag)
  /-- A slot is COMMITTED exactly while one ring entry or item names it, and then has a return state (R138, R144). -/
  slots : ∀ k, ((pick u.slots k).ret ≠ none ↔ (pick u.slots k).state = .committed) ∧
    u.ring.countP (fun r => r.slot == some k) + own.countP (fun it => it.slot == some k) =
      if (pick u.slots k).state = .committed then 1 else 0
  /-- The bytes of a slot from its valid length up are 0x00 until a READ frame writes into it (R138). -/
  clean : ∀ k, (∀ it ∈ own, it.slot = some k → it.kind = .read → it.bytesMoved = 0) →
    ∀ a, (pick u.slots k).valid ≤ a → (pick u.slots k).data.read a = 0
  /-- A slot that is FREE, or that was when a request committed it, has valid length 0 (R138, R143). -/
  free : ∀ k, (pick u.slots k).state = .free ∨ (pick u.slots k).ret = some .free → (pick u.slots k).valid = 0
  /-- The record that a COLLECT has captured stands at the front of the queue (R159). -/
  captured : ∀ r, u.link.captured = some (.collect (some r)) → u.queue.head? = some r

/-- The items, the frames that serve them and the targets they own. -/
structure WorkAccount (s : State) : Prop where
  distinct : ReferencesDistinct s
  /-- An item names a target of its bus (R64); one that has received bytes is in its frame (R86). -/
  items : ∀ b, ∀ it ∈ (s.bus b).list, busOf it.target = b ∧ (it.kind = .read → 0 < it.bytesMoved → it.state = .active)
  /-- The item that a frame serves is ACTIVE and of the frame's kind and target (R77, R82), and the target of a pair is IDLE (R75,
  R97). -/
  frames : ∀ b r, (s.bus b).frame = some r → busOf r.target = b ∧ (∀ uid, r.item = some uid → uid < s.nextUid) ∧
    ∀ it ∈ (s.bus b).list, r.item = some it.uid → it.state = .active ∧ it.target = r.target ∧ r.kind = it.kind.served ∧
      (r.pair ≠ none → r.overtaken = false → (s.target r.target).state = .idle)
  /-- Owner, unit under erase, pending reset and counts stand exactly in their states (R28). -/
  lives : ∀ x, (s.target x).Lives
  /-- An owner stands in the list of its target's bus, OWNER-BUSY or OWNER-SUSPENDED (R28). -/
  owned : ∀ x uid, (s.target x).owner = some uid → ∃ it ∈ (s.bus (busOf x)).list, it.uid = uid ∧ it.target = x ∧
    (it.state = .ownerBusy ∨ it.state = .ownerSuspended)

/-- The accounts are in order: every port's, and that of the lists and targets; and an admission under way handles the head of
its port (R41). -/
structure InOrder (s : State) : Prop where
  ports : ∀ p, PortAccount (s.itemsOf p) (s.port p)
  work : WorkAccount s
  admits : ∀ a, s.admission.current = some a → ∃ r rest, (s.port a.port).ring = r :: rest ∧
    match a.decision with
    | .insert it => it.port = a.port ∧ it.tag = r.tag ∧ it.slot = r.slot ∧ it.orphan = false ∧ it.bytesMoved = 0
    | .refuse slot c => slot = r.slot ∧ c.tag = r.tag ∧ c.kind = r.kind ∧ c.bytesMoved = 0

/-- A state that commands can bring about from device reset: the outside world puts commands at the end of the queue, and the
block steps. -/
inductive Reachable : State → Prop where
  | reset : Reachable .reset
  | send (s : State) (c : Instr) : Reachable s → Reachable { s with pending := s.pending ++ [c] }
  | step (s t : State) : Reachable s → step s = .next t → Reachable t

end Sys2Proof.Machine
end

