-- ==== Sys2Proof/Certificates/Slice0/Obligations.lean ====
section
/-! DEFINITION. The statements for the provers. -/

section

open Sys2Proof Sys2Proof.Machine

/-! ### The queue and the clock -/

/-- The command at the front of the queue is run on the state with the queue's rest. -/
def Obligations.StepRunsTheFrontCommand : Prop :=
  ∀ (c : Instr) (rest : List Instr) (s : State), step { s with pending := c :: rest } = exec c { s with pending := rest }

/-- The model's choice (log 3): with no command waiting, whatever stands ready is taken (R115, log 9), and then one 5 ns period
passes for the timers, the busy times and the frames in flight, and nothing else changes but the time since each bus's last
release. So it is for any number of periods that pass for the whole block (`State.elapse`) or for a bus (`BusEngine.elapse`). -/
def Obligations.StepOnAnEmptyQueueIsOneClockPeriod : Prop :=
  (∀ (n : Nat) (e : BusEngine), e.elapse n =
    { e with frame := e.frame.map (fun r => r.elapse r.phases n), sinceRelease := e.sinceRelease + n }) ∧
  (∀ (n : Nat) (s : State), let t := s.elapse n
    t = { s with targets := t.targets, buses := t.buses } ∧ (∀ x, t.target x = (s.target x).elapse n) ∧
    ∀ b, t.bus b = (s.bus b).elapse n) ∧
  (∀ s : State, s.pending = [] → step s = .next (s.settle.elapse 1)) ∧
  ∀ s : State, s.pending = [] → s.stands = false → ∃ t, step s = .next t ∧
    t = { s with targets := t.targets, buses := t.buses } ∧
    (∀ x, t.target x = (s.target x).elapse 1) ∧
    (∀ b, t.bus b = { s.bus b with frame := (s.bus b).frame.map (fun r => r.elapse r.phases 1),
                                   sinceRelease := (s.bus b).sinceRelease + 1 })

/-- Every command answers a next state and leaves the queue as it is. The model's form: nothing stops the block (log 4), an
event that cannot occur in the present state answers and changes nothing (log 2), and DEVICE_RESET keeps the queue (log 1). Such
are: the rise of RESET# while it is high, a claim not issued, the end of an admission that is not under way or ends otherwise,
BADCODE with a code of the table, a byte or an end of a frame that is not in flight or not so far, and the expiry of a timer
that does not run or of the busy time of a target that is not busy with an erase. -/
def Obligations.EveryCommandAnswersAndLeavesTheQueue : Prop :=
  (∀ (c : Instr) (s : State), ∃ t, exec c s = .next t ∧ t.pending = s.pending) ∧
  ∀ (s : State),
    let idle (c : Instr) := exec c s = .next s
    let decides (P : Decision → Prop) := ∃ a, s.admission.current = some a ∧ P a.decision
    let runs (timer : Timer) := ∃ period spent, timer = .running period spent
    (∀ auth csLow, s.resetLow = false → idle (.resetRelease auth csLow)) ∧
    (s.policy.applies = 0 → idle .applySucceeds) ∧
    ((¬ decides fun d => ∃ it, d = .insert it) → idle .insertion) ∧
    ((¬ decides fun d => ∃ slot r, d = .refuse slot r) → idle .completionPost) ∧
    (∀ p code bytes, s.hears p → code ∈ frameCodes → idle (.badcode p code bytes)) ∧
    (∀ b : Bus,
      let serves (P : FrameRecord → Item → Prop) := ∃ r it, (s.bus b).serving = some (r, it) ∧ P r it
      let carries (P : FrameRecord → Prop) := ∃ r, (s.bus b).frame = some r ∧ P r
      ((s.bus b).resets = 0 → idle (.busResetClaim b)) ∧ ((s.bus b).revocations = [] → idle (.revocationClaim b)) ∧
      (∀ p, (∀ c ∈ (s.bus b).cancels, c.port ≠ p) → idle (.cancelClaim p b)) ∧
      (∀ sdi, (¬ serves fun r it => r.kind = .read ∧ it.bytesMoved < r.dataLimit) → idle (.dataByteReceived b sdi)) ∧
      ((¬ serves fun r it => r.kind = .programPair ∧ r.pair = some .second ∧ it.bytesMoved < r.count) →
        idle (.dataByteSent b)) ∧
      ((¬ serves fun r it => r.kind = .read ∧ r.dataLimit ≤ it.bytesMoved) → idle (.readFrameEnd b)) ∧
      ((¬ serves fun r it => r.kind = .programPair ∧ r.pair = some .second ∧ r.count ≤ it.bytesMoved) →
        idle (.programPairEnd b)) ∧
      ((¬ serves fun r _ => r.kind = .erasePair ∧ r.pair = some .second) → idle (.erasePairEnd b)) ∧
      ((¬ carries fun r => r.pair = some .first) → idle (.writeEnableFrameEnd b)) ∧
      (∀ sdi, (¬ carries fun r => r.kind = .status ∨ r.kind = .poll) → idle (.statusFrameEnd b sdi)) ∧
      ((¬ carries fun r => r.kind = .suspend) → idle (.suspendFrameEnd b)) ∧
      ((¬ carries fun r => r.kind = .resume) → idle (.resumeFrameEnd b)) ∧
      ((¬ carries fun r => r.kind = .reset) → idle (.resetFrameEnd b))) ∧
    ∀ x : Target, (x ∉ s.resetClaims → idle (.targetResetClaim x)) ∧
      (¬ runs (s.target x).poll → idle (.pollTimerExpiry x)) ∧
      (¬ runs (s.target x).program → idle (.programTimerExpiry x)) ∧
      (¬ runs (s.target x).holdOff → idle (.holdOffTimerExpiry x)) ∧
      (¬ runs (s.target x).latency → idle (.suspendLatencyTimerExpiry x)) ∧
      (¬ runs (s.target x).held → idle (.suspendedTimerExpiry x)) ∧
      (¬ runs (s.target x).recovery → idle (.recoveryTimerExpiry x)) ∧
      ((s.target x).state ≠ .erasing → (s.target x).state ≠ .suspending → idle (.busyTimeReachesTel x))

/-! ### Reset values -/

/-- What device reset leaves (R2, R35, R42, R61, R138, R152, R168, R183). -/
def Obligations.ResetGivesTheDeviceResetValues : Prop :=
  (∀ p, (State.reset.port p).ring = [] ∧ (State.reset.port p).tags = [] ∧ (State.reset.port p).queue = [] ∧
    (State.reset.port p).credits = 0 ∧ (State.reset.port p).hold = false ∧ (State.reset.port p).last = .ok ∧
    (State.reset.port p).watermark = 1 ∧ (State.reset.port p).armed = false ∧
    (∀ c, (State.reset.port p).pending.has c = false) ∧
    (∀ c, (State.reset.port p).enable.has c = decide (c = .fault ∨ c = .error ∨ c = .complete)) ∧
    (∀ k a, (pick (State.reset.port p).slots k).state = .free ∧ (pick (State.reset.port p).slots k).valid = 0 ∧
      (pick (State.reset.port p).slots k).ret = none ∧ (pick (State.reset.port p).slots k).data.read a = 0)) ∧
  (∀ i, pick State.reset.policy.active i = pick State.reset.policy.staged i ∧
    (pick State.reset.policy.active i).valid = false ∧ (pick State.reset.policy.active i).ports = 0 ∧
    (pick State.reset.policy.active i).base = 0 ∧ (pick State.reset.policy.active i).size = 0 ∧
    (pick State.reset.policy.active i).target = 0 ∧ (pick State.reset.policy.active i).offset = 0 ∧
    (pick State.reset.policy.active i).rights = 0 ∧ (pick State.reset.policy.active i).mode = .polite) ∧
  State.reset.policy.generation = 0 ∧ State.reset.policy.failure = none ∧
  (∀ x, (State.reset.target x).state = .absent ∧ (State.reset.target x).profile = .zero ∧
    (State.reset.target x).owner = none ∧ (State.reset.target x).unit = none ∧
    (State.reset.target x).suspendCount = 0 ∧ (State.reset.target x).busyTime = 0 ∧
    (State.reset.target x).pendingReset = none ∧ (State.reset.target x).stopTimers = State.reset.target x ∧
    (State.reset.target x).poll = .stopped ∧ (State.reset.target x).program = .stopped ∧
    (State.reset.target x).holdOff = .stopped ∧ (State.reset.target x).latency = .stopped ∧
    (State.reset.target x).held = .stopped ∧ (State.reset.target x).recovery = .stopped) ∧
  Profile.zero.toBytes = List.replicate 31 0 ∧
  (∀ b, (State.reset.bus b).list = [] ∧ (State.reset.bus b).mode = .run ∧ (State.reset.bus b).frame = none ∧
    (State.reset.bus b).portPtr = 0 ∧ (State.reset.bus b).pollPtr = 0) ∧
  State.reset.admission.current = none ∧ State.reset.admission.pointer = 3 ∧
  (∀ p, pick State.reset.admission.blocked p = none)

/-- DEVICE_RESET gives every piece of state its device-reset value and holds RESET# low; the authority port is kept until AUTH is
sampled (the model's choice, log 1), and the queue of commands is the outside world's. As RESET# rises, AUTH is sampled (R184),
and a port whose chip select is low ignores that assertion (R178). -/
def Obligations.DeviceResetAndItsRelease : Prop :=
  (∀ s : State, exec .deviceReset s =
     .next { State.reset with resetLow := true, authority := s.authority, pending := s.pending }) ∧
  (∀ (auth : BitVec 2) (csLow : BitVec 4) (s : State), s.resetLow = true →
     ∃ t, exec (.resetRelease auth csLow) s = .next t ∧
       t = { s with resetLow := false, authority := t.authority, ports := t.ports } ∧ t.authority.val = auth.toNat ∧
       ∀ p, t.port p = { s.port p with link := { (s.port p).link with ignoring := csLow.getLsbD p.val } })

/-! ### Upstream frames in general -/

/-- While RESET# is low no pin is heard, and an assertion low at its rise is ignored until the next fall (R178): what `State.deaf`
says. -/
def Obligations.FramesOfADeafPortAreIgnored : Prop :=
  (∀ (p : Port) (s : State), s.deaf p = true ↔ s.resetLow = true ∨ (s.port p).link.ignoring = true) ∧
  ∀ (c : Instr) (p : Port) (s : State), portOfFrame c = some p →
    (s.resetLow = true → exec c s = .next s) ∧
    ((s.port p).link.ignoring = true → c ≠ .summaryByte p → exec c s = .next s)

/-- A frame below its required length gives FRAMING, changes nothing else, and its release closes the link (R178, R180, R181). A
FETCH, READ ENTRY or READ TARGET below it is released before its capture and shifts out no reply (R182). That the frame opens
itself where no SUMMARY_BYTE did is log 5. -/
def Obligations.ShortFramesGiveFraming : Prop :=
  ∀ (c : Instr) (p : Port) (n : Nat) (s : State), portOfFrame c = some p → requiredLength c = some n →
    (bytesOf c).length + 1 < n → s.hears p →
    ∃ t, exec c s = .next t ∧ OnlyPort p s t ∧
      t.port p = { s.port p with last := .framing, link := (s.port p).linkReleased (t.port p).link.sdo } ∧
      ((∃ bytes, c = .fetch p .release bytes ∨ c = .readEntry p .release bytes ∨ c = .readTarget p .release bytes) →
        (t.port p).link.sdo = (s.port p).frameSummary :: List.replicate (bytesOf c).length 0)

/-- What waits for the end of the admission under way: the later frames of a port one of whose frames waits (R33, R165), PORT
RESET of the port under admission (R41), SETUP TARGET and REMOVE TARGET of the target that was read (R33), a limit expiry, a
target reset claim and a bus reset claim (R52, R95). When an admission is under way of a port's head, of a target or of a target
of a bus, when a frame of a port waits, and which frames are held back is said first. A frame that an admission holds back is open
with the summary byte of its fall (R179); where no SUMMARY_BYTE commanded the fall, it opens at its command with the byte of that
moment, which is the model's choice (log 5). A target reset claim that stood before the admission waits ahead of the rest (R52,
log 9). Nothing else changes, but for the time that an expiry names (log 11), with nothing that stands ready or no time left. One
queue holds all that waits (log 7). -/
def Obligations.EventsWaitForTheAdmission : Prop :=
  let opened (s : State) (p : Port) : State := s.setPort p
    (if (s.port p).link.isOpen then s.port p
     else { s.port p with link := { (s.port p).link with
       isOpen := true, ignoring := false, summary := (s.port p).summaryByte, captured := none } })
  (∀ s : State,
    (∀ w, s.wait w = { s with waiting := s.waiting ++ [w] }) ∧
    (∀ p, s.frameWaits p = true ↔ ∃ c, .frame c ∈ s.waiting ∧ portOfFrame c = some p) ∧
    (∀ p, s.admittingPort p = true ↔ ∃ a, s.admission.current = some a ∧ a.port = p) ∧
    (∀ x, s.admittingTarget x = true ↔ ∃ a, s.admission.current = some a ∧ a.target = some x) ∧
    (∀ b, s.admittingBus b = true ↔ ∃ a x, s.admission.current = some a ∧ a.target = some x ∧ busOf x = b) ∧
    (∀ x, s.frameTo x = true ↔ ∃ r, (s.bus (busOf x)).frame = some r ∧ r.target = x) ∧
    (∀ p bytes, s.heldBack (.portReset p bytes) = s.admittingPort p) ∧
    ∀ c, s.heldBack c = true → ∃ p bytes, c = .portReset p bytes ∨ c = .setupTarget p bytes ∨ c = .removeTarget p bytes) ∧
  (∀ (c : Instr) (p : Port) (s : State), portOfFrame c = some p → s.deaf p = false → s.frameWaits p = true →
    exec c s = .next (s.wait (.frame c))) ∧
  (∀ (p : Port) (bytes : List Byte) (s : State), s.hears p → s.admittingPort p = true →
    exec (.portReset p bytes) s = .next ((opened s p).wait (.frame (.portReset p bytes)))) ∧
  (∀ (x : Target) (bytes : List Byte) (pr : Profile) (s : State), s.hears s.authority → s.admittingTarget x = true →
    32 ≤ bytes.length → (byteAt bytes 0).toNat = x.val → Profile.ofBytes bytes 1 = some pr →
    exec (.setupTarget s.authority bytes) s = .next ((opened s s.authority).wait (.frame (.setupTarget s.authority bytes)))) ∧
  (∀ (x : Target) (bytes : List Byte) (s : State), s.hears s.authority → s.admittingTarget x = true →
    1 ≤ bytes.length → (byteAt bytes 0).toNat = x.val →
    exec (.removeTarget s.authority bytes) s = .next ((opened s s.authority).wait (.frame (.removeTarget s.authority bytes)))) ∧
  (∀ (x : Target) (period spent : Nat) (s : State), s.stands = false ∨ period ≤ spent → s.admittingTarget x = true →
    (s.target x).program = .running period spent →
    exec (.programTimerExpiry x) s = .next ((s.elapse (period - spent)).wait (.expiry x .program))) ∧
  (∀ (x : Target) (period spent : Nat) (s : State), s.stands = false ∨ period ≤ spent → s.admittingTarget x = true →
    (s.target x).latency = .running period spent →
    exec (.suspendLatencyTimerExpiry x) s = .next ((s.elapse (period - spent)).wait (.expiry x .latency))) ∧
  (∀ (x : Target) (s : State), s.stands = false ∨ (s.target x).profile.tEL.toNat * 200000 ≤ (s.target x).busyTime →
    s.admittingTarget x = true → (s.target x).state = .erasing ∨ (s.target x).state = .suspending →
    exec (.busyTimeReachesTel x) s =
      .next ((s.elapse ((s.target x).profile.tEL.toNat * 200000 - (s.target x).busyTime)).wait (.expiry x .busyTime))) ∧
  (∀ (x : Target) (s : State), s.admittingTarget x = true → x ∈ s.resetClaims → s.frameTo x = false →
    exec (.targetResetClaim x) s = .next { s with
      resetClaims := s.resetClaims.filter (fun y => decide (y ≠ x)), waiting := .targetReset x :: s.waiting }) ∧
  (∀ (b : Bus) (s : State), s.admittingBus b = true → 0 < (s.bus b).resets →
    exec (.busResetClaim b) s =
      .next ((s.setBus b { s.bus b with resets := (s.bus b).resets - 1 }).wait (.busReset b)))

/-- A frame without a reply carries the summary byte captured at its fall and then 0x00, and its release closes the link (R178,
R179). A frame that no SUMMARY_BYTE opened opens itself and captures the byte now, which is the model's form (log 5). -/
def Obligations.FramesWithoutReplyShiftOutTheSummaryByte : Prop :=
  ∀ (c : Instr) (p : Port) (s : State), portOfFrame c = some p → s.hears p → s.heldBack c = false →
    (match c with
      | .submit _ _ | .cancel _ _ | .hold _ _ | .unhold _ _ | .load _ _ | .release _ _ | .causeEnable _ _ | .portReset _ _
      | .stageEntry _ _ | .copyActive _ _ | .apply _ _ | .setupTarget _ _ | .removeTarget _ _ | .resetTarget _ _
      | .resetBus _ _ | .busMode _ _ => True
      | .badcode _ code _ => code ∉ frameCodes
      | _ => False) →
    ∃ t, exec c s = .next t ∧
      (t.port p).link = { isOpen := false, ignoring := false, summary := (s.port p).frameSummary, captured := none,
                          sdo := (s.port p).frameSummary :: List.replicate (bytesOf c).length 0 }

/-! ### The request side of a port -/

/-- HOLD sets the hold flag and UNHOLD clears it; neither changes anything else (R164). -/
def Obligations.HoldAndUnholdSetAndClearTheFlag : Prop :=
  ∀ (p : Port) (bytes : List Byte) (s : State), s.hears p →
    (∃ t, exec (.hold p bytes) s = .next t ∧ OnlyPort p s t ∧
      t.port p = { s.port p with hold := true, last := .ok, link := (t.port p).link }) ∧
    (∃ t, exec (.unhold p bytes) s = .next t ∧ OnlyPort p s t ∧
      t.port p = { s.port p with hold := false, last := .ok, link := (t.port p).link })

/-- The field errors of SUBMIT (R153 check 3, R186), in numbers of the bytes after the code: 256 times byte 6 plus byte 7 is the
length, byte 1 holds the kind in bits 2 to 0, urgent in bit 3, fence in bit 4 and the slot in bits 7 to 5, byte 0 is the tag, bytes
2 to 5 the address; and the descriptor of a frame without such an error, field by field (R186). -/
def Obligations.SubmitFieldErrors : Prop :=
  ∀ bytes : List Byte,
    let f (k : Nat) := (byteAt bytes k).toNat
    let kind := f 1 % 8
    let slot := f 1 / 32
    let length := 256 * f 6 + f 7
    (Request.ofBytes bytes = none ↔
      (4 ≤ kind ∨ (4 ≤ slot ∧ slot ≤ 6) ∨ (kind ≤ 1 ∧ ¬(1 ≤ length ∧ length ≤ 256)) ∨
        (kind = 2 ∧ ¬(1 ≤ length ∧ length ≤ 16)) ∨ (kind = 3 ∧ length ≠ 0) ∨ (kind = 1 ∧ slot = 7) ∨
        (kind = 0 ∧ slot = 7 ∧ 4 < length) ∨ ((kind = 2 ∨ kind = 3) ∧ slot ≤ 3))) ∧
    ∀ r, Request.ofBytes bytes = some r →
      r.tag = byteAt bytes 0 ∧ (r.kind = .read ↔ kind = 0) ∧ (r.kind = .program ↔ kind = 1) ∧
      (r.kind = .erase ↔ kind = 2) ∧ (r.kind = .status ↔ kind = 3) ∧ (r.urgent = true ↔ f 1 / 8 % 2 = 1) ∧
      (r.fence = true ↔ f 1 / 16 % 2 = 1) ∧ (r.slot = none ↔ slot = 7) ∧ (∀ k, r.slot = some k ↔ slot = k.val) ∧
      r.address.toNat = 16777216 * f 2 + 65536 * f 3 + 256 * f 4 + f 5 ∧ r.length.toNat = length

/-- SUBMIT: the four checks in their order and the acceptance (R153, R154, R143, R173). -/
def Obligations.SubmitChecksAndAccepts : Prop :=
  ∀ (p : Port) (bytes : List Byte) (s : State), s.hears p → 8 ≤ bytes.length →
    ∃ t, exec (.submit p bytes) s = .next t ∧ OnlyPort p s t ∧
      (8 ≤ (s.port p).ring.length ∨ 16 ≤ (s.port p).credits →
        t.port p = { s.port p with last := .full, armed := true, link := (t.port p).link,
                                   pending := { (s.port p).pending with space := false } }) ∧
      ((s.port p).ring.length < 8 → (s.port p).credits < 16 →
        (byteAt bytes 0 ∈ (s.port p).tags → t.port p = { s.port p with last := .dupTag, link := (t.port p).link }) ∧
        (byteAt bytes 0 ∉ (s.port p).tags →
          (Request.ofBytes bytes = none → t.port p = { s.port p with last := .badField, link := (t.port p).link }) ∧
          (∀ r, Request.ofBytes bytes = some r → r.slot = none →
            t.port p = { s.port p with ring := (s.port p).ring ++ [r], credits := (s.port p).credits + 1,
                                       tags := (s.port p).tags ++ [r.tag], last := .ok, link := (t.port p).link }) ∧
          (∀ r k, Request.ofBytes bytes = some r → r.slot = some k →
            let sl := pick (s.port p).slots k
            let fits := (r.kind = .read ∧ sl.state ≠ .committed) ∨
              (r.kind = .program ∧ sl.state = .held ∧ r.length.toNat ≤ sl.valid)
            (fits → t.port p = { s.port p with
              ring := (s.port p).ring ++ [r], credits := (s.port p).credits + 1, tags := (s.port p).tags ++ [r.tag],
              slots := put (s.port p).slots k
                { sl with state := .committed, ret := some (if sl.state = .held then .held else .free) },
              last := .ok, link := (t.port p).link }) ∧
            (¬ fits → t.port p = { s.port p with last := .slotState, link := (t.port p).link }))))

/-- CANCEL, by the place where its tag is found (R160): not in the table; the head under admission, whose cancel waits (R41); a
ring entry, removed with its record; an item, to which a claim is sent; a record, left alone. The item of a port and tag is the
one that is no orphan, sought on both lists (`State.itemOf`); the claim stands behind the bus reset claims that are issued and not
taken, those that wait for an admission too (`State.resetsIssued`; the form of the claim is logs 9 and 10). -/
def Obligations.CancelActsWhereTheTagStands : Prop :=
  (∀ (p : Port) (tag : Byte) (s : State),
    let mine (it : Item) := it.port = p ∧ it.tag = tag ∧ it.orphan = false
    let first (b : Bus) := (s.bus b).list.find? (fun it => decide (mine it))
    (s.headUnderAdmission p tag = true ↔ ∃ a r rest, s.admission.current = some a ∧ a.port = p ∧
      (s.port p).ring = r :: rest ∧ r.tag = tag) ∧
    (∀ it, s.itemOf p tag = some (0, it) ↔ first 0 = some it) ∧
    (∀ it, s.itemOf p tag = some (1, it) ↔ first 0 = none ∧ first 1 = some it) ∧
    (s.itemOf p tag = none ↔ ∀ b, ∀ it ∈ (s.bus b).list, ¬ mine it)) ∧
  (∀ (b : Bus) (s : State), s.resetsIssued b = (s.bus b).resets + s.waiting.count (.busReset b)) ∧
  ∀ (p : Port) (bytes : List Byte) (s : State), s.hears p → 1 ≤ bytes.length →
    let tag := byteAt bytes 0
    ∃ t, exec (.cancel p bytes) s = .next t ∧
      (tag ∉ (s.port p).tags → OnlyPort p s t ∧
        t.port p = { s.port p with last := .unknownTag, link := (t.port p).link }) ∧
      (tag ∈ (s.port p).tags → s.headUnderAdmission p tag = true →
        t = { s with ports := t.ports, waiting := s.waiting ++ [.cancelHead p tag] } ∧
        (∀ q, q ≠ p → t.port q = s.port q) ∧ t.port p = { s.port p with last := .ok, link := (t.port p).link }) ∧
      (tag ∈ (s.port p).tags → s.headUnderAdmission p tag = false →
        (∀ r, (s.port p).ring.find? (fun x => x.tag == tag) = some r →
          t = { s with ports := t.ports, admission := t.admission } ∧
          t.admission = { s.admission with blocked := t.admission.blocked } ∧
          (∀ q, q ≠ p → t.port q = s.port q ∧ pick t.admission.blocked q = pick s.admission.blocked q) ∧
          pick t.admission.blocked p =
            (if (s.port p).ring.head?.map (·.tag) = some tag then none else pick s.admission.blocked p) ∧
          (t.port p).ring = (s.port p).ring.filter (fun x => x.tag != tag) ∧
          (t.port p).queue = (s.port p).queue ++
            [{ tag, kind := r.kind, outcome := .cancelled, reason := .cancelled, bytesMoved := 0, unitsDone := 0,
               headBytes := [], region := none, target := none, generation := none, suspendTotal := 0,
               cancelSeen := true }] ∧
          (t.port p).slots = (match r.slot with
            | some k => put (s.port p).slots k ((pick (s.port p).slots k).giveBack r.kind .cancelled 0)
            | none => (s.port p).slots) ∧
          (t.port p).credits = (s.port p).credits ∧ (t.port p).tags = (s.port p).tags ∧
          (t.port p).hold = (s.port p).hold ∧ (t.port p).enable = (s.port p).enable ∧
          (t.port p).watermark = (s.port p).watermark ∧ (t.port p).last = .ok ∧ (t.port p).pending.error = true ∧
          (t.port p).pending.complete = decide ((s.port p).watermark ≤ (s.port p).queue.length + 1) ∧
          (t.port p).pending.fault = (s.port p).pending.fault ∧ (t.port p).pending.policy = (s.port p).pending.policy ∧
          (let room := (s.port p).armed = true ∧ (t.port p).ring.length ≤ 6 ∧ (s.port p).credits ≤ 14
           (room → (t.port p).pending.space = true ∧ (t.port p).armed = false) ∧
           (¬ room → (t.port p).pending.space = (s.port p).pending.space ∧ (t.port p).armed = (s.port p).armed))) ∧
        ((s.port p).ring.find? (fun x => x.tag == tag) = none → ∀ b it, s.itemOf p tag = some (b, it) →
          t = { s with ports := t.ports, buses := t.buses } ∧ (∀ q, q ≠ p → t.port q = s.port q) ∧
          t.port p = { s.port p with last := .ok, link := (t.port p).link } ∧ (∀ c, c ≠ b → t.bus c = s.bus c) ∧
          t.bus b = { s.bus b with
            cancels := (s.bus b).cancels ++ [{ port := p, item := it.uid, behind := s.resetsIssued b }] }) ∧
        ((s.port p).ring.find? (fun x => x.tag == tag) = none → s.itemOf p tag = none →
          OnlyPort p s t ∧ t.port p = { s.port p with last := .ok, link := (t.port p).link }))

/-- COLLECT: the capture of the front record, and the release (R159, R171, R172, R173, R180). `c` is the record captured, or
none for the empty marker. The two moments, the release that captures late and the frame that opens itself are log 5. The
capture leaves the frame open with the summary byte of its fall, the release closes it (R178, R179, R182). -/
def Obligations.CollectTakesTheFrontRecord : Prop :=
  (∀ c, Captured.isCollect c = true ↔ ∃ r, c = .collect r) ∧ (∀ r : Completion, collectReply (some r) = r.toBytes) ∧
  ∀ (p : Port) (bytes : List Byte) (s : State), s.hears p →
    (∃ t, exec (.collect p .capture bytes) s = .next t ∧ OnlyPort p s t ∧
      t.port p = { s.port p with link := (t.port p).link } ∧
      (t.port p).link = (s.port p).linkHolding (.collect (s.port p).queue.head?)) ∧
    (∀ c, (s.port p).link.inForce Captured.isCollect (.collect (s.port p).queue.head?) = .collect c →
      ∃ t, exec (.collect p .release bytes) s = .next t ∧ OnlyPort p s t ∧
        (t.port p).link = (s.port p).linkReleased ((s.port p).carries 1 (collectReply c) bytes.length) ∧
        (bytes.length < 16 → t.port p = { s.port p with last := .framing, link := (t.port p).link }) ∧
        (16 ≤ bytes.length → c = none → t.port p = { s.port p with last := .ok, link := (t.port p).link }) ∧
        (16 ≤ bytes.length → ∀ r, c = some r →
          t.port p = { s.port p with
            queue := (s.port p).queue.tail, tags := (s.port p).tags.filter (fun x => x != r.tag),
            credits := (s.port p).credits - 1, last := .ok, link := (t.port p).link, armed := (t.port p).armed,
            pending := (t.port p).pending } ∧
          (t.port p).pending.error = (s.port p).queue.tail.any (fun x => decide (x.outcome ≠ .done)) ∧
          (t.port p).pending.complete = decide ((s.port p).watermark ≤ (s.port p).queue.tail.length) ∧
          (t.port p).pending.fault = (s.port p).pending.fault ∧ (t.port p).pending.policy = (s.port p).pending.policy ∧
          (let room := (s.port p).armed = true ∧ (s.port p).ring.length ≤ 6 ∧ (s.port p).credits - 1 ≤ 14
           (room → (t.port p).pending.space = true ∧ (t.port p).armed = false) ∧
           (¬ room → (t.port p).pending.space = (s.port p).pending.space ∧ (t.port p).armed = (s.port p).armed))))

/-- PORT RESET (R165, R149, R168): the cancel claims that the port has sent come first (R160), in a frame that is open, and in
one that is not, which opens itself first as SUMMARY_BYTE would open it (the model's choice, log 5); then ring, tags and queue
are empty, the QUEUED items of the port are gone without completions, its running items are orphans in their places, credits
count the orphans, the slots of orphans stay and the others are FREE, and the causes take their reset values. A list that loses
an item releases the heads it blocked (R46). Other ports, the policy and the targets are not touched. -/
def Obligations.PortResetCutsThePortLoose : Prop :=
  ∀ (p : Port) (bytes : List Byte) (s : State), s.hears p → s.admittingPort p = false →
    let own (b : Bus) := (s.bus b).list.filter
      (fun it => decide (it.port = p) && (decide (it.state ≠ .queued) || it.orphan))
    let kept (b : Bus) := (s.bus b).list.filter
      (fun it => decide (it.port ≠ p) || decide (it.state ≠ .queued) || it.orphan)
    ((s.port p).link.isOpen = true → ∀ b c, (s.bus b).cancels.find? (fun x => decide (x.port = p)) = some c →
      (b = 1 → ∀ x ∈ (s.bus 0).cancels, x.port ≠ p) →
      ∃ u, exec (.cancelClaim p b) s = .next u ∧ exec (.portReset p bytes) s = exec (.portReset p bytes) u) ∧
    ((s.port p).link.isOpen = false → ∀ b c, (s.bus b).cancels.find? (fun x => decide (x.port = p)) = some c →
      (b = 1 → ∀ x ∈ (s.bus 0).cancels, x.port ≠ p) →
      ∃ v u, exec (.summaryByte p) s = .next v ∧ exec (.cancelClaim p b) v = .next u ∧
        exec (.portReset p bytes) s = exec (.portReset p bytes) u) ∧
    ((∀ b, ∀ c ∈ (s.bus b).cancels, c.port ≠ p) → ∃ t, exec (.portReset p bytes) s = .next t ∧
      t = { s with ports := t.ports, buses := t.buses, admission := t.admission } ∧
      t.admission = { s.admission with blocked := t.admission.blocked } ∧ pick t.admission.blocked p = none ∧
      (∀ q, q ≠ p → pick t.admission.blocked q =
        if ∃ b, pick s.admission.blocked q = some b ∧ ∃ it ∈ (s.bus b).list, it.port = p ∧ it.state = .queued ∧ it.orphan = false
        then none else pick s.admission.blocked q) ∧
      (∀ q, q ≠ p → t.port q = s.port q) ∧
      (∀ b, t.bus b = { s.bus b with
        list := (kept b).map (fun it => if it.port = p then { it with orphan := true } else it) }) ∧
      t.port p = { s.port p with
        ring := [], tags := [], queue := [], credits := (own 0).length + (own 1).length, hold := false,
        slots := (t.port p).slots, pending := { fault := false, error := false, complete := false, space := false, policy := false },
        enable := { fault := true, error := true, complete := true, space := false, policy := false },
        watermark := 1, armed := false, last := .ok, link := (t.port p).link } ∧
      ∀ k, pick (t.port p).slots k =
        if (own 0).any (fun it => it.slot == some k) || (own 1).any (fun it => it.slot == some k)
        then pick (s.port p).slots k else { state := .free, data := [], valid := 0, ret := none })

/-! ### Data slots -/

/-- LOAD (R140): its three checks in order, and the bytes written. -/
def Obligations.LoadWritesTheSlot : Prop :=
  ∀ (p : Port) (bytes : List Byte) (s : State), SlotsCanonical s → s.hears p → 2 ≤ bytes.length →
    let offset := (byteAt bytes 1).toNat
    let data := bytes.drop 2
    ∃ t, exec (.load p bytes) s = .next t ∧ OnlyPort p s t ∧
      (3 < (byteAt bytes 0).toNat ∨ 256 < offset + data.length →
        t.port p = { s.port p with last := .badField, link := (t.port p).link }) ∧
      (∀ k : SlotIx, (byteAt bytes 0).toNat = k.val → offset + data.length ≤ 256 →
        let old := pick (s.port p).slots k
        (old.state = .committed → t.port p = { s.port p with last := .slotState, link := (t.port p).link }) ∧
        (old.state ≠ .committed → ∃ new : Slot,
          t.port p = { s.port p with slots := put (s.port p).slots k new, last := .ok, link := (t.port p).link } ∧
          new.state = .held ∧ new.ret = none ∧ new.valid = max old.valid (offset + data.length) ∧
          ∀ a, new.data.read a =
            if offset ≤ a ∧ a < offset + data.length then byteAt data (a - offset) else old.data.read a))

/-- FETCH (R141): the check and capture at the offset byte, and the release, which records the result and changes no slot. The
two moments, the release that captures late and the frame that opens itself are log 5. The capture leaves the frame open with
the summary byte of its fall, the release closes it (R178, R179, R182). -/
def Obligations.FetchReadsTheSlot : Prop :=
  (∀ c, Captured.isFetch c = true ↔ ∃ result reply, c = .fetch result reply) ∧
  ∀ (p : Port) (bytes : List Byte) (s : State), s.hears p → 2 ≤ bytes.length →
    ∃ now : Captured,
      (∃ t, exec (.fetch p .capture bytes) s = .next t ∧ OnlyPort p s t ∧
        t.port p = { s.port p with link := (t.port p).link } ∧ (t.port p).link = (s.port p).linkHolding now) ∧
      (3 < (byteAt bytes 0).toNat → now = .fetch .badField []) ∧
      (∀ k : SlotIx, (byteAt bytes 0).toNat = k.val →
        ((pick (s.port p).slots k).state = .committed → now = .fetch .slotState []) ∧
        ((pick (s.port p).slots k).state ≠ .committed → ∃ reply, now = .fetch .ok reply ∧
          ∀ i, byteAt reply i =
            if (byteAt bytes 1).toNat + i < 256 ∧ (byteAt bytes 1).toNat + i < (pick (s.port p).slots k).valid
            then (pick (s.port p).slots k).data.read ((byteAt bytes 1).toNat + i) else 0)) ∧
      (∀ result reply, (s.port p).link.inForce Captured.isFetch now = .fetch result reply →
        ∃ t, exec (.fetch p .release bytes) s = .next t ∧ OnlyPort p s t ∧
          t.port p = { s.port p with last := result, link := (t.port p).link } ∧
          (t.port p).link = (s.port p).linkReleased ((s.port p).carries 3 reply bytes.length))

/-- RELEASE (R142). -/
def Obligations.ReleaseFreesTheSlot : Prop :=
  ∀ (p : Port) (bytes : List Byte) (s : State), s.hears p → 1 ≤ bytes.length →
    ∃ t, exec (.release p bytes) s = .next t ∧ OnlyPort p s t ∧
      (3 < (byteAt bytes 0).toNat → t.port p = { s.port p with last := .badField, link := (t.port p).link }) ∧
      (∀ k : SlotIx, (byteAt bytes 0).toNat = k.val →
        ((pick (s.port p).slots k).state = .committed →
          t.port p = { s.port p with last := .slotState, link := (t.port p).link }) ∧
        ((pick (s.port p).slots k).state ≠ .committed → ∃ new : Slot,
          t.port p = { s.port p with slots := put (s.port p).slots k new, last := .ok, link := (t.port p).link } ∧
          new.state = .free ∧ new.valid = 0 ∧ new.ret = none ∧ ∀ a, new.data.read a = 0))

/-- How a slot is returned, by kind, outcome and bytes moved (R146, R147). -/
def Obligations.SlotsReturnByOutcome : Prop :=
  ∀ (k : Slot) (outcome : Ending) (moved : Nat), k.data.wf = true →
    (outcome = .done → (k.giveBack .program outcome moved).state = .free ∧
      (k.giveBack .program outcome moved).valid = 0 ∧ (k.giveBack .program outcome moved).ret = none ∧
      ∀ a, (k.giveBack .program outcome moved).data.read a = 0) ∧
    (outcome ≠ .done → k.giveBack .program outcome moved = { k with state := .held, ret := none }) ∧
    (0 < moved → (k.giveBack .read outcome moved).state = .held ∧ (k.giveBack .read outcome moved).valid = moved ∧
      (k.giveBack .read outcome moved).ret = none ∧
      ∀ a, (k.giveBack .read outcome moved).data.read a = if a < moved then k.data.read a else 0) ∧
    (∀ back, k.ret = some back → k.giveBack .read outcome 0 =
      { k with state := if back = .held then .held else .free, ret := none })

/-! ### Attention causes -/

/-- CAUSE (R176): what it captures, and its release. `again` says that the captured cause was raised after the capture. A raise
(R169, R170) makes its cause pending and marks a captured reply that reports it, and changes nothing else. The two moments, the
release that captures late and the frame that opens itself are log 5. The capture leaves the frame open with the summary byte of
its fall, the release closes it (R178, R179, R182). -/
def Obligations.CauseReportsTheHighestCause : Prop :=
  ((∀ c, Captured.isCause c = true ↔ ∃ reported again, c = .cause reported again) ∧
   causeCode none = 0 ∧ causeCode (some .fault) = 1 ∧ causeCode (some .error) = 2 ∧ causeCode (some .complete) = 3 ∧
   causeCode (some .space) = 4 ∧ causeCode (some .policy) = 5 ∧
   ∀ set : CauseSet, (set.has .fault = set.fault ∧ set.has .error = set.error ∧ set.has .complete = set.complete ∧
     set.has .space = set.space ∧ set.has .policy = set.policy) ∧
     ∀ c on d, (set.put c on).has d = if d = c then on else set.has d) ∧
  (∀ (u : PortUnit) (c : Cause),
    u.raise c = { u with pending := u.pending.put c true, link := { u.link with captured := (u.raise c).link.captured } } ∧
    (∀ d again, u.link.captured = some (.cause (some d) again) → d ≠ c → (u.raise c).link.captured = u.link.captured) ∧
    ((∀ d again, u.link.captured ≠ some (.cause (some d) again)) → (u.raise c).link.captured = u.link.captured)) ∧
  (∀ (u : PortUnit) (c : Cause),
    let shows (d : Cause) := u.pending.has d = true ∧ u.enable.has d = true
    (u.topCause = some c ↔
      shows c ∧ ∀ d, (causeCode (some d)).toNat < (causeCode (some c)).toNat → ¬ shows d) ∧
    (u.topCause = none ↔ ∀ d, ¬ shows d)) ∧
  (∀ (u : PortUnit) (c : Cause) (again : Bool), u.link.captured = some (.cause (some c) again) →
    (u.raise c).link.captured = some (.cause (some c) true) ∧ (u.raise c).pending.has c = true) ∧
  ∀ (p : Port) (bytes : List Byte) (s : State), s.hears p →
    (∃ t, exec (.cause p .capture bytes) s = .next t ∧ OnlyPort p s t ∧
      t.port p = { s.port p with link := (t.port p).link } ∧
      (t.port p).link = (s.port p).linkHolding (.cause (s.port p).topCause false)) ∧
    (∀ c again, (s.port p).link.inForce Captured.isCause (.cause (s.port p).topCause false) = .cause c again →
      ∃ t, exec (.cause p .release bytes) s = .next t ∧ OnlyPort p s t ∧
        (t.port p).link = (s.port p).linkReleased ((s.port p).carries 1 [causeCode c] bytes.length) ∧
        (bytes.length < 2 → t.port p = { s.port p with last := .framing, link := (t.port p).link }) ∧
        (2 ≤ bytes.length → ∀ x, c = some x → (x = .fault ∨ x = .space ∨ x = .policy) → again = false →
          t.port p = { s.port p with
            pending := (s.port p).pending.put x false, last := .ok, link := (t.port p).link }) ∧
        (2 ≤ bytes.length → (c = none ∨ c = some .error ∨ c = some .complete ∨ again = true) →
          t.port p = { s.port p with last := .ok, link := (t.port p).link }))

/-- CAUSE ENABLE (R175), in a state whose causes are judged: its check, the new enable set and watermark, and COMPLETE judged
against the watermark. -/
def Obligations.CauseEnableReplacesTheSet : Prop :=
  ∀ (p : Port) (bytes : List Byte) (s : State), CausesJudged s → s.hears p → 2 ≤ bytes.length →
    let set := byteAt bytes 0
    let watermark := (byteAt bytes 1).toNat
    ∃ t, exec (.causeEnable p bytes) s = .next t ∧ OnlyPort p s t ∧
      (32 ≤ set.toNat ∨ watermark = 0 ∨ 16 < watermark →
        t.port p = { s.port p with last := .badField, link := (t.port p).link }) ∧
      (set.toNat < 32 → 1 ≤ watermark → watermark ≤ 16 →
        t.port p = { s.port p with
          enable := { fault := set.getLsbD 0, error := set.getLsbD 1, complete := set.getLsbD 2,
                      space := set.getLsbD 3, policy := set.getLsbD 4 },
          watermark,
          pending := { (s.port p).pending with complete := decide (watermark ≤ (s.port p).queue.length) },
          last := .ok, link := (t.port p).link })

/-- ATTN# is asserted exactly while a pending cause is enabled (R169) and RESET# is high; the summary byte (R179). The bits
clocked make complete bytes, most significant bit first; SDO is high impedance while CS# is high and changes at each falling
edge of SCK (R178), with the reply after the filler (R182). The first byte picks the frame (R180), and a capture falls due at
its last request byte, of which there is one in a frame that answers and none in the others (R182): the bits clocked from a fall
to the next rise are the frame's commands, its fall, its capture and its release (`frameOfBits`). The fall captures the summary
byte; an absent code gives BADCODE; a release before any complete byte records no result. That SUMMARY_BYTE opens a frame again
and that a frame opens itself is log 5. Where no frame is open and CS# may be low (RESET# low, an ignored assertion) the rules
do not give SDO: high impedance there is the model's choice (log 13). -/
def Obligations.AttentionTheSummaryByteAndTheLink : Prop :=
  ((∀ (s : State) (p : Port), s.attn p = true ↔
     s.resetLow = false ∧ ∃ c, (s.port p).pending.has c = true ∧ (s.port p).enable.has c = true) ∧
   ∀ u : PortUnit,
     (u.summaryByte.getLsbD 7 = true ↔ ∃ c, u.pending.has c = true ∧ u.enable.has c = true) ∧
     (u.summaryByte.getLsbD 6 = true ↔ u.queue ≠ []) ∧
     (u.summaryByte.getLsbD 5 = true ↔ u.ring.length < 8 ∧ u.credits < 16) ∧
     u.summaryByte.getLsbD 4 = u.hold ∧ u.summaryByte.toNat % 16 = (match u.last with
       | .ok => 0
       | .full => 1
       | .dupTag => 2
       | .slotState => 3
       | .badField => 4
       | .unknownTag => 5
       | .notAuth => 6
       | .framing => 7
       | .badCode => 8
       | .notNow => 9
       | .applyFail => 10) ∧
     u.summaryByte.toNat % 16 = u.last.code.toNat) ∧
  ((∀ bits : List Bool, (completeBytes bits).length = bits.length / 8 ∧
     ∀ n i, n < bits.length / 8 → i < 8 → (byteAt (completeBytes bits) n).getLsbD (7 - i) = bits.getD (8 * n + i) false) ∧
   ∀ (s : State) (p : Port) (edges : Nat), let l := (s.port p).link
     (l.isOpen = false → s.upstreamSdo p edges = none) ∧
     (l.isOpen = true → s.hears p →
       (edges < 8 → s.upstreamSdo p edges = some (l.summary.getLsbD (7 - edges))) ∧
       (8 ≤ edges → l.captured = none → s.upstreamSdo p edges = some false) ∧
       (∀ c, l.captured = some c →
         let request := match c with
           | .fetch _ _ | .readEntry _ _ => 3
           | .readTarget _ _ => 2
           | .collect _ | .cause _ _ | .summary _ => 1
         (8 ≤ edges → edges < 8 * (request + 1) → s.upstreamSdo p edges = some false) ∧
         c.reply = (match c with
           | .fetch _ reply | .readEntry _ reply | .readTarget _ reply | .summary reply => reply
           | .collect record => collectReply record
           | .cause reported _ => [causeCode reported]) ∧
         ∀ n i, i < 8 → s.upstreamSdo p (8 * (request + 1 + n) + i) = some ((byteAt c.reply n).getLsbD (7 - i))))) ∧
  ((∀ (p : Port) (w : List Byte), let frame (code : Byte) := frameOfBytes p (code :: w)
     frame 0x10 = .submit p w ∧ frame 0x11 = .cancel p w ∧ frame 0x12 = .hold p w ∧ frame 0x13 = .unhold p w ∧
     frame 0x20 = .load p w ∧ frame 0x21 = .fetch p .release w ∧ frame 0x22 = .release p w ∧
     frame 0x30 = .collect p .release w ∧ frame 0x31 = .cause p .release w ∧ frame 0x32 = .causeEnable p w ∧
     frame 0x33 = .summary p .release w ∧ frame 0x3F = .portReset p w ∧ frame 0x40 = .readEntry p .release w ∧
     frame 0x41 = .readTarget p .release w ∧ frame 0x50 = .stageEntry p w ∧ frame 0x51 = .copyActive p w ∧
     frame 0x52 = .apply p w ∧ frame 0x58 = .setupTarget p w ∧ frame 0x59 = .removeTarget p w ∧
     frame 0x5A = .resetTarget p w ∧ frame 0x5C = .resetBus p w ∧ frame 0x5D = .busMode p w ∧
     (∀ code, code ∉ frameCodes → frame code = .badcode p code w) ∧ frameOfBytes p [] = .frameWithoutCode p) ∧
   (∀ code : Byte, code ∈ frameCodes ↔ code.toNat ∈ [0x10, 0x11, 0x12, 0x13, 0x20, 0x21, 0x22, 0x30, 0x31, 0x32, 0x33, 0x3F, 0x40,
     0x41, 0x50, 0x51, 0x52, 0x58, 0x59, 0x5A, 0x5C, 0x5D]) ∧
   (∀ (p : Port) (w : List Byte), portOfFrame (.summaryByte p) = some p ∧ portOfFrame (frameOfBytes p w) = some p ∧
     ∀ c, captureOfBytes p w = some c → portOfFrame c = some p) ∧
   (∀ (p : Port) (code : Byte) (w : List Byte), captureOfBytes p [] = none ∧
     (captureOfBytes p (code :: w) ≠ none ↔ ((code = 0x21 ∨ code = 0x40) ∧ w.length = 2) ∨ (code = 0x41 ∧ w.length = 1) ∨
       ((code = 0x30 ∨ code = 0x31 ∨ code = 0x33) ∧ w = []))) ∧
   (∀ (p : Port) (bits : List Bool), let w := completeBytes bits
     (∀ n c, captureOfBytes p (w.take n) = some c → frameOfBits p bits = [.summaryByte p, c, frameOfBytes p w]) ∧
     ((∀ n, captureOfBytes p (w.take n) = none) → frameOfBits p bits = [.summaryByte p, frameOfBytes p w])) ∧
   ∀ (p : Port) (a b : Byte), captureOfBytes p [0x21, a, b] = some (.fetch p .capture [a, b]) ∧
     captureOfBytes p [0x30] = some (.collect p .capture []) ∧ captureOfBytes p [0x31] = some (.cause p .capture []) ∧
     captureOfBytes p [0x33] = some (.summary p .capture []) ∧
     captureOfBytes p [0x40, a, b] = some (.readEntry p .capture [a, b]) ∧
     captureOfBytes p [0x41, a] = some (.readTarget p .capture [a])) ∧
  ((∀ (p : Port) (s : State), s.resetLow = false → s.frameWaits p = false → s.stands = false →
     ∃ t, exec (.summaryByte p) s = .next t ∧ OnlyPort p s t ∧
       t.port p = { s.port p with link := { (s.port p).link with
         isOpen := true, ignoring := false, summary := (s.port p).summaryByte, captured := none } }) ∧
   (∀ (p : Port) (code : Byte) (bytes : List Byte) (s : State), s.hears p → code ∉ frameCodes →
     ∃ t, exec (.badcode p code bytes) s = .next t ∧ OnlyPort p s t ∧
       t.port p = { s.port p with last := .badCode, link := (t.port p).link } ∧
       (t.port p).link.sdo = (s.port p).frameSummary :: List.replicate bytes.length 0) ∧
   (∀ (p : Port) (s : State), s.hears p →
     ∃ t, exec (.frameWithoutCode p) s = .next t ∧ OnlyPort p s t ∧
       t.port p = { s.port p with link := { (s.port p).link with isOpen := false, captured := none } }))

/-- SUMMARY (R177, R191): its 23 bytes, captured at the code byte; its release gives OK and clears nothing. SDO carries a filler
byte before H0 (R182), as the rules say and against the 24 bytes of the example in 11.8 (log 15, DEDUCED). The two moments, the
release that captures late and the frame that opens itself are log 5. The capture leaves the frame open with the summary byte of
its fall, the release closes it (R178, R179, R182). -/
def Obligations.SummaryReportsThePort : Prop :=
  (∀ c, Captured.isSummary c = true ↔ ∃ reply, c = .summary reply) ∧
  ∀ (p : Port) (bytes : List Byte) (s : State), s.hears p →
    let u := s.port p
    ∃ reply : List Byte, reply.length = 23 ∧
      (byteAt reply 0).toNat = p.val + 16 * s.authority.val + (if s.authority = p then 128 else 0) ∧
      byteAt reply 1 = BitVec.ofNat 8 u.ring.length ∧ byteAt reply 2 = BitVec.ofNat 8 u.credits ∧
      byteAt reply 3 = BitVec.ofNat 8 u.queue.length ∧
      (∀ c, ((byteAt reply 4).getLsbD ((causeCode (some c)).toNat - 1) = u.pending.has c) ∧
        ((byteAt reply 5).getLsbD ((causeCode (some c)).toNat - 1) = u.enable.has c)) ∧
      (byteAt reply 4).toNat < 32 ∧ (byteAt reply 5).toNat < 32 ∧
      (byteAt reply 6).toNat = u.watermark % 32 + (if u.armed then 128 else 0) ∧
      256 * (byteAt reply 7).toNat + (byteAt reply 8).toNat = s.policy.generation.toNat ∧
      (byteAt reply 9).toNat = (match s.policy.failure with
        | some i => i.val
        | none => 255) ∧
      (∀ k : SlotIx,
        (byteAt reply (10 + 3 * k.val)).toNat = (match (pick u.slots k).state with
          | .free => 0
          | .held => 1
          | .committed => 2) ∧
        256 * (byteAt reply (11 + 3 * k.val)).toNat + (byteAt reply (12 + 3 * k.val)).toNat =
          (pick u.slots k).valid % 65536) ∧
      (byteAt reply 22).toNat = u.last.code.toNat + (if u.hold then 16 else 0) ∧
      (∃ t, exec (.summary p .capture bytes) s = .next t ∧ OnlyPort p s t ∧
        t.port p = { s.port p with link := (t.port p).link } ∧ (t.port p).link = u.linkHolding (.summary reply)) ∧
      (∀ shown, u.link.inForce Captured.isSummary (.summary reply) = .summary shown →
        ∃ t, exec (.summary p .release bytes) s = .next t ∧ OnlyPort p s t ∧
          t.port p = { s.port p with last := .ok, link := (t.port p).link } ∧
          (t.port p).link = u.linkReleased (u.carries 1 shown bytes.length))

/-! ### The policy table -/

/-- READ ENTRY (R8): the checks in their order, and the entry captured together with the generation. The two moments, the
release that captures late and the frame that opens itself are log 5. The capture leaves the frame open with the summary byte of
its fall, the release closes it (R178, R179, R182). -/
def Obligations.ReadEntryShowsAnEntry : Prop :=
  (∀ c, Captured.isReadEntry c = true ↔ ∃ result reply, c = .readEntry result reply) ∧
  (∀ w : BitVec 16, ∃ high low : Byte, bytes16 w = [high, low] ∧ w.toNat = 256 * high.toNat + low.toNat) ∧
  ∀ (p : Port) (bytes : List Byte) (s : State), s.hears p → 2 ≤ bytes.length →
    let selector := (byteAt bytes 0).toNat
    let index := (byteAt bytes 1).toNat
    ∃ now : Captured,
      (1 < selector ∨ 31 < index → now = .readEntry .badField []) ∧
      (selector = 1 → index ≤ 31 → p ≠ s.authority → now = .readEntry .notAuth []) ∧
      (∀ i : EntryIx, index = i.val → selector = 0 →
        now = .readEntry .ok ((pick s.policy.active i).toBytes ++ bytes16 s.policy.generation)) ∧
      (∀ i : EntryIx, index = i.val → selector = 1 → p = s.authority →
        now = .readEntry .ok ((pick s.policy.staged i).toBytes ++ bytes16 s.policy.generation)) ∧
      (∃ t, exec (.readEntry p .capture bytes) s = .next t ∧ OnlyPort p s t ∧
        t.port p = { s.port p with link := (t.port p).link } ∧ (t.port p).link = (s.port p).linkHolding now) ∧
      (∀ result reply, (s.port p).link.inForce Captured.isReadEntry now = .readEntry result reply →
        ∃ t, exec (.readEntry p .release bytes) s = .next t ∧ OnlyPort p s t ∧
          t.port p = { s.port p with last := result, link := (t.port p).link } ∧
          (t.port p).link = (s.port p).linkReleased ((s.port p).carries 3 reply bytes.length))

/-- STAGE ENTRY (R6) and COPY ACTIVE (R7): NOTAUTH, BADFIELD, and the change to the staged table, which is made at once where no
successful APPLY waits for an admission and after the waiting ones otherwise (R4, log 8). -/
def Obligations.StageEntryAndCopyActiveEditTheStagedTable : Prop :=
  (∀ (p : Port) (bytes : List Byte) (s : State), s.hears p → 13 ≤ bytes.length →
    ∃ t, exec (.stageEntry p bytes) s = .next t ∧ t = { s with ports := t.ports, policy := t.policy } ∧
      (∀ q, q ≠ p → t.port q = s.port q) ∧
      t.port p = { s.port p with last := (t.port p).last, link := (t.port p).link } ∧
      (p ≠ s.authority → t.policy = s.policy ∧ (t.port p).last = .notAuth) ∧
      (p = s.authority → 31 < (byteAt bytes 0).toNat → t.policy = s.policy ∧ (t.port p).last = .badField) ∧
      (p = s.authority → ∀ i : EntryIx, (byteAt bytes 0).toNat = i.val → (t.port p).last = .ok ∧
        (s.policy.applies = 0 → t.policy =
          { s.policy with staged := put s.policy.staged i (RegionEntry.ofBytes bytes 1) }) ∧
        (s.policy.applies ≠ 0 → t.policy =
          { s.policy with edits := s.policy.edits ++ [.stage i (RegionEntry.ofBytes bytes 1)] }))) ∧
  (∀ (p : Port) (bytes : List Byte) (s : State), s.hears p →
    ∃ t, exec (.copyActive p bytes) s = .next t ∧ t = { s with ports := t.ports, policy := t.policy } ∧
      (∀ q, q ≠ p → t.port q = s.port q) ∧
      t.port p = { s.port p with last := (t.port p).last, link := (t.port p).link } ∧
      (p ≠ s.authority → t.policy = s.policy ∧ (t.port p).last = .notAuth) ∧
      (p = s.authority → (t.port p).last = .ok ∧
        (s.policy.applies = 0 → t.policy = { s.policy with staged := s.policy.active }) ∧
        (s.policy.applies ≠ 0 → t.policy = { s.policy with edits := s.policy.edits ++ [.copyActive] })))

/-- APPLY at its release: the five requirements of R10 on every valid staged entry, the failure index of R11, and the success,
which stands until the Policy Unit takes it (R4, log 8). -/
def Obligations.ApplyChecksTheStagedTable : Prop :=
  ∀ (p : Port) (bytes : List Byte) (s : State), s.hears p →
    let fails (i : EntryIx) :=
      (pick s.policy.staged i).valid = true ∧
      ¬((pick s.policy.staged i).ports ≠ 0 ∧ 1 ≤ (pick s.policy.staged i).size.toNat ∧
        (pick s.policy.staged i).size.toNat ≤ 65536 ∧
        (pick s.policy.staged i).base.toNat + (pick s.policy.staged i).size.toNat ≤ 1048576 ∧
        (pick s.policy.staged i).offset.toNat + (pick s.policy.staged i).size.toNat ≤ 65536 ∧
        (pick s.policy.staged i).target.toNat ≤ 7)
    ∃ t, exec (.apply p bytes) s = .next t ∧ t = { s with ports := t.ports, policy := t.policy } ∧
      (∀ q, q ≠ p → t.port q = s.port q) ∧
      t.port p = { s.port p with last := (t.port p).last, link := (t.port p).link } ∧
      (p ≠ s.authority → t.policy = s.policy ∧ (t.port p).last = .notAuth) ∧
      (p = s.authority → ∀ i, fails i → (∀ j, j.val < i.val → ¬ fails j) →
        t.policy = { s.policy with failure := some i } ∧ (t.port p).last = .applyFail) ∧
      (p = s.authority → (∀ i, ¬ fails i) →
        t.policy = { s.policy with applies := s.policy.applies + 1 } ∧ (t.port p).last = .ok)

/-- APPLY_SUCCEEDS (R12, R13, R14, R46). While an admission is under way the APPLY waits and nothing changes (R4). With none:
the new table, generation and failure index, the POLICY causes, the revocation claims and the released heads, in one event. The
staged-table changes made while APPLYs waited follow the last of them (R4, log 8). A frame that comes while an APPLY stands
finds it taken (R4, log 8). -/
def Obligations.ApplySucceedsPutsTheTableInForce : Prop :=
  (∀ u : PolicyUnit, u.edit .copyActive = { u with staged := u.active } ∧
    ∀ i entry, u.edit (.stage i entry) = { u with staged := put u.staged i entry }) ∧
  (∀ s : State, s.applyStands = true ↔ s.admission.current = none ∧ 0 < s.policy.applies) ∧
  (∀ s : State, 0 < s.policy.applies → s.admission.current ≠ none → exec .applySucceeds s = .next s) ∧
  (∀ (c : Instr) (p : Port) (s : State), portOfFrame c = some p → s.deaf p = false → s.frameWaits p = false →
    0 < s.policy.applies → s.admission.current = none →
    ∃ u, exec .applySucceeds s = .next u ∧ exec c s = exec c u) ∧
  ∀ s : State, 0 < s.policy.applies → s.admission.current = none →
    let old (i : EntryIx) := pick s.policy.active i
    let new (i : EntryIx) := pick s.policy.staged i
    let changed (i : EntryIx) := (old i).valid ≠ (new i).valid ∨ ((old i).valid = true ∧ (new i).valid = true ∧ old i ≠ new i)
    let names (e : RegionEntry) (p : Port) := e.valid = true ∧ e.ports.getLsbD p.val = true
    let revoked (i : EntryIx) := changed i ∧ (old i).valid = true ∧ (old i).mode = .strict
    ∃ t, exec .applySucceeds s = .next t ∧
      t = { s with ports := t.ports, policy := t.policy, admission := t.admission, buses := t.buses } ∧
      t.policy.active = s.policy.staged ∧ t.policy.generation = s.policy.generation + 1 ∧ t.policy.failure = none ∧
      t.policy.applies = s.policy.applies - 1 ∧
      (1 < s.policy.applies ∨ s.policy.edits = [] → t.policy.staged = s.policy.staged ∧ t.policy.edits = s.policy.edits) ∧
      (s.policy.applies = 1 → t.policy.edits = [] ∧ t.policy.staged =
        (s.policy.edits.foldl PolicyUnit.edit { s.policy with active := s.policy.staged }).staged) ∧
      t.admission.current = none ∧ t.admission.pointer = s.admission.pointer ∧
      (∀ p, pick t.admission.blocked p = none) ∧
      (∀ p, (∃ i, changed i ∧ (names (old i) p ∨ names (new i) p)) → t.port p = (s.port p).raise .policy) ∧
      (∀ p, (∀ i, changed i → ¬ names (old i) p ∧ ¬ names (new i) p) → t.port p = s.port p) ∧
      ((∀ i, ¬ revoked i) → t.buses = s.buses) ∧
      ((∃ i, revoked i) → ∃ claim : Revocation, claim.generation = s.policy.generation + 1 ∧
        (∀ i, i ∈ claim.indices ↔ revoked i) ∧
        ∀ b, t.bus b = { s.bus b with revocations := (s.bus b).revocations ++ [claim] })

/-! ### Targets -/

/-- READ TARGET (R34, R190): its check, and the 45 bytes captured at the target byte. The two moments, the release that captures
late and the frame that opens itself are log 5. The capture leaves the frame open with the summary byte of its fall, the release
closes it (R178, R179, R182). -/
def Obligations.ReadTargetShowsARecord : Prop :=
  (∀ c, Captured.isReadTarget c = true ↔ ∃ result reply, c = .readTarget result reply) ∧
  (∀ (bytes : List Byte) (i : Nat), let f (k : Nat) := (byteAt bytes (i + k)).toNat
    (word24At bytes i).toNat = 65536 * f 0 + 256 * f 1 + f 2 ∧
    (word32At bytes i).toNat = 16777216 * f 0 + 65536 * f 1 + 256 * f 2 + f 3) ∧
  ∀ (p : Port) (bytes : List Byte) (s : State), s.hears p → 1 ≤ bytes.length →
    ∃ now : Captured,
      (7 < (byteAt bytes 0).toNat → now = .readTarget .badField []) ∧
      (∀ x : Target, (byteAt bytes 0).toNat = x.val →
        let r := s.target x
        ∃ reply : List Byte, now = .readTarget .ok reply ∧ reply.length = 45 ∧ (byteAt reply 0).toNat = x.val ∧
          (byteAt reply 1).toNat = (match r.state with
            | .absent => 0
            | .idle => 1
            | .programming => 2
            | .erasing => 3
            | .suspending => 4
            | .suspended => 5
            | .faulted => 6
            | .resetting => 7) ∧
          (reply.drop 2).take 31 = r.profile.toBytes ∧
          (r.owner.bind (s.bus (busOf x)).find = none → byteAt reply 33 = 0 ∧ byteAt reply 34 = 0) ∧
          (∀ it, r.owner.bind (s.bus (busOf x)).find = some it →
            (byteAt reply 33).toNat = 128 + (if it.orphan then 64 else 0) + 16 * it.port.val +
              (match it.kind with
                | .read => 0
                | .program => 1
                | .erase => 2
                | .status => 3) ∧
            byteAt reply 34 = it.tag) ∧
          (r.unit = none → byteAt reply 35 = 0 ∧ word32At reply 36 = 0) ∧
          (∀ u, r.unit = some u → (byteAt reply 35).toNat = 128 + (match u.size with
              | .kib4 => 0
              | .kib32 => 1
              | .kib64 => 2) ∧
            (word32At reply 36).toNat = u.first % 4294967296) ∧
          byteAt reply 40 = BitVec.ofNat 8 r.suspendCount ∧
          (word24At reply 41).toNat = r.busyTime / 200 % 16777216 ∧
          (r.pendingReset = none → byteAt reply 44 = 0) ∧
          (∀ pr, r.pendingReset = some pr → pr.toSend ≤ 2 →
            (byteAt reply 44).toNat = pr.toSend + (if pr.recovering then 128 else 0))) ∧
      (∃ t, exec (.readTarget p .capture bytes) s = .next t ∧ OnlyPort p s t ∧
        t.port p = { s.port p with link := (t.port p).link } ∧ (t.port p).link = (s.port p).linkHolding now) ∧
      (∀ result reply, (s.port p).link.inForce Captured.isReadTarget now = .readTarget result reply →
        ∃ t, exec (.readTarget p .release bytes) s = .next t ∧ OnlyPort p s t ∧
          t.port p = { s.port p with last := result, link := (t.port p).link } ∧
          (t.port p).link = (s.port p).linkReleased ((s.port p).carries 2 reply bytes.length))

/-- SETUP TARGET (R30, R31, R33), where no admission holds it back (R33: one that has read the target named, of a frame that
passes the checks before quietness): the checks in their order, and the profile stored in a quiet target. -/
def Obligations.SetupTargetStoresAProfile : Prop :=
  (∀ (p : Port) (bytes : List Byte) (s : State), s.heldBack (.setupTarget p bytes) = true ↔ p = s.authority ∧
    32 ≤ bytes.length ∧ Profile.ofBytes bytes 1 ≠ none ∧
    ∃ a x, (byteAt bytes 0).toNat = x.val ∧ s.admission.current = some a ∧ a.target = some x) ∧
  ∀ (p : Port) (bytes : List Byte) (s : State), s.hears p → s.heldBack (.setupTarget p bytes) = false →
    32 ≤ bytes.length →
    ∃ t, exec (.setupTarget p bytes) s = .next t ∧ t = { s with ports := t.ports, targets := t.targets } ∧
      (∀ q, q ≠ p → t.port q = s.port q) ∧
      t.port p = { s.port p with last := (t.port p).last, link := (t.port p).link } ∧
      (p ≠ s.authority → t.targets = s.targets ∧ (t.port p).last = .notAuth) ∧
      (p = s.authority → (7 < (byteAt bytes 0).toNat ∨ Profile.ofBytes bytes 1 = none) →
        t.targets = s.targets ∧ (t.port p).last = .badField) ∧
      (p = s.authority → ∀ x : Target, (byteAt bytes 0).toNat = x.val → ∀ pr, Profile.ofBytes bytes 1 = some pr →
        let quiet := ((s.target x).state = .absent ∨ (s.target x).state = .idle ∨ (s.target x).state = .faulted) ∧
          ∀ it ∈ (s.bus (busOf x)).list, it.target ≠ x
        (¬ quiet → t.targets = s.targets ∧ (t.port p).last = .notNow) ∧
        (quiet → (t.port p).last = .ok ∧ (∀ y, y ≠ x → t.target y = s.target y) ∧
          ((s.target x).state = .absent → t.target x = { TargetRecord.absent with profile := pr, state := .idle }) ∧
          ((s.target x).state ≠ .absent → t.target x = { s.target x with profile := pr })))

/-- REMOVE TARGET (R32, R33), where no admission holds it back (R33: one that has read the target named): a quiet IDLE or FAULTED
target becomes ABSENT. -/
def Obligations.RemoveTargetMakesItAbsent : Prop :=
  (∀ (p : Port) (bytes : List Byte) (s : State), s.heldBack (.removeTarget p bytes) = true ↔ p = s.authority ∧
    1 ≤ bytes.length ∧ ∃ a x, (byteAt bytes 0).toNat = x.val ∧ s.admission.current = some a ∧ a.target = some x) ∧
  ∀ (p : Port) (bytes : List Byte) (s : State), s.hears p → s.heldBack (.removeTarget p bytes) = false →
    1 ≤ bytes.length →
    ∃ t, exec (.removeTarget p bytes) s = .next t ∧ t = { s with ports := t.ports, targets := t.targets } ∧
      (∀ q, q ≠ p → t.port q = s.port q) ∧
      t.port p = { s.port p with last := (t.port p).last, link := (t.port p).link } ∧
      (p ≠ s.authority → t.targets = s.targets ∧ (t.port p).last = .notAuth) ∧
      (p = s.authority → 7 < (byteAt bytes 0).toNat → t.targets = s.targets ∧ (t.port p).last = .badField) ∧
      (p = s.authority → ∀ x : Target, (byteAt bytes 0).toNat = x.val →
        let may := ((s.target x).state = .idle ∨ (s.target x).state = .faulted) ∧
          ∀ it ∈ (s.bus (busOf x)).list, it.target ≠ x
        (¬ may → t.targets = s.targets ∧ (t.port p).last = .notNow) ∧
        (may → (t.port p).last = .ok ∧ (∀ y, y ≠ x → t.target y = s.target y) ∧ (t.target x).state = .absent ∧
          (t.target x).profile = .zero ∧ (t.target x).owner = none ∧ (t.target x).unit = none ∧
          (t.target x).suspendCount = 0 ∧ (t.target x).busyTime = 0 ∧ (t.target x).pendingReset = none ∧
          (t.target x).stopTimers = t.target x ∧ (t.target x).poll = .stopped ∧ (t.target x).program = .stopped ∧
          (t.target x).holdOff = .stopped ∧ (t.target x).latency = .stopped ∧ (t.target x).held = .stopped ∧
          (t.target x).recovery = .stopped))

/-- RESET TARGET at its release (R115): its checks, and the claim sent, which waits for an admission that has read the target
(R52). The claim, taken with no frame to the target in flight and no admission that has read it (R115, R116): the owner leaves
FAILED/ABORTED and the target is RESETTING; on an ABSENT or RESETTING target the claim has no effect. With a frame to the target
in flight the claim stays issued and nothing changes, until the frame's release (R115). With no such frame and no such admission
the claim stands ready, as an APPLY does with no admission under way (R4, log 8) and a bus reset claim with none that has read a
target of its bus (R95, log 9), and it is taken at once (R115): an upstream frame, ADMISSION, CHOICE and an expiry that lets time
pass find all that stands ready taken, one event after another, each as its own command takes it. -/
def Obligations.ResetTargetAndItsClaim : Prop :=
  (∀ s : State,
     let busReady (b : Bus) := 0 < (s.bus b).resets ∧ s.admittingBus b = false
     let ready (x : Target) := x ∈ s.resetClaims ∧ s.frameTo x = false ∧ s.admittingTarget x = false
     (s.stands = true ↔ (s.admission.current = none ∧ 0 < s.policy.applies) ∨ (∃ b, busReady b) ∨ ∃ x, ready x) ∧
     (s.stands = false → s.settle = s) ∧ s.settle.stands = false ∧
     (s.stands = true → ∃ c u, exec c s = .next u ∧ u.settle = s.settle ∧
       ((c = .applySucceeds ∧ s.admission.current = none ∧ 0 < s.policy.applies) ∨
         (∃ b, c = .busResetClaim b ∧ busReady b) ∨ ∃ x, c = .targetResetClaim x ∧ ready x))) ∧
  (∀ (c : Instr) (s : State),
     (∃ p, portOfFrame c = some p ∧ s.deaf p = false ∧ s.frameWaits p = false) ∨
       (c = .admission ∧ s.admission.current = none) ∨ (∃ b, c = .choice b ∧ (s.bus b).frame = none) ∨
       (∃ x, let r := s.target x
         let runs (timer : Timer) := ∃ period spent, timer = .running period spent ∧ spent < period
         (c = .pollTimerExpiry x ∧ runs r.poll) ∨ (c = .programTimerExpiry x ∧ runs r.program) ∨
         (c = .holdOffTimerExpiry x ∧ runs r.holdOff) ∨ (c = .suspendLatencyTimerExpiry x ∧ runs r.latency) ∨
         (c = .suspendedTimerExpiry x ∧ runs r.held) ∨ (c = .recoveryTimerExpiry x ∧ runs r.recovery) ∨
         (c = .busyTimeReachesTel x ∧ (r.state = .erasing ∨ r.state = .suspending) ∧
           r.busyTime < r.profile.tEL.toNat * 200000)) →
     exec c s = exec c s.settle) ∧
  (∀ (p : Port) (bytes : List Byte) (s : State), s.hears p → 1 ≤ bytes.length →
     ∃ t, exec (.resetTarget p bytes) s = .next t ∧
       t = { s with ports := t.ports, resetClaims := t.resetClaims, waiting := t.waiting } ∧
       (∀ q, q ≠ p → t.port q = s.port q) ∧
       t.port p = { s.port p with last := (t.port p).last, link := (t.port p).link } ∧
       (p ≠ s.authority → t.resetClaims = s.resetClaims ∧ t.waiting = s.waiting ∧ (t.port p).last = .notAuth) ∧
       (p = s.authority → 7 < (byteAt bytes 0).toNat →
         t.resetClaims = s.resetClaims ∧ t.waiting = s.waiting ∧ (t.port p).last = .badField) ∧
       (p = s.authority → ∀ x : Target, (byteAt bytes 0).toNat = x.val →
         ((s.target x).state = .absent ∨ (s.target x).state = .resetting →
           t.resetClaims = s.resetClaims ∧ t.waiting = s.waiting ∧ (t.port p).last = .notNow) ∧
         ((s.target x).state ≠ .absent → (s.target x).state ≠ .resetting → (t.port p).last = .ok ∧
           (s.admittingTarget x = true → t.resetClaims = s.resetClaims ∧ t.waiting = s.waiting ++ [.targetReset x]) ∧
           (s.admittingTarget x = false → t.resetClaims = s.resetClaims ++ [x] ∧ t.waiting = s.waiting)))) ∧
  (∀ (x : Target) (r : FrameRecord) (s : State), x ∈ s.resetClaims → (s.bus (busOf x)).frame = some r → r.target = x →
     exec (.targetResetClaim x) s = .next s) ∧
  (∀ (x : Target) (s : State), x ∈ s.resetClaims → s.frameTo x = false → s.admittingTarget x = false →
     let s1 := { s with resetClaims := s.resetClaims.filter (fun y => decide (y ≠ x)) }
     ((s.target x).state = .absent ∨ (s.target x).state = .resetting → exec (.targetResetClaim x) s = .next s1) ∧
     ((s.target x).state ≠ .absent → (s.target x).state ≠ .resetting →
       (∀ it, (s.target x).owner.bind (s.bus (busOf x)).find = some it →
         exec (.targetResetClaim x) s = .next
           ((s1.finish (busOf x) it (it.report .failed .aborted it.ownerMoved [])).setTarget x (s.target x).inReset)) ∧
       ((s.target x).owner.bind (s.bus (busOf x)).find = none →
         exec (.targetResetClaim x) s = .next (s1.setTarget x (s.target x).inReset))))

/-! ### Buses -/

/-- RESET BUS at its release (R95): its checks, and the claim issued, which waits for an admission that has read a target of the
bus. BUS MODE (R80): the checks in their order, and the mode set. -/
def Obligations.ResetBusAndBusModeAtTheirRelease : Prop :=
  (∀ (p : Port) (bytes : List Byte) (s : State), s.hears p → 1 ≤ bytes.length →
     ∃ t, exec (.resetBus p bytes) s = .next t ∧ t = { s with ports := t.ports, buses := t.buses, waiting := t.waiting } ∧
       (∀ q, q ≠ p → t.port q = s.port q) ∧
       t.port p = { s.port p with last := (t.port p).last, link := (t.port p).link } ∧
       (p ≠ s.authority → t.buses = s.buses ∧ t.waiting = s.waiting ∧ (t.port p).last = .notAuth) ∧
       (p = s.authority → 1 < (byteAt bytes 0).toNat →
         t.buses = s.buses ∧ t.waiting = s.waiting ∧ (t.port p).last = .badField) ∧
       (p = s.authority → ∀ b : Bus, (byteAt bytes 0).toNat = b.val → (t.port p).last = .ok ∧
         (s.admittingBus b = true → t.buses = s.buses ∧ t.waiting = s.waiting ++ [.busReset b]) ∧
         (s.admittingBus b = false → t.waiting = s.waiting ∧ (∀ c, c ≠ b → t.bus c = s.bus c) ∧
           t.bus b = { s.bus b with resets := (s.bus b).resets + 1 }))) ∧
  (∀ (p : Port) (bytes : List Byte) (s : State), s.hears p → 2 ≤ bytes.length →
     let code := (byteAt bytes 1).toNat
     ∃ t, exec (.busMode p bytes) s = .next t ∧ t = { s with ports := t.ports, buses := t.buses } ∧
       (∀ q, q ≠ p → t.port q = s.port q) ∧
       t.port p = { s.port p with last := (t.port p).last, link := (t.port p).link } ∧
       (p ≠ s.authority → t.buses = s.buses ∧ (t.port p).last = .notAuth) ∧
       (p = s.authority → (1 < (byteAt bytes 0).toNat ∨ 2 < code) →
         t.buses = s.buses ∧ (t.port p).last = .badField) ∧
       (p = s.authority → ∀ b : Bus, (byteAt bytes 0).toNat = b.val → code ≤ 2 →
         let busy := (s.bus b).frame ≠ none ∨ ∃ x, busOf x = b ∧
           (s.target x).state ≠ .absent ∧ (s.target x).state ≠ .idle ∧ (s.target x).state ≠ .faulted
         (code = 2 → (s.bus b).mode ≠ .float → busy → t.buses = s.buses ∧ (t.port p).last = .notNow) ∧
         (¬(code = 2 ∧ (s.bus b).mode ≠ .float ∧ busy) → (t.port p).last = .ok ∧ (∀ c, c ≠ b → t.bus c = s.bus c) ∧
           t.bus b = { s.bus b with mode := if code = 0 then .run else if code = 1 then .halt else .float })))

/-- BUS_RESET_CLAIM (R96, R97, R119), with no admission that has read a target of the bus: the cancel claims that the authority
sent before it come first (R160); then every item but the one in flight leaves FAILED/ABORTED in list order, the frame in flight
is overtaken and a READ's early end requested, and every present target of the bus is RESETTING. Port Units and blocked findings
are those that the items' leaving one after another gives (R46, R145). -/
def Obligations.BusResetClaimClearsTheBus : Prop :=
  ∀ (b : Bus) (s : State), 0 < (s.bus b).resets → s.admittingBus b = false →
    let serves (it : Item) := (s.bus b).frame.bind (·.item) = some it.uid
    let out := (s.bus b).list.filter (fun it => decide ¬ serves it)
    (∀ c, (s.bus b).cancels.find? (fun x => decide (x.port = s.authority)) = some c → c.behind = 0 →
      ∃ u, exec (.cancelClaim s.authority b) s = .next u ∧ exec (.busResetClaim b) s = exec (.busResetClaim b) u) ∧
    ((∀ c ∈ (s.bus b).cancels, c.port = s.authority → c.behind ≠ 0) → ∃ t, exec (.busResetClaim b) s = .next t ∧
      t = { s with ports := t.ports, buses := t.buses, targets := t.targets, admission := t.admission } ∧
      t.admission = { s.admission with blocked := t.admission.blocked } ∧
      (let left := out.foldl (fun u it => u.finish b it (it.report .failed .aborted it.bytesMoved it.headBytes)) s
       t.ports = left.ports ∧ t.admission = left.admission) ∧
      (∀ p, (t.port p).queue = (s.port p).queue ++
        (out.filter (fun it => decide (it.port = p) && !it.orphan)).map
          (fun it => it.report .failed .aborted it.bytesMoved it.headBytes)) ∧
      (∀ c, c ≠ b → t.bus c = s.bus c) ∧
      (t.bus b).list = (s.bus b).list.filter (fun it => decide (serves it)) ∧
      (t.bus b).frame = (s.bus b).frame.map (fun r => { r.endEarly with overtaken := true }) ∧
      (t.bus b).mode = (s.bus b).mode ∧ (t.bus b).portPtr = (s.bus b).portPtr ∧
      (t.bus b).pollPtr = (s.bus b).pollPtr ∧ (t.bus b).revocations = (s.bus b).revocations ∧
      (t.bus b).cancels = (s.bus b).cancels.map (fun c => { c with behind := c.behind - 1 }) ∧
      (t.bus b).resets = (s.bus b).resets - 1 ∧ (t.bus b).sinceRelease = (s.bus b).sinceRelease ∧
      (∀ x, busOf x ≠ b ∨ (s.target x).state = .absent → t.target x = s.target x) ∧
      (∀ x, busOf x = b → (s.target x).state ≠ .absent → t.target x = (s.target x).inReset))

/-! ### Admission -/

/-- The admission checks of a matched entry, in order (R38, R48 to R55), in numbers: pages of 4,096, capacity 2^c MiB, page size
64 * 2^c. -/
def Obligations.AdmissionChecksInOrder : Prop :=
  ∀ (e : RegionEntry) (tr : TargetRecord) (r : Request),
    let address := r.address.toNat
    let base := e.base.toNat * 4096
    let unit := match tr.profile.eraseUnit with
      | .kib4 => 4096
      | .kib32 => 32768
      | .kib64 => 65536
    let span := match r.kind with
      | .read | .program => r.length.toNat
      | .erase => if tr.state = .absent then 1 else r.length.toNat * unit
      | .status => 1
    let physical := e.offset.toNat * 4096 + (address - base)
    let last := physical + span - 1
    let right := match r.kind with
      | .read => 0
      | .program => 1
      | .erase => 2
      | .status => 3
    let spans := base + e.size.toNat * 4096 < address + span
    let granted := e.rights.getLsbD right = true ∧ (r.urgent = true → e.rights.getLsbD 4 = true)
    let down := tr.state = .absent ∨ tr.state = .faulted
    let outside := 2 ^ tr.profile.capacityCode.val * 1048576 ≤ last
    let crosses := r.kind = .program ∧
      physical / (64 * 2 ^ tr.profile.pageCode.toNat) ≠ last / (64 * 2 ^ tr.profile.pageCode.toNat)
    let askew := r.kind = .erase ∧ physical % unit ≠ 0
    (spans → refusalOf e tr r = some .span) ∧
    (¬ spans → ¬ granted → refusalOf e tr r = some .rights) ∧
    (¬ spans → granted → down → refusalOf e tr r = some .targetDown) ∧
    (¬ spans → granted → ¬ down → outside → refusalOf e tr r = some .outside) ∧
    (¬ spans → granted → ¬ down → ¬ outside → crosses → refusalOf e tr r = some .page) ∧
    (¬ spans → granted → ¬ down → ¬ outside → askew → refusalOf e tr r = some .align) ∧
    (¬ spans → granted → ¬ down → ¬ outside → ¬ crosses → ¬ askew → refusalOf e tr r = none)

/-- ADMISSION (R42, R43, R44): while an admission is under way no other head is taken; where no head can be taken the unit stays
idle; the head taken is that of the first port after the pointer that is not passed over; a successful APPLY that waits comes
first (R4), and so does all that stands ready (R115, log 9). -/
def Obligations.AdmissionTakesTheNextHead : Prop :=
  (∀ s : State, s.admission.current ≠ none → exec .admission s = .next s) ∧
  (∀ s : State, s.admission.current = none → 0 < s.policy.applies →
    ∃ u, exec .applySucceeds s = .next u ∧ exec .admission s = exec .admission u) ∧
  (∀ s : State, s.admission.current = none → exec .admission s = exec .admission s.settle ∧ s.settle.stands = false) ∧
  ∀ s : State, s.admission.current = none → s.stands = false →
    let heads (p : Port) (r : Request) := (s.port p).ring.head? = some r ∧ (s.port p).hold = false ∧
      (r.fence = true → ∀ b, ∀ it ∈ (s.bus b).list, it.port = p → it.orphan = true) ∧
      pick s.admission.blocked p = none
    ((∀ p r, ¬ heads p r) → exec .admission s = .next s) ∧
    (∀ p r, heads p r →
      (∀ q x, heads q x → (p - s.admission.pointer - 1).val ≤ (q - s.admission.pointer - 1).val) →
      exec .admission s = .next (s.admitHead p r))

/-- A head is taken (R3, R45 to R56, R59, R60): no match is refused NOREGION; the lowest matching entry governs; a full list blocks
the head and changes nothing else; the first failing check gives a refusal, and a request that passes them all becomes the item
to insert. A refusal is decided here and posted by COMPLETION_POST (log 6, DEDUCED). APPLY puts only targets 0 to 7 in force
(R10); a target field of 8 to 15 is read modulo 8 (log 14, the model's choice). -/
def Obligations.AdmissionDecides : Prop :=
  ∀ (p : Port) (r : Request) (s : State),
    let matches' (i : EntryIx) := (pick s.policy.active i).valid = true ∧
      (pick s.policy.active i).ports.getLsbD p.val = true ∧
      (pick s.policy.active i).base.toNat * 4096 ≤ r.address.toNat ∧
      r.address.toNat < (pick s.policy.active i).base.toNat * 4096 + (pick s.policy.active i).size.toNat * 4096
    let admitting (x : Option Target) (d : Decision) :=
      { s with admission := { s.admission with current := some { port := p, target := x, decision := d } } }
    ((∀ i, ¬ matches' i) →
      s.admitHead p r = admitting none (.refuse r.slot (r.refusal .noRegion none none))) ∧
    (∀ (i : EntryIx) (x : Target), matches' i → (∀ j, j.val < i.val → ¬ matches' j) →
      (pick s.policy.active i).target.toNat % 8 = x.val →
      let e := pick s.policy.active i
      (24 ≤ (s.bus (busOf x)).list.length → s.admitHead p r =
        { s with admission := { s.admission with blocked := put s.admission.blocked p (some (busOf x)) } }) ∧
      ((s.bus (busOf x)).list.length < 24 →
        (∀ reason, refusalOf e (s.target x) r = some reason →
          s.admitHead p r = admitting (some x) (.refuse r.slot (r.refusal reason (some i) (some x)))) ∧
        (refusalOf e (s.target x) r = none → ∃ it : Item,
          s.admitHead p r = admitting (some x) (.insert it) ∧
          it.port = p ∧ it.tag = r.tag ∧ it.kind = r.kind ∧ it.urgent = r.urgent ∧ it.target = x ∧
          it.address = e.offset.toNat * 4096 + (r.address.toNat - e.base.toNat * 4096) ∧
          (r.kind = .read ∨ r.kind = .program → it.length = r.length.toNat) ∧
          (r.kind = .erase → it.unitsRequested = r.length.toNat) ∧ it.unitsDone = 0 ∧ it.drop = .none ∧
          it.slot = r.slot ∧ it.region = i ∧ it.generation = s.policy.generation ∧ it.bytesMoved = 0 ∧
          it.headBytes = [] ∧ it.suspendCount = 0 ∧ it.cancelSeen = false ∧ it.orphan = false ∧ it.state = .queued)))

/-- INSERTION (R56, R57): the revocation claims of earlier APPLYs come first (R14); then the item joins the tail of its list.
COMPLETION_POST (R59, R145, R158): the record of a refusal joins the queue, its slot returns, the causes are judged (R171,
R172). In both the head leaves its ring, the pointer moves, SPACE is judged (R173), and the admission ends: the APPLYs that waited
are taken (R4), then what else waited in its order (R52). That the APPLYs come first is the model's choice (log 7, log 8). -/
def Obligations.AdmissionsEndByInsertionOrRefusal : Prop :=
  let ends (t : State) : State := t.waiting.foldl (fun u w => takeWaiting w u)
    (State.takeApplies t.policy.applies { t with admission := { t.admission with current := none }, waiting := [] })
  (∀ (n : Nat) (s : State), State.takeApplies 0 s = s ∧ State.takeApplies (n + 1) s = State.takeApplies n s.applyTaken ∧
    (0 < s.policy.applies → s.admission.current = none → exec .applySucceeds s = .next s.applyTaken)) ∧
  (∀ (p : Port) (tg : Option Target) (it : Item) (s : State),
     s.admission.current = some { port := p, target := tg, decision := .insert it } →
     (∀ rv rest, (s.bus (busOf it.target)).revocations = rv :: rest →
       ∃ u, exec (.revocationClaim (busOf it.target)) s = .next u ∧ exec .insertion s = exec .insertion u) ∧
     ((s.bus (busOf it.target)).revocations = [] → ∃ t,
       exec .insertion s = .next (ends t) ∧
       t = { s with ports := t.ports, buses := t.buses, admission := t.admission, nextUid := s.nextUid + 1 } ∧
       t.admission = { s.admission with pointer := p, blocked := put s.admission.blocked p none } ∧
       (∀ b, b ≠ busOf it.target → t.bus b = s.bus b) ∧
       t.bus (busOf it.target) = { s.bus (busOf it.target) with
         list := (s.bus (busOf it.target)).list ++ [{ it with uid := s.nextUid }] } ∧
       (∀ q, q ≠ p → t.port q = s.port q) ∧
       (let room := (s.port p).armed = true ∧ (s.port p).ring.tail.length ≤ 6 ∧ (s.port p).credits ≤ 14
        (room → t.port p = PortUnit.raise { s.port p with ring := (s.port p).ring.tail, armed := false } .space) ∧
        (¬ room → t.port p = { s.port p with ring := (s.port p).ring.tail })))) ∧
  (∀ (p : Port) (tg : Option Target) (slot : Option SlotIx) (r : Completion) (s : State),
     s.admission.current = some { port := p, target := tg, decision := .refuse slot r } →
     ∃ t, exec .completionPost s = .next (ends t) ∧
       t = { s with ports := t.ports, admission := t.admission } ∧
       t.admission = { s.admission with pointer := p, blocked := put s.admission.blocked p none } ∧
       (∀ q, q ≠ p → t.port q = s.port q) ∧
       (let posted : PortUnit := { s.port p with
           ring := (s.port p).ring.tail, queue := (s.port p).queue ++ [r],
           slots := match slot with
             | some k => put (s.port p).slots k ((pick (s.port p).slots k).giveBack r.kind r.outcome r.bytesMoved)
             | none => (s.port p).slots
           pending := { (s.port p).pending with
             error := ((s.port p).queue ++ [r]).any (fun x => decide (x.outcome ≠ .done)),
             complete := decide ((s.port p).watermark ≤ (s.port p).queue.length + 1) } }
        let room := (s.port p).armed = true ∧ (s.port p).ring.tail.length ≤ 6 ∧ (s.port p).credits ≤ 14
        (room → t.port p = PortUnit.raise { posted with armed := false } .space) ∧ (¬ room → t.port p = posted)))

/-- With no admission under way, each kind of event that waited is taken as its own command would be (R33, R41, R52, R165; their
one queue is log 7), after whatever stands ready (R4, R115): a frame that its port hears; a bus reset claim; a target reset claim, which
waits on for a frame in flight to its target (R115); a limit expiry, which faults the target where the limit still stands run out
(R106, R110, R129); and the CANCEL of what was the head, which leaves a refusal's record alone and takes its claim at once on an
item inserted, after the claims that the port sent to that bus before it (R41, R57, R160). -/
def Obligations.WaitingEventsAreTakenAsTheirCommands : Prop :=
  ∀ s : State, s.admission.current = none →
    (∀ w, takeWaiting w s = takeWaiting w s.settle) ∧
    (∀ c p, portOfFrame c = some p → s.deaf p = false → s.frameWaits p = false →
      exec c s = .next (takeWaiting (.frame c) s)) ∧
    (s.stands = false →
      (∀ b, exec (.busResetClaim b) (s.setBus b { s.bus b with resets := 1 }) =
        .next (takeWaiting (.busReset b) (s.setBus b { s.bus b with resets := 0 }))) ∧
      (∀ x, x ∉ s.resetClaims → s.frameTo x = false →
        exec (.targetResetClaim x) { s with resetClaims := s.resetClaims ++ [x] } =
          .next (takeWaiting (.targetReset x) s)) ∧
      (∀ x, s.frameTo x = true → takeWaiting (.targetReset x) s = { s with resetClaims := s.resetClaims ++ [x] }) ∧
      (∀ x l, let r := s.target x
        let runsOut (timer : Timer) := ∃ period spent, timer = .running period spent ∧ period ≤ spent
        let late := (l = .program ∧ r.state = .programming ∧ runsOut r.program) ∨
          (l = .latency ∧ r.state = .suspending ∧ runsOut r.latency) ∨
          (l = .busyTime ∧ (r.state = .erasing ∨ r.state = .suspending) ∧ r.profile.tEL.toNat * 200000 ≤ r.busyTime)
        (late → takeWaiting (.expiry x l) s = s.fault x) ∧ (¬ late → takeWaiting (.expiry x l) s = s)) ∧
      (∀ p bytes, s.hears p → 1 ≤ bytes.length → byteAt bytes 0 ∈ (s.port p).tags → (s.port p).link.isOpen = true →
        (s.port p).ring.find? (fun r => r.tag == byteAt bytes 0) ≠ none ∨ s.itemOf p (byteAt bytes 0) = none →
        let u := takeWaiting (.cancelHead p (byteAt bytes 0)) s
        exec (.cancel p bytes) s = .next (u.closeFrame p .ok 2 bytes.length []) ∧
        u.closeFrame p .ok 2 bytes.length [] = u.setPort p { u.port p with last := .ok, link := { (u.port p).link with
          isOpen := false, captured := none, sdo := (u.port p).link.summary :: List.replicate bytes.length 0 } }) ∧
      (∀ p tag b it, (s.port p).ring.find? (fun r => r.tag == tag) = none → s.itemOf p tag = some (b, it) →
        let e := s.bus b
        ((∀ c ∈ e.cancels, c.port ≠ p) → ∀ behind,
          exec (.cancelClaim p b) (s.setBus b { e with cancels := e.cancels ++ [{ port := p, item := it.uid, behind }] }) =
            .next (takeWaiting (.cancelHead p tag) s)) ∧
        (∀ c, e.cancels.find? (fun x => decide (x.port = p)) = some c → c.item ≠ it.uid →
          ∃ u, exec (.cancelClaim p b) s = .next u ∧
            takeWaiting (.cancelHead p tag) s = takeWaiting (.cancelHead p tag) u)))

/-! ### Work lists -/

/-- An item leaves its list (R46, R63, R64): the others keep their order, the heads that the list blocked are released, and the
record is posted with the slot returned and the causes judged (R145, R158, R171, R172), or, for an orphan, discarded with its
slot and a credit freed and SPACE judged (R148, R166, R173). -/
def Obligations.ItemsLeaveTheirList : Prop :=
  ∀ (b : Bus) (it : Item) (r : Completion) (s : State),
    let t := s.finish b it r
    let u := s.port it.port
    t = { s with ports := t.ports, buses := t.buses, admission := t.admission } ∧
    t.admission.current = s.admission.current ∧ t.admission.pointer = s.admission.pointer ∧
    (∀ p, pick t.admission.blocked p =
      if pick s.admission.blocked p = some b then none else pick s.admission.blocked p) ∧
    (∀ c, c ≠ b → t.bus c = s.bus c) ∧
    t.bus b = { s.bus b with list := (s.bus b).list.filter (fun x => x.uid != it.uid) } ∧
    (∀ q, q ≠ it.port → t.port q = s.port q) ∧
    (it.orphan = false → t.port it.port = { u with
      queue := u.queue ++ [r],
      slots := (match it.slot with
        | some k => put u.slots k ((pick u.slots k).giveBack r.kind r.outcome r.bytesMoved)
        | none => u.slots),
      pending := { u.pending with
        error := (u.queue ++ [r]).any (fun x => decide (x.outcome ≠ .done)),
        complete := decide (u.watermark ≤ u.queue.length + 1) } }) ∧
    (it.orphan = true →
      let freed : PortUnit := { u with
        credits := u.credits - 1,
        slots := match it.slot with
          | some k => put u.slots k { state := .free, data := [], valid := 0, ret := none }
          | none => u.slots }
      let room := u.armed = true ∧ u.ring.length ≤ 6 ∧ u.credits - 1 ≤ 14
      (room → t.port it.port = PortUnit.raise { freed with armed := false } .space) ∧
      (¬ room → t.port it.port = freed))

/-- REVOCATION_CLAIM (R15, R16, R17): the QUEUED items of the revoked indices leave in list order, running multi-unit erases under
them shed their further units, and no other item changes. Port Units and blocked findings are those that the items' leaving one
after another gives (R46, R145, R148). -/
def Obligations.RevocationClaimIsTakenWhole : Prop :=
  ∀ (b : Bus) (rv : Revocation) (rest : List Revocation) (s : State), ReferencesDistinct s →
    (s.bus b).revocations = rv :: rest →
    let gone (it : Item) := it.state = .queued ∧ it.region ∈ rv.indices
    let sheds (it : Item) := it.state ≠ .queued ∧ it.region ∈ rv.indices ∧ it.kind = .erase ∧
      it.unitsDone + 1 < it.unitsRequested
    ∃ t, exec (.revocationClaim b) s = .next t ∧
      t = { s with ports := t.ports, buses := t.buses, admission := t.admission } ∧
      t.admission = { s.admission with blocked := t.admission.blocked } ∧
      (let left := ((s.bus b).list.filter (fun it => decide (gone it))).foldl (fun u it => u.finish b it
          (it.report (if it.kind = .erase ∧ 0 < it.unitsDone then .truncated else .failed) .revoked 0 [])) s
       t.ports = left.ports ∧ t.admission = left.admission) ∧
      (∀ p, (t.port p).queue = (s.port p).queue ++
        ((s.bus b).list.filter (fun it => decide (gone it) && decide (it.port = p) && !it.orphan)).map (fun it =>
          Item.report it (if it.kind = .erase ∧ 0 < it.unitsDone then .truncated else .failed) .revoked 0 [])) ∧
      (∀ p, (t.port p).credits = (s.port p).credits -
        ((s.bus b).list.filter (fun it => decide (gone it) && decide (it.port = p) && it.orphan)).length) ∧
      (∀ c, c ≠ b → t.bus c = s.bus c) ∧
      t.bus b = { s.bus b with
        revocations := rest
        list := ((s.bus b).list.filter (fun it => decide ¬ gone it)).map (fun it =>
          if sheds it then
            { it with unitsRequested := it.unitsDone + 1, drop := if it.drop = .none then .revoked else it.drop }
          else it) }

/-- CANCEL_CLAIM (R160, R161, R162, R93): the oldest claim of the port on the bus is taken. It removes a QUEUED item; it marks a
running one cancel-seen, drops the further units of an ERASE, and requests the early end of a READ with data bytes still to be
received; it reaches no item that has left the list, and no orphan. The early end in numbers (R92): requested in SETUP no byte
is shifted, in a byte that byte and no more, in a PAUSE the hold follows at once, in the HOLD nothing changes; a request in the
interval before the assertion acts as in SETUP, which is the model's choice (log 13); a second request changes nothing. A byte
being shifted is one whose DATA_BYTE_RECEIVED has not come (log 16). -/
def Obligations.CancelClaimActsByState : Prop :=
  (∀ (e : BusEngine) (uid : Nat), e.find uid = e.list.find? (fun it => decide (it.uid = uid))) ∧
  (∀ r : FrameRecord,
    let ended (n : Nat) (progress : Progress) : FrameRecord := { r with earlyEnd := some n, progress }
    (r.dataLimit = (match r.earlyEnd with
      | some n => n
      | none => r.currentHeader.length + r.currentCount) - r.currentHeader.length) ∧
    (r.kind ≠ .read ∨ r.earlyEnd ≠ none → r.endEarly = r) ∧
    (r.kind = .read → r.earlyEnd = none →
      (r.progress.phase = .deselect ∨ r.progress.phase = .setup → r.endEarly = ended 0 r.progress) ∧
      (r.progress.phase = .byte → r.endEarly = ended (r.progress.bytes + 1) r.progress) ∧
      (r.progress.phase = .pause →
        r.endEarly = ended r.progress.bytes { phase := .hold, bytes := r.progress.bytes, spent := 0 }) ∧
      (r.progress.phase = .hold → r.endEarly = r))) ∧
  ∀ (p : Port) (b : Bus) (c : CancelClaim) (s : State),
    (s.bus b).cancels.find? (fun x => decide (x.port = p)) = some c →
    let s1 := s.setBus b { s.bus b with cancels := List.erase (s.bus b).cancels c }
    ((s.bus b).find c.item = none → exec (.cancelClaim p b) s = .next s1) ∧
    (∀ it, (s.bus b).find c.item = some it →
      (it.orphan = true → exec (.cancelClaim p b) s = .next s1) ∧
      (it.orphan = false → it.state = .queued → exec (.cancelClaim p b) s =
        .next (s1.finish b it (({ it with cancelSeen := true } : Item).report
          (if it.kind = .erase ∧ 0 < it.unitsDone then .truncated else .cancelled) .cancelled 0 []))) ∧
      (it.orphan = false → it.state ≠ .queued → ∃ t, exec (.cancelClaim p b) s = .next t ∧ OnlyBus b s t ∧
        t.bus b = { s1.bus b with list := (t.bus b).list, frame := (t.bus b).frame } ∧
        (t.bus b).list = (s.bus b).list.map (fun x => if x.uid = it.uid then
            (if x.kind = .erase ∧ x.unitsDone + 1 < x.unitsRequested then
              { x with cancelSeen := true, unitsRequested := x.unitsDone + 1,
                       drop := if x.drop = .none then .cancelled else x.drop }
            else { x with cancelSeen := true }) else x) ∧
        (∀ r, (s.bus b).frame = some r → (t.bus b).frame = some
          (if it.kind = .read ∧ it.state = .active ∧ r.item = some it.uid ∧ it.bytesMoved < r.dataLimit
            then r.endEarly else r)) ∧
        ((s.bus b).frame = none → (t.bus b).frame = none)))

/-! ### The choice at a frame boundary -/

/-- Eligibility and the conditions of suspension (R72, R75, R76, R122, R124, R132). -/
def Obligations.EligibilityAndSuspendConditions : Prop :=
  EraseUnit.kib4.bytes = 4096 ∧ EraseUnit.kib32.bytes = 32768 ∧ EraseUnit.kib64.bytes = 65536 ∧
  ∀ (b : Bus) (s : State),
    let shares (it : Item) (u : UnitRange) := ∃ a, it.address ≤ a ∧ a < it.address + it.length ∧
      u.first ≤ a ∧ a < u.first + u.size.bytes
    let clear (it : Item) := ∀ u, (s.target it.target).unit = some u → ¬ shares it u
    let stateOf (it : Item) := (s.target it.target).state
    (∀ (it : Item) (before after : List Item), (s.bus b).list = before ++ it :: after →
      (∀ x ∈ before, x.uid ≠ it.uid) →
      ((s.bus b).eligibleApart it = true ↔ it.state = .queued ∧
        ∀ x ∈ before, x.port = it.port → x.target = it.target →
          it.urgent = true ∧ (it.kind = .read ∨ it.kind = .status) ∧ x.kind = .erase)) ∧
    (∀ it : Item, s.eligible b it = true ↔ (s.bus b).eligibleApart it = true ∧
      (stateOf it = .idle ∨ (it.kind = .read ∧ stateOf it = .suspended ∧ clear it) ∨
        (it.kind = .status ∧ (stateOf it = .programming ∨ stateOf it = .erasing ∨ stateOf it = .suspended)))) ∧
    (∀ x : Target, s.suspendCondition b x = true ↔
      (s.target x).state = .erasing ∧ 0 < (s.target x).profile.nsus.toNat ∧
      (s.target x).suspendCount < (s.target x).profile.nsus.toNat ∧ (s.target x).holdOff = .expired ∧
      (s.bus b).mode = .run ∧ ∃ it ∈ (s.bus b).list, it.target = x ∧ it.kind = .read ∧ it.urgent = true ∧
        (s.bus b).eligibleApart it = true ∧ clear it) ∧
    (∀ x : Target, s.resumeCondition b x = true ↔ (s.target x).state = .suspended ∧
      ((s.target x).held = .expired ∨
        ∀ it ∈ (s.bus b).list, it.target = x → (it.kind = .read ∨ it.kind = .status) → s.eligible b it = false))

/-- CHOICE is made on an IDLE bus: with a frame in flight nothing changes (R68, R69). On an IDLE bus what stands
ready is taken first (R115, log 9), and then (R69 to R74, R77, R79) the first of the six levels that offers anything, the modes'
levels, and the pointers moved. -/
def Obligations.ChoiceFollowsTheLevels : Prop :=
  (∀ (b : Bus) (s : State), (s.bus b).frame ≠ none → exec (.choice b) s = .next s) ∧
  (∀ (b : Bus) (s : State), (s.bus b).frame = none →
    exec (.choice b) s = exec (.choice b) s.settle ∧ s.settle.stands = false) ∧
  ∀ (b : Bus) (s : State), s.stands = false → (s.bus b).frame = none →
    let reset (x : Target) := busOf x = b ∧ (s.target x).state = .resetting ∧
      ∃ pr, (s.target x).pendingReset = some pr ∧ 0 < pr.toSend
    let poll (x : Target) := busOf x = b ∧ (s.target x).poll = .expired ∧
      ((s.target x).state = .programming ∨ (s.target x).state = .erasing ∨ (s.target x).state = .suspending)
    let resume (x : Target) := busOf x = b ∧ s.resumeCondition b x = true
    let suspend (x : Target) := busOf x = b ∧ s.suspendCondition b x = true
    let urgent (it : Item) := it.urgent = true ∧ s.eligible b it = true
    let normal (it : Item) := it.urgent = false ∧ s.eligible b it = true
    let lowest (P : Target → Prop) (x : Target) := P x ∧ ∀ y, y.val < x.val → ¬ P y
    let fromPoll (x : Target) := (chipSelectOf x - (s.bus b).pollPtr).val
    let sends (kind : FrameKind) (x : Target) := exec (.choice b) s = .next (s.setBus b
      { s.bus b with frame := some (s.maintenanceFrame b kind x) })
    let started (it : Item) : BusEngine := { s.bus b with
      list := (s.bus b).list.map (fun x => if x.uid = it.uid then { x with state := .active } else x)
      frame := some (s.itemFrame b it) }
    ((s.bus b).mode = .float → exec (.choice b) s = .next s) ∧
    ((s.bus b).mode ≠ .float →
      (∀ x, lowest reset x → sends .reset x) ∧
      ((∀ x, ¬ reset x) →
        (∀ x, poll x → (∀ y, poll y → fromPoll x ≤ fromPoll y) → exec (.choice b) s = .next (s.setBus b
          { s.bus b with frame := some (s.maintenanceFrame b .poll x), pollPtr := chipSelectOf x + 1 })) ∧
        ((∀ x, ¬ poll x) →
          (∀ x, lowest resume x → sends .resume x) ∧
          ((∀ x, ¬ resume x) →
            ((s.bus b).mode = .halt → exec (.choice b) s = .next s) ∧
            ((s.bus b).mode = .run →
              (∀ x, lowest suspend x → sends .suspend x) ∧
              ((∀ x, ¬ suspend x) →
                (∀ it before after, (s.bus b).list = before ++ it :: after → urgent it → (∀ x ∈ before, ¬ urgent x) →
                  exec (.choice b) s = .next (s.setBus b (started it))) ∧
                ((∀ it ∈ (s.bus b).list, ¬ urgent it) →
                  (∀ it before after, (s.bus b).list = before ++ it :: after → normal it →
                    (∀ x ∈ before, x.port = it.port → ¬ normal x) →
                    (∀ x ∈ (s.bus b).list, normal x →
                      (it.port - (s.bus b).portPtr).val ≤ (x.port - (s.bus b).portPtr).val) →
                    exec (.choice b) s = .next (s.setBus b { started it with portPtr := it.port + 1 })) ∧
                  ((∀ it ∈ (s.bus b).list, ¬ normal it) → exec (.choice b) s = .next s))))))))

/-- What each frame carries (R82, R84, R88, R90): the bytes of its header and the count and direction of its data, built from
the profile in force and the item; it begins in SETUP, or with cs setup 0 in its first byte, when 4 half clocks have passed
since the last release, and else with what is left of the interval (R83; that time in FLOAT counts is the model's choice, log
17). What the pins show (R81, R83): FLOAT releases them; the one chip select of the frame's target is asserted from SETUP to
HOLD; a byte is 16 half clocks, SCK high in the second half of each bit, in the profile's bit order; a pause holds the last bit.
SDI is sampled at each rising edge of SCK in a byte received, and at no other moment (R83). With no frame in flight and in the
deselect interval the rules give no level of SCK and SDO: SCK low and SDO without a level are the model's choice (log 13). -/
def Obligations.FramesCarryTheirBytes : Prop :=
  (∀ x : Target, (busOf x).val = x.val / 4 ∧ (chipSelectOf x).val = x.val % 4) ∧
  (∀ pr : Profile, pr.framing =
    { divider := pr.divider, csSetup := pr.csSetup, csHold := pr.csHold, gapLength := pr.gapLength, gapMode := pr.gapMode,
      bitOrder := pr.bitOrder }) ∧
  (∀ r : FrameRecord, (r.pair = some .first → r.currentHeader = r.writeEnable ∧ r.currentCount = 0) ∧
    (r.pair ≠ some .first → r.currentHeader = r.header ∧ r.currentCount = r.count)) ∧
  (∀ (b : Bus) (s : State),
    let begins (r : FrameRecord) (pr : Profile) := r.progress =
      if 4 * (pr.divider.toNat + 1) ≤ (s.bus b).sinceRelease then
        { phase := if pr.csSetup = 0 then .byte else .setup, bytes := 0, spent := 0 }
      else { phase := .deselect, bytes := 0, spent := (s.bus b).sinceRelease }
    (∀ it, begins (s.itemFrame b it) (s.target it.target).profile) ∧
    ∀ kind x, begins (s.maintenanceFrame b kind x) (s.target x).profile) ∧
  (∀ (b : Bus) (s : State),
    ((s.bus b).mode = .float → s.pins b = .released) ∧
    ((s.bus b).mode ≠ .float → (s.bus b).frame = none → s.pins b = .driven none false none) ∧
    (∀ r, (s.bus b).mode ≠ .float → (s.bus b).frame = some r →
      let half := r.framing.divider.toNat + 1
      let select := some (chipSelectOf r.target)
      let sent (n : Nat) : Byte := if n < r.currentHeader.length then byteAt r.currentHeader n
        else match r.direction, (s.bus b).serving with
          | .output, some (_, it) => (it.slot.map fun k =>
              (pick (s.port it.port).slots k).data.read (n - r.currentHeader.length)).getD 0
          | _, _ => 0
      let bit (n i : Nat) : Bool := (sent n).getLsbD (if r.framing.bitOrder = .msbFirst then 7 - i else i)
      (r.progress.phase = .deselect → s.pins b = .driven none false none) ∧
      (r.progress.phase = .setup ∨ r.progress.phase = .hold → s.pins b = .driven select false none) ∧
      (∀ i k, r.progress.phase = .byte → i < 8 → k < half →
        (r.progress.spent = 2 * i * half + k → s.pins b = .driven select false (some (bit r.progress.bytes i))) ∧
        (r.progress.spent = (2 * i + 1) * half + k → s.pins b = .driven select true (some (bit r.progress.bytes i)))) ∧
      (r.progress.phase = .pause → s.pins b = .driven select false (some (bit (r.progress.bytes - 1) 7))))) ∧
  (∀ r : FrameRecord,
    let half := r.framing.divider.toNat + 1
    let receives := r.progress.phase = .byte ∧ r.direction = .input ∧ r.currentHeader.length ≤ r.progress.bytes
    ∀ i, r.sampledBit = some i ↔ receives ∧ r.progress.spent = (2 * i + 1) * half) ∧
  (∀ (b : Bus) (it : Item) (s : State),
    let pr := (s.target it.target).profile
    let r := s.itemFrame b it
    let width := match pr.addressWidth with
      | .three => 3
      | .four => 4
    r.target = it.target ∧ r.item = some it.uid ∧ r.framing = pr.framing ∧ r.earlyEnd = none ∧ r.overtaken = false ∧
    r.progress.bytes = 0 ∧
    (∀ a, (pr.addressBytes a).length = width ∧ ∀ i, i < width →
      (byteAt (pr.addressBytes a) i).toNat = a / 256 ^ (width - 1 - i) % 256) ∧
    (it.kind = .read → r.kind = .read ∧ r.pair = none ∧ r.direction = .input ∧ r.count = it.length ∧
      r.header = [pr.readOpcode] ++ pr.addressBytes it.address ++ List.replicate pr.dummyBytes.toNat 0) ∧
    (it.kind = .status → r.kind = .status ∧ r.pair = none ∧ r.direction = .input ∧ r.count = 1 ∧
      r.header = [pr.statusOpcode]) ∧
    (it.kind = .program → r.kind = .programPair ∧ r.pair = some .first ∧ r.writeEnable = [pr.writeEnableOpcode] ∧
      r.direction = .output ∧ r.count = it.length ∧ r.header = [pr.programOpcode] ++ pr.addressBytes it.address) ∧
    (it.kind = .erase → r.kind = .erasePair ∧ r.pair = some .first ∧ r.writeEnable = [pr.writeEnableOpcode] ∧
      r.direction = .none ∧ r.count = 0 ∧ r.address = it.address + it.unitsDone * pr.eraseUnit.bytes ∧
      r.header = [pr.eraseOpcode] ++ pr.addressBytes (it.address + it.unitsDone * pr.eraseUnit.bytes))) ∧
  (∀ (b : Bus) (kind : FrameKind) (x : Target) (s : State),
    let pr := (s.target x).profile
    let r := s.maintenanceFrame b kind x
    r.kind = kind ∧ r.target = x ∧ r.item = none ∧ r.framing = pr.framing ∧ r.pair = none ∧ r.overtaken = false ∧
    (kind = .poll → r.header = [pr.statusOpcode] ∧ r.count = 1 ∧ r.direction = .input) ∧
    (kind = .suspend → r.header = [pr.suspendOpcode] ∧ r.count = 0) ∧
    (kind = .resume → r.header = [pr.resumeOpcode] ∧ r.count = 0) ∧
    (kind = .reset → r.count = 0 ∧ ∀ pend, (s.target x).pendingReset = some pend →
      (pend.toSend = pr.resetLength.val → r.header = [pr.resetOpcode1]) ∧
      (pend.toSend ≠ pr.resetLength.val → r.header = [pr.resetOpcode2])))

/-- How time passes in a frame (R22, R83, R85): the length of each phase, what follows it, and where a command is awaited (log
11). The duration of a frame: from its assertion, which with cs setup 0 is the begin of its first byte, it reaches the end of
its hold after exactly setup + 16 * bytes + pauses * gap length + hold half clocks, by the clock alone where its bytes come by
the clock alone (all but READ and the second frame of a PROGRAM PAIR), and for every frame where the command of each data byte
comes as its byte ends (`FrameRecord.tick`). -/
def Obligations.FramesLastAsLongAsTheirBytes : Prop :=
  (∀ (r : FrameRecord) (fuel n : Nat),
    let half := r.framing.divider.toNat + 1
    let header := r.currentHeader.length
    let limit := match r.earlyEnd with
      | some l => l
      | none => header + r.currentCount
    let length := half * match r.progress.phase with
      | .deselect => 4
      | .setup => r.framing.csSetup.toNat
      | .byte => 16
      | .pause => r.framing.gapLength.toNat
      | .hold => r.framing.csHold.toNat
    let awaited := r.progress.phase = .hold ∨ (r.progress.phase = .byte ∧ header ≤ r.progress.bytes ∧
      (r.kind = .read ∨ r.kind = .programPair))
    let pauses (k : Nat) := r.framing.gapLength ≠ 0 ∧ (r.framing.gapMode = .everyByte ∨
      (r.framing.gapMode = .afterHeader ∧ k = header ∧ 0 < r.currentCount))
    let spent (k : Nat) : FrameRecord := { r with progress := { r.progress with spent := k } }
    let next (phase : Phase) (bytes : Nat) := r.elapse (fuel + 1) n =
      FrameRecord.elapse fuel (r.progress.spent + n - length) { r with progress := { phase, bytes, spent := 0 } }
    r.phaseTicks = length ∧ r.phases = 2 * (header + r.currentCount) + 4 ∧
    (∀ k, (limit ≤ k → r.afterBytes k = { phase := .hold, bytes := k, spent := 0 }) ∧
      (k < limit → pauses k → r.afterBytes k = { phase := .pause, bytes := k, spent := 0 }) ∧
      (k < limit → ¬ pauses k → r.afterBytes k = { phase := .byte, bytes := k, spent := 0 })) ∧
    (r.progress.spent + n < length → r.elapse (fuel + 1) n = spent (r.progress.spent + n)) ∧
    (length ≤ r.progress.spent + n → awaited → r.elapse (fuel + 1) n = spent length) ∧
    (length ≤ r.progress.spent + n → ¬ awaited →
      (r.progress.phase = .deselect → next .setup 0) ∧
      (r.progress.phase = .setup → limit = 0 → next .hold 0) ∧ (r.progress.phase = .setup → limit ≠ 0 → next .byte 0) ∧
      (r.progress.phase = .pause → next .byte r.progress.bytes) ∧
      (r.progress.phase = .byte → let k := r.progress.bytes + 1
        (limit ≤ k → next .hold k) ∧ (k < limit → pauses k → next .pause k) ∧ (k < limit → ¬ pauses k → next .byte k)))) ∧
  ∀ r : FrameRecord, r.earlyEnd = none → r.currentHeader ≠ [] →
    r.progress = { phase := .setup, bytes := 0, spent := 0 } ∨
      (r.framing.csSetup = 0 ∧ r.progress = { phase := .byte, bytes := 0, spent := 0 }) →
    let bytes := r.currentHeader.length + r.currentCount
    let pauses := match r.framing.gapMode with
      | .none => 0
      | .everyByte => bytes - 1
      | .afterHeader => if 0 < r.currentCount then 1 else 0
    let body := (r.framing.divider.toNat + 1) *
      (r.framing.csSetup.toNat + 16 * bytes + pauses * r.framing.gapLength.toNat)
    let hold := (r.framing.divider.toNat + 1) * r.framing.csHold.toNat
    r.duration = r.framing.csSetup.toNat + 16 * bytes + pauses * r.framing.gapLength.toNat + r.framing.csHold.toNat ∧
    (r.kind ≠ .read → r.kind ≠ .programPair ∨ r.pair = some .first →
      (∀ n, n < body → (r.elapse r.phases n).progress.phase ≠ .hold) ∧
      (∀ n, n ≤ hold → r.elapse r.phases (body + n) = { r with progress := { phase := .hold, bytes, spent := n } })) ∧
    (∀ n, n < body → (FrameRecord.tick^[n] r).progress.phase ≠ .hold) ∧
    (∀ n, n ≤ hold → FrameRecord.tick^[body + n] r = { r with progress := { phase := .hold, bytes, spent := n } })

/-! ### Frames in flight and their ends -/

/-- DATA_BYTE_RECEIVED (R86) and DATA_BYTE_SENT (R87): bytes moved rises by one; a byte received, put together from its eight
samples of SDI in the bit order of the frame (R22, R83), goes to the slot at that offset and among the first four to the head
bytes; a slot that is sent is not changed. One event counts a byte and ends it, which is the model's choice (log 16). -/
def Obligations.DataBytesMove : Prop :=
  (∀ (e : BusEngine) (r : FrameRecord) (it : Item), e.serving = some (r, it) ↔
    e.frame = some r ∧ ∃ uid, r.item = some uid ∧ e.find uid = some it) ∧
  (∀ (b : Bus) (sdi : Byte) (r : FrameRecord) (it : Item) (s : State), (s.bus b).serving = some (r, it) →
    r.kind = .read → it.bytesMoved < r.dataLimit →
    ∃ (data : Byte) (t : State),
      (∀ i, i < 8 → data.getLsbD (if r.framing.bitOrder = .msbFirst then 7 - i else i) = sdi.getLsbD (7 - i)) ∧
      exec (.dataByteReceived b sdi) s = .next t ∧ t = { s with ports := t.ports, buses := t.buses } ∧
      (∀ c, c ≠ b → t.bus c = s.bus c) ∧
      t.bus b = { s.bus b with
        frame := some { r with progress := r.afterBytes (r.header.length + it.bytesMoved + 1) }
        list := (s.bus b).list.map (fun x => if x.uid = it.uid then
          { x with bytesMoved := x.bytesMoved + 1,
                   headBytes := if x.bytesMoved < 4 then x.headBytes ++ [data] else x.headBytes } else x) } ∧
      (∀ q, q ≠ it.port → t.port q = s.port q) ∧ (it.slot = none → t.port it.port = s.port it.port) ∧
      (∀ k, it.slot = some k → ∃ slot : Slot,
        t.port it.port = { s.port it.port with slots := put (s.port it.port).slots k slot } ∧
        slot.state = (pick (s.port it.port).slots k).state ∧ slot.valid = (pick (s.port it.port).slots k).valid ∧
        slot.ret = (pick (s.port it.port).slots k).ret ∧
        ((pick (s.port it.port).slots k).data.wf = true → it.bytesMoved < 256 → ∀ a, slot.data.read a =
          if a = it.bytesMoved then data else (pick (s.port it.port).slots k).data.read a))) ∧
  (∀ (b : Bus) (r : FrameRecord) (it : Item) (s : State), (s.bus b).serving = some (r, it) →
    r.kind = .programPair → r.pair = some .second → it.bytesMoved < r.count →
    ∃ t, exec (.dataByteSent b) s = .next t ∧ OnlyBus b s t ∧
      t.bus b = { s.bus b with
        frame := some { r with progress := r.afterBytes (r.header.length + it.bytesMoved + 1) }
        list := (s.bus b).list.map (fun x => if x.uid = it.uid then
          { x with bytesMoved := x.bytesMoved + 1 } else x) })

/-- The release of a chip select (R91 step 3, R115): the frame record is discarded, and a target reset claim that waited for the
frame is taken then. READ_FRAME_END (R91, R93, R97, R98): the item leaves DONE, TRUNCATED/CANCELLED after an early end, or
FAILED/ABORTED when a bus reset overtook the frame, with the bytes moved and head bytes that it has. -/
def Obligations.FrameEndsFreeTheBusAndReadsComplete : Prop :=
  (∀ (x : Target) (s : State),
     let s1 := s.setBus (busOf x) { s.bus (busOf x) with frame := none, sinceRelease := 0 }
     (x ∉ s.resetClaims → s.releaseBus (busOf x) x = s1) ∧
     (x ∈ s.resetClaims → exec (.targetResetClaim x) s1 = .next (s.releaseBus (busOf x) x))) ∧
  (∀ (b : Bus) (r : FrameRecord) (it : Item) (s : State), (s.bus b).serving = some (r, it) → r.kind = .read →
     r.dataLimit ≤ it.bytesMoved →
     (r.overtaken = false → r.earlyEnd = none → exec (.readFrameEnd b) s =
       .next ((s.finish b it (it.report .done .none it.bytesMoved it.headBytes)).releaseBus b r.target)) ∧
     (r.overtaken = false → r.earlyEnd ≠ none → exec (.readFrameEnd b) s =
       .next ((s.finish b it (it.report .truncated .cancelled it.bytesMoved it.headBytes)).releaseBus b r.target)) ∧
     (r.overtaken = true → exec (.readFrameEnd b) s =
       .next ((s.finish b it (it.report .failed .aborted it.bytesMoved it.headBytes)).releaseBus b r.target)))

/-- The ends of the frames of a pair (R83, R87, R88, R97, R104, R107): after the write-enable frame the second frame follows the
deselect interval of 4 half clocks; a pair that was not overtaken makes its item OWNER-BUSY and its target PROGRAMMING or ERASING; an overtaken
pair aborts its item. -/
def Obligations.PairEndsStartTheBusyPeriod : Prop :=
  (∀ (b : Bus) (r : FrameRecord) (s : State), (s.bus b).frame = some r → r.pair = some .first →
    let second := { r with pair := some .second, progress := { phase := .deselect, bytes := 0, spent := 0 } }
    exec (.writeEnableFrameEnd b) s = .next (s.setBus b { s.bus b with frame := some second }) ∧
    second.phaseTicks = 4 * (r.framing.divider.toNat + 1)) ∧
  (∀ (b : Bus) (r : FrameRecord) (it : Item) (s : State), (s.bus b).serving = some (r, it) → r.pair = some .second →
    let owned (record : TargetRecord) := (s.setTarget r.target record).setBus b { s.bus b with
      list := (s.bus b).list.map (fun x => if x.uid = it.uid then { x with state := .ownerBusy } else x) }
    (r.kind = .programPair → r.count ≤ it.bytesMoved →
      (r.overtaken = false → exec (.programPairEnd b) s = .next ((owned { s.target r.target with
        state := .programming, owner := some it.uid,
        poll := Timer.start ((s.target r.target).profile.tPI.toNat * 200),
        program := Timer.start ((s.target r.target).profile.tPL.toNat * 200) }).releaseBus b r.target)) ∧
      (r.overtaken = true → exec (.programPairEnd b) s =
        .next ((s.finish b it (it.report .failed .aborted it.bytesMoved it.headBytes)).releaseBus b r.target))) ∧
    (r.kind = .erasePair →
      (r.overtaken = false → exec (.erasePairEnd b) s = .next ((owned { s.target r.target with
        state := .erasing, owner := some it.uid,
        unit := some { first := r.address, size := (s.target r.target).profile.eraseUnit },
        suspendCount := 0, busyTime := 0,
        holdOff := Timer.start ((s.target r.target).profile.tSH.toNat * 200),
        poll := Timer.start ((s.target r.target).profile.tPI.toNat * 200) }).releaseBus b r.target)) ∧
      (r.overtaken = true → exec (.erasePairEnd b) s =
        .next ((s.finish b it (it.report .failed .aborted it.bytesMoved it.headBytes)).releaseBus b r.target))))

/-- The Target Tracker takes a status result (R25, R65, R101 to R103, R105, R109, R127, R128, R130); busy bits govern.
STATUS_FRAME_END (R89, R91, R97): the status byte, put together from its eight samples of SDI in the bit order of the frame (R22,
R83), goes to the Tracker unless a bus reset overtook the frame; then a STATUS item leaves with the byte as its one head byte; a poll serves no item. -/
def Obligations.StatusBytesAreHandedOnAndJudged : Prop :=
  (∀ (x : Target) (status : Byte) (s : State),
     let r := s.target x
     let busy := status &&& r.profile.busyMask ≠ 0
     let failed := status &&& r.profile.failMask ≠ 0
     let held := status &&& r.profile.suspendedMask ≠ 0
     let owner := r.owner.bind (s.bus (busOf x)).find
     let idle := s.setTarget x r.inIdle
     let unitEnds := r.state = .erasing ∨ (r.state = .suspending ∧ ¬ held)
     (r.state ≠ .programming → r.state ≠ .erasing → r.state ≠ .suspending → s.statusResult x status = s) ∧
     (r.state = .programming ∨ r.state = .erasing ∨ r.state = .suspending → busy →
       s.statusResult x status = s.setTarget x { r with poll := Timer.start (r.profile.tPI.toNat * 200) }) ∧
     (r.state = .suspending → ¬ busy → held → s.statusResult x status = s.setTarget x
       { r with state := .suspended, latency := .stopped, poll := .stopped,
                held := Timer.start (r.profile.tSX.toNat * 200000) }) ∧
     (r.state = .programming ∨ unitEnds → ¬ busy → owner = none → s.statusResult x status = idle) ∧
     (∀ it, owner = some it → ¬ busy →
       (r.state = .programming ∨ unitEnds → failed →
         s.statusResult x status = idle.finish (busOf x) it (it.report .failed .devFail it.ownerMoved [])) ∧
       (r.state = .programming → ¬ failed →
         s.statusResult x status = idle.finish (busOf x) it (it.report .done .none it.ownerMoved [])) ∧
       (unitEnds → ¬ failed →
         let more := { it with unitsDone := it.unitsDone + 1 }
         (more.unitsDone = more.unitsRequested → it.drop = .none → s.statusResult x status =
           idle.finish (busOf x) more (more.report .done .none it.ownerMoved [])) ∧
         (more.unitsDone = more.unitsRequested → it.drop = .cancelled → s.statusResult x status =
           idle.finish (busOf x) more (more.report .truncated .cancelled it.ownerMoved [])) ∧
         (more.unitsDone = more.unitsRequested → it.drop = .revoked → s.statusResult x status =
           idle.finish (busOf x) more (more.report .truncated .revoked it.ownerMoved [])) ∧
         (more.unitsDone ≠ more.unitsRequested → s.statusResult x status = idle.setBus (busOf x)
           { s.bus (busOf x) with list := (s.bus (busOf x)).list.map (fun y => if y.uid = it.uid then
             { y with unitsDone := y.unitsDone + 1, state := .queued } else y) })))) ∧
  (∀ (b : Bus) (sdi : Byte) (r : FrameRecord) (s : State), (s.bus b).frame = some r →
     r.kind = .status ∨ r.kind = .poll → ∃ status : Byte,
     (∀ i, i < 8 → status.getLsbD (if r.framing.bitOrder = .msbFirst then 7 - i else i) = sdi.getLsbD (7 - i)) ∧
     let u := if r.overtaken then s else s.statusResult r.target status
     (r.item.bind (u.bus b).find = none → exec (.statusFrameEnd b sdi) s = .next (u.releaseBus b r.target)) ∧
     (∀ it, r.item.bind (u.bus b).find = some it → exec (.statusFrameEnd b sdi) s =
       .next ((u.finish b it (if r.overtaken then it.report .failed .aborted it.bytesMoved [status]
         else it.report .done .none it.bytesMoved [status])).releaseBus b r.target)))

/-- SUSPEND_FRAME_END and RESUME_FRAME_END (R120, R126, R134): an ERASING target becomes SUSPENDING and a SUSPENDED one ERASING, with
the owner's state; an overtaken frame, or one that finds the target in another state, changes nothing but the bus. -/
def Obligations.SuspendAndResumeMoveTheTarget : Prop :=
  ∀ (b : Bus) (r : FrameRecord) (s : State), (s.bus b).frame = some r → busOf r.target = b →
    let x := s.target r.target
    let withOwner (f : Item → Item) := (s.bus b).list.map (fun it => if some it.uid = x.owner then f it else it)
    (r.kind = .suspend →
      (r.overtaken = false → x.state = .erasing → exec (.suspendFrameEnd b) s = .next
        (((s.setTarget r.target { x with
            state := .suspending, suspendCount := x.suspendCount + 1,
            latency := Timer.start (x.profile.tSL.toNat * 200), holdOff := .stopped }).setBus b
          { s.bus b with list := withOwner (fun it =>
              { it with state := .ownerSuspended, suspendCount := it.suspendCount + 1 }) }).releaseBus b r.target)) ∧
      (r.overtaken = true ∨ x.state ≠ .erasing → exec (.suspendFrameEnd b) s = .next (s.releaseBus b r.target))) ∧
    (r.kind = .resume →
      (r.overtaken = false → x.state = .suspended → exec (.resumeFrameEnd b) s = .next
        (((s.setTarget r.target { x with
            state := .erasing, held := .stopped, holdOff := Timer.start (x.profile.tSH.toNat * 200),
            poll := Timer.start (x.profile.tPI.toNat * 200) }).setBus b
          { s.bus b with list := withOwner (fun it => { it with state := .ownerBusy }) }).releaseBus b r.target)) ∧
      (r.overtaken = true ∨ x.state ≠ .suspended → exec (.resumeFrameEnd b) s = .next (s.releaseBus b r.target)))

/-- RESET_FRAME_END and RECOVERY_TIMER_EXPIRY (R117, R120): the frames to send count down, the last starts the recovery, and its
expiry makes the target IDLE once the time still left has passed (log 11), with nothing that stands ready or no time left. -/
def Obligations.ResetFramesAndRecovery : Prop :=
  (∀ (b : Bus) (r : FrameRecord) (s : State), (s.bus b).frame = some r → r.kind = .reset →
    let x := s.target r.target
    (r.overtaken = true ∨ x.state ≠ .resetting → exec (.resetFrameEnd b) s = .next (s.releaseBus b r.target)) ∧
    (r.overtaken = false → x.state = .resetting → ∀ recovering,
      (x.pendingReset = some { toSend := 2, recovering } → exec (.resetFrameEnd b) s = .next
        ((s.setTarget r.target { x with pendingReset := some { toSend := 1, recovering } }).releaseBus b r.target)) ∧
      (x.pendingReset = some { toSend := 1, recovering } → exec (.resetFrameEnd b) s = .next
        ((s.setTarget r.target { x with
          pendingReset := some { toSend := 0, recovering := true },
          recovery := Timer.start (x.profile.tRR.toNat * 200) }).releaseBus b r.target)))) ∧
  (∀ (x : Target) (period spent : Nat) (s : State), s.stands = false ∨ period ≤ spent →
    (s.target x).recovery = .running period spent →
    ∃ t, exec (.recoveryTimerExpiry x) s = .next t ∧ t = { s with targets := t.targets, buses := t.buses } ∧
      t.target x = (s.target x).inIdle ∧ (∀ y, y ≠ x → t.target y = (s.target y).elapse (period - spent)) ∧
      ∀ b, t.bus b = (s.bus b).elapse (period - spent))

/-! ### Timers -/

/-- Time at a target (R29, R108), whole: each of the six timers, when it runs, runs on up to its period, and a stopped or
expired one stays so; the busy time of an ERASING or SUSPENDING target counts on up to tEL, at which its limit is reached, and
no other busy time changes; nothing else of the record changes. A timer started for a period runs from 0, and a period of 0 has
expired at once (R29, R123). The poll, hold-off and suspended timers expire (R71, R102, R123, R133) once the time they still had
has passed for the whole block (the model's form, log 11), with nothing that stands ready or no time left. -/
def Obligations.TimersExpire : Prop :=
  (Timer.start 0 = .expired ∧ ∀ n, 0 < n → Timer.start n = .running n 0) ∧
  (∀ (r : TargetRecord) (n : Nat),
    let after (timer : Timer) : Timer := match timer with
      | .running period spent => .running period (min period (spent + n))
      | .stopped => .stopped
      | .expired => .expired
    r.elapse n = { r with
      poll := after r.poll, program := after r.program, holdOff := after r.holdOff, latency := after r.latency,
      held := after r.held, recovery := after r.recovery, busyTime := (r.elapse n).busyTime } ∧
    (r.state = .erasing ∨ r.state = .suspending →
      (r.busyTime + n ≤ r.profile.tEL.toNat * 200000 → (r.elapse n).busyTime = r.busyTime + n) ∧
      (r.busyTime ≤ r.profile.tEL.toNat * 200000 → r.profile.tEL.toNat * 200000 < r.busyTime + n →
        (r.elapse n).busyTime = r.profile.tEL.toNat * 200000) ∧
      (r.profile.tEL.toNat * 200000 < r.busyTime → (r.elapse n).busyTime = r.busyTime)) ∧
    (r.state ≠ .erasing → r.state ≠ .suspending → (r.elapse n).busyTime = r.busyTime)) ∧
  ∀ (x : Target) (period spent : Nat) (s : State), s.stands = false ∨ period ≤ spent →
    let n := period - spent
    let ends (c : Instr) (record : TargetRecord) := ∃ t, exec c s = .next t ∧
      t = { s with targets := t.targets, buses := t.buses } ∧ t.target x = record ∧
      (∀ y, y ≠ x → t.target y = (s.target y).elapse n) ∧ ∀ b, t.bus b = (s.bus b).elapse n
    ((s.target x).poll = .running period spent →
      ends (.pollTimerExpiry x) { (s.target x).elapse n with poll := .expired }) ∧
    ((s.target x).holdOff = .running period spent →
      ends (.holdOffTimerExpiry x) { (s.target x).elapse n with holdOff := .expired }) ∧
    ((s.target x).held = .running period spent →
      ends (.suspendedTimerExpiry x) { (s.target x).elapse n with held := .expired })

/-- A limit expires (R106, R110, R112, R113, R129), once the time still left has passed (log 11), with nothing that stands ready or
no time left, and with no admission that has read the target: the target is FAULTED, its owner leaves FAILED/TIMEOUT and its QUEUED items FAILED/TARGETDOWN in list order,
and FAULT is raised at every port that a valid active entry maps to it (R5). Port Units and blocked findings are those that the
items' leaving one after another gives (R46, R145), then the raise. The same holds, without the passing of time, of the fault
that a limit expiry which waited gives (`State.fault`). -/
def Obligations.LimitExpiriesFaultTheTarget : Prop :=
  ∀ x : Target,
    let faults (s t : State) (record : TargetRecord → TargetRecord) (engine : BusEngine → BusEngine) :=
      let e := s.bus (busOf x)
      let owner := (s.target x).owner.bind e.find
      let owns (it : Item) := owner.map (·.uid) = some it.uid
      let falls (it : Item) := it.target = x ∧ it.state = .queued ∧ ¬ owns it
      let mapped (p : Port) := ∃ i : EntryIx, (pick s.policy.active i).valid = true ∧
        (pick s.policy.active i).target.toNat = x.val ∧ (pick s.policy.active i).ports.getLsbD p.val = true
      t = { s with ports := t.ports, targets := t.targets, buses := t.buses, admission := t.admission } ∧
      t.admission = { s.admission with blocked := t.admission.blocked } ∧
      t.target x = (record (s.target x)).inFault ∧ (∀ y, y ≠ x → t.target y = record (s.target y)) ∧
      (∀ b, b ≠ busOf x → t.bus b = engine (s.bus b)) ∧
      t.bus (busOf x) = { engine e with list := e.list.filter (fun it => decide (¬ owns it ∧ ¬ falls it)) } ∧
      (let first := match owner with
          | some it => s.finish (busOf x) it (it.report .failed .timeout it.ownerMoved [])
          | none => s
       let left := (e.list.filter (fun it => decide (falls it))).foldl
         (fun u it => u.finish (busOf x) it (it.report .failed .targetDown 0 [])) first
       t.admission = left.admission ∧ (∀ p, mapped p → t.port p = (left.port p).raise .fault) ∧
         ∀ p, ¬ mapped p → t.port p = left.port p) ∧
      (∀ p, (t.port p).queue = (s.port p).queue ++
        (match owner with
          | some it => if it.port = p ∧ it.orphan = false then [it.report .failed .timeout it.ownerMoved []] else []
          | none => []) ++
        (e.list.filter (fun it => decide (falls it) && decide (it.port = p) && !it.orphan)).map
          (fun it => it.report .failed .targetDown 0 [])) ∧
      (∀ p, mapped p → (t.port p).pending.fault = true) ∧
      (∀ p, ¬ mapped p → (t.port p).pending.fault = (s.port p).pending.fault)
    (∀ s : State, ReferencesDistinct s → faults s (s.fault x) (fun r => r) (fun e => e)) ∧
    ∀ (c : Instr) (n period spent : Nat) (s : State), ReferencesDistinct s → s.stands = false ∨ n = 0 →
      s.admittingTarget x = false →
      ((c = .programTimerExpiry x ∧ (s.target x).state = .programming ∧ (s.target x).program = .running period spent ∧
          n = period - spent) ∨
        (c = .suspendLatencyTimerExpiry x ∧ (s.target x).state = .suspending ∧
          (s.target x).latency = .running period spent ∧ n = period - spent) ∨
        (c = .busyTimeReachesTel x ∧ ((s.target x).state = .erasing ∨ (s.target x).state = .suspending) ∧
          n = (s.target x).profile.tEL.toNat * 200000 - (s.target x).busyTime)) →
      ∃ t, exec c s = .next t ∧ faults s t (fun r => r.elapse n) (fun e => e.elapse n)

/-! ### Formats -/

/-- The 15 bytes of a completion record (R187), for the values a record can hold. -/
def Obligations.CompletionRecordBytes : Prop :=
  (∀ c : Completion,
    let w := c.toBytes
    let outcome := match c.outcome with
      | .done => 0
      | .refused => 1
      | .failed => 2
      | .cancelled => 3
      | .truncated => 4
    let kind := match c.kind with
      | .read => 0
      | .program => 1
      | .erase => 2
      | .status => 3
    w.length = 15 ∧ (byteAt w 0).toNat = 128 + (if c.cancelSeen then 64 else 0) + 8 * outcome + kind ∧ byteAt w 1 = c.tag ∧
    (byteAt w 2).toNat = (match c.reason with
      | .none => 0
      | .noRegion => 1
      | .span => 2
      | .rights => 3
      | .outside => 4
      | .page => 5
      | .align => 6
      | .targetDown => 7
      | .revoked => 8
      | .timeout => 9
      | .devFail => 10
      | .aborted => 11
      | .cancelled => 12) ∧
    (c.kind = .read ∨ c.kind = .program → c.bytesMoved ≤ 256 → (word16At w 3).toNat = c.bytesMoved) ∧
    (c.kind = .erase → c.unitsDone ≤ 16 → (word16At w 3).toNat = c.unitsDone) ∧
    (c.kind = .status → (word16At w 3).toNat = 65535) ∧
    (c.kind = .read ∨ c.kind = .status → c.headBytes.length ≤ 4 → (byteAt w 5).toNat = c.headBytes.length ∧
      ∀ i, i < 4 → byteAt w (6 + i) = byteAt c.headBytes i) ∧
    (c.kind = .program ∨ c.kind = .erase → (byteAt w 5).toNat = 255 ∧ ∀ i, i < 4 → byteAt w (6 + i) = 0) ∧
    (∀ i, c.region = some i → (byteAt w 10).toNat = 128 + i.val) ∧ (c.region = none → byteAt w 10 = 0) ∧
    (byteAt w 11).toNat = (match c.target with
      | some x => 128 + x.val
      | none => 0) + (if c.generation = none then 0 else 64) ∧
    word16At w 12 = c.generation.getD 0 ∧
    (c.kind = .erase → c.suspendTotal ≤ 240 → (byteAt w 14).toNat = c.suspendTotal) ∧
    (c.kind ≠ .erase → (byteAt w 14).toNat = 255)) ∧
  (∀ i, byteAt (collectReply none) i = 0) ∧ (collectReply none).length = 15

/-- The field errors of a profile (R27, R189), in numbers of the 31 bytes F0 to F30, which stand at any position i of the bytes; which
byte is which field of a profile, read (SETUP TARGET, from position 1) and laid out (READ TARGET), every bit that R189 does not
assign laid out as 0; and the same of a region entry, in numbers of the 12 bytes E0 to E11 (R188; STAGE ENTRY reads them from
position 1). -/
def Obligations.FieldsOfProfilesAndEntries : Prop :=
  (∀ (bytes : List Byte) (i : Nat),
     let f (k : Nat) := (byteAt bytes (i + k)).toNat
     let word (k : Nat) := 256 * f k + f (k + 1)
     let nsus := f 28
     Profile.ofBytes bytes i = none ↔
       (63 < f 0 ∨ f 2 / 16 % 4 = 3 ∨ 8 < f 3 / 16 ∨ f 4 / 16 % 4 = 3 ∨ f 4 / 64 = 3 ∨
         ¬(8 ≤ word 17 ∧ word 17 ≤ 4095) ∨ word 19 = 0 ∨ ¬(1 ≤ word 21 ∧ word 21 ≤ 16383) ∨
         ¬(1 ≤ word 25 ∧ word 25 ≤ 1023) ∨ f 27 = 0 ∨ 15 < nsus ∨ word 29 = 0 ∨
         (4 < f 3 / 16 ∧ f 2 < 128) ∨ f 14 = 0 ∨ (0 < nsus ∧ f 16 = 0) ∨
         (0 < nsus ∧ byteAt bytes (i + 16) &&& byteAt bytes (i + 14) ≠ 0))) ∧
  (∀ (bytes : List Byte) (i : Nat) (pr : Profile),
     let gap (w : Nat) := (pr.gapMode = .none ↔ w = 0) ∧ (pr.gapMode = .everyByte ↔ w = 1) ∧ (pr.gapMode = .afterHeader ↔ w = 2)
     let unit (w : Nat) := (pr.eraseUnit = .kib4 ↔ w = 0) ∧ (pr.eraseUnit = .kib32 ↔ w = 1) ∧ (pr.eraseUnit = .kib64 ↔ w = 2)
     let rest (w : List Byte) (i : Nat) :=
       let f (k : Nat) := (byteAt w (i + k)).toNat
       f 0 = pr.divider.toNat ∧ f 1 % 8 = pr.csSetup.toNat ∧ f 1 / 16 % 8 = pr.csHold.toNat ∧
       f 2 % 16 = pr.gapLength.toNat ∧ gap (f 2 / 16 % 4) ∧ (pr.bitOrder = .lsbFirst ↔ f 2 / 64 % 2 = 1) ∧
       (pr.addressWidth = .four ↔ f 2 / 128 = 1) ∧ f 3 % 16 = pr.dummyBytes.toNat ∧ f 3 / 16 = pr.capacityCode.val ∧
       f 4 % 4 = pr.pageCode.toNat ∧ unit (f 4 / 16 % 4) ∧ f 4 / 64 = pr.resetLength.val ∧
       byteAt w (i + 5) = pr.readOpcode ∧ byteAt w (i + 6) = pr.writeEnableOpcode ∧ byteAt w (i + 7) = pr.programOpcode ∧
       byteAt w (i + 8) = pr.eraseOpcode ∧ byteAt w (i + 9) = pr.statusOpcode ∧ byteAt w (i + 10) = pr.suspendOpcode ∧
       byteAt w (i + 11) = pr.resumeOpcode ∧ byteAt w (i + 12) = pr.resetOpcode1 ∧ byteAt w (i + 13) = pr.resetOpcode2 ∧
       byteAt w (i + 14) = pr.busyMask ∧ byteAt w (i + 15) = pr.failMask ∧ byteAt w (i + 16) = pr.suspendedMask ∧
       256 * f 17 + f 18 = pr.tPI.toNat ∧ 256 * f 19 + f 20 = pr.tPL.toNat ∧ 256 * f 21 + f 22 = pr.tEL.toNat ∧
       256 * f 23 + f 24 = pr.tSH.toNat ∧ 256 * f 25 + f 26 = pr.tSL.toNat ∧ byteAt w (i + 27) = pr.tSX ∧
       f 28 = pr.nsus.toNat ∧ 256 * f 29 + f 30 = pr.tRR.toNat
     (Profile.ofBytes bytes i = some pr → rest bytes i) ∧ rest pr.toBytes 0 ∧
     (byteAt pr.toBytes 1).toNat / 8 % 2 = 0 ∧ (byteAt pr.toBytes 1).toNat / 128 = 0 ∧
     (byteAt pr.toBytes 4).toNat / 4 % 4 = 0) ∧
  (∀ (bytes : List Byte) (i : Nat),
     let f (k : Nat) := (byteAt bytes (i + k)).toNat
     let e := RegionEntry.ofBytes bytes i
     (e.valid = true ↔ 128 ≤ f 0) ∧ (e.mode = .strict ↔ 64 ≤ f 0 % 128) ∧ e.ports.toNat = f 0 % 16 ∧
     e.rights.toNat = f 1 % 32 ∧ e.target.toNat = f 2 % 16 ∧
     e.base.toNat = (65536 * f 3 + 256 * f 4 + f 5) % 1048576 ∧
     e.size.toNat = (65536 * f 6 + 256 * f 7 + f 8) % 1048576 ∧
     e.offset.toNat = (65536 * f 9 + 256 * f 10 + f 11) % 1048576) ∧
  (∀ e : RegionEntry,
     let f (k : Nat) := (byteAt e.toBytes k).toNat
     f 0 = (if e.valid then 128 else 0) + (if e.mode = .strict then 64 else 0) + e.ports.toNat ∧ f 1 = e.rights.toNat ∧
     f 2 = e.target.toNat ∧ 65536 * f 3 + 256 * f 4 + f 5 = e.base.toNat ∧ 65536 * f 6 + 256 * f 7 + f 8 = e.size.toNat ∧
     65536 * f 9 + 256 * f 10 + f 11 = e.offset.toNat)

/-- A region entry, a valid profile and an acceptable descriptor, laid out and read back, are the same, every field at every
value (R186, R188, R189); and what is read is valid and acceptable. -/
def Obligations.FormatsReadBackWhole : Prop :=
  (∀ e : RegionEntry, e.toBytes.length = 12 ∧ RegionEntry.ofBytes e.toBytes 0 = e) ∧
  (∀ pr : Profile, pr.valid = true → pr.toBytes.length = 31 ∧ Profile.ofBytes pr.toBytes 0 = some pr) ∧
  (∀ r : Request, Request.shapeOk r.kind r.slot r.length.toNat = true →
    r.toBytes.length = 8 ∧ Request.ofBytes r.toBytes = some r) ∧
  (∀ bytes i pr, Profile.ofBytes bytes i = some pr → pr.valid = true) ∧
  (∀ bytes r, Request.ofBytes bytes = some r → Request.shapeOk r.kind r.slot r.length.toNat = true)

/-! ### Conditions that every step keeps -/

/-- Reset meets the conditions, and its accounts are in order. -/
def Obligations.ResetMeetsTheConditions : Prop :=
  SlotsCanonical .reset ∧ CausesJudged .reset ∧ WithinBounds .reset ∧ ReferencesDistinct .reset ∧ FloatIsQuiet .reset ∧
  InOrder .reset

/-- Every step keeps slot contents in canonical form; and where the accounts are in order, which every step keeps
(StepsKeepTheListsInOrder), a FREE slot has valid length 0 and return state none, and every byte of a FREE or HELD slot from its
valid length up is 0x00 (R138). -/
def Obligations.StepsKeepSlotsCanonical : Prop :=
  (∀ s t, SlotsCanonical s → step s = .next t → SlotsCanonical t) ∧
  (∀ s p k, InOrder s →
    let slot := pick (s.port p).slots k
    (slot.state = .free → slot.valid = 0 ∧ slot.ret = none) ∧
    (slot.state ≠ .committed → ∀ a, slot.valid ≤ a → slot.data.read a = 0))

/-- Every step leaves ERROR and COMPLETE pending exactly while their conditions hold (R171, R172). -/
def Obligations.StepsKeepCausesJudged : Prop := ∀ s t, CausesJudged s → step s = .next t → CausesJudged t

/-- Every step keeps rings within 8 entries and lists within 24 items (R40, R64), the references of a list's items distinct (the
model's form, log 10), and a bus in FLOAT without a frame in flight (R78, R80). Every step keeps the accounts in order: ring
entries, items and records are the credits in use, at most 16 (R156); the tag table holds the tags of ring entries, items that
are no orphans and records, each at most once (R155); owner, unit under erase, pending reset and counts of a target stand exactly
in their states, and the owner in its list (R28); a slot is COMMITTED exactly while one request names it, and its bytes from the
valid length up are 0x00 until a READ frame writes into it (R138). -/
def Obligations.StepsKeepTheListsInOrder : Prop :=
  (∀ s t, WithinBounds s → step s = .next t → WithinBounds t) ∧
  (∀ s t, ReferencesDistinct s → step s = .next t → ReferencesDistinct t) ∧
  (∀ s t, FloatIsQuiet s → step s = .next t → FloatIsQuiet t) ∧
  (∀ s t, InOrder s → step s = .next t → InOrder t)

end
end

