-- ==== Sys2Proof/Laws/State.lean ====
section
/-! SUPPORT. What each update of the state changes: one lemma per field and per update, all true by unfolding. -/

namespace Sys2Proof.Machine

/-! ### Elements of fixed vectors -/

@[simp] theorem pick_put_same {α : Type} {n : Nat} (v : Vector α n) (i : Fin n) (x : α) : pick (put v i x) i = x := by
  simp [pick, put]

theorem pick_put_other {α : Type} {n : Nat} (v : Vector α n) (i j : Fin n) (x : α) (h : j ≠ i) :
    pick (put v i x) j = pick v j := by
  have h' : i.val ≠ j.val := fun e => h (Fin.ext e.symm)
  simp [pick, put, h']

theorem pick_put {α : Type} {n : Nat} (v : Vector α n) (i j : Fin n) (x : α) :
    pick (put v i x) j = if j = i then x else pick v j := by
  split
  · next h => subst h; exact pick_put_same v j x
  · next h => exact pick_put_other v i j x h

/-- Putting back what stands there changes nothing. -/
@[simp] theorem put_pick {α : Type} {n : Nat} (v : Vector α n) (i : Fin n) : put v i (pick v i) = v := by
  simp [pick, put]

@[simp] theorem put_put {α : Type} {n : Nat} (v : Vector α n) (i : Fin n) (x y : α) : put (put v i x) i y = put v i y := by
  simp [put]

@[simp] theorem pick_replicate {α : Type} {n : Nat} (x : α) (i : Fin n) : pick (Vector.replicate n x) i = x := by
  simp [pick]

/-- Two vectors with the same elements are equal. -/
theorem vector_ext {α : Type} {n : Nat} {v w : Vector α n} (h : ∀ i : Fin n, pick v i = pick w i) : v = w := by
  apply Vector.ext
  intro i hi
  exact h ⟨i, hi⟩

/-! ### A change of an element is a replacement of it -/

theorem modPort_eq (s : State) (p : Port) (f : PortUnit → PortUnit) : s.modPort p f = s.setPort p (f (s.port p)) := rfl
theorem modTarget_eq (s : State) (t : Target) (f : TargetRecord → TargetRecord) :
    s.modTarget t f = s.setTarget t (f (s.target t)) := rfl
theorem modBus_eq (s : State) (b : Bus) (f : BusEngine → BusEngine) : s.modBus b f = s.setBus b (f (s.bus b)) := rfl

/-! ### Port Units, targets and buses after an update -/

@[simp] theorem port_setPort_same (s : State) (p : Port) (u : PortUnit) : (s.setPort p u).port p = u := by
  simp [State.port, State.setPort]

theorem port_setPort_other (s : State) (p q : Port) (u : PortUnit) (h : q ≠ p) : (s.setPort p u).port q = s.port q := by
  simp [State.port, State.setPort, pick_put_other _ _ _ _ h]

@[simp] theorem target_setTarget_same (s : State) (t : Target) (r : TargetRecord) : (s.setTarget t r).target t = r := by
  simp [State.target, State.setTarget]

theorem target_setTarget_other (s : State) (t x : Target) (r : TargetRecord) (h : x ≠ t) :
    (s.setTarget t r).target x = s.target x := by
  simp [State.target, State.setTarget, pick_put_other _ _ _ _ h]

@[simp] theorem bus_setBus_same (s : State) (b : Bus) (e : BusEngine) : (s.setBus b e).bus b = e := by
  simp [State.bus, State.setBus]

theorem bus_setBus_other (s : State) (b c : Bus) (e : BusEngine) (h : c ≠ b) : (s.setBus b e).bus c = s.bus c := by
  simp [State.bus, State.setBus, pick_put_other _ _ _ _ h]

@[simp] theorem setPort_setPort (s : State) (p : Port) (u v : PortUnit) : (s.setPort p u).setPort p v = s.setPort p v := by
  simp [State.setPort]

@[simp] theorem setTarget_setTarget (s : State) (t : Target) (r q : TargetRecord) :
    (s.setTarget t r).setTarget t q = s.setTarget t q := by
  simp [State.setTarget]

@[simp] theorem setBus_setBus (s : State) (b : Bus) (e f : BusEngine) : (s.setBus b e).setBus b f = s.setBus b f := by
  simp [State.setBus]

@[simp] theorem setPort_port (s : State) (p : Port) : s.setPort p (s.port p) = s := by
  simp [State.setPort, State.port]

@[simp] theorem setTarget_target (s : State) (t : Target) : s.setTarget t (s.target t) = s := by
  simp [State.setTarget, State.target]

@[simp] theorem setBus_bus (s : State) (b : Bus) : s.setBus b (s.bus b) = s := by
  simp [State.setBus, State.bus]

/-! ### What `setPort` leaves -/

@[simp] theorem setPort_policy (s : State) (p : Port) (u : PortUnit) : (s.setPort p u).policy = s.policy := rfl
@[simp] theorem setPort_admission (s : State) (p : Port) (u : PortUnit) : (s.setPort p u).admission = s.admission := rfl
@[simp] theorem setPort_targets (s : State) (p : Port) (u : PortUnit) : (s.setPort p u).targets = s.targets := rfl
@[simp] theorem setPort_buses (s : State) (p : Port) (u : PortUnit) : (s.setPort p u).buses = s.buses := rfl
@[simp] theorem setPort_resetClaims (s : State) (p : Port) (u : PortUnit) : (s.setPort p u).resetClaims = s.resetClaims := rfl
@[simp] theorem setPort_waiting (s : State) (p : Port) (u : PortUnit) : (s.setPort p u).waiting = s.waiting := rfl
@[simp] theorem setPort_resetLow (s : State) (p : Port) (u : PortUnit) : (s.setPort p u).resetLow = s.resetLow := rfl
@[simp] theorem setPort_authority (s : State) (p : Port) (u : PortUnit) : (s.setPort p u).authority = s.authority := rfl
@[simp] theorem setPort_nextUid (s : State) (p : Port) (u : PortUnit) : (s.setPort p u).nextUid = s.nextUid := rfl
@[simp] theorem setPort_pending (s : State) (p : Port) (u : PortUnit) : (s.setPort p u).pending = s.pending := rfl
@[simp] theorem setPort_target (s : State) (p : Port) (u : PortUnit) (x : Target) : (s.setPort p u).target x = s.target x := rfl
@[simp] theorem setPort_bus (s : State) (p : Port) (u : PortUnit) (c : Bus) : (s.setPort p u).bus c = s.bus c := rfl

/-! ### What `setTarget` leaves -/

@[simp] theorem setTarget_ports (s : State) (t : Target) (r : TargetRecord) : (s.setTarget t r).ports = s.ports := rfl
@[simp] theorem setTarget_policy (s : State) (t : Target) (r : TargetRecord) : (s.setTarget t r).policy = s.policy := rfl
@[simp] theorem setTarget_admission (s : State) (t : Target) (r : TargetRecord) : (s.setTarget t r).admission = s.admission := rfl
@[simp] theorem setTarget_buses (s : State) (t : Target) (r : TargetRecord) : (s.setTarget t r).buses = s.buses := rfl
@[simp] theorem setTarget_resetClaims (s : State) (t : Target) (r : TargetRecord) : (s.setTarget t r).resetClaims = s.resetClaims := rfl
@[simp] theorem setTarget_waiting (s : State) (t : Target) (r : TargetRecord) : (s.setTarget t r).waiting = s.waiting := rfl
@[simp] theorem setTarget_resetLow (s : State) (t : Target) (r : TargetRecord) : (s.setTarget t r).resetLow = s.resetLow := rfl
@[simp] theorem setTarget_authority (s : State) (t : Target) (r : TargetRecord) : (s.setTarget t r).authority = s.authority := rfl
@[simp] theorem setTarget_nextUid (s : State) (t : Target) (r : TargetRecord) : (s.setTarget t r).nextUid = s.nextUid := rfl
@[simp] theorem setTarget_pending (s : State) (t : Target) (r : TargetRecord) : (s.setTarget t r).pending = s.pending := rfl
@[simp] theorem setTarget_port (s : State) (t : Target) (r : TargetRecord) (q : Port) : (s.setTarget t r).port q = s.port q := rfl
@[simp] theorem setTarget_bus (s : State) (t : Target) (r : TargetRecord) (c : Bus) : (s.setTarget t r).bus c = s.bus c := rfl

/-! ### What `setBus` leaves -/

@[simp] theorem setBus_ports (s : State) (b : Bus) (e : BusEngine) : (s.setBus b e).ports = s.ports := rfl
@[simp] theorem setBus_policy (s : State) (b : Bus) (e : BusEngine) : (s.setBus b e).policy = s.policy := rfl
@[simp] theorem setBus_admission (s : State) (b : Bus) (e : BusEngine) : (s.setBus b e).admission = s.admission := rfl
@[simp] theorem setBus_targets (s : State) (b : Bus) (e : BusEngine) : (s.setBus b e).targets = s.targets := rfl
@[simp] theorem setBus_resetClaims (s : State) (b : Bus) (e : BusEngine) : (s.setBus b e).resetClaims = s.resetClaims := rfl
@[simp] theorem setBus_waiting (s : State) (b : Bus) (e : BusEngine) : (s.setBus b e).waiting = s.waiting := rfl
@[simp] theorem setBus_resetLow (s : State) (b : Bus) (e : BusEngine) : (s.setBus b e).resetLow = s.resetLow := rfl
@[simp] theorem setBus_authority (s : State) (b : Bus) (e : BusEngine) : (s.setBus b e).authority = s.authority := rfl
@[simp] theorem setBus_nextUid (s : State) (b : Bus) (e : BusEngine) : (s.setBus b e).nextUid = s.nextUid := rfl
@[simp] theorem setBus_pending (s : State) (b : Bus) (e : BusEngine) : (s.setBus b e).pending = s.pending := rfl
@[simp] theorem setBus_port (s : State) (b : Bus) (e : BusEngine) (q : Port) : (s.setBus b e).port q = s.port q := rfl
@[simp] theorem setBus_target (s : State) (b : Bus) (e : BusEngine) (x : Target) : (s.setBus b e).target x = s.target x := rfl

/-! ### What `wait` leaves -/

@[simp] theorem wait_ports (s : State) (w : Waiting) : (s.wait w).ports = s.ports := rfl
@[simp] theorem wait_policy (s : State) (w : Waiting) : (s.wait w).policy = s.policy := rfl
@[simp] theorem wait_admission (s : State) (w : Waiting) : (s.wait w).admission = s.admission := rfl
@[simp] theorem wait_targets (s : State) (w : Waiting) : (s.wait w).targets = s.targets := rfl
@[simp] theorem wait_buses (s : State) (w : Waiting) : (s.wait w).buses = s.buses := rfl
@[simp] theorem wait_resetClaims (s : State) (w : Waiting) : (s.wait w).resetClaims = s.resetClaims := rfl
@[simp] theorem wait_resetLow (s : State) (w : Waiting) : (s.wait w).resetLow = s.resetLow := rfl
@[simp] theorem wait_authority (s : State) (w : Waiting) : (s.wait w).authority = s.authority := rfl
@[simp] theorem wait_nextUid (s : State) (w : Waiting) : (s.wait w).nextUid = s.nextUid := rfl
@[simp] theorem wait_pending (s : State) (w : Waiting) : (s.wait w).pending = s.pending := rfl
@[simp] theorem wait_port (s : State) (w : Waiting) (q : Port) : (s.wait w).port q = s.port q := rfl
@[simp] theorem wait_target (s : State) (w : Waiting) (x : Target) : (s.wait w).target x = s.target x := rfl
@[simp] theorem wait_bus (s : State) (w : Waiting) (c : Bus) : (s.wait w).bus c = s.bus c := rfl

/-! ### What `waitFirst` leaves -/

@[simp] theorem waitFirst_ports (s : State) (w : Waiting) : (s.waitFirst w).ports = s.ports := rfl
@[simp] theorem waitFirst_policy (s : State) (w : Waiting) : (s.waitFirst w).policy = s.policy := rfl
@[simp] theorem waitFirst_admission (s : State) (w : Waiting) : (s.waitFirst w).admission = s.admission := rfl
@[simp] theorem waitFirst_targets (s : State) (w : Waiting) : (s.waitFirst w).targets = s.targets := rfl
@[simp] theorem waitFirst_buses (s : State) (w : Waiting) : (s.waitFirst w).buses = s.buses := rfl
@[simp] theorem waitFirst_resetClaims (s : State) (w : Waiting) : (s.waitFirst w).resetClaims = s.resetClaims := rfl
@[simp] theorem waitFirst_resetLow (s : State) (w : Waiting) : (s.waitFirst w).resetLow = s.resetLow := rfl
@[simp] theorem waitFirst_authority (s : State) (w : Waiting) : (s.waitFirst w).authority = s.authority := rfl
@[simp] theorem waitFirst_nextUid (s : State) (w : Waiting) : (s.waitFirst w).nextUid = s.nextUid := rfl
@[simp] theorem waitFirst_pending (s : State) (w : Waiting) : (s.waitFirst w).pending = s.pending := rfl
@[simp] theorem waitFirst_port (s : State) (w : Waiting) (q : Port) : (s.waitFirst w).port q = s.port q := rfl
@[simp] theorem waitFirst_target (s : State) (w : Waiting) (x : Target) : (s.waitFirst w).target x = s.target x := rfl
@[simp] theorem waitFirst_bus (s : State) (w : Waiting) (c : Bus) : (s.waitFirst w).bus c = s.bus c := rfl

/-! ### What `modPolicy` leaves -/

@[simp] theorem modPolicy_ports (s : State) (f : PolicyUnit → PolicyUnit) : (s.modPolicy f).ports = s.ports := rfl
@[simp] theorem modPolicy_admission (s : State) (f : PolicyUnit → PolicyUnit) : (s.modPolicy f).admission = s.admission := rfl
@[simp] theorem modPolicy_targets (s : State) (f : PolicyUnit → PolicyUnit) : (s.modPolicy f).targets = s.targets := rfl
@[simp] theorem modPolicy_buses (s : State) (f : PolicyUnit → PolicyUnit) : (s.modPolicy f).buses = s.buses := rfl
@[simp] theorem modPolicy_resetClaims (s : State) (f : PolicyUnit → PolicyUnit) : (s.modPolicy f).resetClaims = s.resetClaims := rfl
@[simp] theorem modPolicy_waiting (s : State) (f : PolicyUnit → PolicyUnit) : (s.modPolicy f).waiting = s.waiting := rfl
@[simp] theorem modPolicy_resetLow (s : State) (f : PolicyUnit → PolicyUnit) : (s.modPolicy f).resetLow = s.resetLow := rfl
@[simp] theorem modPolicy_authority (s : State) (f : PolicyUnit → PolicyUnit) : (s.modPolicy f).authority = s.authority := rfl
@[simp] theorem modPolicy_nextUid (s : State) (f : PolicyUnit → PolicyUnit) : (s.modPolicy f).nextUid = s.nextUid := rfl
@[simp] theorem modPolicy_pending (s : State) (f : PolicyUnit → PolicyUnit) : (s.modPolicy f).pending = s.pending := rfl
@[simp] theorem modPolicy_port (s : State) (f : PolicyUnit → PolicyUnit) (q : Port) : (s.modPolicy f).port q = s.port q := rfl
@[simp] theorem modPolicy_target (s : State) (f : PolicyUnit → PolicyUnit) (x : Target) : (s.modPolicy f).target x = s.target x := rfl
@[simp] theorem modPolicy_bus (s : State) (f : PolicyUnit → PolicyUnit) (c : Bus) : (s.modPolicy f).bus c = s.bus c := rfl

@[simp] theorem wait_waiting (s : State) (w : Waiting) : (s.wait w).waiting = s.waiting ++ [w] := rfl
@[simp] theorem waitFirst_waiting (s : State) (w : Waiting) : (s.waitFirst w).waiting = w :: s.waiting := rfl
@[simp] theorem modPolicy_policy (s : State) (f : PolicyUnit → PolicyUnit) : (s.modPolicy f).policy = f s.policy := rfl

/-! ### What release of the heads blocked by a full list leaves -/

@[simp] theorem releaseBlocked_ports (s : State) (b : Bus) : (s.releaseBlocked b).ports = s.ports := rfl
@[simp] theorem releaseBlocked_policy (s : State) (b : Bus) : (s.releaseBlocked b).policy = s.policy := rfl
@[simp] theorem releaseBlocked_targets (s : State) (b : Bus) : (s.releaseBlocked b).targets = s.targets := rfl
@[simp] theorem releaseBlocked_buses (s : State) (b : Bus) : (s.releaseBlocked b).buses = s.buses := rfl
@[simp] theorem releaseBlocked_resetClaims (s : State) (b : Bus) : (s.releaseBlocked b).resetClaims = s.resetClaims := rfl
@[simp] theorem releaseBlocked_waiting (s : State) (b : Bus) : (s.releaseBlocked b).waiting = s.waiting := rfl
@[simp] theorem releaseBlocked_resetLow (s : State) (b : Bus) : (s.releaseBlocked b).resetLow = s.resetLow := rfl
@[simp] theorem releaseBlocked_authority (s : State) (b : Bus) : (s.releaseBlocked b).authority = s.authority := rfl
@[simp] theorem releaseBlocked_nextUid (s : State) (b : Bus) : (s.releaseBlocked b).nextUid = s.nextUid := rfl
@[simp] theorem releaseBlocked_pending (s : State) (b : Bus) : (s.releaseBlocked b).pending = s.pending := rfl
@[simp] theorem releaseBlocked_port (s : State) (b : Bus) (q : Port) : (s.releaseBlocked b).port q = s.port q := rfl
@[simp] theorem releaseBlocked_target (s : State) (b : Bus) (x : Target) : (s.releaseBlocked b).target x = s.target x := rfl
@[simp] theorem releaseBlocked_bus (s : State) (b : Bus) (c : Bus) : (s.releaseBlocked b).bus c = s.bus c := rfl
@[simp] theorem releaseBlocked_current (s : State) (b : Bus) :
    (s.releaseBlocked b).admission.current = s.admission.current := rfl
@[simp] theorem releaseBlocked_pointer (s : State) (b : Bus) :
    (s.releaseBlocked b).admission.pointer = s.admission.pointer := rfl

/-! ### Reset -/

@[simp] theorem reset_port (p : Port) : State.reset.port p = .reset := by simp [State.reset, State.port]
@[simp] theorem reset_target (t : Target) : State.reset.target t = .absent := by simp [State.reset, State.target]
@[simp] theorem reset_bus (b : Bus) : State.reset.bus b = .reset := by simp [State.reset, State.bus]

end Sys2Proof.Machine
end

