-- ==== Sys2Proof/Laws/Memory.lean ====
section
/-! SUPPORT. Slot contents: what a read gives after a write or a cut, and that every operation keeps the canonical form. -/

namespace Sys2Proof.Machine

/-! ### The canonical form -/

theorem wfFrom_mono {m : Memory} {lo lo' : Nat} (h : Memory.wfFrom lo m = true) (hl : lo' ≤ lo) :
    Memory.wfFrom lo' m = true := by
  cases m with
  | nil => rfl
  | cons c rest =>
    simp only [Memory.wfFrom, Bool.and_eq_true, decide_eq_true_eq] at h ⊢
    exact ⟨⟨⟨by omega, h.1.1.2⟩, h.1.2⟩, h.2⟩

/-- Below the first possible offset nothing is listed. -/
theorem read_below {m : Memory} {lo x : Nat} (h : Memory.wfFrom lo m = true) (hx : x < lo) : m.read x = 0 := by
  induction m generalizing lo with
  | nil => rfl
  | cons c rest ih =>
    obtain ⟨a, v⟩ := c
    simp only [Memory.wfFrom, Bool.and_eq_true, decide_eq_true_eq] at h
    have ha : a ≠ x := by omega
    simp only [Memory.read, ha, if_false]
    exact ih h.2 (by omega)

theorem insert_nil (x : Nat) (w : Byte) : Memory.insert [] x w = if w = 0 then [] else [(x, w)] := rfl

theorem insert_front {x a : Nat} (h : x < a) (v w : Byte) (rest : Memory) :
    Memory.insert ((a, v) :: rest) x w = if w = 0 then (a, v) :: rest else (x, w) :: (a, v) :: rest := by
  rw [Memory.insert, if_pos h]

theorem insert_here (x : Nat) (v w : Byte) (rest : Memory) :
    Memory.insert ((x, v) :: rest) x w = if w = 0 then rest else (x, w) :: rest := by
  rw [Memory.insert, if_neg (Nat.lt_irrefl x), if_pos rfl]

theorem insert_later {x a : Nat} (h : a < x) (v w : Byte) (rest : Memory) :
    Memory.insert ((a, v) :: rest) x w = (a, v) :: Memory.insert rest x w := by
  rw [Memory.insert, if_neg (by omega), if_neg (by omega)]

theorem wfFrom_cons {lo a : Nat} {v : Byte} {rest : Memory} :
    Memory.wfFrom lo ((a, v) :: rest) = true ↔
      lo ≤ a ∧ a < Config.slotBytes ∧ v ≠ 0 ∧ Memory.wfFrom (a + 1) rest = true := by
  rw [Memory.wfFrom]
  simp only [Bool.and_eq_true, decide_eq_true_eq, bne_iff_ne, and_assoc]

theorem wfFrom_insert {m : Memory} {lo x : Nat} {w : Byte} (h : Memory.wfFrom lo m = true) (hl : lo ≤ x)
    (hx : x < Config.slotBytes) : Memory.wfFrom lo (m.insert x w) = true := by
  induction m generalizing lo with
  | nil =>
    rw [insert_nil]
    split
    · rfl
    · next hw => exact wfFrom_cons.2 ⟨hl, hx, hw, rfl⟩
  | cons c rest ih =>
    obtain ⟨a, v⟩ := c
    have hc := wfFrom_cons.1 h
    rcases Nat.lt_trichotomy x a with h1 | h1 | h1
    · rw [insert_front h1]
      split
      · exact h
      · next hw => exact wfFrom_cons.2 ⟨hl, hx, hw, wfFrom_cons.2 ⟨by omega, hc.2⟩⟩
    · subst h1
      rw [insert_here]
      split
      · exact wfFrom_mono hc.2.2.2 (by omega)
      · next hw => exact wfFrom_cons.2 ⟨hc.1, hx, hw, hc.2.2.2⟩
    · rw [insert_later h1]
      exact wfFrom_cons.2 ⟨hc.1, hc.2.1, hc.2.2.1, ih hc.2.2.2 (by omega)⟩

theorem wf_write {m : Memory} (h : m.wf = true) (x : Nat) (w : Byte) : (m.write x w).wf = true := by
  unfold Memory.write
  split
  · exact wfFrom_insert h (Nat.zero_le _) ‹_›
  · exact h

theorem wf_writeAll {m : Memory} (h : m.wf = true) (x : Nat) (ws : List Byte) : (m.writeAll x ws).wf = true := by
  induction ws generalizing m x with
  | nil => exact h
  | cons w ws ih => exact ih (wf_write h x w) (x + 1)

theorem wfFrom_filter {m : Memory} {lo : Nat} (h : Memory.wfFrom lo m = true) (f : Host.Cell → Bool) :
    Memory.wfFrom lo (m.filter f) = true := by
  induction m generalizing lo with
  | nil => rfl
  | cons c rest ih =>
    obtain ⟨a, v⟩ := c
    simp only [Memory.wfFrom, Bool.and_eq_true, decide_eq_true_eq] at h
    by_cases hf : f (a, v) = true
    · simp only [List.filter_cons, hf, if_true, Memory.wfFrom, Bool.and_eq_true, decide_eq_true_eq]
      exact ⟨h.1, ih h.2⟩
    · simp only [List.filter_cons, hf]
      exact ih (wfFrom_mono h.2 (by omega))

theorem wf_truncate {m : Memory} (h : m.wf = true) (n : Nat) : (m.truncate n).wf = true := wfFrom_filter h _

@[simp] theorem wf_nil : Memory.wf [] = true := rfl

/-! ### Reads -/

@[simp] theorem read_nil (x : Nat) : Memory.read [] x = 0 := rfl

theorem read_cons (b : Nat) (v : Byte) (rest : Memory) (a : Nat) :
    Memory.read ((b, v) :: rest) a = if b = a then v else Memory.read rest a := rfl

theorem read_insert {m : Memory} {lo x : Nat} {w : Byte} (h : Memory.wfFrom lo m = true) (a : Nat) :
    (m.insert x w).read a = if a = x then w else m.read a := by
  induction m generalizing lo with
  | nil =>
    rw [insert_nil]
    by_cases hw : w = 0
    · rw [if_pos hw, read_nil, hw, ite_self]
    · rw [if_neg hw, read_cons]
      by_cases ha : a = x
      · rw [if_pos ha.symm, if_pos ha]
      · rw [if_neg (fun e => ha e.symm), if_neg ha]
  | cons c rest ih =>
    obtain ⟨b, v⟩ := c
    have hc := wfFrom_cons.1 h
    rcases Nat.lt_trichotomy x b with h1 | h1 | h1
    · rw [insert_front h1]
      by_cases hw : w = 0
      · rw [if_pos hw]
        by_cases ha : a = x
        · rw [if_pos ha, hw, read_cons, if_neg (by omega)]
          exact read_below hc.2.2.2 (by omega)
        · rw [if_neg ha]
      · rw [if_neg hw, read_cons]
        by_cases ha : a = x
        · rw [if_pos ha.symm, if_pos ha]
        · rw [if_neg (fun e => ha e.symm), if_neg ha]
    · subst h1
      rw [insert_here]
      by_cases hw : w = 0
      · rw [if_pos hw, read_cons]
        by_cases ha : a = x
        · rw [if_pos ha, hw]
          exact read_below hc.2.2.2 (by omega)
        · rw [if_neg ha, if_neg (fun e => ha e.symm)]
      · rw [if_neg hw, read_cons, read_cons]
        by_cases ha : a = x
        · rw [if_pos ha.symm, if_pos ha]
        · rw [if_neg (fun e => ha e.symm), if_neg ha, if_neg (fun e => ha e.symm)]
    · rw [insert_later h1, read_cons, read_cons]
      by_cases hb : b = a
      · rw [if_pos hb, if_neg (by omega), if_pos hb]
      · rw [if_neg hb, if_neg hb]
        exact ih hc.2.2.2

/-- A byte read after a write. -/
theorem read_write {m : Memory} (h : m.wf = true) {x : Nat} (hx : x < Config.slotBytes) (w : Byte) (a : Nat) :
    (m.write x w).read a = if a = x then w else m.read a := by
  simp only [Memory.write, hx, if_true]
  exact read_insert h a

/-- A byte read after bytes written in a row. -/
theorem read_writeAll {m : Memory} (h : m.wf = true) (x : Nat) (ws : List Byte) (hx : x + ws.length ≤ Config.slotBytes)
    (a : Nat) : (m.writeAll x ws).read a = if x ≤ a ∧ a < x + ws.length then byteAt ws (a - x) else m.read a := by
  induction ws generalizing m x with
  | nil =>
    have : ¬(x ≤ a ∧ a < x) := by omega
    simp [Memory.writeAll, this]
  | cons w ws ih =>
    simp only [List.length_cons] at hx
    rw [Memory.writeAll, ih (wf_write h x w) (x + 1) (by omega), read_write h (by omega)]
    by_cases h1 : a = x
    · subst h1
      simp [byteAt]
    · by_cases h2 : x + 1 ≤ a ∧ a < x + 1 + ws.length
      · have h3 : x ≤ a ∧ a < x + (w :: ws).length := by simp only [List.length_cons]; omega
        obtain ⟨k, rfl⟩ : ∃ k, a = x + 1 + k := ⟨a - (x + 1), by omega⟩
        have e1 : x + 1 + k - (x + 1) = k := by omega
        have e2 : x + 1 + k - x = k + 1 := by omega
        simp only [h2, h3, and_self, if_true, e1, e2, byteAt, List.getD_cons_succ]
      · have h3 : ¬(x ≤ a ∧ a < x + (w :: ws).length) := by simp only [List.length_cons]; omega
        rw [if_neg h2, if_neg h1, if_neg h3]

/-- A byte read after the contents are cut. -/
theorem read_truncate (m : Memory) (n a : Nat) : (m.truncate n).read a = if a < n then m.read a else 0 := by
  unfold Memory.truncate
  induction m with
  | nil => simp
  | cons c rest ih =>
    obtain ⟨b, v⟩ := c
    by_cases hb : b < n
    · by_cases ha : b = a
      · subst ha; simp [hb, Memory.read]
      · simpa [hb, Memory.read, ha] using ih
    · by_cases ha : b = a
      · subst ha; simp [hb] at ih ⊢; exact ih
      · simpa [hb, Memory.read, ha] using ih

/-- A byte of the reply of FETCH (R141). -/
theorem byteAt_bytesFrom (m : Memory) (x valid i : Nat) :
    byteAt (m.bytesFrom x valid) i = if x + i < Config.slotBytes ∧ x + i < valid then m.read (x + i) else 0 := by
  unfold Memory.bytesFrom byteAt
  by_cases hi : i < Config.slotBytes - x
  · have h1 : x + i < Config.slotBytes := by omega
    by_cases hv : x + i < valid <;>
      simp [List.getD_eq_getElem?_getD, List.getElem?_map, List.getElem?_range hi, h1, hv]
  · have h1 : ¬ x + i < Config.slotBytes := by omega
    simp [List.getD_eq_getElem?_getD, h1, hi]

end Sys2Proof.Machine
end

