-- ==== Sys2Proof/Laws/Standing.lean ====
section
/-! SUPPORT. What the taking of everything that stands ready can do (R4, R95, R115): nothing where nothing stands, else one APPLY
or one claim after another. -/

namespace Sys2Proof.Machine

/-- With no APPLY standing none is taken (R4). -/
theorem settleApplies_none {s : State} (h : s.applyStands = false) : s.settleApplies = s := by
  simp [State.settleApplies, h]

theorem settleBus_none {s : State} {b : Bus} (h : s.busResetReady b = false) : s.settleBus b = s := by
  unfold State.settleBus
  split
  · rfl
  · next ha =>
    have h0 : (s.bus b).resets = 0 := by simpa [State.busResetReady, ha] using h
    rw [h0]; rfl

theorem settleTargets_none {s : State} (h : s.resetClaims.any s.targetResetReady = false) : s.settleTargets = s := by
  unfold State.settleTargets
  rw [List.any_eq_false] at h
  generalize s.resetClaims = l at h
  induction l with
  | nil => rfl
  | cons x rest ih =>
    rw [List.foldl_cons, if_neg (h x List.mem_cons_self)]
    exact ih fun y hy => h y (List.mem_cons_of_mem _ hy)

/-- What it says that nothing stands ready. -/
theorem stands_false {s : State} : s.stands = false ↔ s.applyStands = false ∧ s.busResetReady 0 = false ∧
    s.busResetReady 1 = false ∧ s.resetClaims.any s.targetResetReady = false := by
  simp only [State.stands, Bool.or_eq_false_iff, and_assoc]

/-- With nothing standing ready nothing is taken. -/
theorem settle_none {s : State} (h : s.stands = false) : s.settle = s := by
  obtain ⟨h1, h2, h3, h4⟩ := stands_false.1 h
  unfold State.settle
  rw [settleApplies_none h1, settleBus_none h2, settleBus_none h3, settleTargets_none h4]

/-- What the taking of APPLYs, of a bus reset claim, and of a target reset claim with no frame to its target in flight all keep,
is kept when everything that stands ready is taken. -/
theorem settle_keeps {P : State → Prop} (hA : ∀ u : State, P u → P u.settleApplies)
    (hB : ∀ (u : State) b, P u → P (u.settleBusReset b))
    (hT : ∀ (u : State) x, P u → u.frameTo x = false → P (u.settleTargetReset x)) {s : State} (h : P s) : P s.settle := by
  have hBs : ∀ (b : Bus) (n : Nat) (u : State), P u → P (State.settleBusResets b n u) := by
    intro b n
    induction n with
    | zero => exact fun _ h => h
    | succ n ih => exact fun u h => ih _ (hB u b h)
  have hBus : ∀ (b : Bus) (u : State), P u → P (u.settleBus b) := by
    intro b u h
    unfold State.settleBus
    split
    · exact h
    · exact hBs _ _ _ h
  have hTs : ∀ (l : List Target) (u : State), P u →
      P (l.foldl (fun u t => if u.targetResetReady t then u.settleTargetReset t else u) u) := by
    intro l
    induction l with
    | nil => exact fun _ h => h
    | cons x rest ih =>
      intro u h
      refine ih _ ?_
      dsimp only
      split
      · next hr =>
        simp only [State.targetResetReady, Bool.and_eq_true, Bool.not_eq_true'] at hr
        exact hT u x h hr.1.2
      · exact h
  exact hTs _ _ (hBus 1 _ (hBus 0 _ (hA s h)))

/-- What holds of the state, before and after whatever stands ready is taken, and is kept by the effect of an expiry once time has
passed, is kept by the expiry. -/
theorem expire_keeps {P : State → Prop} {s : State} {t : Target} {left : TargetRecord → Option Nat} {act : State → State}
    (h : P s) (hw : P s.settle) (ha : ∀ u n, P u → P (act (u.elapse n))) : P (s.expire t left act) := by
  have h1 : ∀ n : Nat, P (if n = 0 then s else s.settle) := fun n => by
    split
    · exact h
    · exact hw
  unfold State.expire
  dsimp only
  split
  · exact h
  · split
    · exact ha _ _ (h1 _)
    · exact h1 _

/-- With nothing standing ready an expiry lets the time that is left pass and has its effect. -/
theorem expire_runs {s : State} {t : Target} {left : TargetRecord → Option Nat} {act : State → State} {n : Nat}
    (h : s.stands = false) (hn : left (s.target t) = some n) : s.expire t left act = act (s.elapse n) := by
  simp [State.expire, settle_none h, hn]

/-- What does not run does not expire (R29). -/
theorem expire_idle {s : State} {t : Target} {left : TargetRecord → Option Nat} {act : State → State}
    (hn : left (s.target t) = none) : s.expire t left act = s := by
  simp [State.expire, hn]

end Sys2Proof.Machine
end

