-- ==== Sys2Proof/Laws/Upstream.lean ====
section
/-! SUPPORT. What the shared parts of an upstream frame do: reaching the port, opening, closing, capture and reply. -/

namespace Sys2Proof.Machine

/-! ### Reaching the port -/

theorem upstream_taken {s : State} {p : Port} {i : Instr} {take : State → State} (h : s.hears p) :
    s.upstream p i false take = take s := by
  simp [State.upstream, h.1, h.2.1, settle_none h.2.2]

theorem upstream_taken_of {s : State} {p : Port} {i : Instr} {w : Bool} {take : State → State} (h : s.hears p)
    (hw : w = false) : s.upstream p i w take = take s := by
  subst hw; exact upstream_taken h

/-- A frame behind a waiting frame of its port waits. -/
theorem upstream_waits {s : State} {p : Port} {i : Instr} {w : Bool} {take : State → State} (hd : s.deaf p = false)
    (h : s.frameWaits p = true) : s.upstream p i w take = s.wait (.frame i) := by
  simp [State.upstream, hd, h]

/-- A frame that an admission holds back waits with its frame open. -/
theorem upstream_held {s : State} {p : Port} {i : Instr} {w : Bool} {take : State → State} (h : s.hears p) (hw : w = true) :
    s.upstream p i w take = (s.openFrame p).wait (.frame i) := by
  simp [State.upstream, h.1, h.2.1, hw, settle_none h.2.2]

theorem upstream_deaf {s : State} {p : Port} {i : Instr} {w : Bool} {take : State → State} (h : s.deaf p = true) :
    s.upstream p i w take = s := by
  simp [State.upstream, h]

/-! ### Opening and closing -/

/-- A Port Unit with a frame open. -/
def PortUnit.opened (u : PortUnit) : PortUnit := if u.link.isOpen then u else u.fall

theorem openFrame_eq (s : State) (p : Port) : s.openFrame p = s.setPort p (s.port p).opened := rfl

theorem closeFrame_eq (s : State) (p : Port) (r : Result) (request n : Nat) (reply : List Byte) :
    s.closeFrame p r request n reply = s.setPort p ((s.port p).rise r request n reply) := rfl

@[simp] theorem opened_ring (u : PortUnit) : u.opened.ring = u.ring := by unfold PortUnit.opened; split <;> rfl
@[simp] theorem opened_tags (u : PortUnit) : u.opened.tags = u.tags := by unfold PortUnit.opened; split <;> rfl
@[simp] theorem opened_queue (u : PortUnit) : u.opened.queue = u.queue := by unfold PortUnit.opened; split <;> rfl
@[simp] theorem opened_credits (u : PortUnit) : u.opened.credits = u.credits := by unfold PortUnit.opened; split <;> rfl
@[simp] theorem opened_hold (u : PortUnit) : u.opened.hold = u.hold := by unfold PortUnit.opened; split <;> rfl
@[simp] theorem opened_slots (u : PortUnit) : u.opened.slots = u.slots := by unfold PortUnit.opened; split <;> rfl
@[simp] theorem opened_pending (u : PortUnit) : u.opened.pending = u.pending := by unfold PortUnit.opened; split <;> rfl
@[simp] theorem opened_enable (u : PortUnit) : u.opened.enable = u.enable := by unfold PortUnit.opened; split <;> rfl
@[simp] theorem opened_watermark (u : PortUnit) : u.opened.watermark = u.watermark := by
  unfold PortUnit.opened; split <;> rfl
@[simp] theorem opened_armed (u : PortUnit) : u.opened.armed = u.armed := by unfold PortUnit.opened; split <;> rfl
@[simp] theorem opened_last (u : PortUnit) : u.opened.last = u.last := by unfold PortUnit.opened; split <;> rfl

@[simp] theorem opened_isOpen (u : PortUnit) : u.opened.link.isOpen = true := by
  unfold PortUnit.opened; split
  · assumption
  · rfl

@[simp] theorem opened_summary (u : PortUnit) : u.opened.link.summary = u.frameSummary := by
  unfold PortUnit.opened PortUnit.frameSummary; split <;> rfl

theorem opened_ignoring (u : PortUnit) (h : u.link.ignoring = false) : u.opened.link.ignoring = false := by
  unfold PortUnit.opened; split
  · exact h
  · rfl

/-- Opening a frame changes only the link. -/
theorem opened_eq (u : PortUnit) : u.opened = { u with link := u.opened.link } := by
  unfold PortUnit.opened; split <;> rfl

theorem opened_of_open (u : PortUnit) (h : u.link.isOpen = true) : u.opened = u := by simp [PortUnit.opened, h]

theorem opened_opened (u : PortUnit) : u.opened.opened = u.opened := opened_of_open _ (opened_isOpen u)

/-- A capture of the kind of frame that is open, or the one made now. -/
theorem opened_inForce (u : PortUnit) (mine : Captured → Bool) (now : Captured) :
    (u.opened.link.captured.filter mine).getD now = u.link.inForce mine now := by
  unfold PortUnit.opened Link.inForce
  split
  · rfl
  · rfl

theorem rise_link (u : PortUnit) (r : Result) (request n : Nat) (reply : List Byte) :
    (u.rise r request n reply).link =
      { isOpen := false, ignoring := u.link.ignoring, summary := u.link.summary, captured := none,
        sdo := sdoBytes u.link.summary request reply (n + 1) } := rfl

theorem rise_eq (u : PortUnit) (r : Result) (request n : Nat) (reply : List Byte) :
    u.rise r request n reply = { u with last := r, link := (u.rise r request n reply).link } := rfl

/-- Opening and closing a frame changes only the last result and the link. -/
theorem opened_rise (u : PortUnit) (r : Result) (request n : Nat) (reply : List Byte) :
    u.opened.rise r request n reply = { u with last := r, link := (u.opened.rise r request n reply).link } := by
  unfold PortUnit.opened; split <;> rfl

/-- With no reply SDO carries the summary byte and 0x00. -/
theorem sdoBytes_nil (x : Byte) (request n : Nat) : sdoBytes x request [] (n + 1) = x :: List.replicate n 0 := by
  simp [sdoBytes, List.take_replicate]; omega

/-- What SDO carries in a frame that answers (R179, R181, R182). -/
theorem sdoBytes_carries (u : PortUnit) (request n : Nat) (reply : List Byte) :
    sdoBytes u.frameSummary request reply (n + 1) = u.carries request reply n := by
  unfold sdoBytes PortUnit.carries
  simp only [List.take_succ_cons, List.cons.injEq, true_and]
  generalize List.replicate request (0 : Byte) ++ reply = l
  rw [List.take_append, List.take_append, List.take_replicate, List.take_replicate]
  congr 2
  omega

/-- The link that a capture leaves (R178, R179, R182). -/
theorem opened_linkHolding (u : PortUnit) (c : Captured) (h : u.link.ignoring = false) :
    { u.opened.link with captured := some c } = u.linkHolding c := by
  unfold PortUnit.opened PortUnit.linkHolding PortUnit.frameSummary
  split <;> simp_all [PortUnit.fall]

/-- The link that a release leaves (R178, R179). -/
theorem rise_linkReleased (u : PortUnit) (r : Result) (request n : Nat) (reply : List Byte) (h : u.link.ignoring = false) :
    (u.opened.rise r request n reply).link = u.linkReleased (u.carries request reply n) := by
  rw [rise_link, opened_ignoring u h, opened_summary, sdoBytes_carries]; rfl

/-- A field of a frame that names one of `n` things. -/
theorem below_some {n : Nat} {b : Byte} {k : Fin n} (h : b.toNat = k.val) : below n b = some k := by
  have := k.isLt
  simp [below, h]

/-- A field of a frame that names none of `n` things. -/
theorem below_none {n : Nat} {b : Byte} (h : n ≤ b.toNat) : below n b = none := by
  have : ¬ b.toNat < n := by omega
  simp [below, this]

theorem hears_ignoring {s : State} {p : Port} (h : s.hears p) : (s.port p).link.ignoring = false := by
  have := h.1
  simp only [State.deaf, Bool.or_eq_false_iff] at this
  exact this.2

/-! ### Frames without a reply -/

theorem plainFrame_short (s : State) (p : Port) (need : Nat) (bytes : List Byte) (act : State → State × Result)
    (h : bytes.length + 1 < need) :
    s.plainFrame p need bytes act = s.setPort p ((s.port p).opened.rise .framing need bytes.length []) := by
  simp [State.plainFrame, h, openFrame_eq, closeFrame_eq]

theorem plainFrame_long (s : State) (p : Port) (need : Nat) (bytes : List Byte) (act : State → State × Result)
    (h : need ≤ bytes.length + 1) :
    s.plainFrame p need bytes act =
      (act (s.setPort p (s.port p).opened)).1.closeFrame p (act (s.setPort p (s.port p).opened)).2 need bytes.length [] := by
  have : ¬ bytes.length + 1 < need := by omega
  simp [State.plainFrame, this, openFrame_eq]

/-! ### Frames that answer -/

theorem captureFrame_eq (s : State) (p : Port) (request : Nat) (bytes : List Byte) (grab : State → Captured)
    (h : request ≤ bytes.length + 1) :
    s.captureFrame p request bytes grab =
      s.setPort p { (s.port p).opened with
        link := { (s.port p).opened.link with captured := some (grab (s.setPort p (s.port p).opened)) } } := by
  have : ¬ bytes.length + 1 < request := by omega
  simp [State.captureFrame, this, openFrame_eq, modPort_eq]

theorem replyFrame_eq (s : State) (p : Port) (request need : Nat) (bytes : List Byte) (mine : Captured → Bool)
    (grab : State → Captured) (act : State → Captured → State × Result) (h : request ≤ bytes.length + 1) :
    s.replyFrame p request need bytes mine grab act =
      (let s1 := s.setPort p (s.port p).opened
       let c := (s.port p).link.inForce mine (grab s1)
       if bytes.length + 1 < need then s1.closeFrame p .framing request bytes.length c.reply
       else (act s1 c).1.closeFrame p (act s1 c).2 request bytes.length c.reply) := by
  have h' : ¬ bytes.length + 1 < request := by omega
  simp only [State.replyFrame, h', if_false, openFrame_eq, port_setPort_same, opened_inForce]

/-! ### The frame of a port -/

theorem onlyPort_setPort (s : State) (p : Port) (u : PortUnit) : OnlyPort p s (s.setPort p u) :=
  ⟨rfl, fun q h => port_setPort_other s p q u h⟩

/-- Only Port Unit `p` differs exactly when the state is `s` with that unit replaced. -/
theorem onlyPort_iff (s t : State) (p : Port) : OnlyPort p s t ↔ t = s.setPort p (t.port p) := by
  constructor
  · intro h
    have hp : t.ports = put s.ports p (t.port p) := by
      apply vector_ext
      intro q
      by_cases hq : q = p
      · subst hq; simp [State.port]
      · rw [pick_put_other _ _ _ _ hq]; exact h.2 q hq
    have h1 := h.1
    rw [hp] at h1
    exact h1
  · intro h
    rw [h]
    simpa using onlyPort_setPort s p (t.port p)

end Sys2Proof.Machine
end

