-- ==== Sys2Proof/Laws/Work.lean ====
section
/-! SUPPORT. What happens when items leave a list: `finish` for one item, `finishAll` for several. -/

namespace Sys2Proof.Machine

/-! ### One item leaves -/

/-- The Port Unit after the record of one of its items is posted or discarded. -/
def PortUnit.settled (u : PortUnit) (it : Item) (r : Completion) : PortUnit :=
  if it.orphan then u.dropOrphan it.slot else u.post it.slot r

theorem finish_eq (s : State) (b : Bus) (it : Item) (r : Completion) :
    s.finish b it r = ((s.setBus b ((s.bus b).remove it.uid)).releaseBlocked b).setPort it.port
      ((s.port it.port).settled it r) := rfl

@[simp] theorem finish_policy (s : State) (b : Bus) (it : Item) (r : Completion) : (s.finish b it r).policy = s.policy := rfl
@[simp] theorem finish_targets (s : State) (b : Bus) (it : Item) (r : Completion) : (s.finish b it r).targets = s.targets := rfl
@[simp] theorem finish_target (s : State) (b : Bus) (it : Item) (r : Completion) (x : Target) :
    (s.finish b it r).target x = s.target x := rfl
@[simp] theorem finish_resetClaims (s : State) (b : Bus) (it : Item) (r : Completion) :
    (s.finish b it r).resetClaims = s.resetClaims := rfl
@[simp] theorem finish_waiting (s : State) (b : Bus) (it : Item) (r : Completion) : (s.finish b it r).waiting = s.waiting := rfl
@[simp] theorem finish_resetLow (s : State) (b : Bus) (it : Item) (r : Completion) :
    (s.finish b it r).resetLow = s.resetLow := rfl
@[simp] theorem finish_authority (s : State) (b : Bus) (it : Item) (r : Completion) :
    (s.finish b it r).authority = s.authority := rfl
@[simp] theorem finish_nextUid (s : State) (b : Bus) (it : Item) (r : Completion) : (s.finish b it r).nextUid = s.nextUid := rfl
@[simp] theorem finish_pending (s : State) (b : Bus) (it : Item) (r : Completion) : (s.finish b it r).pending = s.pending := rfl
@[simp] theorem finish_current (s : State) (b : Bus) (it : Item) (r : Completion) :
    (s.finish b it r).admission.current = s.admission.current := rfl
@[simp] theorem finish_pointer (s : State) (b : Bus) (it : Item) (r : Completion) :
    (s.finish b it r).admission.pointer = s.admission.pointer := rfl

theorem finish_bus_same (s : State) (b : Bus) (it : Item) (r : Completion) :
    (s.finish b it r).bus b = { s.bus b with list := (s.bus b).list.filter (fun x => x.uid != it.uid) } := by
  rw [finish_eq, setPort_bus, releaseBlocked_bus, bus_setBus_same]; rfl

theorem finish_bus_other (s : State) (b c : Bus) (it : Item) (r : Completion) (h : c ≠ b) :
    (s.finish b it r).bus c = s.bus c := by
  rw [finish_eq, setPort_bus, releaseBlocked_bus, bus_setBus_other _ _ _ _ h]

theorem finish_port_same (s : State) (b : Bus) (it : Item) (r : Completion) :
    (s.finish b it r).port it.port = (s.port it.port).settled it r := by
  rw [finish_eq, port_setPort_same]

theorem finish_port_other (s : State) (b : Bus) (it : Item) (r : Completion) (q : Port) (h : q ≠ it.port) :
    (s.finish b it r).port q = s.port q := by
  rw [finish_eq, port_setPort_other _ _ _ _ h]; rfl

theorem releaseBlocked_blocked (s : State) (b : Bus) (p : Port) :
    pick (s.releaseBlocked b).admission.blocked p =
      if pick s.admission.blocked p = some b then none else pick s.admission.blocked p := by
  fin_cases p <;> rfl

theorem finish_blocked (s : State) (b : Bus) (it : Item) (r : Completion) (p : Port) :
    pick (s.finish b it r).admission.blocked p =
      if pick s.admission.blocked p = some b then none else pick s.admission.blocked p :=
  releaseBlocked_blocked _ b p

/-! ### Postings and orphans -/

@[simp] theorem modSlot?_queue (u : PortUnit) (k : Option SlotIx) (f : Slot → Slot) : (u.modSlot? k f).queue = u.queue := by
  unfold PortUnit.modSlot?; split <;> rfl
@[simp] theorem modSlot?_credits (u : PortUnit) (k : Option SlotIx) (f : Slot → Slot) :
    (u.modSlot? k f).credits = u.credits := by
  unfold PortUnit.modSlot?; split <;> rfl
@[simp] theorem modSlot?_ring (u : PortUnit) (k : Option SlotIx) (f : Slot → Slot) : (u.modSlot? k f).ring = u.ring := by
  unfold PortUnit.modSlot?; split <;> rfl
@[simp] theorem modSlot?_pending (u : PortUnit) (k : Option SlotIx) (f : Slot → Slot) :
    (u.modSlot? k f).pending = u.pending := by
  unfold PortUnit.modSlot?; split <;> rfl
@[simp] theorem modSlot?_armed (u : PortUnit) (k : Option SlotIx) (f : Slot → Slot) : (u.modSlot? k f).armed = u.armed := by
  unfold PortUnit.modSlot?; split <;> rfl
@[simp] theorem modSlot?_watermark (u : PortUnit) (k : Option SlotIx) (f : Slot → Slot) :
    (u.modSlot? k f).watermark = u.watermark := by
  unfold PortUnit.modSlot?; split <;> rfl
@[simp] theorem modSlot?_link (u : PortUnit) (k : Option SlotIx) (f : Slot → Slot) : (u.modSlot? k f).link = u.link := by
  unfold PortUnit.modSlot?; split <;> rfl

/-- A slot change, as a replacement of the slots alone. -/
theorem modSlot?_eq (u : PortUnit) (k : Option SlotIx) (f : Slot → Slot) :
    u.modSlot? k f = { u with slots := match k with
      | some i => put u.slots i (f (pick u.slots i))
      | none => u.slots } := by
  cases k <;> rfl

theorem spaceHolds_iff (u : PortUnit) : u.spaceHolds = true ↔ u.ring.length ≤ 6 ∧ u.credits ≤ 14 := by
  simp only [PortUnit.spaceHolds, Bool.and_eq_true, decide_eq_true_eq, Config.ringSize, Config.credits]; omega

theorem judgeSpace_raises (u : PortUnit) (h : u.armed = true ∧ u.ring.length ≤ 6 ∧ u.credits ≤ 14) :
    u.judgeSpace = PortUnit.raise { u with armed := false } .space := by
  have : (u.armed && u.spaceHolds) = true := by rw [Bool.and_eq_true, spaceHolds_iff]; exact h
  simp only [PortUnit.judgeSpace, this, if_true, PortUnit.raise]

theorem judgeSpace_waits (u : PortUnit) (h : ¬(u.armed = true ∧ u.ring.length ≤ 6 ∧ u.credits ≤ 14)) : u.judgeSpace = u := by
  have : ¬(u.armed && u.spaceHolds) = true := by rw [Bool.and_eq_true, spaceHolds_iff]; exact h
  rw [PortUnit.judgeSpace, if_neg this]

@[simp] theorem judgeSpace_queue (u : PortUnit) : u.judgeSpace.queue = u.queue := by
  unfold PortUnit.judgeSpace; split <;> rfl
@[simp] theorem judgeSpace_credits (u : PortUnit) : u.judgeSpace.credits = u.credits := by
  unfold PortUnit.judgeSpace; split <;> rfl
@[simp] theorem judgeSpace_fault (u : PortUnit) : u.judgeSpace.pending.fault = u.pending.fault := by
  unfold PortUnit.judgeSpace; split <;> rfl

@[simp] theorem settled_queue (u : PortUnit) (it : Item) (r : Completion) :
    (u.settled it r).queue = u.queue ++ if it.orphan then [] else [r] := by
  unfold PortUnit.settled
  split
  · simp [PortUnit.dropOrphan]
  · simp [PortUnit.post, PortUnit.judge]

@[simp] theorem settled_credits (u : PortUnit) (it : Item) (r : Completion) :
    (u.settled it r).credits = u.credits - if it.orphan then 1 else 0 := by
  unfold PortUnit.settled
  split
  · simp [PortUnit.dropOrphan]
  · simp [PortUnit.post, PortUnit.judge]

@[simp] theorem settled_fault (u : PortUnit) (it : Item) (r : Completion) :
    (u.settled it r).pending.fault = u.pending.fault := by
  unfold PortUnit.settled
  split
  · simp [PortUnit.dropOrphan]
  · simp [PortUnit.post, PortUnit.judge]

theorem settled_link (u : PortUnit) (it : Item) (r : Completion) :
    (u.settled it r).link.isOpen = u.link.isOpen ∧ (u.settled it r).link.ignoring = u.link.ignoring := by
  unfold PortUnit.settled
  split
  · unfold PortUnit.dropOrphan PortUnit.judgeSpace PortUnit.modSlot?
    cases it.slot <;> dsimp only <;> split <;> exact ⟨rfl, rfl⟩
  · unfold PortUnit.post PortUnit.modSlot?
    cases it.slot <;> exact ⟨rfl, rfl⟩

theorem finish_queue (s : State) (b : Bus) (it : Item) (r : Completion) (p : Port) :
    ((s.finish b it r).port p).queue =
      (s.port p).queue ++ if decide (it.port = p) && !it.orphan then [r] else [] := by
  by_cases h : p = it.port
  · subst h
    rw [finish_port_same, settled_queue]
    cases it.orphan <;> simp
  · have h' : ¬ it.port = p := fun e => h e.symm
    rw [finish_port_other _ _ _ _ _ h]
    simp [h']

theorem finish_credits (s : State) (b : Bus) (it : Item) (r : Completion) (p : Port) :
    ((s.finish b it r).port p).credits =
      (s.port p).credits - if decide (it.port = p) && it.orphan then 1 else 0 := by
  by_cases h : p = it.port
  · subst h
    rw [finish_port_same, settled_credits]
    cases it.orphan <;> simp
  · have h' : ¬ it.port = p := fun e => h e.symm
    rw [finish_port_other _ _ _ _ _ h]
    simp [h']

theorem finish_fault (s : State) (b : Bus) (it : Item) (r : Completion) (p : Port) :
    ((s.finish b it r).port p).pending.fault = (s.port p).pending.fault := by
  by_cases h : p = it.port
  · subst h; rw [finish_port_same, settled_fault]
  · rw [finish_port_other _ _ _ _ _ h]

/-! ### Several items leave -/

theorem finishAll_cons (s : State) (b : Bus) (it : Item) (its : List Item) (f : Item → Completion) :
    s.finishAll b (it :: its) f = (s.finish b it (f it)).finishAll b its f := rfl

theorem finishAll_nil (s : State) (b : Bus) (f : Item → Completion) : s.finishAll b [] f = s := rfl

/-- What several departures leave as it was. -/
theorem finishAll_rest (s : State) (b : Bus) (its : List Item) (f : Item → Completion) :
    s.finishAll b its f = { s with ports := (s.finishAll b its f).ports, buses := (s.finishAll b its f).buses,
                                   admission := (s.finishAll b its f).admission } ∧
      (s.finishAll b its f).admission.current = s.admission.current ∧
      (s.finishAll b its f).admission.pointer = s.admission.pointer := by
  induction its generalizing s with
  | nil => exact ⟨rfl, rfl, rfl⟩
  | cons it its ih =>
    rw [finishAll_cons]
    obtain ⟨h1, h2, h3⟩ := ih (s.finish b it (f it))
    refine ⟨?_, h2, h3⟩
    rw [h1]; rfl

theorem finishAll_bus_other (s : State) (b c : Bus) (its : List Item) (f : Item → Completion) (h : c ≠ b) :
    (s.finishAll b its f).bus c = s.bus c := by
  induction its generalizing s with
  | nil => rfl
  | cons it its ih => rw [finishAll_cons, ih, finish_bus_other _ _ _ _ _ h]

theorem finishAll_bus_same (s : State) (b : Bus) (its : List Item) (f : Item → Completion) :
    (s.finishAll b its f).bus b =
      { s.bus b with list := (s.bus b).list.filter (fun x => its.all (fun it => x.uid != it.uid)) } := by
  induction its generalizing s with
  | nil => simp [finishAll_nil]
  | cons it its ih =>
    rw [finishAll_cons, ih, finish_bus_same]
    simp only [List.filter_filter, List.all_cons]
    congr 1
    apply List.filter_congr
    intro x _
    exact Bool.and_comm _ _

theorem finishAll_queue (s : State) (b : Bus) (its : List Item) (f : Item → Completion) (p : Port) :
    ((s.finishAll b its f).port p).queue =
      (s.port p).queue ++ (its.filter (fun it => decide (it.port = p) && !it.orphan)).map f := by
  induction its generalizing s with
  | nil => simp [finishAll_nil]
  | cons it its ih =>
    rw [finishAll_cons, ih, finish_queue, List.append_assoc, List.filter_cons]
    split <;> simp

theorem finishAll_credits (s : State) (b : Bus) (its : List Item) (f : Item → Completion) (p : Port) :
    ((s.finishAll b its f).port p).credits =
      (s.port p).credits - (its.filter (fun it => decide (it.port = p) && it.orphan)).length := by
  induction its generalizing s with
  | nil => simp [finishAll_nil]
  | cons it its ih =>
    rw [finishAll_cons, ih, finish_credits, List.filter_cons]
    split
    · simp; omega
    · simp

theorem finishAll_fault (s : State) (b : Bus) (its : List Item) (f : Item → Completion) (p : Port) :
    ((s.finishAll b its f).port p).pending.fault = (s.port p).pending.fault := by
  induction its generalizing s with
  | nil => rfl
  | cons it its ih => rw [finishAll_cons, ih, finish_fault]

/-! ### Changes of a bus that touch neither its list nor its frame -/

/-- A change of a Bus Engine that leaves its list and its frame alone and does not depend on them: issuing or taking a claim. -/
structure Aside (f : BusEngine → BusEngine) : Prop where
  list : ∀ (e : BusEngine) (l : List Item), f { e with list := l } = { f e with list := l }
  frame : ∀ (e : BusEngine) (r : Option FrameRecord), f { e with frame := r } = { f e with frame := r }

theorem Aside.list_eq {f : BusEngine → BusEngine} (h : Aside f) (e : BusEngine) : (f e).list = e.list := by
  have := h.list e e.list
  rw [show ({ e with list := e.list } : BusEngine) = e from rfl] at this
  rw [this]

theorem Aside.frame_eq {f : BusEngine → BusEngine} (h : Aside f) (e : BusEngine) : (f e).frame = e.frame := by
  have := h.frame e e.frame
  rw [show ({ e with frame := e.frame } : BusEngine) = e from rfl] at this
  rw [this]

theorem aside_cancels (g : List CancelClaim → List CancelClaim) : Aside (fun e => { e with cancels := g e.cancels }) :=
  ⟨fun _ _ => rfl, fun _ _ => rfl⟩

theorem aside_revocations (g : List Revocation → List Revocation) :
    Aside (fun e => { e with revocations := g e.revocations }) :=
  ⟨fun _ _ => rfl, fun _ _ => rfl⟩

theorem aside_resets (g : Nat → Nat) : Aside (fun e => { e with resets := g e.resets }) := ⟨fun _ _ => rfl, fun _ _ => rfl⟩

theorem bus_modBus (s : State) (b c : Bus) (f : BusEngine → BusEngine) :
    (s.modBus b f).bus c = if c = b then f (s.bus c) else s.bus c := by
  split
  · next h => subst h; exact bus_setBus_same _ _ _
  · next h => exact bus_setBus_other _ _ _ _ h

/-- Two states that agree but for their buses are equal when every bus is. -/
theorem state_ext_buses {s t : State} (h : t = { s with buses := t.buses }) (hb : ∀ c, t.bus c = s.bus c) : t = s := by
  have : t.buses = s.buses := vector_ext hb
  rw [h, this]

/-- Changes of the same bus that commute, or of different buses, may be made in either order. -/
theorem modBus_comm (s : State) (b c : Bus) (f g : BusEngine → BusEngine) (h : ∀ e, f (g e) = g (f e)) :
    (s.modBus b f).modBus c g = (s.modBus c g).modBus b f := by
  apply state_ext_buses rfl
  intro d
  simp only [bus_modBus]
  split
  · split
    · exact (h _).symm
    · rfl
  · split <;> rfl

/-- An item's leaving and a change aside may be taken in either order. -/
theorem finish_modBus {f : BusEngine → BusEngine} (hf : Aside f) (s : State) (b c : Bus) (it : Item) (r : Completion) :
    (s.modBus c f).finish b it r = (s.finish b it r).modBus c f := by
  have h : ((s.modBus c f).modBus b (·.remove it.uid)) = (s.modBus b (·.remove it.uid)).modBus c f := by
    refine modBus_comm s c b f (·.remove it.uid) fun e => ?_
    unfold BusEngine.remove
    rw [hf.list, hf.list_eq]
  simp only [State.finish, State.leaveList]
  rw [h]
  rfl

theorem finishAll_modBus {f : BusEngine → BusEngine} (hf : Aside f) (s : State) (b c : Bus) (its : List Item)
    (g : Item → Completion) : (s.modBus c f).finishAll b its g = (s.finishAll b its g).modBus c f := by
  induction its generalizing s with
  | nil => rfl
  | cons it its ih => rw [finishAll_cons, finishAll_cons, finish_modBus hf, ih]

/-- A revocation and a change aside may be taken in either order. -/
theorem revoke_modBus {f : BusEngine → BusEngine} (hf : Aside f) (s : State) (b c : Bus) (rv : Revocation) :
    (s.modBus c f).revoke b rv = (s.revoke b rv).modBus c f := by
  have hl : ((s.modBus c f).bus b).list = (s.bus b).list := by
    rw [bus_modBus]; split
    · exact hf.list_eq _
    · rfl
  simp only [State.revoke, hl]
  rw [finishAll_modBus hf]
  refine modBus_comm _ c b f _ fun e => ?_
  rw [hf.list, hf.list_eq]

/-- A cancel claim on an item and a change aside may be taken in either order. -/
theorem cancelItem_modBus {f : BusEngine → BusEngine} (hf : Aside f) (s : State) (b c : Bus) (uid : Nat) :
    (s.modBus c f).cancelItem b uid = (s.cancelItem b uid).modBus c f := by
  have hb : ∀ u : State, (((u.modBus c f).bus b).find uid) = (u.bus b).find uid := by
    intro u
    unfold BusEngine.find
    rw [bus_modBus]; split
    · rw [hf.list_eq]
    · rfl
  have hfr : ∀ u : State, ((u.modBus c f).bus b).frameOf uid = (u.bus b).frameOf uid := by
    intro u
    unfold BusEngine.frameOf
    rw [bus_modBus]; split
    · rw [hf.frame_eq]
    · rfl
  have hc : ∀ (u : State) (g : Item → Item),
      (u.modBus c f).modBus b (·.modItem uid g) = (u.modBus b (·.modItem uid g)).modBus c f := by
    intro u g
    refine modBus_comm u c b f _ fun e => ?_
    unfold BusEngine.modItem
    rw [hf.list, hf.list_eq]
  have hr : ∀ (u : State) (r : FrameRecord), (u.modBus c f).modBus b (fun e => { e with frame := some r }) =
      (u.modBus b (fun e => { e with frame := some r })).modBus c f := by
    intro u r
    exact modBus_comm u c b f _ fun e => hf.frame _ _
  unfold State.cancelItem
  rw [hb]
  cases (s.bus b).find uid with
  | none => rfl
  | some it =>
    dsimp only
    split
    · rfl
    · split
      · exact finish_modBus hf _ _ _ _ _
      · rw [hc]
        split
        · rw [hfr]
          cases ((s.modBus b (·.modItem uid fun x =>
            let y := { x with cancelSeen := true }
            if y.moreUnits then y.shed .cancelled else y)).bus b).frameOf uid with
          | none => rfl
          | some r =>
            dsimp only
            split
            · exact hr _ _
            · rfl
        · rfl

/-- A cancel claim does nothing, removes an item, or changes the list and the frame of its bus. -/
theorem cancelItem_shape (s : State) (b : Bus) (uid : Nat) :
    s.cancelItem b uid = s ∨ (∃ it r, s.cancelItem b uid = s.finish b it r) ∨
      ∃ l f, s.cancelItem b uid = s.setBus b { s.bus b with list := l, frame := f } := by
  unfold State.cancelItem
  split
  · exact .inl rfl
  · split
    · exact .inl rfl
    · split
      · exact .inr (.inl ⟨_, _, rfl⟩)
      · refine .inr (.inr ?_)
        dsimp only
        split
        · split
          · split
            · exact ⟨_, _, by rw [modBus_eq, modBus_eq, setBus_setBus, bus_setBus_same]; rfl⟩
            · exact ⟨_, _, rfl⟩
          · exact ⟨_, _, rfl⟩
        · exact ⟨_, _, rfl⟩

/-- What a cancel claim leaves as it was. -/
theorem cancelItem_rest (s : State) (b : Bus) (uid : Nat) :
    s.cancelItem b uid = { s with ports := (s.cancelItem b uid).ports, buses := (s.cancelItem b uid).buses,
                                  admission := (s.cancelItem b uid).admission } ∧
      (s.cancelItem b uid).admission.current = s.admission.current ∧
      (∀ c, ((s.cancelItem b uid).bus c).resets = (s.bus c).resets) ∧
      ∀ p, ((s.cancelItem b uid).port p).link.isOpen = (s.port p).link.isOpen ∧
        ((s.cancelItem b uid).port p).link.ignoring = (s.port p).link.ignoring := by
  rcases cancelItem_shape s b uid with h | ⟨it, r, h⟩ | ⟨l, f, h⟩
  · rw [h]; exact ⟨rfl, rfl, fun _ => rfl, fun _ => ⟨rfl, rfl⟩⟩
  · rw [h]
    refine ⟨rfl, rfl, fun c => ?_, fun p => ?_⟩
    · by_cases hc : c = b
      · subst hc; rw [finish_bus_same]
      · rw [finish_bus_other _ _ _ _ _ hc]
    · by_cases hp : p = it.port
      · subst hp
        rw [finish_port_same]
        exact settled_link _ _ _
      · rw [finish_port_other _ _ _ _ _ hp]; exact ⟨rfl, rfl⟩
  · rw [h]
    refine ⟨rfl, rfl, fun c => ?_, fun _ => ⟨rfl, rfl⟩⟩
    by_cases hc : c = b
    · subst hc; rw [bus_setBus_same]
    · rw [bus_setBus_other _ _ _ _ hc]

/-- A cancel claim on one bus leaves the other bus as it is. -/
theorem cancelItem_bus_other (s : State) (b c : Bus) (uid : Nat) (h : c ≠ b) : (s.cancelItem b uid).bus c = s.bus c := by
  rcases cancelItem_shape s b uid with e | ⟨it, r, e⟩ | ⟨l, f, e⟩ <;> rw [e]
  · exact finish_bus_other _ _ _ _ _ h
  · exact bus_setBus_other _ _ _ _ h

/-- What a port reset changes at one bus. -/
theorem portResetBus_rest (s : State) (p : Port) (b : Bus) :
    s.portResetBus p b = { s with buses := (s.portResetBus p b).buses, admission := (s.portResetBus p b).admission } ∧
      (s.portResetBus p b).admission.current = s.admission.current ∧
      (s.portResetBus p b).admission.pointer = s.admission.pointer ∧
      (s.portResetBus p b).bus b = (s.bus b).portReset p ∧ ∀ c, c ≠ b → (s.portResetBus p b).bus c = s.bus c := by
  unfold State.portResetBus
  dsimp only
  split
  · refine ⟨rfl, rfl, rfl, ?_, fun c h => ?_⟩
    · rw [releaseBlocked_bus, modBus_eq, bus_setBus_same]
    · rw [releaseBlocked_bus, modBus_eq, bus_setBus_other _ _ _ _ h]
  · refine ⟨rfl, rfl, rfl, ?_, fun c h => ?_⟩
    · rw [modBus_eq, bus_setBus_same]
    · rw [modBus_eq, bus_setBus_other _ _ _ _ h]

/-- Every target of a list, changed. -/
theorem modTargets (l : List Target) (f : TargetRecord → TargetRecord) (hn : l.Nodup) : ∀ s : State,
    l.foldl (fun s x => s.modTarget x f) s = { s with targets := (l.foldl (fun s x => s.modTarget x f) s).targets } ∧
      ∀ x, (l.foldl (fun s x => s.modTarget x f) s).target x = if x ∈ l then f (s.target x) else s.target x := by
  induction l with
  | nil => exact fun s => ⟨rfl, fun x => by simp⟩
  | cons t r ih =>
    intro s
    rw [List.foldl_cons]
    obtain ⟨h1, h2⟩ := ih (List.nodup_cons.1 hn).2 (s.modTarget t f)
    refine ⟨h1, fun x => ?_⟩
    rw [h2, modTarget_eq]
    by_cases hx : x = t
    · subst hx; rw [target_setTarget_same, if_neg (List.nodup_cons.1 hn).1]; simp
    · rw [target_setTarget_other _ _ _ _ hx]; simp [hx]

theorem targetsOf_nodup (b : Bus) : (targetsOf b).Nodup := by revert b; decide

theorem mem_targetsOf (b : Bus) (x : Target) : x ∈ targetsOf b ↔ busOf x = b := by revert b x; decide

/-! ### Claims taken one by one -/

theorem finish_claims (s : State) (b c : Bus) (it : Item) (r : Completion) :
    ((s.finish b it r).bus c).cancels = (s.bus c).cancels ∧
      ((s.finish b it r).bus c).revocations = (s.bus c).revocations := by
  by_cases h : c = b
  · subst h; rw [finish_bus_same]; exact ⟨rfl, rfl⟩
  · rw [finish_bus_other _ _ _ _ _ h]; exact ⟨rfl, rfl⟩

theorem finishAll_claims (s : State) (b c : Bus) (its : List Item) (f : Item → Completion) :
    ((s.finishAll b its f).bus c).cancels = (s.bus c).cancels ∧
      ((s.finishAll b its f).bus c).revocations = (s.bus c).revocations := by
  by_cases h : c = b
  · subst h; rw [finishAll_bus_same]; exact ⟨rfl, rfl⟩
  · rw [finishAll_bus_other _ _ _ _ _ h]; exact ⟨rfl, rfl⟩

theorem revoke_revocations (s : State) (b : Bus) (rv : Revocation) :
    ((s.revoke b rv).bus b).revocations = (s.bus b).revocations := by
  unfold State.revoke
  simp only
  rw [modBus_eq, bus_setBus_same]
  exact (finishAll_claims _ _ _ _ _).2

theorem cancelItem_cancels (s : State) (b : Bus) (uid : Nat) :
    ((s.cancelItem b uid).bus b).cancels = (s.bus b).cancels := by
  unfold State.cancelItem
  split
  · rfl
  · split
    · rfl
    · split
      · exact (finish_claims _ _ _ _ _).1
      · dsimp only
        split
        · split
          · split
            · rw [modBus_eq, bus_setBus_same, modBus_eq, bus_setBus_same]; rfl
            · rw [modBus_eq, bus_setBus_same]; rfl
          · rw [modBus_eq, bus_setBus_same]; rfl
        · rw [modBus_eq, bus_setBus_same]; rfl

/-- The revocation claims of a bus may be taken one by one, oldest first. -/
theorem takeRevocations_cons (s : State) (b : Bus) (rv : Revocation) (rest : List Revocation)
    (h : (s.bus b).revocations = rv :: rest) :
    s.takeRevocations b = ((s.modBus b (fun e => { e with revocations := rest })).revoke b rv).takeRevocations b := by
  have hu : (((s.modBus b (fun e => { e with revocations := rest })).revoke b rv).bus b).revocations = rest := by
    rw [revoke_revocations, modBus_eq, bus_setBus_same]
  have hc : ((s.modBus b (fun e => { e with revocations := rest })).revoke b rv).modBus b
      (fun e => { e with revocations := [] }) = (s.modBus b (fun e => { e with revocations := [] })).revoke b rv := by
    rw [← revoke_modBus (aside_revocations (fun _ => []))]
    congr 1
    rw [modBus_eq, modBus_eq, modBus_eq, bus_setBus_same, setBus_setBus]
  unfold State.takeRevocations
  simp only
  rw [h, hu, List.foldl_cons, hc]

theorem takeRevocations_nil (s : State) (b : Bus) (h : (s.bus b).revocations = []) : s.takeRevocations b = s := by
  unfold State.takeRevocations
  simp only [h, List.foldl_nil, modBus_eq]
  have : ({ s.bus b with revocations := [] } : BusEngine) = s.bus b := by rw [← h]
  rw [this, setBus_bus]

theorem dropFirstOf_filter (p : Port) (sel : CancelClaim → Bool) (l : List CancelClaim) (c : CancelClaim)
    (h : l.find? (fun x => decide (x.port = p)) = some c) (hs : sel c = true) :
    l.filter (fun x => decide (x.port = p) && sel x) =
        c :: (dropFirstOf p l).filter (fun x => decide (x.port = p) && sel x) ∧
      l.filter (fun x => !(decide (x.port = p) && sel x)) =
        (dropFirstOf p l).filter (fun x => !(decide (x.port = p) && sel x)) := by
  induction l with
  | nil => cases h
  | cons x xs ih =>
    by_cases hx : x.port = p
    · simp only [List.find?_cons, hx, decide_true, Option.some.injEq] at h
      subst h
      simp [dropFirstOf, hx, hs]
    · simp only [List.find?_cons, hx, decide_false] at h
      obtain ⟨h1, h2⟩ := ih h
      simp only [dropFirstOf, hx, if_false, List.filter_cons, decide_false, Bool.false_and, Bool.false_eq_true,
        Bool.not_false, if_true]
      exact ⟨h1, by rw [h2]⟩

/-- The first claim of a port, dropped. -/
theorem dropFirstOf_eq_erase (p : Port) (l : List CancelClaim) (c : CancelClaim)
    (h : l.find? (fun x => decide (x.port = p)) = some c) : dropFirstOf p l = l.erase c := by
  induction l with
  | nil => cases h
  | cons x xs ih =>
    by_cases hx : x.port = p
    · simp only [List.find?_cons, hx, decide_true, Option.some.injEq] at h
      subst h
      simp [dropFirstOf, hx]
    · simp only [List.find?_cons, hx, decide_false] at h
      have hc : c.port = p := by simpa using List.find?_some h
      have hne : x ≠ c := fun e => hx (e ▸ hc)
      rw [dropFirstOf, if_neg hx, ih h, List.erase_cons_tail (by simpa using hne)]

/-- The cancel claims of a port on a bus may be taken one by one, in the order sent. -/
theorem takeCancels_cons (s : State) (p : Port) (b : Bus) (sel : CancelClaim → Bool) (c : CancelClaim)
    (h : (s.bus b).cancels.find? (fun x => decide (x.port = p)) = some c) (hs : sel c = true) :
    s.takeCancels p b sel =
      ((s.modBus b (fun e => { e with cancels := dropFirstOf p e.cancels })).cancelItem b c.item).takeCancels p b sel := by
  obtain ⟨h1, h2⟩ := dropFirstOf_filter p sel _ c h hs
  have hu : (((s.modBus b (fun e => { e with cancels := dropFirstOf p e.cancels })).cancelItem b c.item).bus b).cancels =
      dropFirstOf p (s.bus b).cancels := by
    rw [cancelItem_cancels, modBus_eq, bus_setBus_same]
  have hc : ((s.modBus b (fun e => { e with cancels := dropFirstOf p e.cancels })).cancelItem b c.item).modBus b
      (fun e => { e with cancels := e.cancels.filter (fun x => !(decide (x.port = p) && sel x)) }) =
      (s.modBus b (fun e => { e with cancels := e.cancels.filter (fun x => !(decide (x.port = p) && sel x)) })).cancelItem
        b c.item := by
    rw [← cancelItem_modBus (aside_cancels (fun l => l.filter (fun x => !(decide (x.port = p) && sel x))))]
    congr 1
    rw [modBus_eq, modBus_eq, modBus_eq, bus_setBus_same, setBus_setBus, h2]
  unfold State.takeCancels
  simp only
  rw [h1, hu, List.foldl_cons, hc]

/-- With no such claim nothing is taken. -/
theorem takeCancels_none (s : State) (p : Port) (b : Bus) (sel : CancelClaim → Bool)
    (h : ∀ c ∈ (s.bus b).cancels, c.port = p → sel c = false) : s.takeCancels p b sel = s := by
  have h1 : (s.bus b).cancels.filter (fun x => decide (x.port = p) && sel x) = [] := by
    rw [List.filter_eq_nil_iff]
    intro c hc
    by_cases hp : c.port = p <;> simp [hp, h c hc]
  have h2 : (s.bus b).cancels.filter (fun x => !(decide (x.port = p) && sel x)) = (s.bus b).cancels := by
    rw [List.filter_eq_self]
    intro c hc
    by_cases hp : c.port = p <;> simp [hp, h c hc]
  unfold State.takeCancels
  simp only
  rw [h1, List.foldl_nil, modBus_eq, h2, show ({ s.bus b with cancels := (s.bus b).cancels } : BusEngine) = s.bus b from rfl,
    setBus_bus]

/-! ### References -/

/-- With distinct references, the items that are picked out by a condition leave and no others. -/
theorem filter_out {l : List Item} (hn : (l.map (·.uid)).Nodup) (g : Item → Bool) :
    l.filter (fun x => (l.filter g).all (fun it => x.uid != it.uid)) = l.filter (fun x => !g x) := by
  apply List.filter_congr
  intro x hx
  rw [Bool.eq_iff_iff]
  simp only [List.all_eq_true, List.mem_filter, bne_iff_ne, ne_eq, and_imp, Bool.not_eq_true']
  constructor
  · intro h
    cases hg : g x with
    | false => rfl
    | true => exact absurd rfl (h x hx hg)
  · intro h y hy hg e
    have : x = y := List.inj_on_of_nodup_map hn hx hy e
    subst this
    rw [h] at hg
    cases hg

end Sys2Proof.Machine
end

