-- ==== Sys2Proof/Laws/Accounts.lean ====
section
/-! SUPPORT. The account of a Port Unit (R138, R144, R155, R156): what each of its changes does to it. -/

namespace Sys2Proof.Machine

/-! ### Slots that are returned, loaded, written -/

/-- What a slot is once its request has ended: not COMMITTED, its return state gone, nothing above its valid length. -/
structure Slot.Returned (k : Slot) : Prop where
  state : k.state ≠ .committed
  ret : k.ret = none
  clean : ∀ a, k.valid ≤ a → k.data.read a = 0
  free : k.state = .free → k.valid = 0

theorem returned_freed : Slot.freed.Returned := ⟨by decide, rfl, fun _ _ => rfl, fun _ => rfl⟩

/-- The return of a slot (R146, R147): one that no READ has written into, or that a READ fills. -/
theorem returned_giveBack {k : Slot} {kind : Kind} {e : Ending} {moved : Nat}
    (hc : kind = .program ∨ moved = 0 → ∀ a, k.valid ≤ a → k.data.read a = 0)
    (hf : k.ret = some .free → k.valid = 0) (hr : k.ret ≠ none) : (k.giveBack kind e moved).Returned := by
  have rest : (moved = 0 → ∀ a, k.valid ≤ a → k.data.read a = 0) →
      (if 0 < moved then k.filled moved else k.restore).Returned := by
    intro hc
    split
    · refine ⟨by simp [Slot.filled], rfl, fun a ha => ?_, fun h => by simp [Slot.filled] at h⟩
      simp only [Slot.filled] at ha ⊢
      rw [read_truncate, if_neg (by omega)]
    · next h =>
      obtain ⟨back, hb⟩ := Option.ne_none_iff_exists'.1 hr
      refine ⟨?_, rfl, fun a ha => hc (by omega) a ha, fun h => ?_⟩
      · simp only [Slot.restore, hb]; cases back <;> simp [ReturnState.asState]
      · simp only [Slot.restore, hb] at h ⊢
        cases back <;> simp [ReturnState.asState] at h
        exact hf hb
  cases kind with
  | program =>
    unfold Slot.giveBack
    dsimp only
    split
    · exact returned_freed
    · exact ⟨by simp, rfl, hc (.inl rfl), fun h => by simp at h⟩
  | read => exact rest fun h => hc (.inr h)
  | erase => exact rest fun h => hc (.inr h)
  | status => exact rest fun h => hc (.inr h)

/-- A write leaves every other offset. -/
theorem read_insert_other (m : Memory) (x : Nat) (w : Byte) (a : Nat) (h : a ≠ x) : (m.insert x w).read a = m.read a := by
  induction m with
  | nil =>
    unfold Memory.insert
    split
    · rfl
    · simp [read_cons, Ne.symm h]
  | cons c rest ih =>
    obtain ⟨y, v⟩ := c
    unfold Memory.insert
    split
    · split
      · rfl
      · rw [read_cons, if_neg (Ne.symm h)]
    · split
      · next hxy =>
        subst hxy
        split
        · rw [read_cons, if_neg (Ne.symm h)]
        · rw [read_cons, read_cons, if_neg (Ne.symm h), if_neg (Ne.symm h)]
      · rw [read_cons, read_cons, ih]

theorem read_write_other (m : Memory) (x : Nat) (w : Byte) (a : Nat) (h : a ≠ x) : (m.write x w).read a = m.read a := by
  unfold Memory.write
  split
  · exact read_insert_other m x w a h
  · rfl

theorem read_writeAll_above (ws : List Byte) : ∀ (m : Memory) (x a : Nat), x + ws.length ≤ a →
    (m.writeAll x ws).read a = m.read a := by
  induction ws with
  | nil => intro m x a _; rfl
  | cons w ws ih =>
    intro m x a h
    simp only [List.length_cons] at h
    rw [Memory.writeAll, ih _ _ _ (by omega), read_write_other _ _ _ _ (by omega)]

theorem returned_load {k : Slot} {offset : Nat} {data : List Byte} (hc : ∀ a, k.valid ≤ a → k.data.read a = 0) :
    (k.load offset data).Returned := by
  refine ⟨by simp [Slot.load], rfl, fun a ha => ?_, fun h => by simp [Slot.load] at h⟩
  simp only [Slot.load] at ha ⊢
  rw [read_writeAll_above _ _ _ _ (by omega)]
  exact hc a (by omega)

/-! ### A Port Unit's account -/

section

variable {own own' : List Item} {u v : PortUnit}

/-- The account does not depend on the order of the items. -/
theorem PortAccount.perm (h : PortAccount own u) (e : own.Perm own') : PortAccount own' u where
  credits := by rw [← e.length_eq]; exact h.credits
  tags tag := by rw [← e.countP_eq]; exact h.tags tag
  slots k := by rw [← e.countP_eq]; exact h.slots k
  clean k hk := h.clean k fun it hit => hk it (e.mem_iff.1 hit)
  free := h.free
  captured := h.captured

/-- What touches neither ring, tags, queue, credits, slots nor a captured record touches no account. -/
theorem PortAccount.same (h : PortAccount own u) (hr : v.ring = u.ring) (ht : v.tags = u.tags) (hq : v.queue = u.queue)
    (hc : v.credits = u.credits) (hs : v.slots = u.slots)
    (hl : ∀ r, v.link.captured = some (.collect (some r)) → u.link.captured = some (.collect (some r))) :
    PortAccount own v where
  credits := by rw [hc, hr, hq]; exact h.credits
  tags tag := by rw [ht, hr, hq]; exact h.tags tag
  slots k := by rw [hr, hs]; exact h.slots k
  clean k hk := by rw [hs]; exact h.clean k hk
  free k := by rw [hs]; exact h.free k
  captured r hr' := by rw [hq]; exact h.captured r (hl r hr')

/-- A change of some items that keeps what the account is about, and lowers no count of bytes moved. -/
theorem PortAccount.map {a c : List Item} (h : PortAccount (a ++ c) u) (f : Item → Item)
    (hf : ∀ it ∈ a, (f it).tag = it.tag ∧ (f it).slot = it.slot ∧ (f it).orphan = it.orphan ∧ (f it).kind = it.kind ∧
      it.bytesMoved ≤ (f it).bytesMoved) : PortAccount (a.map f ++ c) u where
  credits := by simpa only [List.length_append, List.length_map] using h.credits
  tags tag := by
    have := h.tags tag
    rw [List.countP_append] at this ⊢
    rw [List.countP_map, List.countP_congr (q := fun it : Item => it.tag == tag && !it.orphan)]
    · exact this
    · intro it hit; simp [(hf it hit).1, (hf it hit).2.2.1]
  slots k := by
    have := h.slots k
    rw [List.countP_append] at this ⊢
    rw [List.countP_map, List.countP_congr (q := fun it : Item => it.slot == some k)]
    · exact this
    · intro it hit; simp [(hf it hit).2.1]
  clean k hk := h.clean k fun it hit hs hr => by
    rcases List.mem_append.1 hit with hit | hit
    · have e := hf it hit
      have := hk (f it) (List.mem_append_left _ (List.mem_map_of_mem hit)) (e.2.1.trans hs) (e.2.2.2.1.trans hr)
      omega
    · exact hk it (List.mem_append_right _ hit) hs hr
  free := h.free
  captured := h.captured

theorem mark_collect (c : Captured) (x : Cause) (r : Option Completion) (h : c.mark x = .collect r) : c = .collect r := by
  cases c with
  | cause reported again => cases reported <;> simp [Captured.mark] at h
  | _ => simp [Captured.mark] at h <;> exact congrArg _ h

theorem raise_captured (u : PortUnit) (x : Cause) (r : Completion)
    (h : (u.raise x).link.captured = some (.collect (some r))) : u.link.captured = some (.collect (some r)) := by
  simp only [PortUnit.raise, Option.map_eq_some_iff] at h
  obtain ⟨c, hc, hm⟩ := h
  rw [hc, mark_collect _ _ _ hm]

theorem PortAccount.raise (h : PortAccount own u) (x : Cause) : PortAccount own (u.raise x) :=
  h.same rfl rfl rfl rfl rfl (raise_captured u x)

theorem PortAccount.judgeSpace (h : PortAccount own u) : PortAccount own u.judgeSpace := by
  unfold PortUnit.judgeSpace
  split
  · exact (h.raise .space).same rfl rfl rfl rfl rfl fun _ h => h
  · exact h

/-- A slot in use has one user. -/
theorem PortAccount.noOther (h : PortAccount (it :: own) u) {k : SlotIx} (hk : it.slot = some k) :
    (∀ x ∈ own, x.slot ≠ some k) ∧ (∀ x ∈ u.ring, x.slot ≠ some k) ∧ (pick u.slots k).state = .committed := by
  have := (h.slots k).2
  rw [List.countP_cons_of_pos (by simp [hk])] at this
  have hs : (pick u.slots k).state = .committed := by
    by_contra hn; rw [if_neg hn] at this; omega
  rw [if_pos hs] at this
  refine ⟨fun x hx e => ?_, fun x hx e => ?_, hs⟩
  · have : 0 < own.countP (fun it => it.slot == some k) := List.countP_pos_iff.2 ⟨x, hx, by simp [e]⟩
    omega
  · have : 0 < u.ring.countP (fun it => it.slot == some k) := List.countP_pos_iff.2 ⟨x, hx, by simp [e]⟩
    omega

/-- The slots of a port after one of them has been returned, whose user was `it`. -/
theorem pick_returned (u : PortUnit) (slot : Option SlotIx) (f : Slot → Slot) (k : SlotIx) :
    pick (u.modSlot? slot f).slots k = if slot = some k then f (pick u.slots k) else pick u.slots k := by
  cases slot with
  | none => rfl
  | some j =>
    simp only [PortUnit.modSlot?, PortUnit.modSlot, pick_put, Option.some.injEq, eq_comm (a := k)]
    split
    · next h => rw [h]
    · rfl

/-- An item leaves, and its slot is returned: the accounts of the slots. -/
theorem PortAccount.returns {it : Item} {f : Slot → Slot} (h : PortAccount (it :: own) u)
    (hf : ∀ k, it.slot = some k → (f (pick u.slots k)).Returned) (hr : v.ring = u.ring)
    (hs : v.slots = (u.modSlot? it.slot f).slots) :
    (∀ k, ((pick v.slots k).ret ≠ none ↔ (pick v.slots k).state = .committed) ∧
      v.ring.countP (fun r => r.slot == some k) + own.countP (fun it => it.slot == some k) =
        if (pick v.slots k).state = .committed then 1 else 0) ∧
    (∀ k, (∀ it ∈ own, it.slot = some k → it.kind = .read → it.bytesMoved = 0) →
      ∀ a, (pick v.slots k).valid ≤ a → (pick v.slots k).data.read a = 0) ∧
    ∀ k, (pick v.slots k).state = .free ∨ (pick v.slots k).ret = some .free → (pick v.slots k).valid = 0 := by
  have hp : ∀ k, pick v.slots k = if it.slot = some k then f (pick u.slots k) else pick u.slots k := fun k => by
    rw [hs]; exact pick_returned u it.slot f k
  refine ⟨fun k => ?_, fun k hk a ha => ?_, fun k hk => ?_⟩
  all_goals
    by_cases e : it.slot = some k
  · have b := hf k e
    have hn := h.noOther e
    have := (h.slots k).2
    rw [if_pos hn.2.2, List.countP_cons_of_pos (by simp [e])] at this
    rw [hp, hr, if_pos e, if_neg b.state]
    exact ⟨⟨fun x => absurd b.ret x, fun x => absurd x b.state⟩, by omega⟩
  · have := h.slots k
    rw [hp, hr, if_neg e]
    rwa [List.countP_cons_of_neg (by simpa using e)] at this
  · rw [hp, if_pos e] at ha ⊢
    exact (hf k e).clean a ha
  · rw [hp, if_neg e] at ha ⊢
    refine h.clean k (fun x hx hxs hxr => ?_) a ha
    rcases List.mem_cons.1 hx with rfl | hx
    · exact absurd hxs e
    · exact hk x hx hxs hxr
  · rw [hp, if_pos e] at hk ⊢
    rcases hk with x | x
    · exact (hf k e).free x
    · rw [(hf k e).ret] at x; cases x
  · rw [hp, if_neg e] at hk ⊢
    exact h.free k hk

@[simp] theorem modSlot?_tags (u : PortUnit) (k : Option SlotIx) (f : Slot → Slot) : (u.modSlot? k f).tags = u.tags := by
  cases k <;> rfl

/-- An item leaves, and its record is posted (R145, R158). -/
theorem PortAccount.post {it : Item} {c : Completion} (h : PortAccount (it :: own) u) (ho : it.orphan = false)
    (ht : c.tag = it.tag) (hk : c.kind = it.kind) (hm : it.kind = .read → 0 < it.bytesMoved → 0 < c.bytesMoved) :
    PortAccount own (u.post it.slot c) := by
  have back : ∀ k, it.slot = some k → ((pick u.slots k).giveBack c.kind c.outcome c.bytesMoved).Returned := by
    intro k hs
    have hn := h.noOther hs
    refine returned_giveBack (fun hc a ha => h.clean k (fun x hx hxs hxr => ?_) a ha)
      (fun hb => h.free k (.inr hb)) ((h.slots k).1.2 hn.2.2)
    rcases List.mem_cons.1 hx with rfl | hx
    · rcases hc with hc | hc
      · rw [← hk, hc] at hxr; cases hxr
      · by_contra hp
        have := hm hxr (by omega)
        omega
    · exact absurd hxs (hn.1 x hx)
  obtain ⟨h1, h2, h3⟩ := h.returns back (v := u.post it.slot c) (by simp [PortUnit.post, PortUnit.judge]) rfl
  refine ⟨?_, fun tag => ?_, h1, h2, h3, fun r hc => ?_⟩
  · have := h.credits
    simp only [PortUnit.post, PortUnit.judge, modSlot?_credits, modSlot?_ring, modSlot?_queue, List.length_cons,
      List.length_append, List.length_nil] at this ⊢
    omega
  · have := h.tags tag
    simp only [PortUnit.post, PortUnit.judge, modSlot?_tags, modSlot?_ring, modSlot?_queue, List.countP_append,
      List.countP_cons, List.countP_nil, ho, ht, Bool.not_false, Bool.and_true] at this ⊢
    omega
  · simp only [PortUnit.post, PortUnit.judge, modSlot?_link, modSlot?_queue] at hc ⊢
    rw [List.head?_append, h.captured r hc]; rfl

/-- An orphan leaves (R148, R166). -/
theorem PortAccount.drop {it : Item} (h : PortAccount (it :: own) u) (ho : it.orphan = true) :
    PortAccount own (u.dropOrphan it.slot) := by
  apply PortAccount.judgeSpace
  obtain ⟨h1, h2, h3⟩ := h.returns (f := fun _ => .freed) (fun _ _ => returned_freed)
    (v := u.modSlot? it.slot (fun _ => .freed)) (by simp) rfl
  refine ⟨?_, fun tag => ?_, h1, h2, h3, fun r hc => ?_⟩
  · have := h.credits
    simp only [modSlot?_credits, modSlot?_ring, modSlot?_queue, List.length_cons] at this ⊢
    omega
  · have := h.tags tag
    simp only [modSlot?_tags, modSlot?_ring, modSlot?_queue] at this ⊢
    rwa [List.countP_cons_of_neg (by simp [ho])] at this
  · simp only [modSlot?_link, modSlot?_queue] at hc ⊢
    exact h.captured r hc

/-- A ring entry becomes an item that takes over its tag and slot (R56, R144). -/
theorem PortAccount.headInserted {it : Item} {r : Request} {rest : List Request} (h : PortAccount own u)
    (hr : u.ring.Perm (r :: rest)) (ht : it.tag = r.tag) (hs : it.slot = r.slot) (ho : it.orphan = false)
    : PortAccount (it :: own) { u with ring := rest } where
  credits := by
    have := h.credits
    have hl := hr.length_eq
    simp only [List.length_cons] at hl ⊢
    omega
  tags tag := by
    have := h.tags tag
    have hl := hr.countP_eq (p := fun r => r.tag == tag)
    simp only [List.countP_cons, ht, ho, Bool.not_false, Bool.and_true] at hl ⊢
    omega
  slots k := by
    have := h.slots k
    have hl := hr.countP_eq (p := fun r => r.slot == some k)
    simp only [List.countP_cons, hs] at hl ⊢
    refine ⟨this.1, ?_⟩
    omega
  clean k hk := h.clean k fun x hx => hk x (List.mem_cons_of_mem _ hx)
  free := h.free
  captured := h.captured

/-- The acceptance of a SUBMIT (R154, R143). -/
theorem PortAccount.accept {r : Request} (h : PortAccount own u) (hc : u.credits < 16) (ht : r.tag ∉ u.tags)
    (hs : ∀ k, r.slot = some k → (pick u.slots k).state ≠ .committed) : PortAccount own (u.accept r) := by
  have hp : ∀ k, pick (u.accept r).slots k = if r.slot = some k then (pick u.slots k).commit else pick u.slots k :=
    fun k => pick_returned u r.slot _ k
  have none : ∀ k, r.slot = some k → u.ring.countP (fun r => r.slot == some k) = 0 ∧
      own.countP (fun it => it.slot == some k) = 0 := by
    intro k e
    have := (h.slots k).2
    rw [if_neg (hs k e)] at this
    omega
  have hret : ∀ k, r.slot = some k → (pick u.slots k).ret = Option.none := by
    intro k e
    by_contra hn
    exact hs k e ((h.slots k).1.1 hn)
  refine ⟨?_, fun tag => ?_, fun k => ?_, fun k hk a ha => ?_, fun k hk => ?_, fun c hc' => ?_⟩
  · have := h.credits
    simp only [PortUnit.accept, modSlot?_credits, modSlot?_ring, modSlot?_queue, List.length_append, List.length_cons,
      List.length_nil] at this ⊢
    omega
  · have := h.tags tag
    simp only [PortUnit.accept, modSlot?_tags, modSlot?_ring, modSlot?_queue, List.countP_append, List.count_append,
      List.countP_cons, List.countP_nil, List.count_cons, List.count_nil]
    by_cases e : r.tag = tag
    · subst e
      rw [List.count_eq_zero_of_not_mem ht] at this ⊢
      simp only [beq_self_eq_true, if_true]
      omega
    · simp only [beq_iff_eq, e, if_false]
      omega
  · rw [hp]
    simp only [PortUnit.accept, modSlot?_ring, List.countP_append, List.countP_cons, List.countP_nil]
    by_cases e : r.slot = some k
    · have := none k e
      simp only [e, if_true, Slot.commit, beq_self_eq_true]
      exact ⟨by simp, by omega⟩
    · simp only [e, if_false, beq_iff_eq]
      exact ⟨(h.slots k).1, by have := (h.slots k).2; omega⟩
  · rw [hp] at ha ⊢
    by_cases e : r.slot = some k
    · rw [if_pos e] at ha ⊢
      exact h.clean k hk a ha
    · rw [if_neg e] at ha ⊢
      exact h.clean k hk a ha
  · rw [hp] at hk ⊢
    by_cases e : r.slot = some k
    · rw [if_pos e] at hk ⊢
      simp only [Slot.commit, reduceCtorEq, Option.some.injEq, false_or] at hk ⊢
      refine h.free k (.inl ?_)
      have := hs k e
      cases hst : (pick u.slots k).state
      · rfl
      · rw [hst] at hk; cases hk
      · exact absurd hst this
    · rw [if_neg e] at hk ⊢
      exact h.free k hk
  · simp only [PortUnit.accept, modSlot?_link, modSlot?_queue] at hc' ⊢
    exact h.captured c hc'

/-- A slot that no request uses is loaded or freed (R140, R142). -/
theorem PortAccount.settle {k : SlotIx} {f : Slot → Slot} (h : PortAccount own u) (hn : (pick u.slots k).state ≠ .committed)
    (hf : (∀ a, (pick u.slots k).valid ≤ a → (pick u.slots k).data.read a = 0) → (f (pick u.slots k)).Returned) :
    PortAccount own (u.modSlot k f) := by
  have hp : ∀ j, pick (u.modSlot k f).slots j = if j = k then f (pick u.slots k) else pick u.slots j :=
    fun j => pick_put _ _ _ _
  have none : u.ring.countP (fun r => r.slot == some k) + own.countP (fun it => it.slot == some k) = 0 := by
    have := (h.slots k).2
    rwa [if_neg hn] at this
  have b := hf fun a ha => h.clean k (fun it hit hs _ => by
    have : 0 < own.countP (fun it => it.slot == some k) := List.countP_pos_iff.2 ⟨it, hit, by simp [hs]⟩
    omega) a ha
  refine ⟨h.credits, h.tags, fun j => ?_, fun j hj a ha => ?_, fun j hj => ?_, h.captured⟩
  all_goals
    by_cases e : j = k
  · rw [hp, if_pos e, if_neg b.state, e]
    exact ⟨⟨fun x => absurd b.ret x, fun x => absurd x b.state⟩, none⟩
  · rw [hp, if_neg e]; exact h.slots j
  · rw [hp, if_pos e] at ha ⊢; exact b.clean a ha
  · rw [hp, if_neg e] at ha ⊢; exact h.clean j hj a ha
  · rw [hp, if_pos e] at hj ⊢
    rcases hj with x | x
    · exact b.free x
    · rw [b.ret] at x; cases x
  · rw [hp, if_neg e] at hj ⊢; exact h.free j hj

/-- The front record is collected (R159). -/
theorem PortAccount.collect {c : Completion} {l : Link} (h : PortAccount own u) (hc : u.queue.head? = some c)
    (hl : ∀ r, l.captured ≠ some (.collect (some r))) : PortAccount own { u.collectFront c with link := l } := by
  have core : PortAccount own { u with
      queue := u.queue.tail, tags := u.tags.filter (fun t => t != c.tag), credits := u.credits - 1, link := l } := by
    obtain ⟨rest, hq⟩ : ∃ rest, u.queue = c :: rest := by
      cases hq : u.queue with
      | nil => rw [hq] at hc; cases hc
      | cons x rest => rw [hq] at hc; cases hc; exact ⟨rest, rfl⟩
    refine ⟨?_, fun tag => ?_, h.slots, h.clean, h.free, fun r hr => absurd hr (hl r)⟩
    · have := h.credits
      simp only [hq, List.length_cons, List.tail_cons] at this ⊢
      omega
    · have := h.tags tag
      have hcnt : (u.tags.filter (fun t => t != c.tag)).count tag = if tag = c.tag then 0 else u.tags.count tag := by
        split
        · next e => exact List.count_eq_zero_of_not_mem (by simp [e])
        · next e => exact List.count_filter (by simpa using e)
      simp only [hq, List.countP_cons, List.tail_cons] at this ⊢
      rw [hcnt]
      by_cases e : tag = c.tag
      · simp only [e, if_true, beq_self_eq_true] at this ⊢
        omega
      · rw [if_neg e]
        simp only [beq_iff_eq, Ne.symm e, if_false] at this
        omega
  have hj : ∀ v : PortUnit, (PortUnit.judge v).judgeSpace.ring = v.ring ∧ (PortUnit.judge v).judgeSpace.tags = v.tags ∧
      (PortUnit.judge v).judgeSpace.slots = v.slots := by
    intro v; unfold PortUnit.judgeSpace; split <;> exact ⟨rfl, rfl, rfl⟩
  refine core.same (hj _).1 (hj _).2.1 ?_ ?_ (hj _).2.2 (fun _ x => x)
  · simp only [PortUnit.collectFront, judgeSpace_queue]; rfl
  · simp only [PortUnit.collectFront, judgeSpace_credits]; rfl

/-- A data byte of a READ is stored in the slot of its item (R86). -/
theorem PortAccount.store {it : Item} {x : Nat} {w : Byte} (h : PortAccount own u) (hit : it ∈ own) (hk : it.kind = .read)
    (hm : 0 < it.bytesMoved) : PortAccount own (u.modSlot? it.slot (fun k => { k with data := k.data.write x w })) := by
  have hp : ∀ k, pick (u.modSlot? it.slot (fun k => { k with data := k.data.write x w })).slots k =
      if it.slot = some k then { pick u.slots k with data := (pick u.slots k).data.write x w } else pick u.slots k :=
    fun k => pick_returned u it.slot _ k
  refine ⟨by simpa using h.credits, fun tag => by simpa using h.tags tag, fun k => ?_, fun k hk' a ha => ?_, fun k hk' => ?_,
    fun r hr => by simpa using h.captured r (by simpa using hr)⟩
  · rw [hp, modSlot?_ring]
    split <;> exact h.slots k
  · by_cases e : it.slot = some k
    · have := hk' it hit e hk
      omega
    · rw [hp, if_neg e] at ha ⊢
      exact h.clean k hk' a ha
  · rw [hp] at hk' ⊢
    by_cases e : it.slot = some k
    · rw [if_pos e] at hk' ⊢; exact h.free k hk'
    · rw [if_neg e] at hk' ⊢; exact h.free k hk'

/-- After device reset. -/
theorem portAccount_reset : PortAccount [] PortUnit.reset where
  credits := by decide
  tags tag := by simp [PortUnit.reset]
  slots k := by simp [PortUnit.reset, Slot.freed]
  clean k _ a _ := by simp [PortUnit.reset, Slot.freed]
  free k _ := by simp [PortUnit.reset, Slot.freed]
  captured r h := by simp [PortUnit.reset, Link.closed] at h

/-- A port is cut loose: its remaining items are orphans (R149, R165). -/
theorem PortAccount.cutLoose {orphans : List Item} {l : Link} (h : PortAccount own u)
    (hs : ∀ k, orphans.countP (fun it => it.slot == some k) ≤ own.countP (fun it => it.slot == some k))
    (hlen : orphans.length ≤ own.length) (ho : ∀ it ∈ orphans, it.orphan = true)
    (hc : ∀ k, (∀ it ∈ orphans, it.slot = some k → it.kind = .read → it.bytesMoved = 0) →
      (∃ it ∈ orphans, it.slot = some k) → ∀ it ∈ own, it.slot = some k → it.kind = .read → it.bytesMoved = 0)
    (hl : ∀ r, l.captured ≠ some (.collect (some r))) : PortAccount orphans { u.portReset orphans with link := l } := by
  have hp : ∀ k, pick (u.slotsKept orphans) k =
      if orphans.any (fun it => it.slot == some k) then pick u.slots k else .freed := by
    intro k; unfold PortUnit.slotsKept; fin_cases k <;> rfl
  have used : ∀ k, orphans.any (fun it => it.slot == some k) = true ↔ ∃ it ∈ orphans, it.slot = some k := by
    intro k; simp
  refine ⟨?_, fun tag => ?_, fun k => ?_, fun k hk a ha => ?_, fun k hk => ?_, fun r hr => absurd hr (hl r)⟩
  · have := h.credits
    simp only [PortUnit.portReset, List.length_nil]
    omega
  · simp only [PortUnit.portReset, List.count_nil, List.countP_nil]
    have : orphans.countP (fun it => it.tag == tag && !it.orphan) = 0 := by
      rw [List.countP_eq_zero]; intro it hit; simp [ho it hit]
    omega
  · simp only [PortUnit.portReset, hp, List.countP_nil]
    by_cases e : ∃ it ∈ orphans, it.slot = some k
    · rw [if_pos ((used k).2 e)]
      have hpos : 0 < orphans.countP (fun it => it.slot == some k) := by
        obtain ⟨it, hit, hik⟩ := e
        exact List.countP_pos_iff.2 ⟨it, hit, by simp [hik]⟩
      have h1 := h.slots k
      have h2 := hs k
      refine ⟨h1.1, ?_⟩
      have h3 := h1.2
      split at h3
      · next e3 => rw [if_pos e3, Nat.zero_add]; omega
      · omega
    · rw [if_neg (fun x => e ((used k).1 x))]
      refine ⟨by simp [Slot.freed], ?_⟩
      have : orphans.countP (fun it => it.slot == some k) = 0 := by
        rw [List.countP_eq_zero]; intro it hit hx; exact e ⟨it, hit, by simpa using hx⟩
      simp [this, Slot.freed]
  · simp only [PortUnit.portReset, hp] at ha ⊢
    by_cases e : ∃ it ∈ orphans, it.slot = some k
    · rw [if_pos ((used k).2 e)] at ha ⊢
      exact h.clean k (hc k hk e) a ha
    · rw [if_neg (fun x => e ((used k).1 x))]; rfl
  · simp only [PortUnit.portReset, hp] at hk ⊢
    by_cases e : ∃ it ∈ orphans, it.slot = some k
    · rw [if_pos ((used k).2 e)] at hk ⊢
      exact h.free k hk
    · rw [if_neg (fun x => e ((used k).1 x))]; rfl

end

/-! ### The accounts of all ports -/

/-- The account of every port is in order. -/
abbrev PortsInOrder (s : State) : Prop := ∀ p, PortAccount (s.itemsOf p) (s.port p)

theorem bus_cases (b : Bus) : b = 0 ∨ b = 1 := by revert b; decide

theorem bus_next (b : Bus) : b + 1 ≠ b := by revert b; decide

theorem itemsOf_congr {s t : State} (h : ∀ b, (t.bus b).list = (s.bus b).list) (p : Port) : t.itemsOf p = s.itemsOf p := by
  unfold State.itemsOf; rw [h 0, h 1]

/-- The items of a port, those of bus `b` first. -/
theorem itemsOf_perm (s : State) (b : Bus) (p : Port) : (s.itemsOf p).Perm
    ((s.bus b).list.filter (fun it => decide (it.port = p)) ++ (s.bus (b + 1)).list.filter (fun it => decide (it.port = p))) := by
  unfold State.itemsOf
  rw [List.filter_append]
  rcases bus_cases b with rfl | rfl
  · exact .refl _
  · exact List.perm_append_comm

theorem mem_itemsOf {s : State} {p : Port} {it : Item} : it ∈ s.itemsOf p ↔ (∃ b, it ∈ (s.bus b).list) ∧ it.port = p := by
  unfold State.itemsOf
  simp only [List.mem_filter, List.mem_append, decide_eq_true_eq]
  refine and_congr_left fun _ => ⟨?_, ?_⟩
  · rintro (h | h) <;> exact ⟨_, h⟩
  · rintro ⟨b, h⟩
    rcases bus_cases b with rfl | rfl
    · exact .inl h
    · exact .inr h

/-- What touches no list, no ring, no tag table, no queue, no credits, no slots and captures no record. -/
theorem PortsInOrder.same {s t : State} (h : PortsInOrder s) (hb : ∀ b, (t.bus b).list = (s.bus b).list)
    (hp : ∀ p, (t.port p).ring = (s.port p).ring ∧ (t.port p).tags = (s.port p).tags ∧ (t.port p).queue = (s.port p).queue ∧
      (t.port p).credits = (s.port p).credits ∧ (t.port p).slots = (s.port p).slots ∧
      ∀ r, (t.port p).link.captured = some (.collect (some r)) → (s.port p).link.captured = some (.collect (some r))) :
    PortsInOrder t := by
  intro p
  rw [itemsOf_congr hb]
  obtain ⟨h1, h2, h3, h4, h5, h6⟩ := hp p
  exact (h p).same h1 h2 h3 h4 h5 h6

theorem PortsInOrder.still {s t : State} (h : PortsInOrder s) (hb : ∀ b, (t.bus b).list = (s.bus b).list)
    (hp : t.ports = s.ports) : PortsInOrder t := by
  have hp : ∀ p, t.port p = s.port p := fun p => by simp [State.port, hp]
  exact h.same hb fun p => by rw [hp p]; exact ⟨rfl, rfl, rfl, rfl, rfl, fun _ h => h⟩

/-- One Port Unit changes. -/
theorem PortsInOrder.modPort {s : State} {p : Port} {f : PortUnit → PortUnit} (h : PortsInOrder s)
    (hf : PortAccount (s.itemsOf p) (s.port p) → PortAccount (s.itemsOf p) (f (s.port p))) : PortsInOrder (s.modPort p f) := by
  intro q
  have e : (s.modPort p f).itemsOf q = s.itemsOf q := itemsOf_congr (fun _ => rfl) q
  rw [e]
  by_cases hq : q = p
  · subst hq; rw [modPort_eq, port_setPort_same]; exact hf (h q)
  · rw [modPort_eq, port_setPort_other _ _ _ _ hq]; exact h q

/-- One Bus Engine's list changes. -/
theorem PortsInOrder.list {s t : State} {b : Bus} (h : PortsInOrder s) (hb : ∀ c, c ≠ b → (t.bus c).list = (s.bus c).list)
    (hp : ∀ p c, PortAccount ((s.bus b).list.filter (fun it => decide (it.port = p)) ++ c) (s.port p) →
      PortAccount ((t.bus b).list.filter (fun it => decide (it.port = p)) ++ c) (t.port p)) : PortsInOrder t := by
  intro p
  refine PortAccount.perm ?_ (itemsOf_perm t b p).symm
  rw [hb _ (bus_next b)]
  exact hp p _ ((h p).perm (itemsOf_perm s b p))

/-- The items of a list change, and none of what the accounts are about. -/
theorem PortsInOrder.items {s t : State} {b : Bus} {f : Item → Item} (h : PortsInOrder s)
    (hl : (t.bus b).list = (s.bus b).list.map f) (hb : ∀ c, c ≠ b → (t.bus c).list = (s.bus c).list)
    (hp : t.ports = s.ports)
    (hf : ∀ it ∈ (s.bus b).list, (f it).port = it.port ∧ (f it).tag = it.tag ∧ (f it).slot = it.slot ∧
      (f it).orphan = it.orphan ∧ (f it).kind = it.kind ∧ it.bytesMoved ≤ (f it).bytesMoved) : PortsInOrder t := by
  refine h.list hb fun p c hc => ?_
  have hp : t.port p = s.port p := by simp [State.port, hp]
  rw [hp, hl, List.filter_map, List.filter_congr (q := fun it : Item => decide (it.port = p))]
  · exact hc.map f fun it hit => (hf it (List.mem_filter.1 hit).1).2
  · intro it hit; simp [(hf it hit).1]

/-- In a list with distinct references one item stands apart from the others. -/
theorem perm_others {l : List Item} {it : Item} (hn : (l.map (·.uid)).Nodup) (hit : it ∈ l) :
    l.Perm (it :: l.filter (fun x => x.uid != it.uid)) := by
  have e : l.filter (fun x => x.uid != it.uid) = l.erase it := by
    rw [hn.of_map.erase_eq_filter]
    refine List.filter_congr fun x hx => ?_
    rw [Bool.eq_iff_iff]
    simp only [bne_iff_ne, ne_eq]
    exact not_congr ⟨fun e => List.inj_on_of_nodup_map hn hx hit e, fun e => e ▸ rfl⟩
  rw [e]; exact List.perm_cons_erase hit

/-- A record is one of this item, and counts the bytes that a READ has written (R146, R147). -/
structure Item.Reports (it : Item) (r : Completion) : Prop where
  tag : r.tag = it.tag
  kind : r.kind = it.kind
  moved : it.kind = .read → 0 < it.bytesMoved → 0 < r.bytesMoved

/-- An item leaves its list. -/
theorem PortsInOrder.finish {s : State} {b : Bus} {it : Item} {r : Completion} (h : PortsInOrder s)
    (hn : ((s.bus b).list.map (·.uid)).Nodup) (hit : it ∈ (s.bus b).list) (hr : it.Reports r) :
    PortsInOrder (s.finish b it r) := by
  refine h.list (b := b) (fun c hc => by rw [finish_bus_other _ _ _ _ _ hc]) fun p c hc => ?_
  rw [finish_bus_same]
  dsimp only
  have hperm := (perm_others hn hit).filter (fun it => decide (it.port = p))
  by_cases hp : it.port = p
  · subst hp
    rw [List.filter_cons_of_pos (by simp)] at hperm
    have hc' := hc.perm (hperm.append_right c)
    rw [finish_port_same, PortUnit.settled]
    cases ho : it.orphan
    · exact hc'.post ho hr.tag hr.kind hr.moved
    · exact hc'.drop ho
  · rw [List.filter_cons_of_neg (by simpa using hp)] at hperm
    rw [finish_port_other _ _ _ _ _ (Ne.symm hp)]
    exact hc.perm (hperm.append_right c)

theorem PortsInOrder.finishAll {b : Bus} {rec : Item → Completion} : ∀ {its : List Item} {s : State}, PortsInOrder s →
    ((s.bus b).list.map (·.uid)).Nodup → (∀ it ∈ its, it ∈ (s.bus b).list) → (its.map (·.uid)).Nodup →
    (∀ it ∈ its, it.Reports (rec it)) → PortsInOrder (s.finishAll b its rec) := by
  intro its
  induction its with
  | nil => intro s h _ _ _ _; exact h
  | cons it rest ih =>
    intro s h hn hm hi hr
    rw [List.map_cons, List.nodup_cons] at hi
    rw [finishAll_cons]
    refine ih (h.finish hn (hm it (List.mem_cons_self ..)) (hr it (List.mem_cons_self ..))) ?_ ?_ hi.2
      fun x hx => hr x (List.mem_cons_of_mem _ hx)
    · rw [finish_bus_same]
      exact hn.sublist (List.Sublist.map _ (List.filter_sublist ..))
    · intro x hx
      rw [finish_bus_same]
      refine List.mem_filter.2 ⟨hm x (List.mem_cons_of_mem _ hx), ?_⟩
      simp only [bne_iff_ne, ne_eq]
      intro e
      exact hi.1 (e ▸ List.mem_map_of_mem hx)

end Sys2Proof.Machine
end

