-- ==== Sys2Proof/Laws/Policy.lean ====
section
/-! SUPPORT. What raising a cause at a set of ports and taking a successful APPLY change. -/

namespace Sys2Proof.Machine

/-- A raise at one port of a set. -/
def raiseStep (ports : BitVec 4) (c : Cause) (s : State) (p : Port) : State :=
  if ports.getLsbD p.val then s.modPort p (·.raise c) else s

theorem raiseStep_rest (ports : BitVec 4) (c : Cause) (s : State) (p : Port) :
    raiseStep ports c s p = { s with ports := (raiseStep ports c s p).ports } := by
  unfold raiseStep; split <;> rfl

theorem raiseStep_same (ports : BitVec 4) (c : Cause) (s : State) (p : Port) :
    (raiseStep ports c s p).port p = if ports.getLsbD p.val then (s.port p).raise c else s.port p := by
  unfold raiseStep
  split
  · rw [modPort_eq, port_setPort_same]
  · rfl

theorem raiseStep_other (ports : BitVec 4) (c : Cause) (s : State) (p q : Port) (h : q ≠ p) :
    (raiseStep ports c s p).port q = s.port q := by
  unfold raiseStep
  split
  · rw [modPort_eq, port_setPort_other _ _ _ _ h]
  · rfl

theorem raiseAt_eq (s : State) (ports : BitVec 4) (c : Cause) :
    s.raiseAt ports c = raiseStep ports c (raiseStep ports c (raiseStep ports c (raiseStep ports c s 0) 1) 2) 3 := rfl

/-- A raise changes Port Units alone. -/
theorem raiseAt_rest (s : State) (ports : BitVec 4) (c : Cause) :
    s.raiseAt ports c = { s with ports := (s.raiseAt ports c).ports } := by
  rw [raiseAt_eq]
  generalize h1 : raiseStep ports c s 0 = s1
  generalize h2 : raiseStep ports c s1 1 = s2
  generalize h3 : raiseStep ports c s2 2 = s3
  have e1 := raiseStep_rest ports c s 0
  have e2 := raiseStep_rest ports c s1 1
  have e3 := raiseStep_rest ports c s2 2
  have e4 := raiseStep_rest ports c s3 3
  rw [h1] at e1; rw [h2] at e2; rw [h3] at e3
  rw [e4, e3, e2, e1]

/-- A raise reaches exactly the ports of the set. -/
theorem raiseAt_port (s : State) (ports : BitVec 4) (c : Cause) (p : Port) :
    (s.raiseAt ports c).port p = if ports.getLsbD p.val then (s.port p).raise c else s.port p := by
  rw [raiseAt_eq]
  have h : p = 0 ∨ p = 1 ∨ p = 2 ∨ p = 3 := by revert p; decide
  rcases h with rfl | rfl | rfl | rfl
  · rw [raiseStep_other _ _ _ _ _ (by decide), raiseStep_other _ _ _ _ _ (by decide),
      raiseStep_other _ _ _ _ _ (by decide), raiseStep_same]
  · rw [raiseStep_other _ _ _ _ _ (by decide), raiseStep_other _ _ _ _ _ (by decide), raiseStep_same,
      raiseStep_other _ _ _ _ _ (by decide)]
  · rw [raiseStep_other _ _ _ _ _ (by decide), raiseStep_same, raiseStep_other _ _ _ _ _ (by decide),
      raiseStep_other _ _ _ _ _ (by decide)]
  · rw [raiseStep_same, raiseStep_other _ _ _ _ _ (by decide), raiseStep_other _ _ _ _ _ (by decide),
      raiseStep_other _ _ _ _ _ (by decide)]

@[simp] theorem raiseAt_policy (s : State) (ports : BitVec 4) (c : Cause) : (s.raiseAt ports c).policy = s.policy := by
  rw [raiseAt_rest]
@[simp] theorem raiseAt_admission (s : State) (ports : BitVec 4) (c : Cause) :
    (s.raiseAt ports c).admission = s.admission := by
  rw [raiseAt_rest]
@[simp] theorem raiseAt_targets (s : State) (ports : BitVec 4) (c : Cause) : (s.raiseAt ports c).targets = s.targets := by
  rw [raiseAt_rest]
@[simp] theorem raiseAt_buses (s : State) (ports : BitVec 4) (c : Cause) : (s.raiseAt ports c).buses = s.buses := by
  rw [raiseAt_rest]
@[simp] theorem raiseAt_pending (s : State) (ports : BitVec 4) (c : Cause) : (s.raiseAt ports c).pending = s.pending := by
  rw [raiseAt_rest]
@[simp] theorem raiseAt_waiting (s : State) (ports : BitVec 4) (c : Cause) : (s.raiseAt ports c).waiting = s.waiting := by
  rw [raiseAt_rest]
@[simp] theorem raiseAt_nextUid (s : State) (ports : BitVec 4) (c : Cause) : (s.raiseAt ports c).nextUid = s.nextUid := by
  rw [raiseAt_rest]

/-- The new table in force, with every blocked head released. -/
def State.withTable (s : State) : State :=
  { s with policy := s.policy.applied, admission := { s.admission with blocked := Vector.replicate 4 none } }

/-- The state of a successful APPLY before its claims are issued. -/
def State.appliedTable (s : State) : State := s.withTable.raiseAt s.policy.policyPorts .policy

/-- The revocation claim of an APPLY. -/
def State.revocationOf (s : State) : Revocation :=
  { indices := s.policy.revokedIndices, generation := s.policy.generation + 1 }

theorem applyTaken_eq (s : State) :
    s.applyTaken = if s.policy.revokedIndices.isEmpty then s.appliedTable
      else (s.appliedTable.modBus 0 (fun e => { e with revocations := e.revocations ++ [s.revocationOf] })).modBus 1
        (fun e => { e with revocations := e.revocations ++ [s.revocationOf] }) := rfl

/-- What a successful APPLY leaves as it was, and its effect on the Policy Unit and the Admission Unit. -/
theorem applyTaken_rest (s : State) :
    s.applyTaken = { s with ports := s.applyTaken.ports, policy := s.policy.applied,
                            admission := { s.admission with blocked := Vector.replicate 4 none },
                            buses := s.applyTaken.buses } := by
  have h := raiseAt_rest s.withTable s.policy.policyPorts .policy
  rw [applyTaken_eq]
  unfold State.appliedTable
  split
  · rw [h]; rfl
  · simp only [modBus_eq, State.setBus]
    rw [h]; rfl

@[simp] theorem applyTaken_policy (s : State) : s.applyTaken.policy = s.policy.applied := by
  rw [applyTaken_rest]
@[simp] theorem applyTaken_current (s : State) : s.applyTaken.admission.current = s.admission.current := by
  rw [applyTaken_rest]
@[simp] theorem applyTaken_pending (s : State) : s.applyTaken.pending = s.pending := by
  rw [applyTaken_rest]

theorem applyTaken_port (s : State) (p : Port) :
    s.applyTaken.port p = if s.policy.policyPorts.getLsbD p.val then (s.port p).raise .policy else s.port p := by
  have h : s.applyTaken.port p = s.appliedTable.port p := by
    rw [applyTaken_eq]; split <;> rfl
  rw [h]
  exact raiseAt_port _ _ _ _

/-! ### Changed indices, revoked indices and the ports named -/

/-- An index is changed when one version is valid and the other is not, or both are and they differ (R12). -/
theorem changed_iff (o n : RegionEntry) :
    o.changed n = true ↔ (o.valid ≠ n.valid ∨ (o.valid = true ∧ n.valid = true ∧ o ≠ n)) := by
  unfold RegionEntry.changed
  simp [and_assoc]

/-- An invalid version of an entry names no ports (R13). -/
theorem namedPorts_iff (e : RegionEntry) (p : Port) :
    e.namedPorts.getLsbD p.val = true ↔ e.valid = true ∧ e.ports.getLsbD p.val = true := by
  unfold RegionEntry.namedPorts
  cases e.valid <;> simp

/-- The ports of the POLICY causes (R13). -/
theorem policyPorts_iff (u : PolicyUnit) (p : Port) :
    u.policyPorts.getLsbD p.val = true ↔ ∃ i, (pick u.active i).changed (pick u.staged i) = true ∧
      ((pick u.active i).namedPorts.getLsbD p.val = true ∨ (pick u.staged i).namedPorts.getLsbD p.val = true) := by
  have key : ∀ (l : List EntryIx) (a : BitVec 4),
      (l.foldl (fun acc i => acc ||| (pick u.active i).namedPorts ||| (pick u.staged i).namedPorts) a).getLsbD p.val = true ↔
        a.getLsbD p.val = true ∨ ∃ i ∈ l, ((pick u.active i).namedPorts.getLsbD p.val = true ∨
          (pick u.staged i).namedPorts.getLsbD p.val = true) := by
    intro l
    induction l with
    | nil => intro a; simp
    | cons i r ih => intro a; rw [List.foldl_cons, ih]; simp [or_assoc]
  unfold PolicyUnit.policyPorts
  rw [key]
  simp [PolicyUnit.changedIndices, allEntries]

/-- The revoked indices: changed, with a valid STRICT old entry (R14). -/
theorem revokedIndices_iff (u : PolicyUnit) (i : EntryIx) :
    i ∈ u.revokedIndices ↔ (pick u.active i).changed (pick u.staged i) = true ∧ (pick u.active i).valid = true ∧
      (pick u.active i).mode = .strict := by
  unfold PolicyUnit.revokedIndices PolicyUnit.changedIndices
  simp only [List.mem_filter, allEntries, List.mem_finRange, true_and, Bool.and_eq_true, decide_eq_true_eq]

/-- Edits change the staged table alone, and what they give depends on the two tables alone. -/
theorem foldl_edit (l : List Edit) (u : PolicyUnit) :
    (l.foldl PolicyUnit.edit u).active = u.active ∧ (l.foldl PolicyUnit.edit u).generation = u.generation ∧
      (l.foldl PolicyUnit.edit u).failure = u.failure ∧ (l.foldl PolicyUnit.edit u).applies = u.applies ∧
      ∀ v : PolicyUnit, u.active = v.active → u.staged = v.staged →
        (l.foldl PolicyUnit.edit u).staged = (l.foldl PolicyUnit.edit v).staged := by
  induction l generalizing u with
  | nil => exact ⟨rfl, rfl, rfl, rfl, fun v _ h => h⟩
  | cons e l ih =>
    obtain ⟨h1, h2, h3, h4, h5⟩ := ih (u.edit e)
    cases e <;> refine ⟨h1, h2, h3, h4, fun v ha hs => h5 _ ha ?_⟩ <;> simp only [PolicyUnit.edit]
    · rw [hs]
    · rw [ha]

/-- The table in force after a successful APPLY, with its generation and failure index (R12). -/
theorem applied_fields (u : PolicyUnit) :
    u.applied.active = u.staged ∧ u.applied.generation = u.generation + 1 ∧ u.applied.failure = none ∧
      u.applied.applies = u.applies - 1 := by
  unfold PolicyUnit.applied
  dsimp only
  split
  · obtain ⟨h1, h2, h3, h4, _⟩ := foldl_edit u.edits
      { u with active := u.staged, generation := u.generation + 1, failure := none, applies := u.applies - 1 }
    exact ⟨h1, h2, h3, h4⟩
  · exact ⟨rfl, rfl, rfl, rfl⟩

/-- The mapping query answers with the ports of the valid active entries that name the target (R5). -/
theorem mapping_iff (u : PolicyUnit) (x : Target) (p : Port) :
    (u.mapping x).getLsbD p.val = true ↔ ∃ i : EntryIx, (pick u.active i).valid = true ∧
      (pick u.active i).target.toNat = x.val ∧ (pick u.active i).ports.getLsbD p.val = true := by
  have key : ∀ (l : List RegionEntry) (a : BitVec 4),
      (l.foldl (fun acc e => if e.valid && e.target.toNat == x.val then acc ||| e.ports else acc) a).getLsbD p.val = true ↔
        a.getLsbD p.val = true ∨
          ∃ e ∈ l, e.valid = true ∧ e.target.toNat = x.val ∧ e.ports.getLsbD p.val = true := by
    intro l
    induction l with
    | nil => intro a; simp
    | cons i r ih =>
      intro a
      rw [List.foldl_cons, ih]
      by_cases h : (i.valid && i.target.toNat == x.val) = true
      · rw [if_pos h]
        simp only [Bool.and_eq_true, beq_iff_eq] at h
        simp [h, or_assoc]
      · rw [if_neg h]
        simp only [Bool.and_eq_true, beq_iff_eq, not_and] at h
        constructor
        · rintro (h1 | ⟨e, he, h1⟩)
          · exact .inl h1
          · exact .inr ⟨e, List.mem_cons_of_mem _ he, h1⟩
        · rintro (h1 | ⟨e, he, h1⟩)
          · exact .inl h1
          · rcases List.mem_cons.1 he with rfl | he
            · exact absurd h1.2.1 (h h1.1)
            · exact .inr ⟨e, he, h1⟩
  unfold PolicyUnit.mapping
  rw [key]
  constructor
  · rintro (h | ⟨e, he, h⟩)
    · simp at h
    · obtain ⟨i, hi, rfl⟩ := List.mem_iff_getElem.1 he
      exact ⟨⟨i, by simpa using hi⟩, by simpa [pick] using h⟩
  · rintro ⟨i, h⟩
    exact .inr ⟨_, by rw [Vector.mem_toList_iff]; exact Vector.getElem_mem i.isLt, h⟩

end Sys2Proof.Machine
end

