-- ==== Sys2Proof/Laws/Buses.lean ====
section
/-! SUPPORT. All that a command can do to the Bus Engines: the moves of `BusMove`, one item appended by an insertion, or a device
reset. A condition on the Bus Engines that each of these keeps is kept by every step. -/

namespace Sys2Proof.Machine

/-- A byte put together from eight samples has them, in the same bit order, as its bits on the line (R22, R83). -/
theorem BitOrder.bit_received (o : BitOrder) (sdi : Byte) {i : Nat} (h : i < 8) :
    o.bit (o.received sdi) i = sdi.getLsbD (7 - i) := by
  cases o
  · rfl
  · simp only [BitOrder.bit, BitOrder.received, BitVec.getLsbD_reverse, BitVec.getMsbD, h, decide_true, Bool.true_and]

/-- The moves of a Bus Engine. -/
inductive BusMove : BusEngine → BusEngine → Prop where
  | filter (e : BusEngine) (g : Item → Bool) : BusMove e { e with list := e.list.filter g }
  | items (e : BusEngine) (f : Item → Item) (h : ∀ it, (f it).uid = it.uid ∧ (f it).target = it.target) :
    BusMove e { e with list := e.list.map f }
  | aside (e e' : BusEngine) (hl : e'.list = e.list) (hf : e'.frame = e.frame) (hm : e'.mode = e.mode) : BusMove e e'
  | frame (e : BusEngine) (r : FrameRecord) (h : e.mode ≠ .float ∨ e.frame ≠ none) : BusMove e { e with frame := some r }
  | idle (e : BusEngine) : BusMove e { e with frame := none }
  | mode (e : BusEngine) (m : BusMode) (h : m = .float → e.frame = none ∨ e.mode = .float) : BusMove e { e with mode := m }

/-- The moves of a Bus Engine, one after another. -/
abbrev BusMoves : BusEngine → BusEngine → Prop := Relation.ReflTransGen BusMove

/-- The second state comes from the first by moves of the Bus Engines; no item is new, the admission under way stands, and the
queue of commands is the same. -/
structure WorkMove (s t : State) : Prop where
  buses : ∀ b, BusMoves (s.bus b) (t.bus b)
  uid : t.nextUid = s.nextUid
  current : t.admission.current = s.admission.current
  pending : t.pending = s.pending

theorem WorkMove.refl (s : State) : WorkMove s s := ⟨fun _ => .refl, rfl, rfl, rfl⟩

theorem WorkMove.trans {s t u : State} (h : WorkMove s t) (k : WorkMove t u) : WorkMove s u :=
  ⟨fun b => (h.buses b).trans (k.buses b), k.uid.trans h.uid, k.current.trans h.current, k.pending.trans h.pending⟩

/-- What touches no Bus Engine, no admission, no queue is no move. -/
theorem workMove_still {s t u : State} (h : WorkMove s t) (hb : u.buses = t.buses) (hu : u.nextUid = t.nextUid)
    (hc : u.admission.current = t.admission.current) (hp : u.pending = t.pending) : WorkMove s u :=
  ⟨fun b => by
    have : u.bus b = t.bus b := by simp [State.bus, hb]
    rw [this]; exact h.buses b, hu.trans h.uid, hc.trans h.current, hp.trans h.pending⟩

theorem workMove_setBus {s t : State} {b : Bus} {e : BusEngine} (h : WorkMove s t) (he : BusMoves (t.bus b) e) :
    WorkMove s (t.setBus b e) := by
  refine ⟨fun c => ?_, h.uid, h.current, h.pending⟩
  by_cases hc : c = b
  · subst hc; simpa using (h.buses c).trans he
  · rw [bus_setBus_other _ _ _ _ hc]; exact h.buses c

theorem workMove_modBus {s t : State} {b : Bus} {f : BusEngine → BusEngine} (h : WorkMove s t)
    (hf : ∀ e, BusMove e (f e)) : WorkMove s (t.modBus b f) := workMove_setBus h (.single (hf _))

theorem workMove_modPort {s t : State} {p : Port} {f : PortUnit → PortUnit} (h : WorkMove s t) :
    WorkMove s (t.modPort p f) := workMove_still h rfl rfl rfl rfl

theorem workMove_modTarget {s t : State} {x : Target} {f : TargetRecord → TargetRecord} (h : WorkMove s t) :
    WorkMove s (t.modTarget x f) := workMove_still h rfl rfl rfl rfl

theorem move_modItem (e : BusEngine) (uid : Nat) (f : Item → Item)
    (h : ∀ it, (f it).uid = it.uid ∧ (f it).target = it.target) : BusMove e (e.modItem uid f) := by
  refine .items e _ fun it => ?_
  split
  · exact h it
  · exact ⟨rfl, rfl⟩

/-! ### Items that leave -/

theorem workMove_finish {s t : State} {b : Bus} {it : Item} {r : Completion} (h : WorkMove s t) :
    WorkMove s (t.finish b it r) := by
  have h1 : WorkMove s (t.modBus b (·.remove it.uid)) := workMove_modBus h (fun e => .filter e _)
  have h2 : WorkMove s (t.leaveList b it.uid) := workMove_still h1 rfl rfl rfl rfl
  exact workMove_modPort h2

theorem workMove_finishAll {s : State} {b : Bus} {its : List Item} {rec : Item → Completion} :
    ∀ {t : State}, WorkMove s t → WorkMove s (t.finishAll b its rec) := by
  induction its with
  | nil => intro t h; exact h
  | cons it rest ih => intro t h; exact ih (workMove_finish h)

theorem workMove_finishOwner {s t : State} {x : Target} {o : Option Nat} {e : Ending} {r : Reason} (h : WorkMove s t) :
    WorkMove s (t.finishOwner x o e r) := by
  unfold State.finishOwner
  split
  · exact workMove_finish h
  · exact h

theorem workMove_unitEndedWell {s t : State} {x : Target} {o : Option Nat} (h : WorkMove s t) :
    WorkMove s (t.unitEndedWell x o) := by
  unfold State.unitEndedWell
  split
  · dsimp only
    split
    · exact workMove_finish h
    · exact workMove_modBus h (fun e => move_modItem e _ _ fun _ => ⟨rfl, rfl⟩)
  · exact h

theorem workMove_raiseAt {s t : State} {ports : BitVec 4} {c : Cause} (h : WorkMove s t) :
    WorkMove s (t.raiseAt ports c) :=
  workMove_still h (raiseAt_buses _ _ _) (raiseAt_nextUid _ _ _) (congrArg _ (raiseAt_admission _ _ _))
    (raiseAt_pending _ _ _)

theorem workMove_fault {s t : State} {x : Target} (h : WorkMove s t) : WorkMove s (t.fault x) := by
  unfold State.fault State.fanOut
  exact workMove_raiseAt (workMove_finishAll (workMove_finishOwner (workMove_modTarget h)))

theorem workMove_takeTargetReset {s t : State} {x : Target} (h : WorkMove s t) : WorkMove s (t.takeTargetReset x) := by
  unfold State.takeTargetReset
  split
  · exact h
  · exact h
  all_goals exact workMove_modTarget (workMove_finishOwner h)

/-! ### Claims -/

theorem workMove_cancelItem {s t : State} {b : Bus} {uid : Nat} (h : WorkMove s t) : WorkMove s (t.cancelItem b uid) := by
  unfold State.cancelItem
  split
  · exact h
  · split
    · exact h
    · split
      · exact workMove_finish h
      · dsimp only
        have h1 : WorkMove s (t.modBus b (·.modItem uid (fun x =>
            if ({ x with cancelSeen := true } : Item).moreUnits then ({ x with cancelSeen := true } : Item).shed .cancelled
            else { x with cancelSeen := true }))) :=
          workMove_modBus h (fun e => move_modItem e _ _ fun it => by split <;> exact ⟨rfl, rfl⟩)
        split
        · split
          · rename_i r hr
            split
            · refine workMove_setBus h1 (.single (.frame _ _ (.inr ?_)))
              intro hn
              simp [BusEngine.frameOf, hn] at hr
            · exact h1
          · exact h1
        · exact h1

theorem workMove_cancels {s : State} {b : Bus} : ∀ {l : List CancelClaim} {t : State}, WorkMove s t →
    WorkMove s (l.foldl (fun s c => s.cancelItem b c.item) t) := by
  intro l
  induction l with
  | nil => intro t h; exact h
  | cons c rest ih => intro t h; exact ih (workMove_cancelItem h)

theorem workMove_takeCancels {s t : State} {p : Port} {b : Bus} {sel : CancelClaim → Bool} (h : WorkMove s t) :
    WorkMove s (t.takeCancels p b sel) := by
  unfold State.takeCancels
  exact workMove_cancels (workMove_modBus h (fun e => .aside e _ rfl rfl rfl))

theorem workMove_revoke {s t : State} {b : Bus} {rv : Revocation} (h : WorkMove s t) : WorkMove s (t.revoke b rv) := by
  unfold State.revoke
  refine workMove_modBus (workMove_finishAll h) (fun e => .items e _ fun it => ?_)
  split <;> exact ⟨rfl, rfl⟩

theorem workMove_revokeAll {s : State} {b : Bus} : ∀ {l : List Revocation} {t : State}, WorkMove s t →
    WorkMove s (l.foldl (fun s rv => s.revoke b rv) t) := by
  intro l
  induction l with
  | nil => intro t h; exact h
  | cons c rest ih => intro t h; exact ih (workMove_revoke h)

theorem workMove_takeRevocations {s t : State} {b : Bus} (h : WorkMove s t) : WorkMove s (t.takeRevocations b) := by
  unfold State.takeRevocations
  exact workMove_revokeAll (workMove_modBus h (fun e => .aside e _ rfl rfl rfl))

theorem workMove_resetTargets {s : State} {f : TargetRecord → TargetRecord} : ∀ {l : List Target} {t : State},
    WorkMove s t → WorkMove s (l.foldl (fun s x => s.modTarget x f) t) := by
  intro l
  induction l with
  | nil => intro t h; exact h
  | cons x rest ih => intro t h; exact ih (workMove_modTarget h)

/-- The frame in flight, if there is one, replaced. -/
theorem moves_frameMap (e : BusEngine) (f : FrameRecord → FrameRecord) : BusMoves e { e with frame := e.frame.map f } := by
  cases hf : e.frame with
  | none => exact .single (.aside _ _ rfl (by simp [hf]) rfl)
  | some r => exact .single (.frame e (f r) (.inr (by simp [hf])))

theorem workMove_takeBusReset {s t : State} {b : Bus} (h : WorkMove s t) : WorkMove s (t.takeBusReset b) := by
  unfold State.takeBusReset
  dsimp only
  apply workMove_resetTargets
  have h0 : WorkMove s ((t.takeCancels t.authority b (fun c => decide (c.behind = 0))).modBus b (·.closeRanks)) :=
    workMove_modBus (workMove_takeCancels h) (fun e => .aside e _ rfl rfl rfl)
  generalize (t.takeCancels t.authority b (fun c => decide (c.behind = 0))).modBus b (·.closeRanks) = u at h0
  exact workMove_setBus (workMove_finishAll h0) (moves_frameMap _ _)

theorem workMove_settleTargetReset {s t : State} {x : Target} (h : WorkMove s t) :
    WorkMove s (t.settleTargetReset x) := by
  unfold State.settleTargetReset
  dsimp only
  split
  · exact workMove_still h rfl rfl rfl rfl
  · exact workMove_takeTargetReset (workMove_still h rfl rfl rfl rfl)

theorem workMove_settleBusReset {s t : State} {b : Bus} (h : WorkMove s t) : WorkMove s (t.settleBusReset b) := by
  unfold State.settleBusReset
  dsimp only
  have h1 : WorkMove s (t.modBus b (fun e => { e with resets := e.resets - 1 })) :=
    workMove_modBus h (fun e => .aside e _ rfl rfl rfl)
  split
  · exact workMove_still h1 rfl rfl rfl rfl
  · exact workMove_takeBusReset h1

theorem workMove_releaseBus {s t : State} {b : Bus} {x : Target} (h : WorkMove s t) : WorkMove s (t.releaseBus b x) := by
  unfold State.releaseBus
  dsimp only
  have h1 : WorkMove s (t.modBus b (fun e => { e with frame := none, sinceRelease := 0 })) :=
    workMove_setBus h (.tail (.single (.idle _)) (.aside _ _ rfl rfl rfl))
  split
  · exact workMove_settleTargetReset h1
  · exact h1

/-! ### Status results, limits, time -/

theorem workMove_programEnd {s t : State} {x : Target} {f : Bool} (h : WorkMove s t) : WorkMove s (t.programEnd x f) := by
  unfold State.programEnd
  dsimp only
  split <;> exact workMove_finishOwner (workMove_modTarget h)

theorem workMove_eraseUnitEnd {s t : State} {x : Target} {f : Bool} (h : WorkMove s t) :
    WorkMove s (t.eraseUnitEnd x f) := by
  unfold State.eraseUnitEnd
  dsimp only
  split
  · exact workMove_finishOwner (workMove_modTarget h)
  · exact workMove_unitEndedWell (workMove_modTarget h)

theorem workMove_statusResult {s t : State} {x : Target} {w : Byte} (h : WorkMove s t) :
    WorkMove s (t.statusResult x w) := by
  unfold State.statusResult
  split
  all_goals first
    | exact workMove_programEnd h
    | exact workMove_eraseUnitEnd h
    | exact workMove_modTarget h
    | exact h

theorem workMove_finishStatusItem {s t : State} {b : Bus} {r : FrameRecord} {w : Byte} (h : WorkMove s t) :
    WorkMove s (t.finishStatusItem b r w) := by
  unfold State.finishStatusItem
  split
  · exact workMove_finish h
  · exact h

theorem workMove_modOwner {s t : State} {x : Target} {f : Item → Item}
    (hf : ∀ it, (f it).uid = it.uid ∧ (f it).target = it.target) (h : WorkMove s t) : WorkMove s (t.modOwner x f) := by
  unfold State.modOwner
  split
  · exact workMove_modBus h (fun e => move_modItem e _ _ hf)
  · exact h

theorem workMove_suspendEnd {s t : State} {x : Target} (h : WorkMove s t) : WorkMove s (t.suspendEnd x) := by
  unfold State.suspendEnd
  split
  · exact workMove_modTarget (workMove_modOwner (fun _ => ⟨rfl, rfl⟩) h)
  · exact h

theorem workMove_resumeEnd {s t : State} {x : Target} (h : WorkMove s t) : WorkMove s (t.resumeEnd x) := by
  unfold State.resumeEnd
  split
  · exact workMove_modTarget (workMove_modOwner (fun _ => ⟨rfl, rfl⟩) h)
  · exact h

theorem workMove_takeLimit {s t : State} {x : Target} {l : Limit} (h : WorkMove s t) : WorkMove s (t.takeLimit x l) := by
  unfold State.takeLimit
  split
  · exact workMove_fault h
  · exact h

theorem workMove_limitExpires {s t : State} {x : Target} {l : Limit} (h : WorkMove s t) :
    WorkMove s (t.limitExpires x l) := by
  unfold State.limitExpires
  split
  · exact workMove_still h rfl rfl rfl rfl
  · exact workMove_takeLimit h

/-- Time passes for every target. -/
theorem elapse_target (s : State) (n : Nat) (x : Target) : (s.elapse n).target x = (s.target x).elapse n := by
  fin_cases x <;> rfl

theorem elapse_bus (s : State) (n : Nat) (b : Bus) : (s.elapse n).bus b = (s.bus b).elapse n := by
  fin_cases b <;> rfl

theorem moves_elapse (e : BusEngine) (n : Nat) : BusMoves e (e.elapse n) := by
  have h := moves_frameMap e (fun r => r.elapse r.phases n)
  exact h.tail (.aside _ _ rfl rfl rfl)

theorem workMove_elapse {s t : State} {n : Nat} (h : WorkMove s t) : WorkMove s (t.elapse n) := by
  refine ⟨fun b => ?_, h.uid, h.current, h.pending⟩
  rw [elapse_bus]
  exact (h.buses b).trans (moves_elapse _ _)

/-! ### The Policy Unit -/

theorem workMove_applyTaken {s t : State} (h : WorkMove s t) : WorkMove s t.applyTaken := by
  have h1 : WorkMove s t.withTable := workMove_still h rfl rfl rfl rfl
  have h2 : WorkMove s t.appliedTable := workMove_raiseAt h1
  rw [applyTaken_eq]
  split
  · exact h2
  · exact workMove_modBus (workMove_modBus h2 (fun e => .aside e _ rfl rfl rfl)) (fun e => .aside e _ rfl rfl rfl)

theorem workMove_takeApplies {s : State} : ∀ {n : Nat} {t : State}, WorkMove s t → WorkMove s (t.takeApplies n) := by
  intro n
  induction n with
  | zero => intro t h; exact h
  | succ n ih => intro t h; exact ih (workMove_applyTaken h)

/-! ### Frames -/

theorem workMove_plainFrame {s : State} {p : Port} {need : Nat} {bytes : List Byte} {act : State → State × Result}
    (h : ∀ t, WorkMove s t → WorkMove s (act t).1) : WorkMove s (s.plainFrame p need bytes act) := by
  unfold State.plainFrame
  dsimp only
  split
  · exact workMove_modPort (workMove_modPort (.refl s))
  · exact workMove_modPort (h _ (workMove_modPort (.refl s)))

theorem workMove_captureFrame {s : State} {p : Port} {request : Nat} {bytes : List Byte} {grab : State → Captured} :
    WorkMove s (s.captureFrame p request bytes grab) := by
  unfold State.captureFrame
  dsimp only
  split
  · exact workMove_modPort (.refl s)
  · exact workMove_modPort (workMove_modPort (.refl s))

theorem workMove_replyFrame {s : State} {p : Port} {request need : Nat} {bytes : List Byte} {mine : Captured → Bool}
    {grab : State → Captured} {act : State → Captured → State × Result}
    (h : ∀ t c, WorkMove s t → WorkMove s (act t c).1) :
    WorkMove s (s.replyFrame p request need bytes mine grab act) := by
  unfold State.replyFrame
  dsimp only
  split
  · exact workMove_modPort (workMove_modPort (.refl s))
  · split
    · exact workMove_modPort (workMove_modPort (.refl s))
    · exact workMove_modPort (h _ _ (workMove_modPort (.refl s)))

theorem workMove_cancelTag {s t : State} {p : Port} {tag : Byte} (h : WorkMove s t) : WorkMove s (t.cancelTag p tag) := by
  unfold State.cancelTag
  split
  · unfold State.cancelEntry
    dsimp only
    split <;> exact workMove_still h rfl rfl rfl rfl
  · split
    · exact workMove_modBus h (fun e => .aside e _ rfl rfl rfl)
    · exact h

theorem workMove_portResetBus {s t : State} {p : Port} {b : Bus} (h : WorkMove s t) : WorkMove s (t.portResetBus p b) := by
  have h1 : WorkMove s (t.modBus b (·.portReset p)) := by
    refine workMove_setBus h (.tail (.single (.filter _ (fun it => !it.removedByPortReset p))) (.items _ _ fun it => ?_))
    split <;> exact ⟨rfl, rfl⟩
  unfold State.portResetBus
  dsimp only
  split
  · exact workMove_still h1 rfl rfl rfl rfl
  · exact h1

theorem workMove_portReset {s t : State} {p : Port} (h : WorkMove s t) : WorkMove s (t.portReset p) := by
  have h1 := workMove_takeCancels (p := p) (b := 0) (sel := fun _ => true) h
  have h2 := workMove_takeCancels (p := p) (b := 1) (sel := fun _ => true) h1
  unfold State.portReset
  dsimp only
  generalize (t.takeCancels p 0 (fun _ => true)).takeCancels p 1 (fun _ => true) = t2 at h2
  have h3 := workMove_portResetBus (p := p) (b := 1) (workMove_portResetBus (p := p) (b := 0) h2)
  generalize (t2.portResetBus p 0).portResetBus p 1 = t3 at h3
  exact workMove_still h3 rfl rfl rfl rfl

theorem workMove_busMode (s : State) (p : Port) (bytes : List Byte) : WorkMove s (takeBusMode p bytes s) := by
  refine workMove_plainFrame fun t h => ?_
  split
  · exact h
  · split
    · split
      · exact h
      · rename_i b mode _ _ hm
        refine workMove_setBus h (.single (.mode _ mode fun hf => ?_))
        simp only [hf, decide_true, Bool.true_and, Bool.not_eq_true, State.floatRefused, Bool.and_eq_false_iff,
          Bool.or_eq_false_iff, decide_eq_false_iff_not, not_not] at hm
        rcases hm with hm | hm
        · exact .inr hm
        · exact .inl (by simpa using hm.1)
    · exact h

theorem workMove_takeFrame (s : State) (i : Instr) : WorkMove s (takeFrame i s) := by
  cases i
  all_goals (unfold takeFrame; try dsimp only)
  case submit p bytes =>
    refine workMove_plainFrame fun t h => ?_
    split
    · exact workMove_still h rfl rfl rfl rfl
    · exact workMove_still h rfl rfl rfl rfl
    · exact h
  case cancel p bytes =>
    refine workMove_plainFrame fun t h => ?_
    dsimp only
    split
    · exact h
    · split
      · exact workMove_still h rfl rfl rfl rfl
      · exact workMove_cancelTag h
  case hold p bytes => exact workMove_plainFrame fun t h => workMove_still h rfl rfl rfl rfl
  case unhold p bytes => exact workMove_plainFrame fun t h => workMove_still h rfl rfl rfl rfl
  case load p bytes =>
    refine workMove_plainFrame fun t h => ?_
    dsimp only
    split
    · exact h
    · split
      · exact h
      · split
        · exact h
        · exact workMove_still h rfl rfl rfl rfl
  case fetch p m bytes =>
    unfold takeFetch
    cases m
    · exact workMove_captureFrame
    · exact workMove_replyFrame fun _ _ h => h
  case release p bytes =>
    refine workMove_plainFrame fun t h => ?_
    split
    · exact h
    · split
      · exact h
      · exact workMove_still h rfl rfl rfl rfl
  case collect p m bytes =>
    unfold takeCollect
    cases m
    · exact workMove_captureFrame
    · refine workMove_replyFrame fun t c h => ?_
      unfold State.endCollect
      split
      · exact workMove_still h rfl rfl rfl rfl
      all_goals exact h
  case cause p m bytes =>
    unfold takeCause
    cases m
    · exact workMove_captureFrame
    · refine workMove_replyFrame fun t c h => ?_
      unfold State.endCause
      split
      · split
        · exact workMove_still h rfl rfl rfl rfl
        · exact h
      all_goals exact h
  case causeEnable p bytes =>
    refine workMove_plainFrame fun t h => ?_
    dsimp only
    split
    · split
      · exact workMove_still h rfl rfl rfl rfl
      · exact h
    · exact h
  case summary p m bytes =>
    unfold takeSummary
    cases m
    · exact workMove_captureFrame
    · exact workMove_replyFrame fun _ _ h => h
  case portReset p bytes => exact workMove_plainFrame fun t h => workMove_portReset h
  case readEntry p m bytes =>
    unfold takeReadEntry
    cases m
    · exact workMove_captureFrame
    · exact workMove_replyFrame fun _ _ h => h
  case readTarget p m bytes =>
    unfold takeReadTarget
    cases m
    · exact workMove_captureFrame
    · exact workMove_replyFrame fun _ _ h => h
  case stageEntry p bytes =>
    refine workMove_plainFrame fun t h => ?_
    split
    · exact h
    · split
      · exact h
      · exact workMove_still h rfl rfl rfl rfl
  case copyActive p bytes =>
    refine workMove_plainFrame fun t h => ?_
    split
    · exact h
    · exact workMove_still h rfl rfl rfl rfl
  case apply p bytes =>
    refine workMove_plainFrame fun t h => ?_
    split
    · exact h
    · split <;> exact workMove_still h rfl rfl rfl rfl
  case setupTarget p bytes =>
    refine workMove_plainFrame fun t h => ?_
    split
    · exact h
    · split
      · exact h
      · exact h
      · split
        · exact workMove_still h rfl rfl rfl rfl
        · exact h
  case removeTarget p bytes =>
    refine workMove_plainFrame fun t h => ?_
    split
    · exact h
    · split
      · exact h
      · split
        · exact workMove_still h rfl rfl rfl rfl
        · exact h
  case resetTarget p bytes =>
    refine workMove_plainFrame fun t h => ?_
    split
    · exact h
    · split
      · exact h
      · split
        · exact h
        · exact h
        all_goals
          unfold State.sendTargetReset
          split <;> exact workMove_still h rfl rfl rfl rfl
  case resetBus p bytes =>
    refine workMove_plainFrame fun t h => ?_
    split
    · exact h
    · split
      · exact h
      · unfold State.sendBusReset
        split
        · exact workMove_still h rfl rfl rfl rfl
        · dsimp only
          exact workMove_modBus h (fun e => .aside e _ rfl rfl rfl)
  case busMode p bytes => exact workMove_busMode s p bytes
  case badcode p code bytes =>
    unfold takeBadcode
    split
    · exact .refl s
    · exact workMove_modPort (workMove_modPort (.refl s))
  case frameWithoutCode p => exact workMove_modPort (.refl s)
  case summaryByte p => exact workMove_modPort (.refl s)
  all_goals exact .refl s

theorem workMove_settleApplies {s t : State} (h : WorkMove s t) : WorkMove s t.settleApplies := by
  unfold State.settleApplies
  split
  · exact workMove_takeApplies h
  · exact h

theorem workMove_settle {s t : State} (h : WorkMove s t) : WorkMove s t.settle :=
  settle_keeps (P := WorkMove s) (fun _ => workMove_settleApplies) (fun _ _ => workMove_settleBusReset)
    (fun _ _ k _ => workMove_settleTargetReset k) h

theorem workMove_upstream {s : State} {p : Port} {i : Instr} {w : Bool} {take : State → State}
    (h : ∀ t, WorkMove t (take t)) : WorkMove s (s.upstream p i w take) := by
  unfold State.upstream
  split
  · exact .refl s
  · split
    · exact workMove_still (.refl s) rfl rfl rfl rfl
    · split
      · exact workMove_still (workMove_settle (.refl s)) rfl rfl rfl rfl
      · exact (workMove_settle (.refl s)).trans (h _)

theorem workMove_cancelHead {s t : State} {p : Port} {tag : Byte} (h : WorkMove s t) :
    WorkMove s (t.cancelHead p tag) := by
  unfold State.cancelHead
  split
  · exact workMove_takeCancels (workMove_cancelTag h)
  all_goals exact workMove_cancelTag h

theorem workMove_takeWaiting {s t : State} {w : Waiting} (h : WorkMove s t) : WorkMove s (takeWaiting w t) := by
  have k := workMove_settle h
  unfold takeWaiting
  dsimp only
  cases w with
  | frame i => exact k.trans (workMove_takeFrame _ i)
  | cancelHead p tag => exact workMove_cancelHead k
  | expiry x l => exact workMove_takeLimit k
  | targetReset x =>
    dsimp only
    split
    · exact workMove_still k rfl rfl rfl rfl
    · exact workMove_takeTargetReset k
  | busReset b => exact workMove_takeBusReset k

theorem workMove_takeAll {s : State} : ∀ {l : List Waiting} {t : State}, WorkMove s t →
    WorkMove s (l.foldl (fun s w => takeWaiting w s) t) := by
  intro l
  induction l with
  | nil => intro t h; exact h
  | cons w rest ih => intro t h; exact ih (workMove_takeWaiting h)

/-! ### The choice -/

/-- In FLOAT nothing is chosen (R79). -/
theorem choose_float {s : State} {b : Bus} {c : Chosen} (h : s.choose b = some c) : (s.bus b).mode ≠ .float := by
  intro hm
  simp [State.choose, hm] at h

theorem workMove_startItem {s : State} {b : Bus} {it : Item} (hm : (s.bus b).mode ≠ .float) :
    WorkMove s (s.startItem b it) :=
  workMove_setBus (.refl s)
    (.tail (.single (move_modItem _ it.uid (fun x => { x with state := .active }) fun _ => ⟨rfl, rfl⟩)) (.frame _ _ (.inl hm)))

theorem workMove_startChosen {s : State} {b : Bus} {c : Chosen} (hm : (s.bus b).mode ≠ .float) :
    WorkMove s (s.startChosen b c) := by
  cases c with
  | maintenance kind x =>
    exact workMove_setBus (.refl s) (.tail (.single (.frame _ _ (.inl hm))) (.aside _ _ rfl rfl rfl))
  | urgentItem it => exact workMove_startItem hm
  | normalItem it =>
    unfold State.startChosen
    dsimp only
    exact workMove_modBus (workMove_startItem hm) (fun e => .aside e _ rfl rfl rfl)

/-! ### Every command -/

theorem workMove_releaseAll {s : State} {csLow : BitVec 4} : ∀ {l : List Port} {t : State}, WorkMove s t →
    WorkMove s (l.foldl (fun s p => s.modPort p (·.releaseReset (csLow.getLsbD p.val))) t) := by
  intro l
  induction l with
  | nil => intro t h; exact h
  | cons p rest ih => intro t h; exact ih (workMove_modPort h)

/-- The steps of the work lists: moves; an admission begins; it ends with its item appended, or without; device reset. -/
inductive WorkStep : State → State → Prop where
  | moves (s t : State) (h : WorkMove s t) : WorkStep s t
  | begins (s t : State) (a : Admitting) (hb : t.buses = s.buses) (hu : t.nextUid = s.nextUid)
    (hc : t.admission.current = some a) (hp : t.pending = s.pending)
    (room : ∀ it, a.decision = .insert it → (s.bus (busOf it.target)).list.length < Config.listSize) : WorkStep s t
  | inserts (s t : State) (p : Port) (x : Option Target) (it : Item)
    (hs : s.admission.current = some { port := p, target := x, decision := .insert it })
    (hb : t.buses = (s.append it).buses) (hu : t.nextUid = s.nextUid + 1) (hc : t.admission.current = none)
    (hp : t.pending = s.pending) : WorkStep s t
  | ends (s t : State) (hb : t.buses = s.buses) (hu : t.nextUid = s.nextUid) (hc : t.admission.current = none)
    (hp : t.pending = s.pending) : WorkStep s t
  | device (s t : State) (hb : ∀ b, t.bus b = .reset) (hu : t.nextUid = 0) (hc : t.admission.current = none)
    (hp : t.pending = s.pending) : WorkStep s t

theorem append_bus_same (s : State) (it : Item) : (s.append it).bus (busOf it.target) =
    { s.bus (busOf it.target) with list := (s.bus (busOf it.target)).list ++ [{ it with uid := s.nextUid }] } :=
  bus_setBus_same s _ _

theorem append_bus_other (s : State) (it : Item) (b : Bus) (h : b ≠ busOf it.target) : (s.append it).bus b = s.bus b :=
  bus_setBus_other s _ _ _ h

/-- Steps of the work lists, one after another. -/
abbrev WorkSteps : State → State → Prop := Relation.ReflTransGen WorkStep

/-- No step of the work lists touches the queue of commands. -/
theorem workSteps_pending {s t : State} (h : WorkSteps s t) : t.pending = s.pending := by
  induction h with
  | refl => rfl
  | tail _ m ih =>
    refine Eq.trans ?_ ih
    cases m with
    | moves h => exact h.pending
    | begins _ _ _ _ hp _ => exact hp
    | inserts _ _ _ _ _ _ _ hp => exact hp
    | ends _ _ _ hp => exact hp
    | device _ _ _ hp => exact hp

theorem admitHead_begins (s : State) (p : Port) (r : Request) : WorkStep s (s.admitHead p r) := by
  unfold State.admitHead
  dsimp only
  split
  · exact .begins _ _ _ rfl rfl rfl rfl (fun it h => by cases h)
  · split
    · exact .moves _ _ (workMove_still (.refl s) rfl rfl rfl rfl)
    · rename_i i _ hl
      split
      · exact .begins _ _ _ rfl rfl rfl rfl (fun it h => by cases h)
      · refine .begins _ _ _ rfl rfl rfl rfl (fun it h => ?_)
        injection h with h
        subst h
        exact Nat.lt_of_not_le hl

theorem endAdmission_ends (s : State) : WorkSteps s s.endAdmission := by
  unfold State.endAdmission
  dsimp only
  refine .tail (.single (.ends _ { s with admission := { s.admission with current := none }, waiting := [] } rfl rfl rfl rfl))
    (.moves _ _ (workMove_takeAll (workMove_settleApplies (.refl _))))

/-- The insertion ends the admission with its item at the tail of its list. -/
theorem insertion_steps {s : State} {p : Port} {x : Option Target} {it : Item}
    (hc : s.admission.current = some { port := p, target := x, decision := .insert it }) :
    WorkSteps s ((s.append it).headServed p).endAdmission := by
  generalize ht : (s.append it).headServed p = t
  have hb : t.buses = (s.append it).buses := by rw [← ht]; rfl
  have hu : t.nextUid = s.nextUid + 1 := by rw [← ht]; rfl
  have hp : t.pending = s.pending := by rw [← ht]; rfl
  unfold State.endAdmission
  dsimp only
  exact .tail (.single (.inserts s { t with admission := { t.admission with current := none }, waiting := [] } p x it hc hb hu
    rfl hp)) (.moves _ _ (workMove_takeAll (workMove_settleApplies (.refl _))))

/-- All that a command can do to the work lists and the Bus Engines. -/
theorem exec_workSteps {c : Instr} {s t : State} (h : exec c s = .next t) : WorkSteps s t := by
  have one : ∀ {u}, WorkMove s u → WorkSteps s u := fun h => .single (.moves _ _ h)
  have R := WorkMove.refl s
  have timer : ∀ {left act} (x : Target), (∀ (u : State) n, WorkMove s u → WorkMove s (act (u.elapse n))) →
      WorkSteps s (s.expire x left act) := fun x k => one (expire_keeps (P := WorkMove s) R (workMove_settle R) k)
  cases c
  all_goals (injection h with h; subst h)
  case submit p bytes => exact one (workMove_upstream fun t => workMove_takeFrame t (.submit p bytes))
  case cancel p bytes => exact one (workMove_upstream fun t => workMove_takeFrame t (.cancel p bytes))
  case hold p bytes => exact one (workMove_upstream fun t => workMove_takeFrame t (.hold p bytes))
  case unhold p bytes => exact one (workMove_upstream fun t => workMove_takeFrame t (.unhold p bytes))
  case load p bytes => exact one (workMove_upstream fun t => workMove_takeFrame t (.load p bytes))
  case fetch p m bytes => exact one (workMove_upstream fun t => workMove_takeFrame t (.fetch p m bytes))
  case release p bytes => exact one (workMove_upstream fun t => workMove_takeFrame t (.release p bytes))
  case collect p m bytes => exact one (workMove_upstream fun t => workMove_takeFrame t (.collect p m bytes))
  case cause p m bytes => exact one (workMove_upstream fun t => workMove_takeFrame t (.cause p m bytes))
  case causeEnable p bytes => exact one (workMove_upstream fun t => workMove_takeFrame t (.causeEnable p bytes))
  case summary p m bytes => exact one (workMove_upstream fun t => workMove_takeFrame t (.summary p m bytes))
  case portReset p bytes => exact one (workMove_upstream fun t => workMove_takeFrame t (.portReset p bytes))
  case readEntry p m bytes => exact one (workMove_upstream fun t => workMove_takeFrame t (.readEntry p m bytes))
  case readTarget p m bytes => exact one (workMove_upstream fun t => workMove_takeFrame t (.readTarget p m bytes))
  case stageEntry p bytes => exact one (workMove_upstream fun t => workMove_takeFrame t (.stageEntry p bytes))
  case copyActive p bytes => exact one (workMove_upstream fun t => workMove_takeFrame t (.copyActive p bytes))
  case apply p bytes => exact one (workMove_upstream fun t => workMove_takeFrame t (.apply p bytes))
  case applySucceeds =>
    apply one
    split
    · exact R
    · exact workMove_applyTaken R
  case setupTarget p bytes => exact one (workMove_upstream fun t => workMove_takeFrame t (.setupTarget p bytes))
  case removeTarget p bytes => exact one (workMove_upstream fun t => workMove_takeFrame t (.removeTarget p bytes))
  case resetTarget p bytes => exact one (workMove_upstream fun t => workMove_takeFrame t (.resetTarget p bytes))
  case targetResetClaim x =>
    apply one
    split
    · exact workMove_settleTargetReset R
    · exact R
  case resetBus p bytes => exact one (workMove_upstream fun t => workMove_takeFrame t (.resetBus p bytes))
  case busResetClaim b =>
    apply one
    split
    · exact R
    · exact workMove_settleBusReset R
  case busMode p bytes => exact one (workMove_upstream fun t => workMove_takeFrame t (.busMode p bytes))
  case badcode p code bytes => exact one (workMove_upstream fun t => workMove_takeFrame t (.badcode p code bytes))
  case frameWithoutCode p => exact one (workMove_upstream fun t => workMove_takeFrame t (.frameWithoutCode p))
  case summaryByte p =>
    apply one
    split
    · exact R
    · split
      · exact workMove_still R rfl rfl rfl rfl
      · exact (workMove_settle R).trans (workMove_takeFrame _ (.summaryByte p))
  case deviceReset =>
    refine .single (.device _ _ (fun b => ?_) rfl rfl rfl)
    simp [State.bus, State.reset]
  case resetRelease auth csLow =>
    apply one
    split
    · exact workMove_releaseAll (t := { s with resetLow := false, authority := auth.toFin }) (workMove_still R rfl rfl rfl rfl)
    · exact R
  case admission =>
    split
    · exact .refl
    · dsimp only
      have h1 : WorkMove s s.settle := workMove_settle R
      split
      · exact (one h1).tail (admitHead_begins _ _ _)
      · exact one h1
  case insertion =>
    split
    · rename_i p x it hc
      have h1 : WorkMove s (s.takeRevocations (busOf it.target)) := workMove_takeRevocations R
      exact (one h1).trans (insertion_steps (h1.current.trans hc))
    all_goals exact .refl
  case revocationClaim b =>
    apply one
    split
    · exact R
    · exact workMove_revoke (workMove_modBus R (fun e => .aside e _ rfl rfl rfl))
  case cancelClaim p b =>
    apply one
    split
    · exact workMove_cancelItem (workMove_modBus R (fun e => .aside e _ rfl rfl rfl))
    · exact R
  case choice b =>
    apply one
    split
    · exact R
    · dsimp only
      split
      · rename_i hc
        exact (workMove_settle R).trans (workMove_startChosen (choose_float hc))
      · exact workMove_settle R
  case dataByteReceived b sdi =>
    apply one
    split
    · rename_i r it hs
      have hf : (s.bus b).frame ≠ none := by
        intro hn; simp [BusEngine.serving, hn] at hs
      split
      · exact workMove_modPort (workMove_setBus R
          (.tail (.single (move_modItem _ it.uid (·.receive (r.framing.bitOrder.received sdi)) fun _ => ⟨rfl, rfl⟩)) (.frame _ _ (.inr hf))))
      · exact R
    · exact R
  case dataByteSent b =>
    apply one
    split
    · rename_i r it hs
      have hf : (s.bus b).frame ≠ none := by
        intro hn; simp [BusEngine.serving, hn] at hs
      split
      · exact workMove_setBus R (.tail (.single (move_modItem _ it.uid (fun x => { x with bytesMoved := x.bytesMoved + 1 })
          fun _ => ⟨rfl, rfl⟩)) (.frame _ _ (.inr hf)))
      · exact R
    · exact R
  case readFrameEnd b =>
    apply one
    split
    · split
      · exact workMove_releaseBus (workMove_finish R)
      · exact R
    · exact R
  case writeEnableFrameEnd b =>
    apply one
    split
    · rename_i r hr
      split
      · exact workMove_setBus R (.single (.frame _ _ (.inr (by simp [hr]))))
      · exact R
    · exact R
  case programPairEnd b =>
    apply one
    split
    · split
      · apply workMove_releaseBus
        split
        · exact workMove_finish R
        · exact workMove_modBus (workMove_modTarget R) (fun e => move_modItem e _ _ fun _ => ⟨rfl, rfl⟩)
      · exact R
    · exact R
  case erasePairEnd b =>
    apply one
    split
    · split
      · apply workMove_releaseBus
        split
        · exact workMove_finish R
        · exact workMove_modBus (workMove_modTarget R) (fun e => move_modItem e _ _ fun _ => ⟨rfl, rfl⟩)
      · exact R
    · exact R
  case statusFrameEnd b sdi =>
    apply one
    split
    · split
      · apply workMove_releaseBus
        apply workMove_finishStatusItem
        split
        · exact R
        · exact workMove_statusResult R
      · exact R
    · exact R
  case suspendFrameEnd b =>
    apply one
    split
    · split
      · apply workMove_releaseBus
        split
        · exact R
        · exact workMove_suspendEnd R
      · exact R
    · exact R
  case resumeFrameEnd b =>
    apply one
    split
    · split
      · apply workMove_releaseBus
        split
        · exact R
        · exact workMove_resumeEnd R
      · exact R
    · exact R
  case resetFrameEnd b =>
    apply one
    split
    · split
      · apply workMove_releaseBus
        split
        · exact R
        · exact workMove_modTarget R
      · exact R
    · exact R
  case pollTimerExpiry x => exact timer x fun u n k => workMove_modTarget (workMove_elapse k)
  case programTimerExpiry x => exact timer x fun u n k => workMove_limitExpires (workMove_elapse k)
  case busyTimeReachesTel x => exact timer x fun u n k => workMove_limitExpires (workMove_elapse k)
  case holdOffTimerExpiry x => exact timer x fun u n k => workMove_modTarget (workMove_elapse k)
  case suspendLatencyTimerExpiry x => exact timer x fun u n k => workMove_limitExpires (workMove_elapse k)
  case suspendedTimerExpiry x => exact timer x fun u n k => workMove_modTarget (workMove_elapse k)
  case recoveryTimerExpiry x => exact timer x fun u n k => workMove_modTarget (workMove_elapse k)
  case completionPost =>
    split
    · rename_i p x slot r hc
      refine .trans (one (workMove_still (u := (s.modPort p (·.post slot r)).headServed p) R rfl rfl rfl rfl)) ?_
      exact endAdmission_ends _
    all_goals exact .refl

/-- A condition that every step of the work lists keeps is kept by every step; it does not speak of the queue of commands. -/
theorem step_keeps_work {I : State → Prop} (hI : ∀ u v, WorkStep u v → I u → I v)
    (hq : ∀ u l, I u → I { u with pending := l }) {s t : State} (h : step s = .next t) (hs : I s) : I t := by
  unfold step at h
  split at h
  · injection h with h; subst h; exact hI _ _ (.moves _ _ (workMove_elapse (workMove_settle (.refl s)))) hs
  · rename_i rest _
    have key : ∀ u v, WorkSteps u v → I u → I v := by
      intro u v huv hu
      induction huv with
      | refl => exact hu
      | tail _ m ih => exact hI _ _ m ih
    exact key _ _ (exec_workSteps h) (hq s rest hs)

end Sys2Proof.Machine
end

