-- ==== Sys2Proof/Laws/Choice.lean ====
section
/-! SUPPORT. How the searches of the choice at a frame boundary find what they take: the first target of a bus, the first from a
pointer on, the first item of a list; and the conditions they test, in words. -/

namespace Sys2Proof.Machine

/-! ### Searches -/

theorem busOf_targetOf (b : Bus) (k : Fin 4) : busOf (targetOf b k) = b := by revert b k; decide

theorem chipSelectOf_targetOf (b : Bus) (k : Fin 4) : chipSelectOf (targetOf b k) = k := by revert b k; decide

theorem targetOf_chipSelectOf (x : Target) : targetOf (busOf x) (chipSelectOf x) = x := by revert x; decide

theorem busOf_mem {b : Bus} {x : Target} (h : x ∈ targetsOf b) : busOf x = b := by revert b x; decide

/-- The lowest-numbered target of a bus that passes a test is found. -/
theorem find_lowest {b : Bus} {f : Target → Bool} {x : Target} (hb : busOf x = b) (hx : f x = true)
    (hl : ∀ y, y.val < x.val → busOf y = b → f y = false) : (targetsOf b).find? f = some x := by
  obtain ⟨k, rfl⟩ : ∃ k, x = targetOf b k := ⟨chipSelectOf x, by rw [← hb, targetOf_chipSelectOf]⟩
  have low : ∀ j : Fin 4, j.val < k.val → f (targetOf b j) = false := fun j hj =>
    hl _ (by simp only [targetOf]; omega) (busOf_targetOf b j)
  unfold targetsOf
  match k, hx, low with
  | 0, hx, _ => rw [List.find?_cons_of_pos hx]
  | 1, hx, low =>
    rw [List.find?_cons_of_neg (by simp [low 0 (by decide)]), List.find?_cons_of_pos hx]
  | 2, hx, low =>
    rw [List.find?_cons_of_neg (by simp [low 0 (by decide)]), List.find?_cons_of_neg (by simp [low 1 (by decide)]),
      List.find?_cons_of_pos hx]
  | 3, hx, low =>
    rw [List.find?_cons_of_neg (by simp [low 0 (by decide)]), List.find?_cons_of_neg (by simp [low 1 (by decide)]),
      List.find?_cons_of_neg (by simp [low 2 (by decide)]), List.find?_cons_of_pos hx]

theorem find_targets_none {b : Bus} {f : Target → Bool} (h : ∀ y, busOf y = b → f y = false) :
    (targetsOf b).find? f = none := by
  rw [List.find?_eq_none]
  intro x hx
  simp [h x (busOf_mem hx)]

theorem cyclic_sub (c j : Fin 4) : c + j - c = j := by revert c j; decide

theorem cyclic_exists (c k : Fin 4) : ∃ d, k = c + d := ⟨k - c, by revert c k; decide⟩

/-- The first from a pointer on, in cyclic order. -/
theorem findSome_cyclic {α : Type} {f : Fin 4 → Option α} {c k : Fin 4} {x : α} (hk : f k = some x)
    (h : ∀ j, (f j).isSome = true → (k - c).val ≤ (j - c).val) : [c, c + 1, c + 2, c + 3].findSome? f = some x := by
  obtain ⟨d, rfl⟩ := cyclic_exists c k
  have low : ∀ j : Fin 4, j.val < d.val → f (c + j) = none := fun j hj => by
    by_contra hn
    have := h (c + j) (by simpa [Option.isSome_iff_ne_none] using hn)
    rw [cyclic_sub, cyclic_sub] at this
    omega
  simp only [List.findSome?_cons, List.findSome?_nil]
  have c0 : c + 0 = c := add_zero c
  match d, hk, low with
  | 0, hk, _ => rw [c0] at hk; simp [hk]
  | 1, hk, low => have := low 0 (by decide); rw [c0] at this; simp [hk, this]
  | 2, hk, low => have := low 0 (by decide); rw [c0] at this; simp [hk, this, low 1 (by decide)]
  | 3, hk, low => have := low 0 (by decide); rw [c0] at this; simp [hk, this, low 1 (by decide), low 2 (by decide)]

theorem find_cyclic {g : Fin 4 → Bool} {c k : Fin 4} (hk : g k = true)
    (h : ∀ j, g j = true → (k - c).val ≤ (j - c).val) : [c, c + 1, c + 2, c + 3].find? g = some k := by
  have := findSome_cyclic (f := fun j => if g j then some j else none) (x := k) (by simp [hk])
    (fun j hj => h j (by by_contra hn; simp [hn] at hj))
  rw [← this]
  simp only [List.findSome?_cons, List.findSome?_nil, List.find?_cons, List.find?_nil]
  cases g c <;> cases g (c + 1) <;> cases g (c + 2) <;> cases g (c + 3) <;> rfl

/-- The first item of a list that passes a test. -/
theorem find_first {f : Item → Bool} {l before after : List Item} {it : Item} (hl : l = before ++ it :: after)
    (h : f it = true) (hb : ∀ x ∈ before, f x = false) : l.find? f = some it := by
  subst hl
  rw [List.find?_append, List.find?_eq_none.2 (fun x hx => by simp [hb x hx]), List.find?_cons_of_pos h]
  rfl

/-- The items before the first one with a reference. -/
theorem takeWhile_before {before after : List Item} {it : Item} (h : ∀ x ∈ before, x.uid ≠ it.uid) :
    (before ++ it :: after).takeWhile (fun x => x.uid != it.uid) = before := by
  induction before with
  | nil => simp
  | cons a r ih =>
    simp only [List.cons_append]
    rw [List.takeWhile_cons_of_pos (by simpa using h a (by simp)), ih (fun x hx => h x (by simp [hx]))]

/-! ### Conditions -/

/-- Two ranges overlap when they share an address (R75). -/
theorem overlaps_iff (it : Item) (u : UnitRange) : it.overlaps u = true ↔
    ∃ a, it.address ≤ a ∧ a < it.address + it.length ∧ u.first ≤ a ∧ a < u.first + u.size.bytes := by
  simp only [Item.overlaps, decide_eq_true_eq]
  constructor
  · intro h
    exact ⟨max it.address u.first, by omega⟩
  · rintro ⟨a, h⟩
    omega

theorem resetDue_iff (r : TargetRecord) :
    r.resetDue = true ↔ r.state = .resetting ∧ ∃ pr, r.pendingReset = some pr ∧ 0 < pr.toSend := by
  unfold TargetRecord.resetDue
  rw [Bool.and_eq_true, decide_eq_true_eq]
  refine and_congr_right fun _ => ?_
  cases r.pendingReset <;> simp

theorem pollDue_iff (r : TargetRecord) :
    r.pollDue = true ↔ r.poll = .expired ∧ (r.state = .programming ∨ r.state = .erasing ∨ r.state = .suspending) := by
  unfold TargetRecord.pollDue
  simp [or_assoc]

/-- CHOICE on an IDLE bus, with nothing that stands ready. -/
theorem choice_idle {s : State} {b : Bus} {c : Chosen} (hs : s.stands = false) (hf : (s.bus b).frame = none)
    (h : s.choose b = some c) : execChoice b s = .next (s.startChosen b c) := by
  unfold execChoice
  simp only [hf, settle_none hs, h]

theorem choice_nothing {s : State} {b : Bus} (hs : s.stands = false) (h : s.choose b = none) :
    execChoice b s = .next s := by
  unfold execChoice
  simp only [settle_none hs, h]
  cases (s.bus b).frame <;> rfl

end Sys2Proof.Machine
end

