-- ==== Sys2Proof/Laws/Owners.lean ====
section
/-! SUPPORT. The account of the items, the frames that serve them and the targets they own (R28, R64, R75, R77, R86): what each
change of a list, a frame or a target does to it. -/

namespace Sys2Proof.Machine

/-- A frame fits a list: its target, and the item that it serves (R77, R82). -/
def FrameFits (s : State) (b : Bus) (l : List Item) (r : FrameRecord) : Prop :=
  busOf r.target = b ∧ (∀ uid, r.item = some uid → uid < s.nextUid) ∧
    ∀ it ∈ l, r.item = some it.uid → it.state = .active ∧ it.target = r.target ∧ r.kind = it.kind.served ∧
      (r.pair ≠ none → r.overtaken = false → (s.target r.target).state = .idle)

/-- An item is OWNER-BUSY or OWNER-SUSPENDED. -/
def Item.owns (it : Item) : Prop := it.state = .ownerBusy ∨ it.state = .ownerSuspended

/-- An item of a list that has received bytes is in its frame (R86). -/
def Item.placed (it : Item) (b : Bus) : Prop :=
  busOf it.target = b ∧ (it.kind = .read → 0 < it.bytesMoved → it.state = .active)

theorem workAccount_frames {s : State} (h : WorkAccount s) {b : Bus} {r : FrameRecord} (hr : (s.bus b).frame = some r) :
    FrameFits s b (s.bus b).list r := h.frames b r hr

/-- Frames and lists as they were, and targets. -/
theorem WorkAccount.still {s t : State} (h : WorkAccount s)
    (hb : ∀ b, (t.bus b).list = (s.bus b).list ∧ (t.bus b).frame = (s.bus b).frame) (ht : t.targets = s.targets)
    (hu : t.nextUid = s.nextUid) : WorkAccount t := by
  have ht : ∀ x, t.target x = s.target x := fun x => by simp [State.target, ht]
  refine ⟨fun b => ?_, fun b => ?_, fun b r hr => ?_, fun x => ?_, fun x uid ho => ?_⟩
  · rw [(hb b).1, hu]; exact h.distinct b
  · rw [(hb b).1]; exact h.items b
  · rw [(hb b).2] at hr
    simp only [(hb b).1, hu, ht]
    exact h.frames b r hr
  · rw [ht]; exact h.lives x
  · rw [ht] at ho
    rw [(hb _).1]; exact h.owned x uid ho

/-- One Bus Engine changes. -/
theorem WorkAccount.bus {s t : State} {b : Bus} (h : WorkAccount s) (hb : ∀ c, c ≠ b → t.bus c = s.bus c)
    (ht : t.targets = s.targets) (hu : t.nextUid = s.nextUid)
    (hn : ((t.bus b).list.map (·.uid)).Nodup) (hi : ∀ it ∈ (t.bus b).list, it.uid < s.nextUid ∧ it.placed b)
    (hf : ∀ r, (t.bus b).frame = some r → FrameFits s b (t.bus b).list r)
    (ho : ∀ x uid, (s.target x).owner = some uid → busOf x = b →
      ∃ it ∈ (t.bus b).list, it.uid = uid ∧ it.target = x ∧ it.owns) : WorkAccount t := by
  have ht : ∀ x, t.target x = s.target x := fun x => by simp [State.target, ht]
  refine ⟨fun c => ?_, fun c => ?_, fun c r hr => ?_, fun x => ?_, fun x uid hx => ?_⟩
  · by_cases hc : c = b
    · subst hc; rw [hu]; exact ⟨hn, fun it hit => (hi it hit).1⟩
    · rw [hb c hc, hu]; exact h.distinct c
  · by_cases hc : c = b
    · subst hc; exact fun it hit => (hi it hit).2
    · rw [hb c hc]; exact h.items c
  · by_cases hc : c = b
    · subst hc
      simp only [hu, ht]
      exact hf r hr
    · rw [hb c hc] at hr
      simp only [hb c hc, hu, ht]
      exact h.frames c r hr
  · rw [ht]; exact h.lives x
  · rw [ht] at hx
    by_cases hc : busOf x = b
    · rw [hc]; exact ho x uid hx hc
    · rw [hb _ hc]; exact h.owned x uid hx

/-- Items leave a list; those that targets own stay. -/
theorem WorkAccount.filter {s t : State} {b : Bus} {g : Item → Bool} (h : WorkAccount s)
    (hb : ∀ c, c ≠ b → t.bus c = s.bus c) (ht : t.targets = s.targets) (hu : t.nextUid = s.nextUid)
    (hl : (t.bus b).list = (s.bus b).list.filter g)
    (hf : ∀ r, (t.bus b).frame = some r → FrameFits s b (t.bus b).list r)
    (ho : ∀ it ∈ (s.bus b).list, g it = false → ∀ x, busOf x = b → (s.target x).owner ≠ some it.uid) : WorkAccount t := by
  refine h.bus hb ht hu ?_ (fun it hit => ?_) hf fun x uid hx hc => ?_
  · rw [hl]; exact (h.distinct b).1.sublist (List.Sublist.map _ (List.filter_sublist ..))
  · rw [hl] at hit
    have hm := (List.mem_filter.1 hit).1
    exact ⟨(h.distinct b).2 it hm, h.items b it hm⟩
  · obtain ⟨it, hm, hit⟩ := h.owned x uid hx
    rw [hc] at hm
    refine ⟨it, ?_, hit⟩
    rw [hl, List.mem_filter]
    refine ⟨hm, ?_⟩
    cases hg : g it
    · exact absurd (hit.1 ▸ hx) (ho it hm hg x hc)
    · rfl

/-- A frame that fits a list fits what is left of it. -/
theorem FrameFits.filter {s : State} {b : Bus} {l : List Item} {r : FrameRecord} (g : Item → Bool) (h : FrameFits s b l r) :
    FrameFits s b (l.filter g) r :=
  ⟨h.1, h.2.1, fun it hit => h.2.2 it (List.mem_filter.1 hit).1⟩

/-- The items of a list change. -/
theorem WorkAccount.map {s t : State} {b : Bus} {f : Item → Item} (h : WorkAccount s)
    (hb : ∀ c, c ≠ b → t.bus c = s.bus c) (ht : t.targets = s.targets) (hu : t.nextUid = s.nextUid)
    (hl : (t.bus b).list = (s.bus b).list.map f)
    (hf : ∀ r, (t.bus b).frame = some r → FrameFits s b (t.bus b).list r)
    (hi : ∀ it ∈ (s.bus b).list, (f it).uid = it.uid ∧ (f it).target = it.target ∧
      ((f it).kind = .read → 0 < (f it).bytesMoved → (f it).state = .active) ∧ (it.owns → (f it).owns)) : WorkAccount t := by
  refine h.bus hb ht hu ?_ (fun it hit => ?_) hf fun x uid hx hc => ?_
  · have e : ((s.bus b).list.map f).map (·.uid) = (s.bus b).list.map (·.uid) := by
      rw [List.map_map]; exact List.map_congr_left fun it hit => (hi it hit).1
    rw [hl, e]; exact (h.distinct b).1
  · rw [hl, List.mem_map] at hit
    obtain ⟨it, hm, rfl⟩ := hit
    have e := hi it hm
    refine ⟨e.1 ▸ (h.distinct b).2 it hm, ?_, e.2.2.1⟩
    rw [e.2.1]; exact (h.items b it hm).1
  · obtain ⟨it, hm, h1, h2, h3⟩ := h.owned x uid hx
    rw [hc] at hm
    have e := hi it hm
    refine ⟨f it, ?_, e.1.trans h1, e.2.1.trans h2, e.2.2.2 h3⟩
    rw [hl]; exact List.mem_map_of_mem hm

/-- A frame that fits a list fits its changed items. -/
theorem FrameFits.map {s : State} {b : Bus} {l : List Item} {r : FrameRecord} {f : Item → Item} (h : FrameFits s b l r)
    (hf : ∀ it ∈ l, (f it).uid = it.uid ∧ (f it).target = it.target ∧ (f it).kind = it.kind ∧
      (it.state = .active → (f it).state = .active)) : FrameFits s b (l.map f) r := by
  refine ⟨h.1, h.2.1, fun it hit hr => ?_⟩
  obtain ⟨x, hx, rfl⟩ := List.mem_map.1 hit
  have e := hf x hx
  obtain ⟨h1, h2, h3, h4⟩ := h.2.2 x hx (e.1 ▸ hr)
  exact ⟨e.2.2.2 h1, e.2.1.trans h2, e.2.2.1 ▸ h3, h4⟩

/-- The same frame at another moment, or one no longer in a pair. -/
theorem FrameFits.like {s : State} {b : Bus} {l : List Item} {r q : FrameRecord} (h : FrameFits s b l r)
    (ht : q.target = r.target) (hi : q.item = r.item) (hk : q.kind = r.kind)
    (hp : q.pair ≠ none → q.overtaken = false → r.pair ≠ none ∧ r.overtaken = false) : FrameFits s b l q := by
  refine ⟨ht ▸ h.1, hi ▸ h.2.1, fun it hit hr => ?_⟩
  obtain ⟨h1, h2, h3, h4⟩ := h.2.2 it hit (hi ▸ hr)
  refine ⟨h1, h2.trans ht.symm, hk.trans h3, fun x y => ?_⟩
  rw [ht]; exact h4 (hp x y).1 (hp x y).2

/-- One target changes. -/
theorem WorkAccount.target {s t : State} {x : Target} {r : TargetRecord} (h : WorkAccount s)
    (hb : ∀ b, (t.bus b).list = (s.bus b).list ∧ (t.bus b).frame = (s.bus b).frame) (hu : t.nextUid = s.nextUid)
    (ht : ∀ y, t.target y = if y = x then r else s.target y)
    (ho : r.Lives)
    (hown : ∀ uid, r.owner = some uid → ∃ it ∈ (s.bus (busOf x)).list, it.uid = uid ∧ it.target = x ∧ it.owns)
    (hid : ∀ f, (s.bus (busOf x)).frame = some f → f.target = x → f.pair ≠ none → f.overtaken = false →
      (∃ it ∈ (s.bus (busOf x)).list, f.item = some it.uid) → (s.target x).state = .idle → r.state = .idle) :
    WorkAccount t := by
  refine ⟨fun b => ?_, fun b => ?_, fun b f hf => ?_, fun y => ?_, fun y uid hy => ?_⟩
  · rw [(hb b).1, hu]; exact h.distinct b
  · rw [(hb b).1]; exact h.items b
  · rw [(hb b).2] at hf
    obtain ⟨h1, h2, h3⟩ := h.frames b f hf
    rw [(hb b).1, hu]
    refine ⟨h1, h2, fun it hit hr => ?_⟩
    obtain ⟨k1, k2, k3, k4⟩ := h3 it hit hr
    refine ⟨k1, k2, k3, fun hp hv => ?_⟩
    rw [ht]
    split
    · next hx =>
      subst hx
      subst h1
      exact hid f hf rfl hp hv ⟨it, hit, hr⟩ (k4 hp hv)
    · exact k4 hp hv
  · rw [ht]
    split
    · exact ho
    · exact h.lives y
  · rw [ht] at hy
    rw [(hb _).1]
    split at hy
    · next hx => subst hx; exact hown uid hy
    · exact h.owned y uid hy

/-! ### What items and targets own -/

/-- An item that is no owner is owned by no target of its bus. -/
theorem WorkAccount.unowned {s : State} (h : WorkAccount s) {b : Bus} {it : Item} (hit : it ∈ (s.bus b).list) (hn : ¬it.owns)
    (x : Target) (hx : busOf x = b) : (s.target x).owner ≠ some it.uid := by
  intro ho
  obtain ⟨o, hm, h1, _, h3⟩ := h.owned x it.uid ho
  rw [hx] at hm
  exact hn (List.inj_on_of_nodup_map (h.distinct b).1 hm hit h1 ▸ h3)

/-- An item is found by its reference. -/
theorem find_mem {e : BusEngine} {uid : Nat} {it : Item} (h : e.find uid = some it) : it ∈ e.list ∧ it.uid = uid := by
  refine ⟨List.mem_of_find?_eq_some h, ?_⟩
  have := List.find?_some h
  simpa using this

/-- The owner of a target: its item owns, stands in the list, and is owned by no other target. -/
theorem WorkAccount.owner {s : State} (h : WorkAccount s) {x : Target} {it : Item}
    (hf : (s.target x).owner.bind (s.bus (busOf x)).find = some it) :
    it ∈ (s.bus (busOf x)).list ∧ (s.target x).owner = some it.uid ∧ it.target = x ∧ it.owns ∧
      ∀ y, busOf y = busOf x → y ≠ x → (s.target y).owner ≠ some it.uid := by
  obtain ⟨uid, hu, hf⟩ := Option.bind_eq_some_iff.1 hf
  obtain ⟨hm, e⟩ := find_mem hf
  obtain ⟨o, ho, h1, h2, h3⟩ := h.owned x uid hu
  have := List.inj_on_of_nodup_map (h.distinct _).1 ho hm (h1.trans e.symm)
  subst this
  refine ⟨hm, h1 ▸ hu, h2, h3, fun y hy hne hc => ?_⟩
  obtain ⟨q, hq, k1, k2, _⟩ := h.owned y _ hc
  rw [hy] at hq
  have := List.inj_on_of_nodup_map (h.distinct _).1 hq hm k1
  subst this
  exact hne (k2.symm.trans h2)

/-- The item of the frame in flight. -/
theorem WorkAccount.serving {s : State} (h : WorkAccount s) {b : Bus} {r : FrameRecord} {it : Item}
    (hs : (s.bus b).serving = some (r, it)) : (s.bus b).frame = some r ∧ it ∈ (s.bus b).list ∧ r.item = some it.uid ∧
      it.state = .active ∧ it.target = r.target ∧ r.kind = it.kind.served ∧
      (r.pair ≠ none → r.overtaken = false → (s.target r.target).state = .idle) := by
  unfold BusEngine.serving at hs
  cases hf : (s.bus b).frame with
  | none => rw [hf] at hs; cases hs
  | some q =>
    rw [hf] at hs
    simp only [Option.map_eq_some_iff, Prod.mk.injEq] at hs
    obtain ⟨x, hx, rfl, rfl⟩ := hs
    obtain ⟨uid, hu, hx⟩ := Option.bind_eq_some_iff.1 hx
    obtain ⟨hm, e⟩ := find_mem hx
    subst e
    exact ⟨rfl, hm, hu, (h.frames b q hf).2.2 x hm hu⟩

end Sys2Proof.Machine
end

