-- ==== Sys2Proof/Laws/InOrder.lean ====
section
/-! SUPPORT. The accounts of ports, lists and targets under every operation of the block (R28, R138, R155, R156). -/

namespace Sys2Proof.Machine

/-- The accounts of the ports, the lists and the targets are in order. -/
structure Accounts (s : State) : Prop where
  ports : PortsInOrder s
  work : WorkAccount s

theorem Accounts.still {s t : State} (h : Accounts s)
    (hb : ∀ b, (t.bus b).list = (s.bus b).list ∧ (t.bus b).frame = (s.bus b).frame) (ht : t.targets = s.targets)
    (hu : t.nextUid = s.nextUid) (hp : t.ports = s.ports) : Accounts t :=
  ⟨h.ports.still (fun b => (hb b).1) hp, h.work.still hb ht hu⟩

/-- What leaves ports, lists, frames and targets as they are. -/
theorem Accounts.aside {s t : State} (h : Accounts s) (hb : t.buses = s.buses) (ht : t.targets = s.targets)
    (hu : t.nextUid = s.nextUid) (hp : t.ports = s.ports) : Accounts t :=
  h.still (fun b => by simp [State.bus, hb]) ht hu hp

/-- A change of a Bus Engine that touches neither its list nor its frame. -/
theorem Accounts.asideBus {s : State} {b : Bus} {f : BusEngine → BusEngine} (h : Accounts s)
    (hf : ∀ e, (f e).list = e.list ∧ (f e).frame = e.frame) : Accounts (s.modBus b f) :=
  h.still (fun c => by
    rw [bus_modBus]; split
    · exact hf _
    · exact ⟨rfl, rfl⟩) rfl rfl rfl

/-- A Port Unit changes in nothing its account is about. -/
theorem Accounts.modPort {s : State} {p : Port} {f : PortUnit → PortUnit} (h : Accounts s)
    (hf : PortAccount (s.itemsOf p) (s.port p) → PortAccount (s.itemsOf p) (f (s.port p))) : Accounts (s.modPort p f) :=
  ⟨h.ports.modPort hf, h.work.still (fun _ => ⟨rfl, rfl⟩) rfl rfl⟩

/-! ### Items that leave -/

theorem Accounts.finish {s : State} {b : Bus} {it : Item} {r : Completion} (h : Accounts s) (hit : it ∈ (s.bus b).list)
    (ho : ∀ x, busOf x = b → (s.target x).owner ≠ some it.uid) (hr : it.Reports r) : Accounts (s.finish b it r) := by
  refine ⟨h.ports.finish (h.work.distinct b).1 hit hr, h.work.filter (g := fun x => x.uid != it.uid)
    (fun c hc => finish_bus_other _ _ _ _ _ hc) rfl rfl (by rw [finish_bus_same]) (fun f hf => ?_) fun x _ hg y hy => ?_⟩
  · rw [finish_bus_same] at hf ⊢
    exact (workAccount_frames h.work hf).filter _
  · simp only [bne_eq_false_iff_eq] at hg
    rw [hg]; exact ho y hy

theorem Accounts.finishAll {s : State} {b : Bus} {its : List Item} {rec : Item → Completion} (h : Accounts s)
    (hm : ∀ it ∈ its, it ∈ (s.bus b).list) (hn : (its.map (·.uid)).Nodup)
    (ho : ∀ it ∈ its, ∀ x, busOf x = b → (s.target x).owner ≠ some it.uid) (hr : ∀ it ∈ its, it.Reports (rec it)) :
    Accounts (s.finishAll b its rec) := by
  have e := (finishAll_rest s b its rec).1
  refine ⟨h.ports.finishAll (h.work.distinct b).1 hm hn hr, h.work.filter
    (g := fun x => its.all (fun it => x.uid != it.uid)) (fun c hc => finishAll_bus_other _ _ _ _ _ hc) (by rw [e]) (by rw [e])
    (by rw [finishAll_bus_same]) (fun f hf => ?_) fun x hx hg y hy => ?_⟩
  · rw [finishAll_bus_same] at hf ⊢
    exact (workAccount_frames h.work hf).filter _
  · rw [List.all_eq_false] at hg
    obtain ⟨it, hit, he⟩ := hg
    simp only [bne_iff_ne, ne_eq, not_not] at he
    rw [he]; exact ho it hit y hy

/-- The items that a condition picks out of a list leave it. -/
theorem Accounts.finishSome {s : State} {b : Bus} {g : Item → Bool} {rec : Item → Completion} (h : Accounts s)
    (ho : ∀ x ∈ (s.bus b).list, g x = true → ¬x.owns) (hr : ∀ x ∈ (s.bus b).list, g x = true → x.Reports (rec x)) :
    Accounts (s.finishAll b ((s.bus b).list.filter g) rec) :=
  h.finishAll (fun _ hit => (List.mem_filter.1 hit).1)
    ((h.work.distinct b).1.sublist (List.Sublist.map _ (List.filter_sublist ..)))
    (fun it hit => h.work.unowned (List.mem_filter.1 hit).1 (ho it (List.mem_filter.1 hit).1 (List.mem_filter.1 hit).2))
    fun it hit => hr it (List.mem_filter.1 hit).1 (List.mem_filter.1 hit).2

/-- The record of an item with its bytes moved as counted. -/
theorem reports_record (it : Item) (e : Ending) (r : Reason) : it.Reports (it.record e r) := ⟨rfl, rfl, fun _ h => h⟩

/-- The record of an item that has received nothing. -/
theorem reports_unmoved {it : Item} {r : Completion} {b : Bus} (ht : r.tag = it.tag) (hk : r.kind = it.kind)
    (hp : it.placed b) (hs : it.state ≠ .active) : it.Reports r :=
  ⟨ht, hk, fun h1 h2 => absurd (hp.2 h1 h2) hs⟩

theorem owns_active {it : Item} (h : it.owns) : it.state ≠ .active := by
  rcases h with h | h <;> rw [h] <;> decide

theorem queued_active {it : Item} (h : it.state = .queued) : it.state ≠ .active := by rw [h]; decide

theorem queued_owns {it : Item} (h : it.state = .queued) : ¬it.owns := by
  rintro (e | e) <;> rw [h] at e <;> cases e

theorem active_owns {it : Item} (h : it.state = .active) : ¬it.owns := by
  rintro (e | e) <;> rw [h] at e <;> cases e

/-! ### Targets -/

theorem target_modTarget (s : State) (x y : Target) (f : TargetRecord → TargetRecord) :
    (s.modTarget x f).target y = if y = x then f (s.target x) else s.target y := by
  split
  · next h => subst h; rw [modTarget_eq, target_setTarget_same]
  · next h => rw [modTarget_eq, target_setTarget_other _ _ _ _ h]

theorem Accounts.target {s : State} {x : Target} {f : TargetRecord → TargetRecord} (h : Accounts s)
    (ho : (f (s.target x)).Lives)
    (hown : ∀ uid, (f (s.target x)).owner = some uid → ∃ it ∈ (s.bus (busOf x)).list, it.uid = uid ∧ it.target = x ∧ it.owns)
    (hid : ∀ r, (s.bus (busOf x)).frame = some r → r.target = x → r.pair ≠ none → r.overtaken = false →
      (∃ it ∈ (s.bus (busOf x)).list, r.item = some it.uid) → (s.target x).state = .idle → (f (s.target x)).state = .idle) :
    Accounts (s.modTarget x f) :=
  ⟨h.ports.still (fun _ => rfl) rfl,
    h.work.target (fun _ => ⟨rfl, rfl⟩) rfl (target_modTarget s x · f) ho hown hid⟩

/-- A target changes in neither state nor owner. -/
theorem Accounts.targetSame {s : State} {x : Target} {f : TargetRecord → TargetRecord} (h : Accounts s)
    (hs : (f (s.target x)).state = (s.target x).state) (ho : (f (s.target x)).owner = (s.target x).owner)
    (hl : (f (s.target x)).Lives) : Accounts (s.modTarget x f) := by
  refine h.target hl ?_ ?_
  · rw [ho]; exact h.work.owned x
  · rw [hs]; exact fun _ _ _ _ _ _ => id

/-- A target changes in its profile or a timer alone. -/
theorem Accounts.timer {s : State} {x : Target} {f : TargetRecord → TargetRecord} (h : Accounts s)
    (hf : ∀ r, (f r).state = r.state ∧ (f r).owner = r.owner ∧ (f r).unit = r.unit ∧ (f r).pendingReset = r.pendingReset ∧
      (f r).suspendCount = r.suspendCount ∧ (f r).busyTime = r.busyTime) : Accounts (s.modTarget x f) := by
  obtain ⟨h1, h2, h3, h4, h5, h6⟩ := hf (s.target x)
  obtain ⟨l1, l2, l3, l4⟩ := h.work.lives x
  exact h.targetSame h1 h2 ⟨by rw [h1, h2]; exact l1, by rw [h1, h3]; exact l2, by rw [h1, h4]; exact l3,
    by rw [h1, h5, h6]; exact l4⟩

/-- The target's owner, if it had one, is owned by nothing. -/
def Freed (s : State) (x : Target) (owner : Option Nat) : Prop :=
  ∀ it, owner.bind (s.bus (busOf x)).find = some it → it ∈ (s.bus (busOf x)).list ∧ it.owns ∧
    ∀ y, busOf y = busOf x → (s.target y).owner ≠ some it.uid

/-- A target gives up its owner. -/
theorem Accounts.disown {s : State} {x : Target} {f : TargetRecord → TargetRecord} (h : Accounts s)
    (hl : ∀ r, (f r).Lives) (hn : ∀ r, (f r).owner = none)
    (hid : (s.target x).state = .idle → s.frameTo x = false) :
    Accounts (s.modTarget x f) ∧ Freed (s.modTarget x f) x (s.target x).owner := by
  have h1 := hn (s.target x)
  refine ⟨h.target (hl _) (fun uid e => by rw [h1] at e; cases e) fun r hr ht _ _ _ hi => ?_, fun it hit => ?_⟩
  · have := hid hi
    simp only [State.frameTo, hr, decide_eq_false_iff_not] at this
    exact absurd ht this
  · obtain ⟨k1, k2, k3, k4, k5⟩ := h.work.owner hit
    refine ⟨k1, k4, fun y hy => ?_⟩
    rw [target_modTarget]
    split
    · rw [h1]; simp
    · next hne => exact k5 y hy hne

theorem lives_toFaulted (r : TargetRecord) : r.toFaulted.Lives := by
  constructor <;> simp [TargetRecord.toFaulted, TargetState.owned, TargetState.hasUnit]

theorem lives_toIdle (r : TargetRecord) : r.toIdle.Lives := by
  constructor <;> simp [TargetRecord.toIdle, TargetState.owned, TargetState.hasUnit]

theorem lives_toResetting (r : TargetRecord) : r.toResetting.Lives := by
  constructor <;> simp [TargetRecord.toResetting, TargetState.owned, TargetState.hasUnit]

theorem lives_absent : TargetRecord.absent.Lives := by
  constructor <;> simp [TargetRecord.absent, TargetState.owned, TargetState.hasUnit]

theorem Accounts.finishOwner {s : State} {x : Target} {owner : Option Nat} {e : Ending} {r : Reason} (h : Accounts s)
    (hf : Freed s x owner) : Accounts (s.finishOwner x owner e r) := by
  unfold State.finishOwner
  split
  · rename_i it hit
    obtain ⟨h1, h2, h3⟩ := hf it hit
    exact h.finish h1 h3 (reports_unmoved rfl rfl (h.work.items _ it h1) (owns_active h2))
  · exact h

theorem finishOwner_modTarget (s : State) (x y : Target) (f : TargetRecord → TargetRecord) (owner : Option Nat) (e : Ending)
    (r : Reason) : (s.finishOwner x owner e r).modTarget y f = (s.modTarget y f).finishOwner x owner e r := by
  unfold State.finishOwner
  have : ((s.modTarget y f).bus (busOf x)) = s.bus (busOf x) := rfl
  rw [this]
  cases owner.bind (s.bus (busOf x)).find <;> rfl

theorem Accounts.unitEndedWell {s : State} {x : Target} {owner : Option Nat} (h : Accounts s) (hf : Freed s x owner) :
    Accounts (s.unitEndedWell x owner) := by
  unfold State.unitEndedWell
  split
  · rename_i it hit
    obtain ⟨h1, h2, h3⟩ := hf it hit
    have hp := h.work.items _ it h1
    dsimp only
    split
    · refine Accounts.finish (it := it) h h1 h3 (reports_unmoved ?_ ?_ hp (owns_active h2)) <;>
        (unfold Item.recordUnitsDone; split <;> rfl)
    · have hl : ((s.modBus (busOf x) (·.modItem it.uid (fun x => { x with
          unitsDone := x.unitsDone + 1
          state := .queued }))).bus (busOf x)).list = (s.bus (busOf x)).list.map (fun i => if i.uid = it.uid then { i with
          unitsDone := i.unitsDone + 1
          state := .queued } else i) := by rw [bus_modBus, if_pos rfl]; rfl
      have hne : ∀ i ∈ (s.bus (busOf x)).list, i.uid = it.uid → i = it := fun i hi e =>
        List.inj_on_of_nodup_map (h.work.distinct _).1 hi h1 e
      have ho : ∀ c, c ≠ busOf x → (s.modBus (busOf x) (·.modItem it.uid (fun x => { x with
          unitsDone := x.unitsDone + 1
          state := .queued }))).bus c = s.bus c := fun c hc => by rw [bus_modBus, if_neg hc]
      refine ⟨h.ports.items hl (fun c hc => by rw [ho c hc]) rfl fun i hi => ?_,
        h.work.bus ho rfl rfl ?_ ?_ ?_ ?_⟩
      · split <;> exact ⟨rfl, rfl, rfl, rfl, rfl, Nat.le_refl _⟩
      · have e : ((s.bus (busOf x)).list.map (fun i => if i.uid = it.uid then { i with
          unitsDone := i.unitsDone + 1
          state := .queued } else i)).map (·.uid) = (s.bus (busOf x)).list.map (·.uid) := by
          rw [List.map_map]; exact List.map_congr_left fun i _ => by simp only [Function.comp]; split <;> rfl
        rw [hl, e]; exact (h.work.distinct _).1
      · intro i hi
        rw [hl, List.mem_map] at hi
        obtain ⟨i, hi, rfl⟩ := hi
        have k := h.work.items _ i hi
        split
        · next e =>
          refine ⟨(h.work.distinct _).2 i hi, k.1, fun hr hm => ?_⟩
          exact absurd (k.2 hr hm) (hne i hi e ▸ owns_active h2)
        · exact ⟨(h.work.distinct _).2 i hi, k⟩
      · intro f hf
        rw [hl]
        rw [bus_modBus, if_pos rfl] at hf
        obtain ⟨k1, k2, k3⟩ := workAccount_frames h.work hf
        refine ⟨k1, k2, fun i hi hr => ?_⟩
        rw [List.mem_map] at hi
        obtain ⟨i, hi, rfl⟩ := hi
        split at hr
        · next e =>
          have := (k3 i hi hr).1
          exact absurd this (hne i hi e ▸ owns_active h2)
        · next e => rw [if_neg e]; exact k3 i hi hr
      · intro y uid hy hb
        obtain ⟨i, hi, e1, e2⟩ := h.work.owned y uid hy
        rw [hb] at hi
        refine ⟨i, ?_, e1, e2⟩
        rw [hl, List.mem_map]
        refine ⟨i, hi, if_neg fun e => ?_⟩
        exact h3 y hb (hy.trans (by rw [← e1, e]))
  · exact h

theorem Accounts.raiseAt {s : State} {ports : BitVec 4} {c : Cause} (h : Accounts s) : Accounts (s.raiseAt ports c) := by
  refine ⟨h.ports.same (fun b => by simp [State.bus]) fun p => ?_,
    h.work.still (fun b => by simp [State.bus]) (raiseAt_targets ..) (raiseAt_nextUid ..)⟩
  rw [raiseAt_port]
  split
  · exact ⟨rfl, rfl, rfl, rfl, rfl, raise_captured _ _⟩
  · exact ⟨rfl, rfl, rfl, rfl, rfl, fun _ h => h⟩

theorem Accounts.fanOut {s : State} {x : Target} (h : Accounts s) : Accounts (s.fanOut x) := by
  unfold State.fanOut
  refine h.finishSome (fun it _ hg => ?_) fun it hit hg => ?_
  all_goals simp only [Bool.and_eq_true, decide_eq_true_eq] at hg
  · exact queued_owns hg.2
  · exact reports_unmoved rfl rfl (h.work.items _ it hit) (queued_active hg.2)

theorem Accounts.fault {s : State} {x : Target} (h : Accounts s) (hx : (s.target x).state ≠ .idle) :
    Accounts (s.fault x) := by
  obtain ⟨h1, h2⟩ := h.disown (x := x) lives_toFaulted (fun _ => rfl) fun e => absurd e hx
  unfold State.fault
  exact (h1.finishOwner h2).fanOut.raiseAt

theorem Accounts.takeTargetReset {s : State} {x : Target} (h : Accounts s) (hx : s.frameTo x = false) :
    Accounts (s.takeTargetReset x) := by
  obtain ⟨h1, h2⟩ := h.disown (x := x) lives_toResetting (fun _ => rfl) fun _ => hx
  unfold State.takeTargetReset
  split
  · exact h
  · exact h
  all_goals
    rw [finishOwner_modTarget]
    exact h1.finishOwner h2

/-! ### Items that change -/

/-- The items of a list change in what no account is about. -/
theorem Accounts.items {s : State} {b : Bus} {e : BusEngine} {f : Item → Item} (h : Accounts s)
    (hl : e.list = (s.bus b).list.map f)
    (hi : ∀ it ∈ (s.bus b).list, (f it).port = it.port ∧ (f it).tag = it.tag ∧ (f it).slot = it.slot ∧
      (f it).orphan = it.orphan ∧ (f it).kind = it.kind ∧ it.bytesMoved ≤ (f it).bytesMoved ∧ (f it).uid = it.uid ∧
      (f it).target = it.target)
    (hs : ∀ it ∈ (s.bus b).list, (it.kind = .read → 0 < (f it).bytesMoved → (f it).state = .active) ∧ (it.owns → (f it).owns))
    (hf : ∀ r, e.frame = some r → FrameFits s b e.list r) : Accounts (s.setBus b e) := by
  have hb : (s.setBus b e).bus b = e := bus_setBus_same s b e
  have ho : ∀ c, c ≠ b → (s.setBus b e).bus c = s.bus c := fun c hc => bus_setBus_other s b c e hc
  refine ⟨h.ports.items (b := b) (hb.symm ▸ hl) (fun c hc => by rw [ho c hc]) rfl fun it hit => ?_,
    h.work.map (b := b) ho rfl rfl (hb.symm ▸ hl) (hb.symm ▸ hf) fun it hit => ?_⟩
  · obtain ⟨h1, h2, h3, h4, h5, h6, _⟩ := hi it hit
    exact ⟨h1, h2, h3, h4, h5, h6⟩
  · obtain ⟨_, _, _, _, h5, _, h7, h8⟩ := hi it hit
    exact ⟨h7, h8, h5 ▸ (hs it hit).1, (hs it hit).2⟩

/-- The items of a list change, but not their states, while the frame stays. -/
theorem Accounts.itemsKept {s : State} {b : Bus} {e : BusEngine} {f : Item → Item} (h : Accounts s)
    (hl : e.list = (s.bus b).list.map f) (hf : e.frame = (s.bus b).frame)
    (hi : ∀ it, (f it).port = it.port ∧ (f it).tag = it.tag ∧ (f it).slot = it.slot ∧
      (f it).orphan = it.orphan ∧ (f it).kind = it.kind ∧ (f it).bytesMoved = it.bytesMoved ∧ (f it).uid = it.uid ∧
      (f it).target = it.target ∧ (f it).state = it.state) : Accounts (s.setBus b e) := by
  refine h.items hl (fun it _ => ?_) (fun it hit => ?_) fun r hr => ?_
  · obtain ⟨h1, h2, h3, h4, h5, h6, h7, h8, _⟩ := hi it
    exact ⟨h1, h2, h3, h4, h5, Nat.le_of_eq h6.symm, h7, h8⟩
  · obtain ⟨_, _, _, _, h5, h6, _, _, h9⟩ := hi it
    unfold Item.owns
    rw [h6, h9]
    exact ⟨(h.work.items b it hit).2, id⟩
  · rw [hf] at hr
    rw [hl]
    refine (workAccount_frames h.work hr).map fun it _ => ?_
    obtain ⟨_, _, _, _, h5, _, h7, h8, h9⟩ := hi it
    exact ⟨h7, h8, h5, fun e => h9.trans e⟩

/-- The frame of a bus is another moment of the same frame, or none. -/
theorem Accounts.frame {s : State} {b : Bus} {e : BusEngine} (h : Accounts s) (hl : e.list = (s.bus b).list)
    (hf : ∀ r, e.frame = some r → FrameFits s b (s.bus b).list r) : Accounts (s.setBus b e) := by
  refine h.items (f := id) (by simpa using hl) (fun it _ => ⟨rfl, rfl, rfl, rfl, rfl, Nat.le_refl _, rfl, rfl⟩)
    (fun it hit => ⟨(h.work.items b it hit).2, id⟩) fun r hr => ?_
  rw [hl]; exact hf r hr

/-! ### Claims -/

theorem endEarly_like (r : FrameRecord) : r.endEarly.target = r.target ∧ r.endEarly.item = r.item ∧ r.endEarly.kind = r.kind ∧
    r.endEarly.pair = r.pair ∧ r.endEarly.overtaken = r.overtaken := by
  unfold FrameRecord.endEarly; split <;> exact ⟨rfl, rfl, rfl, rfl, rfl⟩

theorem FrameFits.endEarly {s : State} {b : Bus} {l : List Item} {r : FrameRecord} (h : FrameFits s b l r) :
    FrameFits s b l r.endEarly := by
  obtain ⟨h1, h2, h3, h4, h5⟩ := endEarly_like r
  exact h.like h1 h2 h3 fun x y => ⟨h4 ▸ x, h5 ▸ y⟩

theorem Accounts.cancelItem {s : State} {b : Bus} {uid : Nat} (h : Accounts s) : Accounts (s.cancelItem b uid) := by
  unfold State.cancelItem
  split
  · exact h
  · rename_i it hit
    obtain ⟨hm, e⟩ := find_mem hit
    split
    · exact h
    · split
      · next hq =>
        exact Accounts.finish (it := it) h hm (h.work.unowned hm (queued_owns hq))
          (reports_unmoved rfl rfl (h.work.items b it hm) (queued_active hq))
      · dsimp only
        have h1 : Accounts (s.modBus b (·.modItem uid (fun x =>
            if ({ x with cancelSeen := true } : Item).moreUnits then ({ x with cancelSeen := true } : Item).shed .cancelled
            else { x with cancelSeen := true }))) := by
          refine h.itemsKept (f := fun it => if it.uid = uid then (fun x : Item =>
            if ({ x with cancelSeen := true } : Item).moreUnits then ({ x with cancelSeen := true } : Item).shed .cancelled
            else { x with cancelSeen := true }) it else it) rfl rfl fun x => ?_
          split
          · dsimp only
            split <;> exact ⟨rfl, rfl, rfl, rfl, rfl, rfl, rfl, rfl, rfl⟩
          · exact ⟨rfl, rfl, rfl, rfl, rfl, rfl, rfl, rfl, rfl⟩
        split
        · split
          · rename_i r hr
            split
            · refine h1.frame rfl fun q hq => ?_
              unfold BusEngine.frameOf at hr
              cases hq
              exact (workAccount_frames h1.work (Option.filter_eq_some_iff.1 hr).1).endEarly
            · exact h1
          · exact h1
        · exact h1

theorem Accounts.cancels {b : Bus} : ∀ {l : List CancelClaim} {s : State}, Accounts s →
    Accounts (l.foldl (fun s c => s.cancelItem b c.item) s) := by
  intro l
  induction l with
  | nil => intro s h; exact h
  | cons c rest ih => intro s h; exact ih h.cancelItem

theorem Accounts.takeCancels {s : State} {p : Port} {b : Bus} {sel : CancelClaim → Bool} (h : Accounts s) :
    Accounts (s.takeCancels p b sel) := by
  unfold State.takeCancels
  apply Accounts.cancels
  exact h.asideBus fun e => ⟨rfl, rfl⟩

theorem Accounts.revoke {s : State} {b : Bus} {rv : Revocation} (h : Accounts s) : Accounts (s.revoke b rv) := by
  unfold State.revoke
  refine Accounts.itemsKept (f := fun it => if decide (it.state ≠ .queued) && it.revokedBy rv && it.moreUnits
    then it.shed .revoked else it) (h.finishSome (fun it _ hg => ?_) fun it hit hg => ?_) rfl rfl fun it => ?_
  · simp only [Bool.and_eq_true, decide_eq_true_eq] at hg
    exact queued_owns hg.1
  · simp only [Bool.and_eq_true, decide_eq_true_eq] at hg
    refine reports_unmoved ?_ ?_ (h.work.items _ it hit) (queued_active hg.1) <;> rfl
  · split <;> exact ⟨rfl, rfl, rfl, rfl, rfl, rfl, rfl, rfl, rfl⟩

theorem Accounts.revokeAll {b : Bus} : ∀ {l : List Revocation} {s : State}, Accounts s →
    Accounts (l.foldl (fun s rv => s.revoke b rv) s) := by
  intro l
  induction l with
  | nil => intro s h; exact h
  | cons c rest ih => intro s h; exact ih h.revoke

theorem Accounts.takeRevocations {s : State} {b : Bus} (h : Accounts s) : Accounts (s.takeRevocations b) := by
  unfold State.takeRevocations
  apply Accounts.revokeAll
  exact h.asideBus fun e => ⟨rfl, rfl⟩

/-- Every target of a bus takes a reset; the frame in flight is overtaken, and the items it does not serve leave. -/
theorem Accounts.takeBusReset {s : State} {b : Bus} (h : Accounts s) : Accounts (s.takeBusReset b) := by
  unfold State.takeBusReset
  dsimp only
  have h0 : Accounts ((s.takeCancels s.authority b (fun c => decide (c.behind = 0))).modBus b (·.closeRanks)) :=
    h.takeCancels.asideBus fun e => ⟨rfl, rfl⟩
  generalize (s.takeCancels s.authority b (fun c => decide (c.behind = 0))).modBus b (·.closeRanks) = u at h0
  clear h s
  generalize ho : (u.bus b).list.filter (fun it => some it.uid != (u.bus b).frame.bind (·.item)) = out
  have hm : ∀ it ∈ out, it ∈ (u.bus b).list := fun it hit => by
    rw [← ho] at hit; exact (List.mem_filter.1 hit).1
  have hp := h0.ports.finishAll (rec := fun it => it.record .failed .aborted) (h0.work.distinct b).1 hm
    (by rw [← ho]; exact (h0.work.distinct b).1.sublist (List.Sublist.map _ (List.filter_sublist ..)))
    (fun it _ => reports_record it _ _)
  have hl := finishAll_bus_same u b out (fun it => it.record .failed .aborted)
  have hb := fun c => finishAll_bus_other u b c out (fun it => it.record .failed .aborted)
  have hr := (finishAll_rest u b out (fun it => it.record .failed .aborted)).1
  have hin : ∀ it ∈ ((u.finishAll b out (fun it => it.record .failed .aborted)).bus b).list,
      it ∈ (u.bus b).list ∧ (u.bus b).frame.bind (·.item) = some it.uid := by
    intro it hit
    rw [hl, List.mem_filter, List.all_eq_true] at hit
    refine ⟨hit.1, ?_⟩
    by_contra hne
    have : it ∈ out := by
      rw [← ho, List.mem_filter]
      refine ⟨hit.1, ?_⟩
      simp only [bne_iff_ne, ne_eq]
      exact fun e => hne e.symm
    have := hit.2 it this
    simp at this
  have hn : (((u.finishAll b out (fun it => it.record .failed .aborted)).bus b).list.map (·.uid)).Nodup := by
    rw [hl]; exact (h0.work.distinct b).1.sublist (List.Sublist.map _ (List.filter_sublist ..))
  have hfr : ((u.finishAll b out (fun it => it.record .failed .aborted)).bus b).frame = (u.bus b).frame := by rw [hl]
  generalize hv : u.finishAll b out (fun it => it.record .failed .aborted) = v at *
  obtain ⟨e1, e2⟩ := modTargets (targetsOf b) (fun r => if r.present then r.toResetting else r) (targetsOf_nodup b)
    (v.modBus b (fun e => { e with frame := e.frame.map (fun r => { r.endEarly with overtaken := true }) }))
  generalize (targetsOf b).foldl _ _ = t at e1 e2 ⊢
  have tb : ∀ c, t.bus c = (v.modBus b (fun e =>
      { e with frame := e.frame.map (fun r => { r.endEarly with overtaken := true }) })).bus c := by
    intro c; rw [e1]; rfl
  have tx : ∀ x, t.target x = if busOf x = b then (if (u.target x).present then (u.target x).toResetting else u.target x)
      else u.target x := by
    intro x
    have : (v.modBus b (fun e => { e with frame := e.frame.map (fun r => { r.endEarly with overtaken := true }) })).target x =
        u.target x := by
      show v.target x = _
      rw [hr]; rfl
    rw [e2, this]
    simp only [mem_targetsOf]
  have tu : t.nextUid = u.nextUid := by
    rw [e1]
    show v.nextUid = _
    rw [hr]
  have tl : ∀ c, (t.bus c).list = (v.bus c).list := by
    intro c; rw [tb, bus_modBus]; split <;> rfl
  have absent : ∀ x, busOf x = b → (t.target x).owner = none := by
    intro x hx
    rw [tx, if_pos hx]
    split
    · rfl
    · next hp =>
      have hs : (u.target x).state = .absent := by simpa [TargetRecord.present] using hp
      by_contra hne
      have := (h0.work.lives x).owner.1 hne
      rw [hs] at this
      simp [TargetState.owned] at this
  refine ⟨hp.still (t := t) tl (by rw [e1]; rfl), fun c => ?_, fun c it hit => ?_, fun c r hr' => ?_, fun x => ?_,
    fun x uid hx => ?_⟩
  · rw [tl, tu]
    by_cases hc : c = b
    · subst hc; exact ⟨hn, fun it hit => (h0.work.distinct c).2 it (hin it hit).1⟩
    · rw [hb c hc]; exact h0.work.distinct c
  · rw [tl] at hit
    by_cases hc : c = b
    · subst hc; exact h0.work.items c it (hin it hit).1
    · rw [hb c hc] at hit; exact h0.work.items c it hit
  · simp only [tl, tu]
    by_cases hc : c = b
    · subst hc
      rw [tb, bus_modBus, if_pos rfl] at hr'
      dsimp only at hr'
      rw [hfr, Option.map_eq_some_iff] at hr'
      obtain ⟨q, hq, rfl⟩ := hr'
      obtain ⟨k1, k2, k3⟩ := (workAccount_frames h0.work hq).endEarly
      refine ⟨k1, k2, fun it hit hit' => ?_⟩
      obtain ⟨m1, m2, m3, _⟩ := k3 it (hin it hit).1 hit'
      exact ⟨m1, m2, m3, fun _ x => by cases x⟩
    · rw [tb, bus_modBus, if_neg hc, hb c hc] at hr'
      obtain ⟨k1, k2, k3⟩ := h0.work.frames c r hr'
      refine ⟨k1, k2, fun it hit hit' => ?_⟩
      rw [hb c hc] at hit
      rw [tx, if_neg (by rw [k1]; exact hc)]
      exact k3 it hit hit'
  · rw [tx]
    split
    · split
      · exact lives_toResetting _
      · exact h0.work.lives x
    · exact h0.work.lives x
  · by_cases hc : busOf x = b
    · rw [absent x hc] at hx; cases hx
    · rw [tx, if_neg hc] at hx
      rw [tl, hb _ hc]
      exact h0.work.owned x uid hx

theorem Accounts.settleTargetReset {s : State} {x : Target} (h : Accounts s) (hx : s.frameTo x = false) :
    Accounts (s.settleTargetReset x) := by
  unfold State.settleTargetReset
  dsimp only
  have h1 : Accounts { s with resetClaims := s.resetClaims.filter (fun y => decide (y ≠ x)) } := h.aside rfl rfl rfl rfl
  split
  · exact h1.aside rfl rfl rfl rfl
  · exact h1.takeTargetReset hx

theorem Accounts.settleBusReset {s : State} {b : Bus} (h : Accounts s) : Accounts (s.settleBusReset b) := by
  unfold State.settleBusReset
  dsimp only
  have h1 : Accounts (s.modBus b (fun e => { e with resets := e.resets - 1 })) := h.asideBus fun e => ⟨rfl, rfl⟩
  split
  · exact h1.aside rfl rfl rfl rfl
  · exact h1.takeBusReset

/-! ### The ends of frames -/

/-- The activity of a bus becomes IDLE. -/
def State.idleBus (s : State) (b : Bus) : State := s.modBus b (fun e => { e with frame := none, sinceRelease := 0 })

theorem Accounts.idleBus {s : State} {b : Bus} (h : Accounts s) : Accounts (s.idleBus b) :=
  h.frame rfl fun r hr => by cases hr

theorem Accounts.releaseBus {s : State} {b : Bus} {x : Target} (h : Accounts (s.idleBus b)) (hx : busOf x = b) :
    Accounts (s.releaseBus b x) := by
  unfold State.releaseBus
  dsimp only
  split
  · refine Accounts.settleTargetReset h ?_
    have : ((s.idleBus b).bus (busOf x)).frame = none := by
      rw [State.idleBus, bus_modBus, if_pos hx]
    simp only [State.frameTo]
    rw [show (s.modBus b (fun e => { e with frame := none, sinceRelease := 0 })) = s.idleBus b from rfl, this]
  · exact h

/-- A pair's item becomes the owner of its target as the bus is released (R104, R107). -/
theorem Accounts.makeOwner {s : State} {b : Bus} {r : FrameRecord} {it : Item} {f : TargetRecord → TargetRecord}
    (h : Accounts s) (hs : (s.bus b).serving = some (r, it)) (hk : it.kind ≠ .read)
    (ho : (f (s.target r.target)).owner = some it.uid) (hl : (f (s.target r.target)).Lives) :
    Accounts (((s.modTarget r.target f).makeOwner b it.uid).idleBus b) := by
  obtain ⟨h1, h2, h3, h4, h5, h6, h7⟩ := h.work.serving hs
  have hb : busOf r.target = b := (workAccount_frames h.work h1).1
  let e : BusEngine := { (s.bus b).modItem it.uid (fun x => { x with state := .ownerBusy }) with
    frame := none, sinceRelease := 0 }
  have hne : ∀ i ∈ (s.bus b).list, i.uid = it.uid → i = it := fun i hi e =>
    List.inj_on_of_nodup_map (h.work.distinct _).1 hi h2 e
  have k : Accounts (s.setBus b e) := by
    refine h.items (f := fun i => if i.uid = it.uid then { i with state := .ownerBusy } else i) rfl (fun i hi => ?_)
      (fun i hi => ?_) fun q hq => by cases hq
    · split <;> exact ⟨rfl, rfl, rfl, rfl, rfl, Nat.le_refl _, rfl, rfl⟩
    · split
      · next e =>
        rw [hne i hi e]
        exact ⟨fun x => absurd x hk, fun _ => .inl rfl⟩
      · exact ⟨(h.work.items b i hi).2, id⟩
  have eq : ((s.modTarget r.target f).makeOwner b it.uid).idleBus b = (s.setBus b e).modTarget r.target f := by
    unfold State.makeOwner State.idleBus
    rw [modBus_eq, modBus_eq, setBus_setBus, bus_setBus_same]
    rfl
  rw [eq]
  refine k.target hl (fun uid hx => ?_) fun q hq => ?_
  · rw [show (s.setBus b e).target r.target = s.target r.target from rfl, ho] at hx
    cases hx
    rw [hb, bus_setBus_same]
    refine ⟨{ it with state := .ownerBusy }, ?_, rfl, h5, .inl rfl⟩
    refine List.mem_map.2 ⟨it, h2, ?_⟩
    rw [if_pos rfl]
  · rw [hb, bus_setBus_same] at hq; cases hq

theorem Accounts.restartPoll {s : State} {x : Target} (h : Accounts s) : Accounts (s.modTarget x (·.restartPoll)) :=
  h.timer fun _ => ⟨rfl, rfl, rfl, rfl, rfl, rfl⟩

theorem Accounts.programEnd {s : State} {x : Target} {f : Bool} (h : Accounts s) (hx : (s.target x).state ≠ .idle) :
    Accounts (s.programEnd x f) := by
  obtain ⟨h1, h2⟩ := h.disown (x := x) lives_toIdle (fun _ => rfl) fun e => absurd e hx
  unfold State.programEnd
  dsimp only
  split
  · exact h1.finishOwner h2
  · exact h1.finishOwner h2

theorem Accounts.eraseUnitEnd {s : State} {x : Target} {f : Bool} (h : Accounts s) (hx : (s.target x).state ≠ .idle) :
    Accounts (s.eraseUnitEnd x f) := by
  obtain ⟨h1, h2⟩ := h.disown (x := x) lives_toIdle (fun _ => rfl) fun e => absurd e hx
  unfold State.eraseUnitEnd
  dsimp only
  split
  · exact h1.finishOwner h2
  · exact h1.unitEndedWell h2

/-- A target with an owner and a unit moves among ERASING, SUSPENDING and SUSPENDED. -/
theorem Accounts.erasing {s : State} {x : Target} {f : TargetRecord → TargetRecord} (h : Accounts s)
    (hs : (s.target x).state.hasUnit)
    (hf : ∀ r, (f r).state.hasUnit ∧ (f r).owner = r.owner ∧ (f r).unit = r.unit ∧ (f r).pendingReset = r.pendingReset) :
    Accounts (s.modTarget x f) := by
  obtain ⟨h1, h2, h3, h4⟩ := hf (s.target x)
  have owned : ∀ t : TargetState, t.hasUnit → t.owned ∧ t ≠ .resetting := fun t ht => by
    rcases ht with e | e | e <;> simp [e, TargetState.owned]
  obtain ⟨l1, l2, l3, _⟩ := h.work.lives x
  refine h.target ⟨?_, ?_, ?_, fun hn => absurd h1 hn⟩ (by rw [h2]; exact h.work.owned x) fun _ _ _ _ _ _ e => ?_
  · rw [h2, l1]; exact iff_of_true (owned _ hs).1 (owned _ h1).1
  · rw [h3, l2]; exact iff_of_true hs h1
  · rw [h4, l3]; exact iff_of_false (owned _ hs).2 (owned _ h1).2
  · rw [e] at hs; rcases hs with e | e | e <;> cases e

theorem Accounts.statusResult {s : State} {x : Target} {w : Byte} (h : Accounts s) : Accounts (s.statusResult x w) := by
  unfold State.statusResult
  split
  all_goals rename_i hs _
  all_goals first
    | exact h.restartPoll
    | exact h.programEnd (by rw [hs]; decide)
    | exact h.eraseUnitEnd (by rw [hs]; decide)
    | exact h
    | exact h.erasing (by rw [hs]; exact .inr (.inl rfl)) fun r => ⟨.inr (.inr rfl), rfl, rfl, rfl⟩

theorem finishOwner_frame (s : State) (x : Target) (o : Option Nat) (e : Ending) (r : Reason) (b : Bus) :
    ((s.finishOwner x o e r).bus b).frame = (s.bus b).frame := by
  unfold State.finishOwner
  split
  · by_cases hb : b = busOf x
    · subst hb; rw [finish_bus_same]
    · rw [finish_bus_other _ _ _ _ _ hb]
  · rfl

theorem unitEndedWell_frame (s : State) (x : Target) (o : Option Nat) (b : Bus) :
    ((s.unitEndedWell x o).bus b).frame = (s.bus b).frame := by
  unfold State.unitEndedWell
  split
  · rename_i it _
    dsimp only
    split
    · by_cases hb : b = busOf x
      · subst hb; rw [finish_bus_same]
      · rw [finish_bus_other _ _ _ _ _ hb]
    · rw [bus_modBus]; split <;> rfl
  · rfl

theorem statusResult_frame (s : State) (x : Target) (w : Byte) (b : Bus) :
    ((s.statusResult x w).bus b).frame = (s.bus b).frame := by
  unfold State.statusResult State.programEnd State.eraseUnitEnd
  dsimp only
  split
  all_goals first
    | rfl
    | (split
       · exact finishOwner_frame _ _ _ _ _ _
       · first | exact finishOwner_frame _ _ _ _ _ _ | exact unitEndedWell_frame _ _ _ _)

theorem Accounts.finishStatusItem {s : State} {b : Bus} {r : FrameRecord} {w : Byte} (h : Accounts s)
    (hr : (s.bus b).frame = some r) : Accounts (s.finishStatusItem b r w) := by
  unfold State.finishStatusItem
  split
  · rename_i it hit
    obtain ⟨uid, hu, hit⟩ := Option.bind_eq_some_iff.1 hit
    obtain ⟨hm, e⟩ := find_mem hit
    subst e
    refine h.finish hm (h.work.unowned hm (active_owns ((workAccount_frames h.work hr).2.2 it hm hu).1)) ?_
    split <;> exact ⟨rfl, rfl, fun _ x => x⟩
  · exact h

/-- The owner of a target changes its state between OWNER-BUSY and OWNER-SUSPENDED. -/
theorem Accounts.modOwner {s : State} {x : Target} {f : Item → Item} (h : Accounts s)
    (hf : ∀ it, (f it).port = it.port ∧ (f it).tag = it.tag ∧ (f it).slot = it.slot ∧ (f it).orphan = it.orphan ∧
      (f it).kind = it.kind ∧ (f it).bytesMoved = it.bytesMoved ∧ (f it).uid = it.uid ∧ (f it).target = it.target ∧
      (f it).owns) : Accounts (s.modOwner x f) := by
  unfold State.modOwner
  split
  · rename_i uid hu
    have own : ∀ i ∈ (s.bus (busOf x)).list, i.uid = uid → i.owns := by
      intro i hi e
      obtain ⟨o, ho, h1, _, h3⟩ := h.work.owned x uid hu
      exact List.inj_on_of_nodup_map (h.work.distinct _).1 ho hi (h1.trans e.symm) ▸ h3
    refine h.items (f := fun i => if i.uid = uid then f i else i) rfl (fun i hi => ?_) (fun i hi => ?_) fun r hr => ?_
    · split
      · obtain ⟨h1, h2, h3, h4, h5, h6, h7, h8, _⟩ := hf i
        exact ⟨h1, h2, h3, h4, h5, Nat.le_of_eq h6.symm, h7, h8⟩
      · exact ⟨rfl, rfl, rfl, rfl, rfl, Nat.le_refl _, rfl, rfl⟩
    · split
      · next e =>
        obtain ⟨_, _, _, _, _, h6, _, _, h9⟩ := hf i
        refine ⟨fun hk hm => ?_, fun _ => h9⟩
        rw [h6] at hm
        exact absurd ((h.work.items _ i hi).2 hk hm) (owns_active (own i hi e))
      · exact ⟨(h.work.items _ i hi).2, id⟩
    · refine FrameFits.map (workAccount_frames h.work hr) fun i hi => ?_
      split
      · next e =>
        obtain ⟨_, _, _, _, h5, _, h7, h8, _⟩ := hf i
        exact ⟨h7, h8, h5, fun ha => absurd ha (owns_active (own i hi e))⟩
      · exact ⟨rfl, rfl, rfl, id⟩
  · exact h

theorem modOwner_target (s : State) (x y : Target) (f : Item → Item) : (s.modOwner x f).target y = s.target y := by
  unfold State.modOwner; split <;> rfl

theorem Accounts.suspendEnd {s : State} {x : Target} (h : Accounts s) : Accounts (s.suspendEnd x) := by
  unfold State.suspendEnd
  split
  · next hs =>
    refine Accounts.erasing (h.modOwner fun it => ⟨rfl, rfl, rfl, rfl, rfl, rfl, rfl, rfl, .inr rfl⟩)
      (by rw [modOwner_target, hs]; exact .inl rfl) fun r => ⟨.inr (.inl rfl), rfl, rfl, rfl⟩
  · exact h

theorem Accounts.resumeEnd {s : State} {x : Target} (h : Accounts s) : Accounts (s.resumeEnd x) := by
  unfold State.resumeEnd
  split
  · next hs =>
    refine Accounts.erasing (h.modOwner fun it => ⟨rfl, rfl, rfl, rfl, rfl, rfl, rfl, rfl, .inl rfl⟩)
      (by rw [modOwner_target, hs]; exact .inr (.inr rfl)) fun r => ⟨.inl rfl, rfl, rfl, rfl⟩
  · exact h

theorem Accounts.resetSent {s : State} {x : Target} (h : Accounts s) : Accounts (s.modTarget x (·.resetSent)) := by
  have hs : ∀ r : TargetRecord, r.resetSent.state = r.state ∧ r.resetSent.owner = r.owner := fun r => by
    unfold TargetRecord.resetSent
    split
    · split <;> exact ⟨rfl, rfl⟩
    · exact ⟨rfl, rfl⟩
  refine h.targetSame (hs _).1 (hs _).2 ?_
  obtain ⟨l1, l2, l3, l4⟩ := h.work.lives x
  unfold TargetRecord.resetSent
  split
  · next e _ =>
    split <;> exact ⟨l1, l2, iff_of_true (by simp) e, l4⟩
  · exact ⟨l1, l2, l3, l4⟩

/-! ### Limits and time -/

theorem Accounts.takeLimit {s : State} {x : Target} {l : Limit} (h : Accounts s) : Accounts (s.takeLimit x l) := by
  unfold State.takeLimit
  split
  · next ho =>
    refine h.fault fun e => ?_
    cases l <;> simp [TargetRecord.overLimit, TargetRecord.counting, e] at ho
  · exact h

theorem Accounts.limitExpires {s : State} {x : Target} {l : Limit} (h : Accounts s) : Accounts (s.limitExpires x l) := by
  unfold State.limitExpires
  split
  · exact h.aside rfl rfl rfl rfl
  · exact h.takeLimit

theorem elapse_like (fuel : Nat) : ∀ (n : Nat) (r : FrameRecord), (r.elapse fuel n).target = r.target ∧
    (r.elapse fuel n).item = r.item ∧ (r.elapse fuel n).kind = r.kind ∧ (r.elapse fuel n).pair = r.pair ∧
    (r.elapse fuel n).overtaken = r.overtaken := by
  induction fuel with
  | zero => exact fun _ _ => ⟨rfl, rfl, rfl, rfl, rfl⟩
  | succ fuel ih =>
    intro n r
    unfold FrameRecord.elapse
    split
    · exact ⟨rfl, rfl, rfl, rfl, rfl⟩
    · split
      · exact ⟨rfl, rfl, rfl, rfl, rfl⟩
      · exact ih _ _

theorem Accounts.elapse {s : State} {n : Nat} (h : Accounts s) : Accounts (s.elapse n) := by
  have hl : ∀ b, ((s.elapse n).bus b).list = (s.bus b).list := fun b => by rw [elapse_bus]; rfl
  have ht : ∀ x, ((s.elapse n).target x).state = (s.target x).state ∧ ((s.elapse n).target x).owner = (s.target x).owner :=
    fun x => by rw [elapse_target]; exact ⟨rfl, rfl⟩
  refine ⟨h.ports.still hl rfl, fun b => ?_, fun b => ?_, fun b r hr => ?_, fun x => ?_, fun x uid hx => ?_⟩
  · rw [hl]; exact h.work.distinct b
  · rw [hl]; exact h.work.items b
  · simp only [hl, ht]
    rw [elapse_bus] at hr
    obtain ⟨q, hq, rfl⟩ := Option.map_eq_some_iff.1 hr
    obtain ⟨h1, h2, h3, h4, h5⟩ := elapse_like q.phases n q
    exact (workAccount_frames h.work hq).like h1 h2 h3 fun x y => ⟨h4 ▸ x, h5 ▸ y⟩
  · rw [elapse_target]
    obtain ⟨l1, l2, l3, l4⟩ := h.work.lives x
    refine ⟨l1, l2, l3, fun hn hf => ?_⟩
    have hc : (s.target x).counting = false := by
      have hn : ¬(s.target x).state.hasUnit := hn
      unfold TargetRecord.counting
      cases hs : (s.target x).state <;> rw [hs] at hn <;> first | rfl | simp [TargetState.hasUnit] at hn
    obtain ⟨k1, k2⟩ := l4 hn hf
    exact ⟨k1, by simp [TargetRecord.elapse, hc, k2]⟩
  · rw [(ht x).2] at hx
    rw [hl]; exact h.work.owned x uid hx

theorem Accounts.recovered {s : State} {x : Target} (h : Accounts s) : Accounts (s.modTarget x (·.toIdle)) := by
  exact h.target (lives_toIdle _) (fun uid e => by cases e) fun _ _ _ _ _ _ _ => rfl

/-! ### The choice -/

theorem find_targets {b : Bus} {f : Target → Bool} {x : Target} (h : (targetsOf b).find? f = some x) : busOf x = b :=
  busOf_mem (List.mem_of_find?_eq_some h)

/-- What a choice may take: a target of its bus, or an eligible item of its list. -/
def State.mayTake (s : State) (b : Bus) : Chosen → Prop
  | .maintenance _ x => busOf x = b
  | .urgentItem it | .normalItem it => it ∈ (s.bus b).list ∧ s.eligible b it = true

theorem orElse_some {α : Type} {x y : Option α} {c : α} (h : (x <|> y) = some c) : x = some c ∨ y = some c := by
  cases x with
  | none => exact .inr h
  | some a => exact .inl h

theorem choose_takes {s : State} {b : Bus} {c : Chosen} (h : s.choose b = some c) : s.mayTake b c := by
  have l1 : s.level1 b = some c → s.mayTake b c := fun h => by
    obtain ⟨x, hx, rfl⟩ := Option.map_eq_some_iff.1 h
    exact find_targets hx
  have l2 : s.level2 b = some c → s.mayTake b c := fun h => by
    obtain ⟨x, hx, rfl⟩ := Option.map_eq_some_iff.1 h
    exact busOf_targetOf _ _
  have l3 : s.level3 b = some c → s.mayTake b c := fun h => by
    obtain ⟨x, hx, rfl⟩ := Option.map_eq_some_iff.1 h
    exact find_targets hx
  have l4 : s.level4 b = some c → s.mayTake b c := fun h => by
    obtain ⟨x, hx, rfl⟩ := Option.map_eq_some_iff.1 h
    exact find_targets hx
  have l5 : s.level5 b = some c → s.mayTake b c := fun h => by
    obtain ⟨x, hx, rfl⟩ := Option.map_eq_some_iff.1 h
    have := List.find?_some hx
    simp only [Bool.and_eq_true] at this
    exact ⟨List.mem_of_find?_eq_some hx, this.2⟩
  have l6 : s.level6 b = some c → s.mayTake b c := fun h => by
    obtain ⟨x, hx, rfl⟩ := Option.map_eq_some_iff.1 h
    obtain ⟨q, _, hq⟩ := List.exists_of_findSome?_eq_some hx
    have := List.find?_some hq
    simp only [Bool.and_eq_true] at this
    exact ⟨List.mem_of_find?_eq_some hq, this.2⟩
  unfold State.choose at h
  split at h
  · cases h
  · rcases orElse_some h with h | h
    · exact l1 h
    · rcases orElse_some h with h | h
      · exact l2 h
      · exact l3 h
  · rcases orElse_some h with h | h
    · exact l1 h
    · rcases orElse_some h with h | h
      · exact l2 h
      · rcases orElse_some h with h | h
        · exact l3 h
        · rcases orElse_some h with h | h
          · exact l4 h
          · rcases orElse_some h with h | h
            · exact l5 h
            · exact l6 h

theorem itemFrame_like (s : State) (b : Bus) (it : Item) : (s.itemFrame b it).target = it.target ∧
    (s.itemFrame b it).item = some it.uid ∧ (s.itemFrame b it).kind = it.kind.served ∧
    ((s.itemFrame b it).pair ≠ none → it.kind = .program ∨ it.kind = .erase) := by
  unfold State.itemFrame
  cases hk : it.kind <;> simp [Kind.served]

/-- An item becomes ACTIVE and its frame starts (R77). -/
theorem Accounts.startItem {s : State} {b : Bus} {it : Item} (h : Accounts s) (hm : it ∈ (s.bus b).list)
    (he : s.eligible b it = true) : Accounts (s.startItem b it) := by
  simp only [State.eligible, BusEngine.eligibleApart, Bool.and_eq_true, decide_eq_true_eq] at he
  have hne : ∀ i ∈ (s.bus b).list, i.uid = it.uid → i = it := fun i hi e =>
    List.inj_on_of_nodup_map (h.work.distinct _).1 hi hm e
  obtain ⟨f1, f2, f3, f4⟩ := itemFrame_like s b it
  refine h.items (f := fun i => if i.uid = it.uid then { i with state := .active } else i) rfl (fun i hi => ?_)
    (fun i hi => ?_) fun r hr => ?_
  · split <;> exact ⟨rfl, rfl, rfl, rfl, rfl, Nat.le_refl _, rfl, rfl⟩
  · split
    · next e => exact ⟨fun _ _ => rfl, fun ho => absurd ho (hne i hi e ▸ queued_owns he.1.1)⟩
    · exact ⟨(h.work.items b i hi).2, id⟩
  · cases hr
    refine ⟨by rw [f1]; exact (h.work.items b it hm).1, fun uid hu => ?_, fun i hi hr => ?_⟩
    · rw [f2] at hu; cases hu; exact (h.work.distinct b).2 it hm
    · obtain ⟨j, hj, rfl⟩ := List.mem_map.1 hi
      rw [f2, Option.some.injEq] at hr
      by_cases e : j.uid = it.uid
      · have := hne j hj e
        subst this
        rw [if_pos rfl]
        refine ⟨rfl, f1.symm, f3, fun hp _ => ?_⟩
        rw [f1]
        have ha := he.2
        unfold Item.stateAllows at ha
        rcases f4 hp with hk | hk <;> rw [hk] at ha <;> cases hst : (s.target j.target).state <;> rw [hst] at ha <;>
          first | rfl | cases ha
      · rw [if_neg e] at hr
        exact absurd hr.symm e

theorem Accounts.startChosen {s : State} {b : Bus} {c : Chosen} (h : Accounts s) (hc : s.mayTake b c) :
    Accounts (s.startChosen b c) := by
  cases c with
  | maintenance kind x =>
    refine h.frame rfl fun r hr => ?_
    cases hr
    refine ⟨hc, fun uid hu => ?_, fun it _ hu => ?_⟩ <;> cases hu
  | urgentItem it => exact h.startItem hc.1 hc.2
  | normalItem it =>
    exact (h.startItem hc.1 hc.2).asideBus (f := fun e => { e with portPtr := it.port + 1 }) fun e => ⟨rfl, rfl⟩

/-! ### Data bytes (R86, R87) -/

/-- The item of the frame in flight moves one more byte. -/
theorem Accounts.moveByte {s : State} {b : Bus} {r q : FrameRecord} {it : Item} {f : Item → Item} (h : Accounts s)
    (hs : (s.bus b).serving = some (r, it)) (hq : q = { r with progress := q.progress })
    (hf : ∀ i, (f i).port = i.port ∧ (f i).tag = i.tag ∧ (f i).slot = i.slot ∧ (f i).orphan = i.orphan ∧
      (f i).kind = i.kind ∧ (f i).bytesMoved = i.bytesMoved + 1 ∧ (f i).uid = i.uid ∧ (f i).target = i.target ∧
      (f i).state = i.state) : Accounts (s.modBus b (fun e => (e.modItem it.uid f).start q)) := by
  obtain ⟨h1, h2, h3, h4, h5, h6, h7⟩ := h.work.serving hs
  have hne : ∀ i ∈ (s.bus b).list, i.uid = it.uid → i = it := fun i hi e =>
    List.inj_on_of_nodup_map (h.work.distinct _).1 hi h2 e
  refine h.items (f := fun i => if i.uid = it.uid then f i else i) rfl (fun i hi => ?_) (fun i hi => ?_) fun r' hr => ?_
  · split
    · obtain ⟨k1, k2, k3, k4, k5, k6, k7, k8, _⟩ := hf i
      exact ⟨k1, k2, k3, k4, k5, by omega, k7, k8⟩
    · exact ⟨rfl, rfl, rfl, rfl, rfl, Nat.le_refl _, rfl, rfl⟩
  · split
    · next e =>
      obtain ⟨_, _, _, _, _, _, _, _, k9⟩ := hf i
      unfold Item.owns
      rw [k9, hne i hi e]
      exact ⟨fun _ _ => h4, id⟩
    · exact ⟨(h.work.items b i hi).2, id⟩
  · cases hr
    refine FrameFits.map ((workAccount_frames h.work h1).like (by rw [hq]) (by rw [hq]) (by rw [hq]) fun x y => ?_)
      fun i hi => ?_
    · rw [hq] at x y; exact ⟨x, y⟩
    · split
      · obtain ⟨_, _, _, _, k5, _, k7, k8, k9⟩ := hf i
        exact ⟨k7, k8, k5, fun e => k9.trans e⟩
      · exact ⟨rfl, rfl, rfl, id⟩

/-- A data byte of a READ is counted and stored (R86). -/
theorem Accounts.receive {s : State} {b : Bus} {r q : FrameRecord} {it : Item} {data : Byte} (h : Accounts s)
    (hs : (s.bus b).serving = some (r, it)) (hk : r.kind = .read) (hq : q = { r with progress := q.progress }) :
    Accounts ((s.modBus b (fun e => (e.modItem it.uid (·.receive data)).start q)).modPort it.port
      (·.modSlot? it.slot (fun k => { k with data := k.data.write it.bytesMoved data }))) := by
  obtain ⟨h1, h2, h3, h4, h5, h6, h7⟩ := h.work.serving hs
  refine (h.moveByte (f := (·.receive data)) hs hq fun i => ⟨rfl, rfl, rfl, rfl, rfl, rfl, rfl, rfl, rfl⟩).modPort fun ha => ?_
  have hkind : it.kind = .read := by
    rw [hk] at h6; cases hk' : it.kind <;> rw [hk'] at h6 <;> first | rfl | cases h6
  refine ha.store (it := it.receive data) (x := it.bytesMoved) (w := data) (mem_itemsOf.2 ⟨⟨b, ?_⟩, rfl⟩) hkind (Nat.succ_pos _)
  rw [bus_modBus, if_pos rfl]
  refine List.mem_map.2 ⟨it, h2, ?_⟩
  rw [if_pos rfl]

end Sys2Proof.Machine
end

