-- ==== Sys2Proof/Laws/Postings.lean ====
section
/-! SUPPORT. What the events of the Bus Engines, the Target Tracker and the Policy Unit can do to a Port Unit: post a record, drop
an orphan, raise a cause. A property that these three keep is kept by every such event. -/

namespace Sys2Proof.Machine

/-- A property of Port Units that postings, dropped orphans and raises keep. -/
structure KeptByPostings (I : Port → PortUnit → Prop) : Prop where
  post : ∀ p u k r, I p u → I p (u.post k r)
  drop : ∀ p u k, I p u → I p (u.dropOrphan k)
  raise : ∀ p u c, c.reportCleared = true → I p u → I p (u.raise c)

/-- It holds of every Port Unit. -/
def AllPorts (I : Port → PortUnit → Prop) (s : State) : Prop := ∀ p, I p (s.port p)

section

variable {I : Port → PortUnit → Prop}

theorem allPorts_setPort {s : State} {p : Port} {u : PortUnit} (h : AllPorts I s) (hu : I p u) :
    AllPorts I (s.setPort p u) := by
  intro q
  by_cases hq : q = p
  · subst hq; simpa using hu
  · rw [port_setPort_other _ _ _ _ hq]; exact h q

theorem allPorts_modPort {s : State} {p : Port} {f : PortUnit → PortUnit} (h : AllPorts I s)
    (hu : I p (s.port p) → I p (f (s.port p))) : AllPorts I (s.modPort p f) :=
  allPorts_setPort h (hu (h p))

theorem allPorts_of_ports {s t : State} (h : AllPorts I s) (e : t.ports = s.ports) : AllPorts I t := by
  intro p
  have : t.port p = s.port p := by simp [State.port, e]
  rw [this]; exact h p

theorem allPorts_finish (K : KeptByPostings I) {s : State} {b : Bus} {it : Item} {r : Completion} (h : AllPorts I s) :
    AllPorts I (s.finish b it r) := by
  unfold State.finish
  refine allPorts_modPort (s := s.leaveList b it.uid) (allPorts_of_ports h rfl) fun hu => ?_
  split
  · exact K.drop _ _ _ hu
  · exact K.post _ _ _ _ hu

theorem allPorts_finishAll (K : KeptByPostings I) {b : Bus} {its : List Item} {rec : Item → Completion} :
    ∀ {s : State}, AllPorts I s → AllPorts I (s.finishAll b its rec) := by
  induction its with
  | nil => intro s h; exact h
  | cons it rest ih => intro s h; exact ih (allPorts_finish K h)

theorem allPorts_finishOwner (K : KeptByPostings I) {s : State} {t : Target} {o : Option Nat} {e : Ending} {r : Reason}
    (h : AllPorts I s) : AllPorts I (s.finishOwner t o e r) := by
  unfold State.finishOwner
  split
  · exact allPorts_finish K h
  · exact h

theorem allPorts_unitEndedWell (K : KeptByPostings I) {s : State} {t : Target} {o : Option Nat} (h : AllPorts I s) :
    AllPorts I (s.unitEndedWell t o) := by
  unfold State.unitEndedWell
  split
  · dsimp only
    split
    · exact allPorts_finish K h
    · exact allPorts_of_ports h rfl
  · exact h

theorem allPorts_raiseAt (K : KeptByPostings I) {s : State} {ports : BitVec 4} {c : Cause} (hc : c.reportCleared = true)
    (h : AllPorts I s) : AllPorts I (s.raiseAt ports c) := by
  unfold State.raiseAt
  generalize allPorts = l
  induction l generalizing s with
  | nil => exact h
  | cons p rest ih =>
    apply ih
    dsimp only
    split
    · exact allPorts_modPort h (K.raise _ _ _ hc)
    · exact h

theorem allPorts_fault (K : KeptByPostings I) {s : State} {t : Target} (h : AllPorts I s) : AllPorts I (s.fault t) := by
  unfold State.fault State.fanOut
  apply allPorts_raiseAt K rfl
  apply allPorts_finishAll K
  apply allPorts_finishOwner K
  exact allPorts_of_ports h rfl

theorem allPorts_takeTargetReset (K : KeptByPostings I) {s : State} {t : Target} (h : AllPorts I s) :
    AllPorts I (s.takeTargetReset t) := by
  unfold State.takeTargetReset
  split
  · exact h
  · exact h
  all_goals exact allPorts_of_ports (allPorts_finishOwner K h) rfl

theorem allPorts_cancelItem (K : KeptByPostings I) {s : State} {b : Bus} {uid : Nat} (h : AllPorts I s) :
    AllPorts I (s.cancelItem b uid) := by
  unfold State.cancelItem
  split
  · exact h
  · split
    · exact h
    · split
      · exact allPorts_finish K h
      · dsimp only
        split
        · split
          · split
            · exact allPorts_of_ports h rfl
            · exact allPorts_of_ports h rfl
          · exact allPorts_of_ports h rfl
        · exact allPorts_of_ports h rfl

theorem allPorts_takeCancels (K : KeptByPostings I) {s : State} {p : Port} {b : Bus} {sel : CancelClaim → Bool}
    (h : AllPorts I s) : AllPorts I (s.takeCancels p b sel) := by
  unfold State.takeCancels
  dsimp only
  generalize (s.bus b).cancels.filter _ = l
  have h1 : AllPorts I (s.modBus b (fun e =>
      { e with cancels := e.cancels.filter (fun c => !(decide (c.port = p) && sel c)) })) := allPorts_of_ports h rfl
  revert h1
  generalize s.modBus b _ = s1
  intro h1
  induction l generalizing s1 with
  | nil => exact h1
  | cons c rest ih => exact ih _ (allPorts_cancelItem K h1)

theorem allPorts_revoke (K : KeptByPostings I) {s : State} {b : Bus} {rv : Revocation} (h : AllPorts I s) :
    AllPorts I (s.revoke b rv) := by
  unfold State.revoke
  exact allPorts_of_ports (allPorts_finishAll K h) rfl

theorem allPorts_takeRevocations (K : KeptByPostings I) {s : State} {b : Bus} (h : AllPorts I s) :
    AllPorts I (s.takeRevocations b) := by
  unfold State.takeRevocations
  dsimp only
  have h1 : AllPorts I (s.modBus b (fun e => { e with revocations := [] })) := allPorts_of_ports h rfl
  revert h1
  generalize s.modBus b _ = s1
  intro h1
  generalize (s.bus b).revocations = l
  induction l generalizing s1 with
  | nil => exact h1
  | cons c rest ih => exact ih _ (allPorts_revoke K h1)

theorem allPorts_resetTargets {l : List Target} {f : TargetRecord → TargetRecord} :
    ∀ {s : State}, AllPorts I s → AllPorts I (l.foldl (fun s t => s.modTarget t f) s) := by
  induction l with
  | nil => intro s h; exact h
  | cons t rest ih => intro s h; exact ih (allPorts_of_ports h rfl)

theorem allPorts_takeBusReset (K : KeptByPostings I) {s : State} {b : Bus} (h : AllPorts I s) :
    AllPorts I (s.takeBusReset b) := by
  unfold State.takeBusReset
  apply allPorts_resetTargets
  have h0 : AllPorts I ((s.takeCancels s.authority b (fun c => decide (c.behind = 0))).modBus b (·.closeRanks)) :=
    allPorts_of_ports (allPorts_takeCancels K h) rfl
  exact allPorts_of_ports (allPorts_finishAll K h0) rfl

theorem allPorts_programEnd (K : KeptByPostings I) {s : State} {t : Target} {f : Bool} (h : AllPorts I s) :
    AllPorts I (s.programEnd t f) := by
  unfold State.programEnd
  dsimp only
  split
  · exact allPorts_finishOwner K (allPorts_of_ports h rfl)
  · exact allPorts_finishOwner K (allPorts_of_ports h rfl)

theorem allPorts_eraseUnitEnd (K : KeptByPostings I) {s : State} {t : Target} {f : Bool} (h : AllPorts I s) :
    AllPorts I (s.eraseUnitEnd t f) := by
  unfold State.eraseUnitEnd
  dsimp only
  split
  · exact allPorts_finishOwner K (allPorts_of_ports h rfl)
  · exact allPorts_unitEndedWell K (allPorts_of_ports h rfl)

theorem allPorts_statusResult (K : KeptByPostings I) {s : State} {t : Target} {x : Byte} (h : AllPorts I s) :
    AllPorts I (s.statusResult t x) := by
  unfold State.statusResult
  split
  all_goals first
    | exact allPorts_programEnd K h
    | exact allPorts_eraseUnitEnd K h
    | exact h

theorem allPorts_settleTargetReset (K : KeptByPostings I) {s : State} {t : Target} (h : AllPorts I s) :
    AllPorts I (s.settleTargetReset t) := by
  unfold State.settleTargetReset
  dsimp only
  split
  · exact allPorts_of_ports h rfl
  · exact allPorts_takeTargetReset K (allPorts_of_ports h rfl)

theorem allPorts_settleBusReset (K : KeptByPostings I) {s : State} {b : Bus} (h : AllPorts I s) :
    AllPorts I (s.settleBusReset b) := by
  unfold State.settleBusReset
  dsimp only
  split
  · exact allPorts_of_ports h rfl
  · exact allPorts_takeBusReset K (allPorts_of_ports h rfl)

theorem allPorts_releaseBus (K : KeptByPostings I) {s : State} {b : Bus} {t : Target} (h : AllPorts I s) :
    AllPorts I (s.releaseBus b t) := by
  unfold State.releaseBus
  dsimp only
  split
  · exact allPorts_settleTargetReset K (allPorts_of_ports h rfl)
  · exact allPorts_of_ports h rfl

theorem allPorts_finishStatusItem (K : KeptByPostings I) {s : State} {b : Bus} {r : FrameRecord} {x : Byte}
    (h : AllPorts I s) : AllPorts I (s.finishStatusItem b r x) := by
  unfold State.finishStatusItem
  split
  · exact allPorts_finish K h
  · exact h

theorem allPorts_takeLimit (K : KeptByPostings I) {s : State} {t : Target} {l : Limit} (h : AllPorts I s) :
    AllPorts I (s.takeLimit t l) := by
  unfold State.takeLimit
  split
  · exact allPorts_fault K h
  · exact h

theorem allPorts_limitExpires (K : KeptByPostings I) {s : State} {t : Target} {l : Limit} (h : AllPorts I s) :
    AllPorts I (s.limitExpires t l) := by
  unfold State.limitExpires
  split
  · exact allPorts_of_ports h rfl
  · exact allPorts_takeLimit K h

theorem allPorts_applyTaken (K : KeptByPostings I) {s : State} (h : AllPorts I s) : AllPorts I s.applyTaken := by
  unfold State.applyTaken
  have h2 := allPorts_raiseAt K (ports := s.policy.policyPorts) (c := .policy) rfl
    (s := { s with policy := s.policy.applied, admission := { s.admission with blocked := Vector.replicate 4 none } })
    (allPorts_of_ports h rfl)
  dsimp only
  split
  · exact h2
  · exact allPorts_of_ports h2 rfl

theorem allPorts_takeApplies (K : KeptByPostings I) {n : Nat} :
    ∀ {s : State}, AllPorts I s → AllPorts I (s.takeApplies n) := by
  induction n with
  | zero => intro s h; exact h
  | succ n ih => intro s h; exact ih (allPorts_applyTaken K h)

theorem allPorts_settleApplies (K : KeptByPostings I) {s : State} (h : AllPorts I s) : AllPorts I s.settleApplies := by
  unfold State.settleApplies
  split
  · exact allPorts_takeApplies K h
  · exact h

theorem allPorts_settle (K : KeptByPostings I) {s : State} (h : AllPorts I s) : AllPorts I s.settle :=
  settle_keeps (P := AllPorts I) (fun _ => allPorts_settleApplies K) (fun _ _ => allPorts_settleBusReset K)
    (fun _ _ k _ => allPorts_settleTargetReset K k) h

end

end Sys2Proof.Machine
end

