-- ==== Sys2Proof/Laws/Ports.lean ====
section
/-! SUPPORT. All that a command can do to a Port Unit: a sequence of the moves of `PortMove`. A property of Port Units that each
move keeps is kept by every step. -/

namespace Sys2Proof.Machine

/-- The moves of a Port Unit. -/
inductive PortMove : PortUnit → PortUnit → Prop where
  | link (u : PortUnit) (l : Link) : PortMove u { u with link := l }
  | result (u : PortUnit) (r : Result) : PortMove u { u with last := r }
  | hold (u : PortUnit) (on : Bool) : PortMove u { u with hold := on }
  | post (u : PortUnit) (k : Option SlotIx) (r : Completion) : PortMove u (u.post k r)
  | drop (u : PortUnit) (k : Option SlotIx) : PortMove u (u.dropOrphan k)
  | raise (u : PortUnit) (c : Cause) (h : c.reportCleared = true) : PortMove u (u.raise c)
  | arm (u : PortUnit) : PortMove u u.arm
  | space (u : PortUnit) : PortMove u u.judgeSpace
  | accept (u : PortUnit) (r : Request) (h : u.ring.length < 8) : PortMove u (u.accept r)
  | shorten (u : PortUnit) (l : List Request) (h : l.length ≤ u.ring.length) : PortMove u { u with ring := l }
  | load (u : PortUnit) (k : SlotIx) (offset : Nat) (data : List Byte) : PortMove u (u.modSlot k (·.load offset data))
  | free (u : PortUnit) (k : SlotIx) : PortMove u (u.modSlot k (fun _ => .freed))
  | store (u : PortUnit) (k : Option SlotIx) (x : Nat) (w : Byte) :
    PortMove u (u.modSlot? k (fun k => { k with data := k.data.write x w }))
  | collect (u : PortUnit) (r : Completion) : PortMove u (u.collectFront r)
  | clear (u : PortUnit) (x : Cause) (h : x.reportCleared = true) : PortMove u { u with pending := u.pending.put x false }
  | enable (u : PortUnit) (e : CauseSet) (n : Nat) : PortMove u (PortUnit.judge { u with enable := e, watermark := n })
  | cutLoose (u : PortUnit) (items : List Item) : PortMove u (u.portReset items)
  | device (u : PortUnit) : PortMove u .reset

/-- Every Port Unit of the second state comes from that of the first by moves. -/
def PortsMove (s t : State) : Prop := ∀ p, Relation.ReflTransGen PortMove (s.port p) (t.port p)

theorem PortsMove.refl (s : State) : PortsMove s s := fun _ => .refl

theorem PortsMove.trans {s t u : State} (h : PortsMove s t) (k : PortsMove t u) : PortsMove s u := fun p => (h p).trans (k p)

theorem portsMove_of_ports {s t u : State} (h : PortsMove s t) (e : u.ports = t.ports) : PortsMove s u := by
  intro p
  have : u.port p = t.port p := by simp [State.port, e]
  rw [this]; exact h p

theorem portsMove_setPort {s t : State} {p : Port} {u : PortUnit} (h : PortsMove s t)
    (hu : Relation.ReflTransGen PortMove (t.port p) u) : PortsMove s (t.setPort p u) := by
  intro q
  by_cases hq : q = p
  · subst hq; simpa using (h q).trans hu
  · rw [port_setPort_other _ _ _ _ hq]; exact h q

theorem portsMove_modPort {s t : State} {p : Port} {f : PortUnit → PortUnit} (h : PortsMove s t)
    (hu : ∀ u, PortMove u (f u)) : PortsMove s (t.modPort p f) := portsMove_setPort h (.single (hu _))

/-- The events that post, drop and raise are moves. -/
theorem movesFrom (s : State) : KeptByPostings (fun p u => Relation.ReflTransGen PortMove (s.port p) u) where
  post _ _ _ _ h := h.tail (.post _ _ _)
  drop _ _ _ h := h.tail (.drop _ _)
  raise _ _ _ hc h := h.tail (.raise _ _ hc)

/-! ### Frames -/

theorem move_fall (u : PortUnit) : PortMove u u.fall := .link _ _

theorem moves_opened (u : PortUnit) : Relation.ReflTransGen PortMove u u.opened := by
  unfold PortUnit.opened
  split
  · exact .refl
  · exact .single (move_fall u)

theorem moves_rise (u : PortUnit) (r : Result) (request n : Nat) (reply : List Byte) :
    Relation.ReflTransGen PortMove u (u.rise r request n reply) :=
  .tail (.single (.result u r)) (.link _ _)

theorem portsMove_openFrame {s t : State} {p : Port} (h : PortsMove s t) : PortsMove s (t.openFrame p) :=
  portsMove_setPort h (moves_opened _)

theorem portsMove_closeFrame {s t : State} {p : Port} {r : Result} {request n : Nat} {reply : List Byte}
    (h : PortsMove s t) : PortsMove s (t.closeFrame p r request n reply) := portsMove_setPort h (moves_rise _ _ _ _ _)

theorem portsMove_plainFrame {s : State} {p : Port} {need : Nat} {bytes : List Byte} {act : State → State × Result}
    (h : ∀ t, PortsMove s t → PortsMove s (act t).1) : PortsMove s (s.plainFrame p need bytes act) := by
  unfold State.plainFrame
  dsimp only
  split
  · exact portsMove_closeFrame (portsMove_openFrame (.refl s))
  · exact portsMove_closeFrame (h _ (portsMove_openFrame (.refl s)))

theorem portsMove_captureFrame {s : State} {p : Port} {request : Nat} {bytes : List Byte} {grab : State → Captured} :
    PortsMove s (s.captureFrame p request bytes grab) := by
  unfold State.captureFrame
  dsimp only
  split
  · exact portsMove_openFrame (.refl s)
  · exact portsMove_modPort (portsMove_openFrame (.refl s)) (fun u => .link u _)

theorem portsMove_replyFrame {s : State} {p : Port} {request need : Nat} {bytes : List Byte} {mine : Captured → Bool}
    {grab : State → Captured} {act : State → Captured → State × Result}
    (h : ∀ t c, PortsMove s t → PortsMove s (act t c).1) :
    PortsMove s (s.replyFrame p request need bytes mine grab act) := by
  unfold State.replyFrame
  dsimp only
  split
  · exact portsMove_closeFrame (portsMove_openFrame (.refl s))
  · split
    · exact portsMove_closeFrame (portsMove_openFrame (.refl s))
    · exact portsMove_closeFrame (h _ _ (portsMove_openFrame (.refl s)))

theorem portsMove_submit (s : State) (p : Port) (bytes : List Byte) : PortsMove s (takeSubmit p bytes s) := by
  refine portsMove_plainFrame fun t h => ?_
  split
  · rename_i r hr
    refine portsMove_setPort h (.single (.accept _ _ ?_))
    unfold PortUnit.checkSubmit at hr
    split at hr
    · cases hr
    · rename_i room
      simp only [PortUnit.submitRoom, Bool.not_eq_true', Bool.not_eq_false, Bool.and_eq_true, decide_eq_true_eq] at room
      exact room.1
  · exact portsMove_modPort h .arm
  · exact h

theorem portsMove_cancelEntry {s t : State} {p : Port} {r : Request} (h : PortsMove s t) :
    PortsMove s (t.cancelEntry p r) := by
  have key : PortsMove s (t.modPort p fun u =>
      PortUnit.judgeSpace ({ u with ring := u.ring.filter (fun x => x.tag != r.tag) }.post r.slot r.recordCancelled)) :=
    portsMove_setPort h (.tail (.tail (.single (.shorten _ _ (List.length_filter_le _ _))) (.post _ _ _)) (.space _))
  unfold State.cancelEntry
  dsimp only
  split
  · exact portsMove_of_ports key rfl
  · exact key

theorem portsMove_cancelTag {s t : State} {p : Port} {tag : Byte} (h : PortsMove s t) :
    PortsMove s (t.cancelTag p tag) := by
  unfold State.cancelTag
  split
  · exact portsMove_cancelEntry h
  · split
    · exact portsMove_of_ports h rfl
    · exact h

theorem portsMove_cancel (s : State) (p : Port) (bytes : List Byte) : PortsMove s (takeCancel p bytes s) := by
  refine portsMove_plainFrame fun t h => ?_
  dsimp only
  split
  · exact h
  · split
    · exact portsMove_of_ports h rfl
    · exact portsMove_cancelTag h

theorem portsMove_hold (s : State) (p : Port) (bytes : List Byte) : PortsMove s (takeHold p bytes s) :=
  portsMove_plainFrame fun _ h => portsMove_modPort h (fun u => .hold u true)

theorem portsMove_unhold (s : State) (p : Port) (bytes : List Byte) : PortsMove s (takeUnhold p bytes s) :=
  portsMove_plainFrame fun _ h => portsMove_modPort h (fun u => .hold u false)

theorem portsMove_load (s : State) (p : Port) (bytes : List Byte) : PortsMove s (takeLoad p bytes s) := by
  refine portsMove_plainFrame fun t h => ?_
  dsimp only
  split
  · exact h
  · split
    · exact h
    · split
      · exact h
      · exact portsMove_modPort h (fun u => .load u _ _ _)

theorem portsMove_fetch (s : State) (p : Port) (m : Moment) (bytes : List Byte) : PortsMove s (takeFetch p m bytes s) := by
  cases m
  · exact portsMove_captureFrame
  · exact portsMove_replyFrame fun _ _ h => h

theorem portsMove_release (s : State) (p : Port) (bytes : List Byte) : PortsMove s (takeRelease p bytes s) := by
  refine portsMove_plainFrame fun t h => ?_
  split
  · exact h
  · split
    · exact h
    · exact portsMove_modPort h (fun u => .free u _)

theorem portsMove_collect (s : State) (p : Port) (m : Moment) (bytes : List Byte) :
    PortsMove s (takeCollect p m bytes s) := by
  cases m
  · exact portsMove_captureFrame
  · refine portsMove_replyFrame fun t c h => ?_
    unfold State.endCollect
    split
    · exact portsMove_modPort h (fun u => .collect u _)
    all_goals exact h

theorem portsMove_cause (s : State) (p : Port) (m : Moment) (bytes : List Byte) : PortsMove s (takeCause p m bytes s) := by
  cases m
  · exact portsMove_captureFrame
  · refine portsMove_replyFrame fun t c h => ?_
    unfold State.endCause
    split
    · split
      · rename_i x again hx
        exact portsMove_modPort h (fun u => .clear u _ (by simp only [Bool.and_eq_true] at hx; exact hx.1))
      · exact h
    all_goals exact h

theorem portsMove_causeEnable (s : State) (p : Port) (bytes : List Byte) : PortsMove s (takeCauseEnable p bytes s) := by
  refine portsMove_plainFrame fun t h => ?_
  dsimp only
  split
  · split
    · exact portsMove_modPort h (fun u => .enable u _ _)
    · exact h
  · exact h

theorem portsMove_summary (s : State) (p : Port) (m : Moment) (bytes : List Byte) :
    PortsMove s (takeSummary p m bytes s) := by
  cases m
  · exact portsMove_captureFrame
  · exact portsMove_replyFrame fun _ _ h => h

theorem portsMove_takeCancels {s t : State} {p : Port} {b : Bus} {sel : CancelClaim → Bool} (h : PortsMove s t) :
    PortsMove s (t.takeCancels p b sel) := allPorts_takeCancels (movesFrom s) h

theorem portResetBus_ports (s : State) (p : Port) (b : Bus) : (s.portResetBus p b).ports = s.ports := by
  unfold State.portResetBus
  dsimp only
  split <;> rfl

theorem portsMove_portReset {s t : State} {p : Port} (h : PortsMove s t) : PortsMove s (t.portReset p) := by
  unfold State.portReset
  dsimp only
  have h1 := portsMove_takeCancels (p := p) (b := 0) (sel := fun _ => true) h
  have h2 := portsMove_takeCancels (p := p) (b := 1) (sel := fun _ => true) h1
  generalize (t.takeCancels p 0 (fun _ => true)).takeCancels p 1 (fun _ => true) = t2 at h2
  have h3 := portsMove_of_ports (portsMove_of_ports h2 (portResetBus_ports t2 p 0)) (portResetBus_ports _ p 1)
  generalize (t2.portResetBus p 0).portResetBus p 1 = t3 at h3
  have h4 := portsMove_modPort (p := p) (f := fun u => u.portReset (t3.itemsOf p)) h3 (fun u => .cutLoose u (t3.itemsOf p))
  intro q
  exact h4 q

theorem portsMove_takePortReset (s : State) (p : Port) (bytes : List Byte) : PortsMove s (takePortReset p bytes s) :=
  portsMove_plainFrame fun _ h => portsMove_portReset h

theorem portsMove_readEntry (s : State) (p : Port) (m : Moment) (bytes : List Byte) :
    PortsMove s (takeReadEntry p m bytes s) := by
  cases m
  · exact portsMove_captureFrame
  · exact portsMove_replyFrame fun _ _ h => h

theorem portsMove_readTarget (s : State) (p : Port) (m : Moment) (bytes : List Byte) :
    PortsMove s (takeReadTarget p m bytes s) := by
  cases m
  · exact portsMove_captureFrame
  · exact portsMove_replyFrame fun _ _ h => h

theorem portsMove_stageEntry (s : State) (p : Port) (bytes : List Byte) : PortsMove s (takeStageEntry p bytes s) := by
  refine portsMove_plainFrame fun t h => ?_
  split
  · exact h
  · split
    · exact h
    · exact portsMove_of_ports h rfl

theorem portsMove_copyActive (s : State) (p : Port) (bytes : List Byte) : PortsMove s (takeCopyActive p bytes s) := by
  refine portsMove_plainFrame fun t h => ?_
  split
  · exact h
  · exact portsMove_of_ports h rfl

theorem portsMove_apply (s : State) (p : Port) (bytes : List Byte) : PortsMove s (takeApply p bytes s) := by
  refine portsMove_plainFrame fun t h => ?_
  split
  · exact h
  · split
    all_goals exact portsMove_of_ports h rfl

theorem portsMove_setupTarget (s : State) (p : Port) (bytes : List Byte) : PortsMove s (takeSetupTarget p bytes s) := by
  refine portsMove_plainFrame fun t h => ?_
  split
  · exact h
  · split
    · exact h
    · exact h
    · split
      · exact portsMove_of_ports h rfl
      · exact h

theorem portsMove_removeTarget (s : State) (p : Port) (bytes : List Byte) : PortsMove s (takeRemoveTarget p bytes s) := by
  refine portsMove_plainFrame fun t h => ?_
  split
  · exact h
  · split
    · exact h
    · split
      · exact portsMove_of_ports h rfl
      · exact h

theorem portsMove_resetTarget (s : State) (p : Port) (bytes : List Byte) : PortsMove s (takeResetTarget p bytes s) := by
  refine portsMove_plainFrame fun t h => ?_
  split
  · exact h
  · split
    · exact h
    · split
      · exact h
      · exact h
      all_goals
        unfold State.sendTargetReset
        split <;> exact portsMove_of_ports h rfl

theorem portsMove_resetBus (s : State) (p : Port) (bytes : List Byte) : PortsMove s (takeResetBus p bytes s) := by
  refine portsMove_plainFrame fun t h => ?_
  split
  · exact h
  · split
    · exact h
    · unfold State.sendBusReset
      split <;> exact portsMove_of_ports h rfl

theorem portsMove_busMode (s : State) (p : Port) (bytes : List Byte) : PortsMove s (takeBusMode p bytes s) := by
  refine portsMove_plainFrame fun t h => ?_
  split
  · exact h
  · split
    · split
      · exact h
      · exact portsMove_of_ports h rfl
    · exact h

theorem portsMove_badcode (s : State) (p : Port) (code : Byte) (bytes : List Byte) :
    PortsMove s (takeBadcode p code bytes s) := by
  unfold takeBadcode
  split
  · exact .refl s
  · exact portsMove_closeFrame (portsMove_openFrame (.refl s))

theorem portsMove_frameWithoutCode (s : State) (p : Port) : PortsMove s (takeFrameWithoutCode p s) :=
  portsMove_modPort (.refl s) (fun u => .link u _)

theorem portsMove_summaryByte (s : State) (p : Port) : PortsMove s (takeSummaryByte p s) :=
  portsMove_modPort (.refl s) move_fall

theorem portsMove_takeFrame (s : State) (i : Instr) : PortsMove s (takeFrame i s) := by
  cases i
  case submit p bytes => exact portsMove_submit s p bytes
  case cancel p bytes => exact portsMove_cancel s p bytes
  case hold p bytes => exact portsMove_hold s p bytes
  case unhold p bytes => exact portsMove_unhold s p bytes
  case load p bytes => exact portsMove_load s p bytes
  case fetch p m bytes => exact portsMove_fetch s p m bytes
  case release p bytes => exact portsMove_release s p bytes
  case collect p m bytes => exact portsMove_collect s p m bytes
  case cause p m bytes => exact portsMove_cause s p m bytes
  case causeEnable p bytes => exact portsMove_causeEnable s p bytes
  case summary p m bytes => exact portsMove_summary s p m bytes
  case portReset p bytes => exact portsMove_takePortReset s p bytes
  case readEntry p m bytes => exact portsMove_readEntry s p m bytes
  case readTarget p m bytes => exact portsMove_readTarget s p m bytes
  case stageEntry p bytes => exact portsMove_stageEntry s p bytes
  case copyActive p bytes => exact portsMove_copyActive s p bytes
  case apply p bytes => exact portsMove_apply s p bytes
  case setupTarget p bytes => exact portsMove_setupTarget s p bytes
  case removeTarget p bytes => exact portsMove_removeTarget s p bytes
  case resetTarget p bytes => exact portsMove_resetTarget s p bytes
  case resetBus p bytes => exact portsMove_resetBus s p bytes
  case busMode p bytes => exact portsMove_busMode s p bytes
  case badcode p code bytes => exact portsMove_badcode s p code bytes
  case frameWithoutCode p => exact portsMove_frameWithoutCode s p
  case summaryByte p => exact portsMove_summaryByte s p
  all_goals exact .refl s

/-! ### The other commands -/

theorem portsMove_settleApplies {s t : State} (h : PortsMove s t) : PortsMove s t.settleApplies :=
  allPorts_settleApplies (movesFrom s) h

theorem portsMove_settle {s t : State} (h : PortsMove s t) : PortsMove s t.settle := allPorts_settle (movesFrom s) h

theorem portsMove_upstream {s : State} {p : Port} {i : Instr} {w : Bool} {take : State → State}
    (h : ∀ t, PortsMove t (take t)) : PortsMove s (s.upstream p i w take) := by
  unfold State.upstream
  split
  · exact .refl s
  · split
    · exact portsMove_of_ports (.refl s) rfl
    · split
      · exact portsMove_of_ports (portsMove_openFrame (portsMove_settle (.refl s))) rfl
      · exact (portsMove_settle (.refl s)).trans (h _)

theorem portsMove_cancelHead {s t : State} {p : Port} {tag : Byte} (h : PortsMove s t) :
    PortsMove s (t.cancelHead p tag) := by
  unfold State.cancelHead
  split
  · exact portsMove_takeCancels (portsMove_cancelTag h)
  all_goals exact portsMove_cancelTag h

theorem portsMove_takeWaiting {s t : State} {w : Waiting} (h : PortsMove s t) : PortsMove s (takeWaiting w t) := by
  have k := portsMove_settle h
  unfold takeWaiting
  dsimp only
  cases w with
  | frame i => exact k.trans (portsMove_takeFrame _ i)
  | cancelHead p tag => exact portsMove_cancelHead k
  | expiry x l => exact allPorts_takeLimit (movesFrom s) k
  | targetReset x =>
    dsimp only
    split
    · exact portsMove_of_ports k rfl
    · exact allPorts_takeTargetReset (movesFrom s) k
  | busReset b => exact allPorts_takeBusReset (movesFrom s) k

theorem portsMove_endAdmission {s t : State} (h : PortsMove s t) : PortsMove s t.endAdmission := by
  unfold State.endAdmission
  dsimp only
  have h1 : PortsMove s ({ t with admission := { t.admission with current := none }, waiting := [] } : State).settleApplies :=
    portsMove_settleApplies (portsMove_of_ports h rfl)
  revert h1
  generalize ({ t with admission := { t.admission with current := none }, waiting := [] } : State).settleApplies = u
  generalize t.waiting = l
  intro h1
  induction l generalizing u with
  | nil => exact h1
  | cons w rest ih => exact ih _ (portsMove_takeWaiting h1)

theorem portsMove_headServed {s t : State} {p : Port} (h : PortsMove s t) : PortsMove s (t.headServed p) := by
  unfold State.headServed
  dsimp only
  refine portsMove_setPort (portsMove_of_ports h rfl) (.tail (.single (.shorten _ _ ?_)) (.space _))
  simp

theorem admitHead_ports (s : State) (p : Port) (r : Request) : (s.admitHead p r).ports = s.ports := by
  unfold State.admitHead
  dsimp only
  split
  · rfl
  · split
    · rfl
    · split <;> rfl

theorem portsMove_elapse {s t : State} (n : Nat) (h : PortsMove s t) : PortsMove s (t.elapse n) := portsMove_of_ports h rfl

theorem portsMove_startChosen (s : State) (b : Bus) (c : Chosen) : PortsMove s (s.startChosen b c) := by
  cases c <;> exact portsMove_of_ports (.refl s) rfl

theorem portsMove_releaseAll (s : State) (l : List Port) (csLow : BitVec 4) : ∀ t, PortsMove s t →
    PortsMove s (l.foldl (fun s p => s.modPort p (·.releaseReset (csLow.getLsbD p.val))) t) := by
  induction l with
  | nil => exact fun _ h => h
  | cons p rest ih => exact fun t h => ih _ (portsMove_modPort h (fun u => .link u _))

/-- All that a command can do to the Port Units. -/
theorem exec_portsMove {c : Instr} {s t : State} (h : exec c s = .next t) : PortsMove s t := by
  have K := movesFrom s
  have R : AllPorts (fun p u => Relation.ReflTransGen PortMove (s.port p) u) s := PortsMove.refl s
  have timer : ∀ {left act} (x : Target), (∀ (u : State) n, PortsMove s u → PortsMove s (act (u.elapse n))) →
      PortsMove s (s.expire x left act) := fun _ => expire_keeps (P := PortsMove s) R (portsMove_settle R)
  cases c
  all_goals (injection h with h; subst h)
  case submit p bytes => exact portsMove_upstream fun t => portsMove_submit t p bytes
  case cancel p bytes => exact portsMove_upstream fun t => portsMove_cancel t p bytes
  case hold p bytes => exact portsMove_upstream fun t => portsMove_hold t p bytes
  case unhold p bytes => exact portsMove_upstream fun t => portsMove_unhold t p bytes
  case load p bytes => exact portsMove_upstream fun t => portsMove_load t p bytes
  case fetch p m bytes => exact portsMove_upstream fun t => portsMove_fetch t p m bytes
  case release p bytes => exact portsMove_upstream fun t => portsMove_release t p bytes
  case collect p m bytes => exact portsMove_upstream fun t => portsMove_collect t p m bytes
  case cause p m bytes => exact portsMove_upstream fun t => portsMove_cause t p m bytes
  case causeEnable p bytes => exact portsMove_upstream fun t => portsMove_causeEnable t p bytes
  case summary p m bytes => exact portsMove_upstream fun t => portsMove_summary t p m bytes
  case portReset p bytes => exact portsMove_upstream fun t => portsMove_takePortReset t p bytes
  case readEntry p m bytes => exact portsMove_upstream fun t => portsMove_readEntry t p m bytes
  case readTarget p m bytes => exact portsMove_upstream fun t => portsMove_readTarget t p m bytes
  case stageEntry p bytes => exact portsMove_upstream fun t => portsMove_stageEntry t p bytes
  case copyActive p bytes => exact portsMove_upstream fun t => portsMove_copyActive t p bytes
  case apply p bytes => exact portsMove_upstream fun t => portsMove_apply t p bytes
  case applySucceeds =>
    split
    · exact R
    · exact allPorts_applyTaken K R
  case setupTarget p bytes => exact portsMove_upstream fun t => portsMove_setupTarget t p bytes
  case removeTarget p bytes => exact portsMove_upstream fun t => portsMove_removeTarget t p bytes
  case resetTarget p bytes => exact portsMove_upstream fun t => portsMove_resetTarget t p bytes
  case targetResetClaim x =>
    split
    · exact allPorts_settleTargetReset K R
    · exact R
  case resetBus p bytes => exact portsMove_upstream fun t => portsMove_resetBus t p bytes
  case busResetClaim b =>
    split
    · exact R
    · exact allPorts_settleBusReset K R
  case busMode p bytes => exact portsMove_upstream fun t => portsMove_busMode t p bytes
  case badcode p code bytes => exact portsMove_upstream fun t => portsMove_badcode t p code bytes
  case frameWithoutCode p => exact portsMove_upstream fun t => portsMove_frameWithoutCode t p
  case summaryByte p =>
    split
    · exact R
    · split
      · exact portsMove_of_ports R rfl
      · exact (portsMove_settle R).trans (portsMove_summaryByte _ p)
  case deviceReset =>
    intro p
    have : State.port { State.reset with resetLow := true, authority := s.authority, pending := s.pending } p = .reset := by
      simp [State.port, State.reset]
    rw [this]; exact .single (.device _)
  case resetRelease auth csLow =>
    split
    · exact portsMove_releaseAll s allPorts csLow _ (portsMove_of_ports R rfl)
    · exact R
  case admission =>
    split
    · exact R
    · dsimp only
      split
      · exact portsMove_of_ports (portsMove_settle R) (admitHead_ports _ _ _)
      · exact portsMove_settle R
  case insertion =>
    split
    · exact portsMove_endAdmission (portsMove_headServed
        (portsMove_of_ports (allPorts_takeRevocations K R) rfl))
    all_goals exact R
  case revocationClaim b =>
    split
    · exact R
    · exact allPorts_revoke K (portsMove_of_ports R rfl)
  case cancelClaim p b =>
    split
    · exact allPorts_cancelItem K (portsMove_of_ports R rfl)
    · exact R
  case choice b =>
    split
    · exact R
    · dsimp only
      split
      · exact (portsMove_settle R).trans (portsMove_startChosen _ b _)
      · exact portsMove_settle R
  case dataByteReceived b sdi =>
    split
    · split
      · exact portsMove_modPort (portsMove_of_ports R rfl) (fun u => .store u _ _ _)
      · exact R
    · exact R
  case dataByteSent b =>
    split
    · split
      · exact portsMove_of_ports R rfl
      · exact R
    · exact R
  case readFrameEnd b =>
    split
    · split
      · exact allPorts_releaseBus K (allPorts_finish K R)
      · exact R
    · exact R
  case writeEnableFrameEnd b =>
    split
    · split
      · exact portsMove_of_ports R rfl
      · exact R
    · exact R
  case programPairEnd b =>
    split
    · split
      · apply allPorts_releaseBus K
        split
        · exact allPorts_finish K R
        · exact portsMove_of_ports R rfl
      · exact R
    · exact R
  case erasePairEnd b =>
    split
    · split
      · apply allPorts_releaseBus K
        split
        · exact allPorts_finish K R
        · exact portsMove_of_ports R rfl
      · exact R
    · exact R
  case statusFrameEnd b sdi =>
    split
    · split
      · apply allPorts_releaseBus K
        apply allPorts_finishStatusItem K
        split
        · exact R
        · exact allPorts_statusResult K R
      · exact R
    · exact R
  case suspendFrameEnd b =>
    split
    · split
      · apply allPorts_releaseBus K
        split
        · exact R
        · unfold State.suspendEnd State.modOwner
          split
          · split <;> exact portsMove_of_ports R rfl
          · exact R
      · exact R
    · exact R
  case resumeFrameEnd b =>
    split
    · split
      · apply allPorts_releaseBus K
        split
        · exact R
        · unfold State.resumeEnd State.modOwner
          split
          · split <;> exact portsMove_of_ports R rfl
          · exact R
      · exact R
    · exact R
  case resetFrameEnd b =>
    split
    · split
      · apply allPorts_releaseBus K
        split
        · exact R
        · exact portsMove_of_ports R rfl
      · exact R
    · exact R
  case pollTimerExpiry x => exact timer x fun u n k => portsMove_of_ports (portsMove_elapse n k) rfl
  case programTimerExpiry x => exact timer x fun u n k => allPorts_limitExpires K (portsMove_elapse n k)
  case busyTimeReachesTel x => exact timer x fun u n k => allPorts_limitExpires K (portsMove_elapse n k)
  case holdOffTimerExpiry x => exact timer x fun u n k => portsMove_of_ports (portsMove_elapse n k) rfl
  case suspendLatencyTimerExpiry x => exact timer x fun u n k => allPorts_limitExpires K (portsMove_elapse n k)
  case suspendedTimerExpiry x => exact timer x fun u n k => portsMove_of_ports (portsMove_elapse n k) rfl
  case recoveryTimerExpiry x => exact timer x fun u n k => portsMove_of_ports (portsMove_elapse n k) rfl
  case completionPost =>
    split
    · exact portsMove_endAdmission (portsMove_headServed (portsMove_modPort R (fun u => .post u _ _)))
    all_goals exact R

/-- A property of Port Units that every move keeps is kept by every step. -/
theorem step_keeps_ports {I : PortUnit → Prop} (hI : ∀ u v, PortMove u v → I u → I v) {s t : State}
    (h : step s = .next t) (hs : ∀ p, I (s.port p)) (p : Port) : I (t.port p) := by
  have moves : PortsMove s t := by
    unfold step at h
    split at h
    · injection h with h; subst h; exact portsMove_elapse 1 (portsMove_settle (.refl s))
    · rename_i rest _
      exact (portsMove_of_ports (t := s) (u := { s with pending := rest }) (.refl s) rfl).trans (exec_portsMove h)
  have key : ∀ u v, Relation.ReflTransGen PortMove u v → I u → I v := by
    intro u v huv hu
    induction huv with
    | refl => exact hu
    | tail _ m ih => exact hI _ _ m ih
  exact key _ _ (moves p) (hs p)

end Sys2Proof.Machine
end

