-- ==== Sys2Proof/Laws/Settling.lean ====
section
/-! SUPPORT. What the taking of an APPLY or of a claim leaves as it was of all that decides what stands ready, and with it: once
everything that stands ready is taken, nothing stands ready; and it may be begun with any claim's own command. -/

namespace Sys2Proof.Machine

/-- What an APPLY or a claim, once taken, leaves as it was. -/
structure Beside (s t : State) : Prop where
  current : t.admission.current = s.admission.current
  waiting : t.waiting = s.waiting
  authority : t.authority = s.authority
  resetLow : t.resetLow = s.resetLow
  pending : t.pending = s.pending
  claims : t.resetClaims = s.resetClaims
  frames : ∀ b, (t.bus b).frame.map (·.target) = (s.bus b).frame.map (·.target)
  links : ∀ p, (t.port p).link.isOpen = (s.port p).link.isOpen ∧ (t.port p).link.ignoring = (s.port p).link.ignoring

/-- Beside, with the APPLYs and the bus reset claims as they were. -/
structure BesideAll (s t : State) : Prop extends Beside s t where
  applies : t.policy.applies = s.policy.applies
  resets : ∀ b, (t.bus b).resets = (s.bus b).resets

theorem BesideAll.refl (s : State) : BesideAll s s :=
  ⟨⟨rfl, rfl, rfl, rfl, rfl, rfl, fun _ => rfl, fun _ => ⟨rfl, rfl⟩⟩, rfl, fun _ => rfl⟩

theorem Beside.trans {s t u : State} (h : Beside s t) (k : Beside t u) : Beside s u :=
  ⟨k.current.trans h.current, k.waiting.trans h.waiting, k.authority.trans h.authority, k.resetLow.trans h.resetLow,
    k.pending.trans h.pending, k.claims.trans h.claims, fun b => (k.frames b).trans (h.frames b),
    fun p => ⟨(k.links p).1.trans (h.links p).1, (k.links p).2.trans (h.links p).2⟩⟩

theorem BesideAll.trans {s t u : State} (h : BesideAll s t) (k : BesideAll t u) : BesideAll s u :=
  ⟨h.toBeside.trans k.toBeside, k.applies.trans h.applies, fun b => (k.resets b).trans (h.resets b)⟩

/-! ### What stands ready, in terms of it -/

section

variable {s t : State}

theorem Beside.admittingBus (h : Beside s t) (b : Bus) : t.admittingBus b = s.admittingBus b := by
  unfold State.admittingBus; rw [h.current]

theorem Beside.admittingTarget (h : Beside s t) (x : Target) : t.admittingTarget x = s.admittingTarget x := by
  unfold State.admittingTarget; rw [h.current]

theorem Beside.frameTo (h : Beside s t) (x : Target) : t.frameTo x = s.frameTo x := by
  have := h.frames (busOf x)
  unfold State.frameTo
  cases h1 : (t.bus (busOf x)).frame <;> cases h2 : (s.bus (busOf x)).frame <;> simp [h1, h2] at this ⊢
  rw [this]

theorem Beside.deaf (h : Beside s t) (p : Port) : t.deaf p = s.deaf p := by
  unfold State.deaf; rw [h.resetLow, (h.links p).2]

theorem Beside.frameWaits (h : Beside s t) (p : Port) : t.frameWaits p = s.frameWaits p := by
  unfold State.frameWaits; rw [h.waiting]

theorem Beside.idle (h : Beside s t) (b : Bus) : (t.bus b).frame = none ↔ (s.bus b).frame = none := by
  have := h.frames b
  cases h1 : (t.bus b).frame <;> cases h2 : (s.bus b).frame <;> simp [h1, h2] at this ⊢

theorem BesideAll.applyStands (h : BesideAll s t) : t.applyStands = s.applyStands := by
  unfold State.applyStands; rw [h.current, h.applies]

theorem BesideAll.busResetReady (h : BesideAll s t) (b : Bus) : t.busResetReady b = s.busResetReady b := by
  unfold State.busResetReady; rw [h.resets, h.admittingBus]

theorem BesideAll.stands (h : BesideAll s t) : t.stands = s.stands := by
  unfold State.stands
  rw [h.applyStands, h.busResetReady, h.busResetReady, h.claims]
  congr 2
  funext x
  unfold State.targetResetReady
  rw [h.claims, h.frameTo, h.admittingTarget]

theorem Beside.targetResetReady (h : Beside s t) (x : Target) : t.targetResetReady x = s.targetResetReady x := by
  unfold State.targetResetReady; rw [h.claims, h.frameTo, h.admittingTarget]

end

/-! ### Each of the events -/

theorem besideAll_finish (s : State) (b : Bus) (it : Item) (r : Completion) : BesideAll s (s.finish b it r) := by
  refine ⟨⟨rfl, rfl, rfl, rfl, rfl, rfl, fun c => ?_, fun p => ?_⟩, rfl, fun c => ?_⟩
  · by_cases hc : c = b
    · subst hc; rw [finish_bus_same]
    · rw [finish_bus_other _ _ _ _ _ hc]
  · by_cases hp : p = it.port
    · subst hp; rw [finish_port_same]; exact settled_link _ _ _
    · rw [finish_port_other _ _ _ _ _ hp]; exact ⟨rfl, rfl⟩
  · by_cases hc : c = b
    · subst hc; rw [finish_bus_same]
    · rw [finish_bus_other _ _ _ _ _ hc]

theorem besideAll_finishAll (b : Bus) (f : Item → Completion) : ∀ (its : List Item) (s : State),
    BesideAll s (s.finishAll b its f) := by
  intro its
  induction its with
  | nil => exact .refl
  | cons it rest ih => exact fun s => (besideAll_finish s b it (f it)).trans (ih _)

/-- A change of one Bus Engine that keeps the target of the frame in flight and the bus reset claims. -/
theorem besideAll_setBus {s : State} {b : Bus} {e : BusEngine}
    (hf : e.frame.map (·.target) = (s.bus b).frame.map (·.target)) (hr : e.resets = (s.bus b).resets) :
    BesideAll s (s.setBus b e) := by
  refine ⟨⟨rfl, rfl, rfl, rfl, rfl, rfl, fun c => ?_, fun _ => ⟨rfl, rfl⟩⟩, rfl, fun c => ?_⟩ <;>
  · by_cases hc : c = b
    · subst hc; rw [bus_setBus_same]; assumption
    · rw [bus_setBus_other _ _ _ _ hc]

theorem endEarly_target (r : FrameRecord) : r.endEarly.target = r.target := by
  unfold FrameRecord.endEarly
  split <;> rfl

theorem besideAll_cancelItem (s : State) (b : Bus) (uid : Nat) : BesideAll s (s.cancelItem b uid) := by
  unfold State.cancelItem
  split
  · exact .refl s
  · split
    · exact .refl s
    · split
      · exact besideAll_finish _ _ _ _
      · dsimp only
        have h1 : BesideAll s (s.modBus b (·.modItem uid (fun x =>
            let y := { x with cancelSeen := true }
            if y.moreUnits then y.shed .cancelled else y))) := besideAll_setBus rfl rfl
        split
        · split
          · split
            · refine h1.trans (besideAll_setBus ?_ rfl)
              rename_i r hr _
              have : (((s.modBus b (·.modItem uid (fun x =>
                let y := { x with cancelSeen := true }
                if y.moreUnits then y.shed .cancelled else y))).bus b).frame) = some r := by
                unfold BusEngine.frameOf at hr
                exact (Option.filter_eq_some_iff.1 hr).1
              rw [this]
              simp [endEarly_target]
            · exact h1
          · exact h1
        · exact h1

theorem besideAll_cancels (b : Bus) : ∀ (l : List CancelClaim) (s : State),
    BesideAll s (l.foldl (fun s c => s.cancelItem b c.item) s) := by
  intro l
  induction l with
  | nil => exact .refl
  | cons c rest ih => exact fun s => (besideAll_cancelItem s b c.item).trans (ih _)

theorem besideAll_takeCancels (s : State) (p : Port) (b : Bus) (sel : CancelClaim → Bool) :
    BesideAll s (s.takeCancels p b sel) := by
  unfold State.takeCancels
  dsimp only
  refine BesideAll.trans ?_ (besideAll_cancels b _ _)
  exact besideAll_setBus rfl rfl

theorem besideAll_modTarget (s : State) (x : Target) (f : TargetRecord → TargetRecord) : BesideAll s (s.modTarget x f) :=
  ⟨⟨rfl, rfl, rfl, rfl, rfl, rfl, fun _ => rfl, fun _ => ⟨rfl, rfl⟩⟩, rfl, fun _ => rfl⟩

theorem besideAll_targets {f : TargetRecord → TargetRecord} : ∀ (l : List Target) (s : State),
    BesideAll s (l.foldl (fun s x => s.modTarget x f) s) := by
  intro l
  induction l with
  | nil => exact .refl
  | cons x rest ih => exact fun s => (besideAll_modTarget s x f).trans (ih _)

theorem besideAll_takeBusReset (s : State) (b : Bus) : BesideAll s (s.takeBusReset b) := by
  unfold State.takeBusReset
  dsimp only
  refine BesideAll.trans ?_ (besideAll_targets _ _)
  have h0 : BesideAll s ((s.takeCancels s.authority b (fun c => decide (c.behind = 0))).modBus b (·.closeRanks)) :=
    (besideAll_takeCancels s _ b _).trans (besideAll_setBus rfl rfl)
  generalize (s.takeCancels s.authority b (fun c => decide (c.behind = 0))).modBus b (·.closeRanks) = u at h0
  refine (h0.trans (besideAll_finishAll b _ _ _)).trans (besideAll_setBus ?_ rfl)
  simp only [Option.map_map]
  congr 1
  funext r
  exact endEarly_target r

theorem besideAll_takeTargetReset (s : State) (x : Target) : BesideAll s (s.takeTargetReset x) := by
  have h : BesideAll s (s.finishOwner x (s.target x).owner .failed .aborted) := by
    unfold State.finishOwner
    split
    · exact besideAll_finish _ _ _ _
    · exact .refl s
  unfold State.takeTargetReset
  split
  · exact .refl s
  · exact .refl s
  all_goals exact h.trans (besideAll_modTarget _ x _)

/-! ### APPLYs -/

theorem appliedTable_rest (s : State) : s.appliedTable = { s.withTable with ports := s.appliedTable.ports } :=
  raiseAt_rest _ _ _

theorem applyTaken_bus (s : State) (b : Bus) :
    (s.applyTaken.bus b).frame = (s.bus b).frame ∧ (s.applyTaken.bus b).resets = (s.bus b).resets := by
  have h : ∀ c, s.appliedTable.bus c = s.bus c := fun c => by rw [appliedTable_rest]; rfl
  rw [applyTaken_eq]
  split
  · rw [h]; exact ⟨rfl, rfl⟩
  · rw [bus_modBus]
    split
    · rw [bus_modBus]; split <;> exact ⟨by simp [h], by simp [h]⟩
    · rw [bus_modBus]; split <;> exact ⟨by simp [h], by simp [h]⟩

/-- The taking of one APPLY (R12). -/
theorem beside_applyTaken (s : State) : Beside s s.applyTaken where
  current := applyTaken_current s
  waiting := by rw [applyTaken_rest]
  authority := by rw [applyTaken_rest]
  resetLow := by rw [applyTaken_rest]
  pending := applyTaken_pending s
  claims := by rw [applyTaken_rest]
  frames b := by rw [(applyTaken_bus s b).1]
  links p := by rw [applyTaken_port]; split <;> exact ⟨rfl, rfl⟩

theorem beside_takeApplies : ∀ (n : Nat) (s : State), Beside s (s.takeApplies n) ∧
    (s.takeApplies n).policy.applies = s.policy.applies - n ∧ ∀ b, ((s.takeApplies n).bus b).resets = (s.bus b).resets := by
  intro n
  induction n with
  | zero => exact fun s => ⟨(BesideAll.refl s).toBeside, rfl, fun _ => rfl⟩
  | succ n ih =>
    intro s
    obtain ⟨h1, h2, h3⟩ := ih s.applyTaken
    refine ⟨(beside_applyTaken s).trans h1, ?_, fun b => (h3 b).trans (applyTaken_bus s b).2⟩
    rw [State.takeApplies, h2, applyTaken_policy, (applied_fields _).2.2.2]
    omega

theorem beside_settleApplies (s : State) : Beside s s.settleApplies ∧ s.settleApplies.applyStands = false ∧
    ∀ b, (s.settleApplies.bus b).resets = (s.bus b).resets := by
  unfold State.settleApplies
  split
  · obtain ⟨h1, h2, h3⟩ := beside_takeApplies s.policy.applies s
    refine ⟨h1, ?_, h3⟩
    rw [Nat.sub_self] at h2
    simp [State.applyStands, h2]
  · next h => exact ⟨(BesideAll.refl s).toBeside, by simpa using h, fun _ => rfl⟩

/-! ### Bus reset claims -/

/-- The taking of one bus reset claim (R96, R97). -/
theorem beside_settleBusReset {s : State} {b : Bus} (ha : s.admittingBus b = false) :
    Beside s (s.settleBusReset b) ∧ (s.settleBusReset b).policy.applies = s.policy.applies ∧
      ∀ c, ((s.settleBusReset b).bus c).resets = if c = b then (s.bus c).resets - 1 else (s.bus c).resets := by
  have h0 : Beside s (s.modBus b (fun e => { e with resets := e.resets - 1 })) :=
    ⟨rfl, rfl, rfl, rfl, rfl, rfl, fun c => by rw [bus_modBus]; split <;> rfl, fun _ => ⟨rfl, rfl⟩⟩
  have h1 := besideAll_takeBusReset (s.modBus b (fun e => { e with resets := e.resets - 1 })) b
  unfold State.settleBusReset
  dsimp only
  rw [if_neg (by simp [ha])]
  refine ⟨h0.trans h1.toBeside, h1.applies, fun c => (h1.resets c).trans ?_⟩
  rw [bus_modBus]
  split
  · next h => subst h; simp
  · simp

theorem beside_settleBusResets (b : Bus) : ∀ (n : Nat) (s : State), s.admittingBus b = false →
    Beside s (State.settleBusResets b n s) ∧ (State.settleBusResets b n s).policy.applies = s.policy.applies ∧
      ∀ c, ((State.settleBusResets b n s).bus c).resets = if c = b then (s.bus c).resets - n else (s.bus c).resets := by
  intro n
  induction n with
  | zero => exact fun s _ => ⟨(BesideAll.refl s).toBeside, rfl, fun c => by simp [State.settleBusResets]⟩
  | succ n ih =>
    intro s ha
    obtain ⟨h1, h2, h3⟩ := beside_settleBusReset ha
    obtain ⟨k1, k2, k3⟩ := ih (s.settleBusReset b) ((h1.admittingBus b).trans ha)
    refine ⟨h1.trans k1, k2.trans h2, fun c => (k3 c).trans ?_⟩
    rw [h3]
    split <;> omega

theorem beside_settleBus (s : State) (b : Bus) : Beside s (s.settleBus b) ∧
    (s.settleBus b).policy.applies = s.policy.applies ∧ (s.settleBus b).busResetReady b = false ∧
    ∀ c, c ≠ b → ((s.settleBus b).bus c).resets = (s.bus c).resets := by
  unfold State.settleBus
  split
  · next h => exact ⟨(BesideAll.refl s).toBeside, rfl, by simp [State.busResetReady, h], fun _ _ => rfl⟩
  · next h =>
    obtain ⟨h1, h2, h3⟩ := beside_settleBusResets b (s.bus b).resets s (by simpa using h)
    refine ⟨h1, h2, ?_, fun c hc => by rw [h3, if_neg hc]⟩
    simp [State.busResetReady, h3]

/-! ### Target reset claims -/

theorem BesideAll.withClaims {s t : State} {l : List Target} (h : BesideAll { s with resetClaims := l } t) (m : List Target) :
    BesideAll { s with resetClaims := m } { t with resetClaims := m } :=
  ⟨⟨h.current, h.waiting, h.authority, h.resetLow, h.pending, rfl, h.frames, h.links⟩, h.applies, h.resets⟩

/-- The taking of one target reset claim that stands ready (R116). -/
theorem besideAll_settleTargetReset {s : State} {x : Target} (h : s.admittingTarget x = false) :
    BesideAll { s with resetClaims := s.resetClaims.filter (fun y => decide (y ≠ x)) } (s.settleTargetReset x) := by
  unfold State.settleTargetReset
  dsimp only
  rw [if_neg (by simp [h])]
  exact besideAll_takeTargetReset _ _

/-- The taking of the target reset claims of a list that stand ready: those and no others are gone. -/
theorem besideAll_settleList : ∀ (l : List Target) (s : State), ∃ left,
    BesideAll { s with resetClaims := left }
      (l.foldl (fun u t => if u.targetResetReady t then u.settleTargetReset t else u) s) ∧
    ∀ y, y ∈ left ↔ y ∈ s.resetClaims ∧ ¬(y ∈ l ∧ s.frameTo y = false ∧ s.admittingTarget y = false) := by
  intro l
  induction l with
  | nil => exact fun s => ⟨s.resetClaims, .refl s, by simp⟩
  | cons x rest ih =>
    intro s
    rw [List.foldl_cons]
    split
    · next hr =>
      simp only [State.targetResetReady, Bool.and_eq_true, Bool.not_eq_true', List.contains_iff_mem] at hr
      have k := besideAll_settleTargetReset hr.2
      obtain ⟨left, h1, h2⟩ := ih (s.settleTargetReset x)
      refine ⟨left, (k.withClaims left).trans h1, fun y => ?_⟩
      have hc : ∀ y, y ∈ (s.settleTargetReset x).resetClaims ↔ y ∈ s.resetClaims ∧ y ≠ x := fun y => by
        rw [k.claims]; simp
      have hf : ∀ y, (s.settleTargetReset x).frameTo y = s.frameTo y := fun y => k.toBeside.frameTo y
      have ht : ∀ y, (s.settleTargetReset x).admittingTarget y = s.admittingTarget y := fun y => k.toBeside.admittingTarget y
      rw [h2, hc, hf, ht, List.mem_cons]
      constructor
      · rintro ⟨⟨a, b⟩, c⟩
        exact ⟨a, fun ⟨d, e⟩ => c ⟨d.resolve_left b, e⟩⟩
      · rintro ⟨a, c⟩
        refine ⟨⟨a, ?_⟩, fun ⟨d, e⟩ => c ⟨.inr d, e⟩⟩
        rintro rfl
        exact c ⟨.inl rfl, hr.1.2, hr.2⟩
    · next hr =>
      obtain ⟨left, h1, h2⟩ := ih s
      refine ⟨left, h1, fun y => ?_⟩
      rw [h2, List.mem_cons]
      constructor
      · rintro ⟨a, c⟩
        refine ⟨a, ?_⟩
        rintro ⟨rfl | d, e⟩
        · exact hr (by simp [State.targetResetReady, a, e.1, e.2])
        · exact c ⟨d, e⟩
      · rintro ⟨a, c⟩
        exact ⟨a, fun ⟨d, e⟩ => c ⟨.inr d, e⟩⟩

/-! ### Everything that stands ready -/

/-- All that the taking of what stands ready leaves as it was, and that nothing stands ready after it. -/
theorem settle_rest (s : State) : Beside { s with resetClaims := s.settle.resetClaims } s.settle ∧ s.settle.stands = false := by
  obtain ⟨a1, a2, a3⟩ := beside_settleApplies s
  obtain ⟨b1, b2, b3, b4⟩ := beside_settleBus s.settleApplies 0
  obtain ⟨c1, c2, c3, c4⟩ := beside_settleBus (s.settleApplies.settleBus 0) 1
  obtain ⟨left, d1, d2⟩ := besideAll_settleList ((s.settleApplies.settleBus 0).settleBus 1).resetClaims
    ((s.settleApplies.settleBus 0).settleBus 1)
  have hl : s.settle.resetClaims = left := d1.claims
  have e := (a1.trans b1).trans c1
  have e0 : Beside { s with resetClaims := left } { (s.settleApplies.settleBus 0).settleBus 1 with resetClaims := left } :=
    ⟨e.current, e.waiting, e.authority, e.resetLow, e.pending, rfl, e.frames, e.links⟩
  have e1 : Beside { s with resetClaims := left } s.settle := e0.trans d1.toBeside
  refine ⟨by rw [hl]; exact e1, stands_false.2 ⟨?_, ?_, ?_, ?_⟩⟩
  · refine (d1.applyStands).trans (Eq.trans ?_ a2)
    simp only [State.applyStands, c1.current, c2, b1.current, b2]
  · refine (d1.busResetReady 0).trans (Eq.trans ?_ b3)
    change ((s.settleApplies.settleBus 0).settleBus 1).busResetReady 0 = (s.settleApplies.settleBus 0).busResetReady 0
    simp only [State.busResetReady, c1.admittingBus, c4 0 (by decide)]
  · exact (d1.busResetReady 1).trans c3
  · rw [List.any_eq_false]
    intro y hy hr
    simp only [State.targetResetReady, Bool.and_eq_true, Bool.not_eq_true'] at hr
    have hf : s.settle.frameTo y = ((s.settleApplies.settleBus 0).settleBus 1).frameTo y := d1.toBeside.frameTo y
    have ht : s.settle.admittingTarget y = ((s.settleApplies.settleBus 0).settleBus 1).admittingTarget y :=
      d1.toBeside.admittingTarget y
    rw [hl, d2] at hy
    exact hy.2 ⟨hy.1, hf ▸ hr.1.2, ht ▸ hr.2⟩

/-- Taken once, all that stands ready is taken. -/
theorem settle_settle (s : State) : s.settle.settle = s.settle := settle_none (settle_rest s).2

/-- A frame that its port hears finds taken whatever stood ready (R4, R115). -/
theorem upstream_settle {s : State} {p : Port} {i : Instr} {w : Bool} {take : State → State} (hd : s.deaf p = false)
    (hf : s.frameWaits p = false) : s.upstream p i w take = s.settle.upstream p i w take := by
  obtain ⟨h, _⟩ := settle_rest s
  have hd' : s.settle.deaf p = false := (h.deaf p).trans hd
  have hf' : s.settle.frameWaits p = false := (h.frameWaits p).trans hf
  simp [State.upstream, hd, hf, hd', hf', settle_settle]

/-- An expiry that lets time pass finds taken whatever stood ready (R115). -/
theorem expire_settle {s : State} {t : Target} {left : TargetRecord → Option Nat} {act : State → State} {n : Nat}
    (hn : left (s.target t) = some n) (h0 : n ≠ 0) : s.expire t left act = s.settle.expire t left act := by
  simp only [State.expire, hn, if_neg h0, settle_settle, ite_self]
  split <;> rename_i hv <;> simp [hv]

/-! ### One event after another -/

/-- An APPLY that stands is the first to be taken. -/
theorem settle_applyTaken {s : State} (h : s.applyStands = true) : s.applyTaken.settle = s.settle := by
  have hn : s.applyTaken.policy.applies = s.policy.applies - 1 := by rw [applyTaken_policy]; exact (applied_fields _).2.2.2
  have hc := h
  simp only [State.applyStands, Bool.and_eq_true, Option.isNone_iff_eq_none, bne_iff_ne] at hc
  have : s.applyTaken.settleApplies = s.settleApplies := by
    conv_rhs => rw [State.settleApplies, if_pos h]
    obtain ⟨n, hn'⟩ := Nat.exists_eq_succ_of_ne_zero hc.2
    rw [hn', State.takeApplies]
    rw [hn', Nat.succ_sub_one] at hn
    unfold State.settleApplies
    split
    · rw [hn]
    · next h0 =>
      have hz : s.applyTaken.policy.applies = 0 := by simpa [State.applyStands, hc.1] using h0
      rw [← hn, hz]; rfl
  unfold State.settle
  rw [this]

/-- With no APPLY standing, a bus reset claim of bus 0 that stands ready is the first to be taken, and then one of bus 1. -/
theorem settle_settleBusReset {s : State} {b : Bus} (h : s.applyStands = false) (hb : s.busResetReady b = true)
    (h0 : b = 1 → s.busResetReady 0 = false) : (s.settleBusReset b).settle = s.settle := by
  have hr := hb
  simp only [State.busResetReady, Bool.and_eq_true, Bool.not_eq_true', bne_iff_ne] at hr
  obtain ⟨h1, h2, h3⟩ := beside_settleBusReset hr.2
  have ha : (s.settleBusReset b).applyStands = false := by
    rw [← h]; simp only [State.applyStands, h1.current, h2]
  have hs : (s.settleBusReset b).settleBus b = s.settleBus b := by
    unfold State.settleBus
    rw [h1.admittingBus b, hr.2, h3, if_pos rfl]
    obtain ⟨n, hn⟩ := Nat.exists_eq_succ_of_ne_zero hr.1
    rw [hn]; rfl
  unfold State.settle
  rw [settleApplies_none h, settleApplies_none ha]
  have two : ∀ c : Bus, c = 0 ∨ c = 1 := by decide
  rcases two b with rfl | rfl
  · rw [hs]
  · have k0 : (s.settleBusReset 1).busResetReady 0 = false := by
      rw [← h0 rfl]
      simp only [State.busResetReady, h1.admittingBus, h3]
      rfl
    rw [settleBus_none (h0 rfl), settleBus_none k0, hs]

theorem foldl_filter_skip {x : Target} : ∀ (l : List Target) (u : State), x ∉ u.resetClaims →
    (l.filter (fun y => decide (y ≠ x))).foldl (fun u t => if u.targetResetReady t then u.settleTargetReset t else u) u =
      l.foldl (fun u t => if u.targetResetReady t then u.settleTargetReset t else u) u := by
  intro l
  induction l with
  | nil => intro u _; rfl
  | cons y rest ih =>
    intro u hu
    by_cases hy : y = x
    · subst hy
      rw [List.filter_cons_of_neg (by simp), List.foldl_cons, ih u hu, if_neg]
      simp [State.targetResetReady, hu]
    · rw [List.filter_cons_of_pos (by simp [hy]), List.foldl_cons, List.foldl_cons]
      refine ih _ ?_
      split
      · next hr =>
        simp only [State.targetResetReady, Bool.and_eq_true, Bool.not_eq_true'] at hr
        rw [(besideAll_settleTargetReset hr.2).claims]
        simp [hu]
      · exact hu

/-- With no APPLY and no bus reset claim standing, the oldest target reset claim that stands ready is the first to be taken. -/
theorem settle_settleTargetReset {s : State} {x : Target} {before after : List Target} (h : s.applyStands = false)
    (hb : ∀ b, s.busResetReady b = false) (hl : s.resetClaims = before ++ x :: after)
    (hn : ∀ y ∈ before, s.targetResetReady y = false) (hx : s.targetResetReady x = true) :
    (s.settleTargetReset x).settle = s.settle := by
  have hr := hx
  simp only [State.targetResetReady, Bool.and_eq_true, Bool.not_eq_true'] at hr
  have k := besideAll_settleTargetReset hr.2
  have ka : (s.settleTargetReset x).applyStands = false := k.applyStands.trans h
  have kb : ∀ b, (s.settleTargetReset x).busResetReady b = false := fun b => (k.busResetReady b).trans (hb b)
  have hnx : ∀ y ∈ before, y ≠ x := by
    rintro y hy rfl
    rw [hn y hy] at hx; cases hx
  have none : ∀ (l : List Target) (u : State), (∀ y ∈ l, u.targetResetReady y = false) →
      l.foldl (fun u t => if u.targetResetReady t then u.settleTargetReset t else u) u = u := by
    intro l
    induction l with
    | nil => intro u _; rfl
    | cons y rest ih =>
      intro u hu
      rw [List.foldl_cons, if_neg (by simp [hu y List.mem_cons_self])]
      exact ih u fun z hz => hu z (List.mem_cons_of_mem _ hz)
  unfold State.settle
  rw [settleApplies_none h, settleApplies_none ka, settleBus_none (hb 0), settleBus_none (hb 1), settleBus_none (kb 0),
    settleBus_none (kb 1)]
  unfold State.settleTargets
  have hc : (s.settleTargetReset x).resetClaims = s.resetClaims.filter (fun y => decide (y ≠ x)) := k.claims
  rw [hc, foldl_filter_skip _ _ (by rw [hc]; simp), hl, List.foldl_append, List.foldl_append, none before s hn,
    none before (s.settleTargetReset x), List.foldl_cons, List.foldl_cons, if_pos hx, if_neg]
  · simp [State.targetResetReady, hc]
  · intro y hy
    have h1 : (s.settleTargetReset x).frameTo y = s.frameTo y := k.toBeside.frameTo y
    have h2 : (s.settleTargetReset x).admittingTarget y = s.admittingTarget y := k.toBeside.admittingTarget y
    have := hn y hy
    simp only [State.targetResetReady, h1, h2, hc] at this ⊢
    simpa [hnx y hy] using this

end Sys2Proof.Machine
end

