-- ==== Sys2Proof/Laws/Steps.lean ====
section
/-! SUPPORT. The accounts are in order after every command (R28, R138, R155, R156): frames, admissions and their ends. -/

namespace Sys2Proof.Machine

/-! ### The head under admission -/

/-- A ring that has kept its head. -/
def HeadKept (u v : PortUnit) : Prop := ∀ r rest, u.ring = r :: rest → ∃ rest', v.ring = r :: rest'

theorem headKept_of_ring {u v : PortUnit} (h : v.ring = u.ring) : HeadKept u v := fun _ rest e => ⟨rest, h.trans e⟩

theorem InOrder.accounts {s : State} (h : InOrder s) : Accounts s := ⟨h.ports, h.work⟩

theorem InOrder.next {s t : State} (h : InOrder s) (k : Accounts t) (hc : t.admission.current = s.admission.current)
    (hr : ∀ a, s.admission.current = some a → HeadKept (s.port a.port) (t.port a.port)) : InOrder t := by
  refine ⟨k.ports, k.work, fun a ha => ?_⟩
  rw [hc] at ha
  obtain ⟨r, rest, h1, h2⟩ := h.admits a ha
  obtain ⟨rest', e⟩ := hr a ha r rest h1
  exact ⟨r, rest', e, h2⟩

/-- With no admission under way the accounts are all. -/
theorem Accounts.inOrder {s : State} (h : Accounts s) (hc : s.admission.current = none) : InOrder s :=
  ⟨h.ports, h.work, fun a ha => by rw [hc] at ha; cases ha⟩

/-- What touches only what no account is about. -/
theorem InOrder.aside {s t : State} (h : InOrder s) (hb : t.buses = s.buses) (ht : t.targets = s.targets)
    (hu : t.nextUid = s.nextUid) (hp : t.ports = s.ports) (hc : t.admission.current = s.admission.current) : InOrder t :=
  h.next (h.accounts.aside hb ht hu hp) hc fun a _ => headKept_of_ring (by simp [State.port, hp])

theorem InOrder.modPort {s : State} {p : Port} {f : PortUnit → PortUnit} (h : InOrder s)
    (hf : PortAccount (s.itemsOf p) (s.port p) → PortAccount (s.itemsOf p) (f (s.port p)))
    (hr : s.admittingPort p = true → HeadKept (s.port p) (f (s.port p))) : InOrder (s.modPort p f) := by
  refine h.next (h.accounts.modPort hf) rfl fun a ha => ?_
  by_cases hp : a.port = p
  · subst hp
    rw [modPort_eq, port_setPort_same]
    exact hr (by simp [State.admittingPort, ha])
  · rw [modPort_eq, port_setPort_other _ _ _ _ hp]
    exact headKept_of_ring rfl

/-- What the events of the Bus Engines, the Target Tracker and the Policy Unit do leaves every ring alone. -/
theorem ringsKept (s : State) : KeptByPostings (fun p u => u.ring = (s.port p).ring) where
  post p u k r h := by rw [← h]; simp [PortUnit.post, PortUnit.judge]
  drop p u k h := by
    rw [← h]; unfold PortUnit.dropOrphan PortUnit.judgeSpace
    dsimp only
    split <;> simp [PortUnit.raise]
  raise _ _ _ _ h := h

/-- Such an event keeps the accounts in order, and all of them in order. -/
theorem InOrder.event {s t : State} (h : InOrder s) (k : Accounts t) (hw : WorkMove s t)
    (hr : AllPorts (fun p u => u.ring = (s.port p).ring) t) : InOrder t :=
  h.next k hw.current fun a _ => headKept_of_ring (hr a.port)

theorem rings_refl (s : State) : AllPorts (fun p u => u.ring = (s.port p).ring) s := fun _ => rfl

/-! ### APPLYs -/

theorem Accounts.applyTaken {s : State} (h : Accounts s) : Accounts s.applyTaken := by
  have h1 : Accounts s.withTable := h.aside rfl rfl rfl rfl
  have h2 : Accounts s.appliedTable := h1.raiseAt
  rw [applyTaken_eq]
  split
  · exact h2
  · exact (h2.asideBus (b := 0) (f := fun e => { e with revocations := e.revocations ++ [s.revocationOf] })
      fun _ => ⟨rfl, rfl⟩).asideBus fun _ => ⟨rfl, rfl⟩

theorem Accounts.takeApplies : ∀ {n : Nat} {s : State}, Accounts s → Accounts (s.takeApplies n) := by
  intro n
  induction n with
  | zero => intro s h; exact h
  | succ n ih => intro s h; exact ih h.applyTaken

theorem Accounts.settleApplies {s : State} (h : Accounts s) : Accounts s.settleApplies := by
  unfold State.settleApplies
  split
  · exact h.takeApplies
  · exact h

theorem Accounts.settle {s : State} (h : Accounts s) : Accounts s.settle :=
  settle_keeps (P := Accounts) (fun _ => Accounts.settleApplies) (fun _ _ => Accounts.settleBusReset)
    (fun _ _ => Accounts.settleTargetReset) h

theorem InOrder.settle {s : State} (h : InOrder s) : InOrder s.settle :=
  h.event h.accounts.settle (workMove_settle (.refl s)) (allPorts_settle (ringsKept s) (rings_refl s))

/-! ### Opening, closing, capture -/

section

variable {own : List Item} {u : PortUnit}

/-- A new link whose captured record, if any, stands at the front of the queue. -/
theorem PortAccount.relink {l : Link} (h : PortAccount own u)
    (hl : ∀ r, l.captured = some (.collect (some r)) → u.queue.head? = some r) : PortAccount own { u with link := l } :=
  ⟨h.credits, h.tags, h.slots, h.clean, h.free, hl⟩

theorem PortAccount.opened (h : PortAccount own u) : PortAccount own u.opened := by
  unfold PortUnit.opened
  split
  · exact h
  · exact h.relink fun r hr => by cases hr

theorem PortAccount.rise {res : Result} {request n : Nat} {reply : List Byte} (h : PortAccount own u) :
    PortAccount own (u.rise res request n reply) := by
  refine (h.relink (l := (u.rise res request n reply).link) fun r hr => by cases hr).same rfl rfl rfl rfl rfl ?_
  exact fun _ hr => by cases hr

end

theorem InOrder.openFrame {s : State} {p : Port} (h : InOrder s) : InOrder (s.openFrame p) :=
  h.modPort PortAccount.opened fun _ => headKept_of_ring (opened_ring _)

theorem InOrder.closeFrame {s : State} {p : Port} {r : Result} {request n : Nat} {reply : List Byte} (h : InOrder s) :
    InOrder (s.closeFrame p r request n reply) :=
  h.modPort PortAccount.rise fun _ => headKept_of_ring rfl

theorem InOrder.plainFrame {s : State} {p : Port} {need : Nat} {bytes : List Byte} {act : State → State × Result}
    (h : InOrder s) (ha : ∀ t, InOrder t → InOrder (act t).1) : InOrder (s.plainFrame p need bytes act) := by
  unfold State.plainFrame
  dsimp only
  split
  · exact h.openFrame.closeFrame
  · exact (ha _ h.openFrame).closeFrame

theorem InOrder.captureFrame {s : State} {p : Port} {request : Nat} {bytes : List Byte} {grab : State → Captured}
    (h : InOrder s) (hg : ∀ t r, grab t = .collect (some r) → (t.port p).queue.head? = some r) :
    InOrder (s.captureFrame p request bytes grab) := by
  unfold State.captureFrame
  dsimp only
  split
  · exact h.openFrame
  · exact h.openFrame.modPort (fun k => k.relink fun r hr => hg _ r (Option.some.inj hr)) fun _ => headKept_of_ring rfl

theorem InOrder.replyFrame {s : State} {p : Port} {request need : Nat} {bytes : List Byte} {mine : Captured → Bool}
    {grab : State → Captured} {act : State → Captured → State × Result} (h : InOrder s)
    (ha : ∀ t c, InOrder t → InOrder (act t c).1) : InOrder (s.replyFrame p request need bytes mine grab act) := by
  unfold State.replyFrame
  dsimp only
  split
  · exact h.openFrame.closeFrame
  · split
    · exact h.openFrame.closeFrame
    · exact (ha _ _ h.openFrame).closeFrame

/-! ### The request side -/

/-- What SUBMIT has checked when it accepts (R153). -/
theorem checkSubmit_ok {u : PortUnit} {bytes : List Byte} {r : Request} (h : u.checkSubmit bytes = .ok r) :
    u.credits < 16 ∧ r.tag ∉ u.tags ∧ ∀ k, r.slot = some k → (pick u.slots k).state ≠ .committed := by
  unfold PortUnit.checkSubmit at h
  split at h
  · cases h
  · next room =>
    simp only [PortUnit.submitRoom, Bool.not_eq_true', Bool.not_eq_false, Bool.and_eq_true, decide_eq_true_eq] at room
    split at h
    · cases h
    · next dup =>
      cases hr : Request.ofBytes bytes with
      | none => rw [hr] at h; cases h
      | some q =>
        rw [hr] at h
        dsimp only at h
        have tag : q.tag = byteAt bytes 0 := by
          unfold Request.ofBytes at hr
          dsimp only at hr
          split at hr
          · split at hr
            · cases hr; rfl
            · cases hr
          · cases hr
        have out : q = r ∧ ∀ k, q.slot = some k → (pick u.slots k).state ≠ .committed := by
          cases hs : q.slot with
          | none => rw [hs] at h; cases h; exact ⟨rfl, fun _ e => by cases e⟩
          | some k =>
            rw [hs] at h
            dsimp only at h
            split at h
            · next ha =>
              cases h
              refine ⟨rfl, fun j e => ?_⟩
              cases e
              intro hc
              simp [Slot.accepts, hc] at ha
            · cases h
        obtain ⟨rfl, hk⟩ := out
        exact ⟨room.2, by rw [tag]; simpa using dup, hk⟩

theorem InOrder.submit {s : State} {p : Port} {bytes : List Byte} (h : InOrder s) : InOrder (takeSubmit p bytes s) := by
  refine h.plainFrame fun t h => ?_
  split
  · rename_i r hr
    obtain ⟨h1, h2, h3⟩ := checkSubmit_ok hr
    dsimp only
    refine h.modPort (fun k => k.accept h1 h2 h3) fun _ r' rest e => ⟨rest ++ [r], ?_⟩
    simp [PortUnit.accept, e]
  · dsimp only
    exact h.modPort (fun k => k.same rfl rfl rfl rfl rfl fun _ x => x) fun _ => headKept_of_ring rfl
  · exact h

@[simp] theorem judgeSpace_ring (u : PortUnit) : u.judgeSpace.ring = u.ring := by
  unfold PortUnit.judgeSpace; split <;> rfl

theorem post_ring (u : PortUnit) (k : Option SlotIx) (c : Completion) : (u.post k c).ring = u.ring := by
  simp [PortUnit.post, PortUnit.judge]

/-- The tags of a ring are distinct. -/
theorem PortAccount.ringTag {own : List Item} {u : PortUnit} (h : PortAccount own u) {r x : Request} (hr : r ∈ u.ring)
    (hx : x ∈ u.ring) (ht : x.tag = r.tag) : u.ring.Perm (r :: u.ring.filter (fun y => y.tag != r.tag)) ∧ x = r := by
  have hc := h.tags r.tag
  have one : u.ring.countP (fun y => y.tag == r.tag) ≤ 1 := by omega
  have single : u.ring.filter (fun y => y.tag == r.tag) = [r] := by
    have hm : r ∈ u.ring.filter (fun y => y.tag == r.tag) := List.mem_filter.2 ⟨hr, by simp⟩
    rw [List.countP_eq_length_filter] at one
    cases hf : u.ring.filter (fun y => y.tag == r.tag) with
    | nil => rw [hf] at hm; cases hm
    | cons a l =>
      rw [hf] at one hm
      have : l = [] := by
        rw [← List.length_eq_zero_iff]
        simp only [List.length_cons] at one
        omega
      subst this
      rw [List.mem_singleton] at hm
      rw [hm]
  refine ⟨?_, ?_⟩
  · have := (List.filter_append_perm (fun y : Request => y.tag == r.tag) u.ring).symm
    rw [single] at this
    exact this
  · have : x ∈ u.ring.filter (fun y => y.tag == r.tag) := List.mem_filter.2 ⟨hx, by simp [ht]⟩
    rw [single] at this
    exact List.mem_singleton.1 this

/-- A ring entry leaves, and its record is posted (R59, R160). -/
theorem PortAccount.postEntry {own : List Item} {u : PortUnit} {r : Request} {rest : List Request} {c : Completion}
    (h : PortAccount own u) (hr : u.ring.Perm (r :: rest)) (ht : c.tag = r.tag) (hk : c.kind = r.kind) :
    PortAccount own (PortUnit.judgeSpace ({ u with ring := rest }.post r.slot c)) := by
  have h1 := h.headInserted (it := r.item 0 0 .empty 0 0) hr rfl rfl rfl
  exact (h1.post (c := c) rfl ht hk fun _ hm => by cases hm).judgeSpace

theorem InOrder.cancelTag {s : State} {p : Port} {tag : Byte} (h : InOrder s) (hh : s.headUnderAdmission p tag = false) :
    InOrder (s.cancelTag p tag) := by
  unfold State.cancelTag
  split
  · rename_i r hr
    have hm := List.mem_of_find?_eq_some hr
    have ht : r.tag = tag := by simpa using List.find?_some hr
    have key : InOrder (s.modPort p fun u =>
        PortUnit.judgeSpace ({ u with ring := u.ring.filter (fun x => x.tag != r.tag) }.post r.slot r.recordCancelled)) := by
      refine h.modPort (fun k => k.postEntry (k.ringTag hm hm rfl).1 rfl rfl) fun hp x rest e => ?_
      rw [judgeSpace_ring, post_ring]
      dsimp only
      rw [e, List.filter_cons_of_pos]
      · exact ⟨_, rfl⟩
      · simp only [State.headUnderAdmission, hp, e, List.head?_cons, Option.map_some, Bool.true_and] at hh
        rw [ht]
        simpa using hh
    unfold State.cancelEntry
    dsimp only
    split
    · exact key.aside rfl rfl rfl rfl rfl
    · exact key
  · split
    · refine h.next (h.accounts.asideBus fun e => ⟨rfl, rfl⟩) rfl fun _ _ => headKept_of_ring rfl
    · exact h

theorem InOrder.cancel {s : State} {p : Port} {bytes : List Byte} (h : InOrder s) : InOrder (takeCancel p bytes s) := by
  refine h.plainFrame fun t h => ?_
  dsimp only
  split
  · exact h
  · split
    · exact h.aside rfl rfl rfl rfl rfl
    · next hh => exact h.cancelTag (by simpa using hh)

theorem InOrder.load {s : State} {p : Port} {bytes : List Byte} (h : InOrder s) : InOrder (takeLoad p bytes s) := by
  refine h.plainFrame fun t h => ?_
  dsimp only
  split
  · exact h
  · split
    · exact h
    · split
      · exact h
      · next hn =>
        dsimp only
        exact h.modPort (fun k => k.settle hn returned_load) fun _ => headKept_of_ring rfl

theorem InOrder.release {s : State} {p : Port} {bytes : List Byte} (h : InOrder s) : InOrder (takeRelease p bytes s) := by
  refine h.plainFrame fun t h => ?_
  split
  · exact h
  · split
    · exact h
    · next hn =>
      dsimp only
      exact h.modPort (fun k => k.settle hn fun _ => returned_freed) fun _ => headKept_of_ring rfl

/-- COLLECT at its release: the record captured stands at the front of the queue (R159). -/
theorem InOrder.collect {s : State} {p : Port} {bytes : List Byte} (h : InOrder s) :
    InOrder (takeCollect p .release bytes s) := by
  unfold takeCollect State.replyFrame
  dsimp only
  have ho := h.openFrame (p := p)
  generalize s.openFrame p = t at ho
  split
  · exact ho.closeFrame
  · split
    · exact ho.closeFrame
    · generalize hc : (Option.filter Captured.isCollect (t.port p).link.captured).getD (grabCollect p t) = c
      unfold State.endCollect
      split
      · rename_i r
        have front : (t.port p).queue.head? = some r := by
          cases hf : Option.filter Captured.isCollect (t.port p).link.captured with
          | none =>
            rw [hf] at hc
            injection hc
          | some x =>
            rw [hf, Option.getD_some] at hc
            subst hc
            exact (ho.ports p).captured r (Option.filter_eq_some_iff.1 hf).1
        rw [show ∀ res n m l, ((t.modPort p (·.collectFront r)).closeFrame p res n m l) =
          t.modPort p (fun u => (u.collectFront r).rise res n m l) from fun res n m l => by
            rw [closeFrame_eq, modPort_eq, setPort_setPort, port_setPort_same]; rfl]
        refine ho.modPort (fun k => ?_) fun _ => headKept_of_ring ?_
        · refine (k.collect (l := ((t.port p).collectFront r |>.rise .ok 1 bytes.length (Captured.reply (.collect (some r)))).link)
            front fun x e => ?_).same rfl rfl rfl rfl rfl fun _ e => ?_
          · cases e
          · cases e
        · simp [PortUnit.rise, PortUnit.collectFront, PortUnit.judge]
      all_goals exact ho.closeFrame

theorem InOrder.cause {s : State} {p : Port} {m : Moment} {bytes : List Byte} (h : InOrder s) :
    InOrder (takeCause p m bytes s) := by
  unfold takeCause
  cases m
  · exact h.captureFrame fun t r hr => by cases hr
  · refine h.replyFrame fun t c h => ?_
    unfold State.endCause
    split
    · split
      · dsimp only
        exact h.modPort (fun k => k.same rfl rfl rfl rfl rfl fun _ x => x) fun _ => headKept_of_ring rfl
      · exact h
    all_goals exact h

theorem InOrder.causeEnable {s : State} {p : Port} {bytes : List Byte} (h : InOrder s) :
    InOrder (takeCauseEnable p bytes s) := by
  refine h.plainFrame fun t h => ?_
  dsimp only
  split
  · split
    · dsimp only
      exact h.modPort (fun k => k.same rfl rfl rfl rfl rfl fun _ x => x) fun _ => headKept_of_ring rfl
    · exact h
  · exact h

/-! ### PORT RESET (R149, R165) -/

/-- A list after a port reset. -/
def resetItems (p : Port) (l : List Item) : List Item :=
  (l.filter (fun it => !it.removedByPortReset p)).map (fun it => if it.port = p then { it with orphan := true } else it)

theorem resetItems_port (p : Port) (l : List Item) : (resetItems p l).filter (fun it => decide (it.port = p)) =
    ((l.filter (fun it => decide (it.port = p))).filter (fun it => !it.removedByPortReset p)).map
      (fun it => { it with orphan := true }) := by
  induction l with
  | nil => rfl
  | cons it rest ih =>
    unfold resetItems at ih ⊢
    by_cases hp : it.port = p <;> by_cases hr : it.removedByPortReset p = true <;>
      simp_all

theorem resetItems_other (p q : Port) (hq : q ≠ p) (l : List Item) : (resetItems p l).filter (fun it => decide (it.port = q)) =
    l.filter (fun it => decide (it.port = q)) := by
  induction l with
  | nil => rfl
  | cons it rest ih =>
    unfold resetItems at ih ⊢
    by_cases hp : it.port = p
    · have hpq : ¬ p = q := fun e => hq e.symm
      by_cases hr : it.removedByPortReset p = true <;> simp_all
    · have hr : it.removedByPortReset p = false := by simp [Item.removedByPortReset, hp]
      by_cases hpq : it.port = q <;> simp_all

theorem WorkAccount.portResetBus {s : State} {p : Port} {b : Bus} (h : WorkAccount s) : WorkAccount (s.portResetBus p b) := by
  obtain ⟨e1, e2, e3, e4, e5⟩ := portResetBus_rest s p b
  have hf : ∀ it ∈ (s.bus b).list, (!it.removedByPortReset p) = false → ¬it.owns := fun it _ hg => by
    simp only [Bool.not_eq_false', Item.removedByPortReset, Bool.and_eq_true, decide_eq_true_eq] at hg
    exact queued_owns hg.1.2
  let u := s.setBus b { s.bus b with list := (s.bus b).list.filter (fun it => !it.removedByPortReset p) }
  have k1 : WorkAccount u := by
    refine h.filter (b := b) (g := fun it => !it.removedByPortReset p) (fun c hc => bus_setBus_other s b c _ hc) rfl rfl
      (by rw [bus_setBus_same]) (fun r hr => ?_) fun it hit hg => h.unowned hit (hf it hit hg)
    rw [bus_setBus_same] at hr ⊢
    exact (workAccount_frames h hr).filter _
  have hl : ((s.portResetBus p b).bus b).list = (u.bus b).list.map
      (fun it => if it.port = p then { it with orphan := true } else it) := by
    rw [e4, bus_setBus_same]; rfl
  refine k1.map (b := b) (f := fun it => if it.port = p then { it with orphan := true } else it)
    (fun c hc => (e5 c hc).trans (bus_setBus_other s b c _ hc).symm) (by rw [e1]; rfl) (by rw [e1]; rfl) hl (fun r hr => ?_)
    fun it hit => ?_
  · rw [hl]
    refine FrameFits.map (workAccount_frames k1 (by rw [bus_setBus_same]; rw [e4] at hr; exact hr)) fun it _ => ?_
    split <;> exact ⟨rfl, rfl, rfl, id⟩
  · have := (k1.items b it hit).2
    split <;> exact ⟨rfl, rfl, this, id⟩

/-- The port's own account after a port reset, in the frame that closes. -/
theorem InOrder.portReset {s : State} {p : Port} {bytes : List Byte} (h : InOrder s) (hp : s.admittingPort p = false) :
    InOrder (takePortReset p bytes s) := by
  unfold takePortReset State.plainFrame
  dsimp only
  have ho := h.openFrame (p := p)
  have hp : (s.openFrame p).admittingPort p = false := hp
  generalize s.openFrame p = t at ho hp
  split
  · exact ho.closeFrame
  · have hA : Accounts ((t.takeCancels p 0 (fun _ => true)).takeCancels p 1 (fun _ => true)) :=
      ho.accounts.takeCancels.takeCancels
    have hW := workMove_takeCancels (p := p) (b := 1) (sel := fun _ => true)
      (workMove_takeCancels (p := p) (b := 0) (sel := fun _ => true) (.refl t))
    have hR := allPorts_takeCancels (ringsKept t) (p := p) (b := 1) (sel := fun _ => true)
      (allPorts_takeCancels (ringsKept t) (p := p) (b := 0) (sel := fun _ => true) (rings_refl t))
    unfold State.portReset
    dsimp only
    generalize (t.takeCancels p 0 (fun _ => true)).takeCancels p 1 (fun _ => true) = u at hA hW hR ⊢
    have w2 := (hA.work.portResetBus (p := p) (b := 0)).portResetBus (p := p) (b := 1)
    have pr : ((u.portResetBus p 0).portResetBus p 1).ports = u.ports := by
      rw [portResetBus_ports, portResetBus_ports]
    have l0 : (((u.portResetBus p 0).portResetBus p 1).bus 0).list = resetItems p (u.bus 0).list := by
      rw [(portResetBus_rest _ p 1).2.2.2.2 0 (by decide), (portResetBus_rest u p 0).2.2.2.1]; rfl
    have l1 : (((u.portResetBus p 0).portResetBus p 1).bus 1).list = resetItems p (u.bus 1).list := by
      rw [(portResetBus_rest _ p 1).2.2.2.1, (portResetBus_rest u p 0).2.2.2.2 1 (by decide)]; rfl
    have cur : ((u.portResetBus p 0).portResetBus p 1).admission.current = u.admission.current := by
      rw [(portResetBus_rest _ p 1).2.1, (portResetBus_rest u p 0).2.1]
    generalize (u.portResetBus p 0).portResetBus p 1 = v at w2 pr l0 l1 cur ⊢
    have vp : ∀ q, v.port q = u.port q := fun q => by simp [State.port, pr]
    have own : v.itemsOf p = ((u.itemsOf p).filter (fun it => !it.removedByPortReset p)).map
        (fun it => { it with orphan := true }) := by
      unfold State.itemsOf
      rw [l0, l1, List.filter_append, List.filter_append, resetItems_port, resetItems_port, List.filter_append,
        List.map_append]
    have other : ∀ q, q ≠ p → v.itemsOf q = u.itemsOf q := fun q hq => by
      unfold State.itemsOf
      rw [l0, l1, List.filter_append, List.filter_append, resetItems_other p q hq, resetItems_other p q hq]
    generalize hw : (State.closeFrame { v.modPort p (·.portReset (v.itemsOf p)) with
      admission := { (v.modPort p (·.portReset (v.itemsOf p))).admission with
        blocked := put (v.modPort p (·.portReset (v.itemsOf p))).admission.blocked p none } } p .ok 1 bytes.length []) = w
    have wb : w.buses = v.buses := by rw [← hw]; rfl
    have wi : ∀ q, w.itemsOf q = v.itemsOf q := fun q => itemsOf_congr (fun b => by simp [State.bus, wb]) q
    have wp : w.port p = ((v.port p).portReset (v.itemsOf p)).rise .ok 1 bytes.length [] := by
      rw [← hw, closeFrame_eq, port_setPort_same]
      rw [show State.port { v.modPort p (·.portReset (v.itemsOf p)) with
        admission := { (v.modPort p (·.portReset (v.itemsOf p))).admission with
          blocked := put (v.modPort p (·.portReset (v.itemsOf p))).admission.blocked p none } } p =
        (v.modPort p (·.portReset (v.itemsOf p))).port p from rfl, modPort_eq, port_setPort_same]
    have wo : ∀ q, q ≠ p → w.port q = v.port q := fun q hq => by
      rw [← hw, closeFrame_eq, port_setPort_other _ _ _ _ hq]
      exact port_setPort_other v p q _ hq
    have k : Accounts w := by
      refine ⟨fun q => ?_, w2.still (fun b => by simp [State.bus, wb]) (by rw [← hw]; rfl) (by rw [← hw]; rfl)⟩
      rw [wi]
      by_cases hq : q = p
      · subst hq
        rw [wp, vp]
        refine ((hA.ports q).cutLoose (l := ((u.port q).portReset (v.itemsOf q) |>.rise .ok 1 bytes.length []).link)
          ?_ ?_ ?_ ?_ ?_).same rfl rfl rfl rfl rfl fun _ e => by cases e
        · intro j
          rw [own, List.countP_map]
          exact (List.Sublist.countP_le (List.filter_sublist ..))
        · rw [own, List.length_map]
          exact List.length_filter_le _ _
        · intro it hit
          rw [own, List.mem_map] at hit
          obtain ⟨x, _, rfl⟩ := hit
          rfl
        · intro j hj _ it hit hs hr
          by_cases hrem : it.removedByPortReset q = true
          · simp only [Item.removedByPortReset, Bool.and_eq_true, decide_eq_true_eq] at hrem
            obtain ⟨⟨b, hb⟩, _⟩ := mem_itemsOf.1 hit
            by_contra hne
            exact absurd ((hA.work.items b it hb).2 hr (by omega)) (queued_active hrem.1.2)
          · refine hj { it with orphan := true } ?_ hs hr
            rw [own]
            exact List.mem_map.2 ⟨it, List.mem_filter.2 ⟨hit, by simpa using hrem⟩, rfl⟩
        · intro r e; cases e
      · rw [wo q hq, vp, other q hq]
        exact hA.ports q
    refine ho.next k (by rw [← hw]; exact cur.trans hW.current) fun a ha => ?_
    have hne : a.port ≠ p := fun e => by
      simp [State.admittingPort, ha, e] at hp
    rw [wo _ hne, vp]
    exact headKept_of_ring (hR a.port)

/-! ### Targets and buses -/

theorem InOrder.setupTarget {s : State} {p : Port} {bytes : List Byte} (h : InOrder s) :
    InOrder (takeSetupTarget p bytes s) := by
  refine h.plainFrame fun t h => ?_
  split
  · exact h
  · split
    · exact h
    · exact h
    · split
      · rename_i x pr _ _ _
        refine h.next ?_ rfl fun _ _ => headKept_of_ring rfl
        dsimp only
        by_cases ha : (t.target x).state = .absent
        · refine h.accounts.target ?_ ?_ ?_ <;> simp only [TargetRecord.setup, ha, if_true]
          · constructor <;> simp [TargetRecord.absent, TargetState.owned, TargetState.hasUnit]
          · intro uid e; cases e
          · intros; trivial
        · have e : (t.target x).setup pr = { t.target x with profile := pr } := by simp [TargetRecord.setup, ha]
          obtain ⟨l1, l2, l3, l4⟩ := h.work.lives x
          refine h.accounts.targetSame ?_ ?_ ?_ <;> rw [e]
          exact ⟨l1, l2, l3, l4⟩
      · exact h

theorem InOrder.removeTarget {s : State} {p : Port} {bytes : List Byte} (h : InOrder s) :
    InOrder (takeRemoveTarget p bytes s) := by
  refine h.plainFrame fun t h => ?_
  split
  · exact h
  · split
    · exact h
    · split
      · rename_i x _ hq
        simp only [Bool.and_eq_true, State.quiet, Bool.not_eq_true'] at hq
        refine h.next (h.accounts.target (f := fun _ => .absent) lives_absent ?_ ?_) rfl fun _ _ => headKept_of_ring rfl
        · intro uid e; cases e
        · rintro r hr ht _ _ ⟨it, hit, hi⟩ _
          have hx := ((workAccount_frames h.work hr).2.2 it hit hi).2.1
          have : (t.bus (busOf x)).names x = true := by
            simp only [BusEngine.names, List.any_eq_true, decide_eq_true_eq]
            exact ⟨it, hit, hx.trans ht⟩
          rw [hq.2.2] at this
          cases this
      · exact h

theorem InOrder.resetTarget {s : State} {p : Port} {bytes : List Byte} (h : InOrder s) :
    InOrder (takeResetTarget p bytes s) := by
  refine h.plainFrame fun t h => ?_
  split
  · exact h
  · split
    · exact h
    · split
      · exact h
      · exact h
      all_goals
        unfold State.sendTargetReset
        split <;> exact h.aside rfl rfl rfl rfl rfl

theorem InOrder.asideBus {s : State} {b : Bus} {f : BusEngine → BusEngine} (h : InOrder s)
    (hf : ∀ e, (f e).list = e.list ∧ (f e).frame = e.frame) : InOrder (s.modBus b f) :=
  h.next (h.accounts.asideBus hf) rfl fun _ _ => headKept_of_ring rfl

theorem InOrder.resetBus {s : State} {p : Port} {bytes : List Byte} (h : InOrder s) :
    InOrder (takeResetBus p bytes s) := by
  refine h.plainFrame fun t h => ?_
  split
  · exact h
  · split
    · exact h
    · unfold State.sendBusReset
      split
      · exact h.aside rfl rfl rfl rfl rfl
      · dsimp only
        exact h.asideBus fun e => ⟨rfl, rfl⟩

theorem InOrder.busMode {s : State} {p : Port} {bytes : List Byte} (h : InOrder s) :
    InOrder (takeBusMode p bytes s) := by
  refine h.plainFrame fun t h => ?_
  split
  · exact h
  · split
    · split
      · exact h
      · rename_i m _ _ _
        exact h.asideBus (f := fun e => { e with mode := m }) fun e => ⟨rfl, rfl⟩
    · exact h

/-! ### The other frames -/

theorem InOrder.hold {s : State} {p : Port} {bytes : List Byte} (h : InOrder s) : InOrder (takeHold p bytes s) := by
  refine h.plainFrame fun t h => ?_
  dsimp only
  exact h.modPort (fun k => k.same rfl rfl rfl rfl rfl fun _ x => x) fun _ => headKept_of_ring rfl

theorem InOrder.unhold {s : State} {p : Port} {bytes : List Byte} (h : InOrder s) : InOrder (takeUnhold p bytes s) := by
  refine h.plainFrame fun t h => ?_
  dsimp only
  exact h.modPort (fun k => k.same rfl rfl rfl rfl rfl fun _ x => x) fun _ => headKept_of_ring rfl

theorem InOrder.fetch {s : State} {p : Port} {m : Moment} {bytes : List Byte} (h : InOrder s) :
    InOrder (takeFetch p m bytes s) := by
  unfold takeFetch
  cases m
  · refine h.captureFrame fun t r hr => ?_
    unfold grabFetch at hr
    split at hr
    · cases hr
    · dsimp only at hr; split at hr <;> cases hr
  · exact h.replyFrame fun _ _ h => h

theorem InOrder.summary {s : State} {p : Port} {m : Moment} {bytes : List Byte} (h : InOrder s) :
    InOrder (takeSummary p m bytes s) := by
  unfold takeSummary
  cases m
  · exact h.captureFrame fun t r hr => by cases hr
  · exact h.replyFrame fun _ _ h => h

theorem InOrder.collectCapture {s : State} {p : Port} {bytes : List Byte} (h : InOrder s) :
    InOrder (takeCollect p .capture bytes s) := by
  unfold takeCollect
  exact h.captureFrame fun _ _ hr => Captured.collect.inj hr

theorem InOrder.readEntry {s : State} {p : Port} {m : Moment} {bytes : List Byte} (h : InOrder s) :
    InOrder (takeReadEntry p m bytes s) := by
  unfold takeReadEntry
  cases m
  · refine h.captureFrame fun t r hr => ?_
    unfold grabReadEntry at hr
    dsimp only at hr
    split at hr
    · cases hr
    · split at hr <;> cases hr
    · cases hr
  · exact h.replyFrame fun _ _ h => h

theorem InOrder.readTarget {s : State} {p : Port} {m : Moment} {bytes : List Byte} (h : InOrder s) :
    InOrder (takeReadTarget p m bytes s) := by
  unfold takeReadTarget
  cases m
  · refine h.captureFrame fun t r hr => ?_
    unfold grabReadTarget at hr
    split at hr <;> cases hr
  · exact h.replyFrame fun _ _ h => h

theorem InOrder.modPolicy {s : State} {f : PolicyUnit → PolicyUnit} (h : InOrder s) : InOrder (s.modPolicy f) :=
  h.aside rfl rfl rfl rfl rfl

theorem InOrder.stageEntry {s : State} {p : Port} {bytes : List Byte} (h : InOrder s) :
    InOrder (takeStageEntry p bytes s) := by
  refine h.plainFrame fun t h => ?_
  split
  · exact h
  · split
    · exact h
    · dsimp only; exact h.modPolicy

theorem InOrder.copyActive {s : State} {p : Port} {bytes : List Byte} (h : InOrder s) :
    InOrder (takeCopyActive p bytes s) := by
  refine h.plainFrame fun t h => ?_
  split
  · exact h
  · dsimp only; exact h.modPolicy

theorem InOrder.apply {s : State} {p : Port} {bytes : List Byte} (h : InOrder s) : InOrder (takeApply p bytes s) := by
  refine h.plainFrame fun t h => ?_
  split
  · exact h
  · split <;> (dsimp only; exact h.modPolicy)

/-- The link of a port changes, and holds no capture. -/
theorem InOrder.relink {s : State} {p : Port} {f : PortUnit → PortUnit} (h : InOrder s)
    (hf : ∀ u, ∃ l, f u = { u with link := l } ∧ l.captured = none) : InOrder (s.modPort p f) := by
  obtain ⟨l, e, hl⟩ := hf (s.port p)
  refine h.modPort (fun k => ?_) fun _ => ?_ <;> rw [e]
  · exact k.relink fun r hr => by rw [hl] at hr; cases hr
  · exact headKept_of_ring rfl

theorem InOrder.badcode {s : State} {p : Port} {code : Byte} {bytes : List Byte} (h : InOrder s) :
    InOrder (takeBadcode p code bytes s) := by
  unfold takeBadcode
  split
  · exact h
  · exact h.openFrame.closeFrame

/-- Every frame, PORT RESET only while no head of its port is under admission (R165). -/
theorem InOrder.takeFrame {s : State} {i : Instr} (h : InOrder s)
    (hp : ∀ p bytes, i = .portReset p bytes → s.admittingPort p = false) : InOrder (takeFrame i s) := by
  cases i
  case submit p bytes => exact h.submit
  case cancel p bytes => exact h.cancel
  case hold p bytes => exact h.hold
  case unhold p bytes => exact h.unhold
  case load p bytes => exact h.load
  case fetch p m bytes => exact h.fetch
  case release p bytes => exact h.release
  case collect p m bytes =>
    cases m
    · exact h.collectCapture (bytes := bytes)
    · exact h.collect
  case cause p m bytes => exact h.cause
  case causeEnable p bytes => exact h.causeEnable
  case summary p m bytes => exact h.summary
  case portReset p bytes => exact h.portReset (hp p bytes rfl)
  case readEntry p m bytes => exact h.readEntry
  case readTarget p m bytes => exact h.readTarget
  case stageEntry p bytes => exact h.stageEntry
  case copyActive p bytes => exact h.copyActive
  case apply p bytes => exact h.apply
  case setupTarget p bytes => exact h.setupTarget
  case removeTarget p bytes => exact h.removeTarget
  case resetTarget p bytes => exact h.resetTarget
  case resetBus p bytes => exact h.resetBus
  case busMode p bytes => exact h.busMode
  case badcode p code bytes => exact h.badcode
  case frameWithoutCode p => exact h.relink fun u => ⟨_, rfl, rfl⟩
  case summaryByte p => exact h.relink fun u => ⟨_, rfl, rfl⟩
  all_goals exact h

theorem InOrder.upstream {s : State} {p : Port} {i : Instr} {w : Bool} (h : InOrder s)
    (hp : ∀ q bytes, i = .portReset q bytes → w = false → s.admittingPort q = false) :
    InOrder (s.upstream p i w (Sys2Proof.Machine.takeFrame i)) := by
  unfold State.upstream
  split
  · exact h
  · split
    · exact h.aside rfl rfl rfl rfl rfl
    · split
      · exact h.settle.openFrame.aside rfl rfl rfl rfl rfl
      · next hw =>
        refine h.settle.takeFrame fun q bytes e => ?_
        have := hp q bytes e (by simpa using hw)
        simpa [State.admittingPort, (workMove_settle (.refl s)).current] using this

/-! ### Admissions -/

theorem Accounts.takeWaiting {s : State} {w : Waiting} (h : Accounts s) (hc : s.admission.current = none) :
    Accounts (takeWaiting w s) := by
  have k := h.settle
  have kc : s.settle.admission.current = none := (workMove_settle (.refl s)).current.trans hc
  have ko := k.inOrder kc
  unfold Sys2Proof.Machine.takeWaiting
  dsimp only
  cases w with
  | frame i => exact (ko.takeFrame fun q bytes _ => by simp [State.admittingPort, kc]).accounts
  | cancelHead p tag =>
    have hk : Accounts (s.settle.cancelTag p tag) :=
      (ko.cancelTag (by simp [State.headUnderAdmission, State.admittingPort, kc])).accounts
    unfold State.cancelHead
    dsimp only
    split
    · exact hk.takeCancels
    all_goals exact hk
  | expiry x l => exact k.takeLimit
  | targetReset x =>
    dsimp only
    split
    · exact k.aside rfl rfl rfl rfl
    · next hf => exact k.takeTargetReset (by simpa using hf)
  | busReset b => exact k.takeBusReset

theorem Accounts.takeAll : ∀ {l : List Waiting} {s : State}, Accounts s → s.admission.current = none →
    InOrder (l.foldl (fun s w => Sys2Proof.Machine.takeWaiting w s) s) := by
  intro l
  induction l with
  | nil => intro s h hc; exact h.inOrder hc
  | cons w rest ih =>
    intro s h hc
    exact ih (h.takeWaiting hc) ((workMove_takeWaiting (.refl s)).current.trans hc)

/-- The end of an admission. -/
theorem Accounts.endAdmission {s : State} (h : Accounts s) : InOrder s.endAdmission := by
  unfold State.endAdmission
  dsimp only
  have h1 : Accounts { s with admission := { s.admission with current := none }, waiting := [] } := h.aside rfl rfl rfl rfl
  refine h1.settleApplies.takeAll ?_
  exact (workMove_settleApplies (.refl _)).current

/-- The item of an insertion stands at the tail of its list, and its request has left the ring (R56, R57). -/
theorem Accounts.insertion {s : State} {p : Port} {it : Item} {r : Request} {rest : List Request} (h : Accounts s)
    (hr : (s.port p).ring = r :: rest) (hp : it.port = p) (ht : it.tag = r.tag) (hs : it.slot = r.slot)
    (ho : it.orphan = false) (hm : it.bytesMoved = 0) : Accounts ((s.append it).headServed p) := by
  generalize hi : ({ it with uid := s.nextUid } : Item) = new
  have nb : busOf new.target = busOf it.target := by rw [← hi]
  have tb : ((s.append it).headServed p).bus (busOf it.target) =
      { s.bus (busOf it.target) with list := (s.bus (busOf it.target)).list ++ [new] } := by
    rw [← hi]; exact append_bus_same s it
  have to' : ∀ c, c ≠ busOf it.target → ((s.append it).headServed p).bus c = s.bus c := fun c hc => append_bus_other s it c hc
  have tu : ((s.append it).headServed p).nextUid = s.nextUid + 1 := rfl
  have tt : ∀ x, ((s.append it).headServed p).target x = s.target x := fun _ => rfl
  have fresh : ∀ c, ∀ i ∈ (s.bus c).list, i.uid < s.nextUid := fun c => (h.work.distinct c).2
  have mem : ∀ c, ∀ i ∈ (((s.append it).headServed p).bus c).list, i ∈ (s.bus c).list ∨ (c = busOf it.target ∧ i = new) := by
    intro c i hic
    by_cases hc : c = busOf it.target
    · subst hc
      rw [tb] at hic
      rcases List.mem_append.1 hic with x | x
      · exact .inl x
      · exact .inr ⟨rfl, List.mem_singleton.1 x⟩
    · rw [to' c hc] at hic; exact .inl hic
  have sub : ∀ c, ∀ i ∈ (s.bus c).list, i ∈ (((s.append it).headServed p).bus c).list := by
    intro c i hic
    by_cases hc : c = busOf it.target
    · subst hc; rw [tb]; exact List.mem_append_left _ hic
    · rw [to' c hc]; exact hic
  refine ⟨?_, fun c => ⟨?_, fun i hi' => ?_⟩, fun c i hi' => ?_, fun c f hf => ?_, h.work.lives, fun x uid hx => ?_⟩
  · have tp : ∀ q, ((s.append it).headServed p).port q =
        if q = p then PortUnit.judgeSpace { s.port p with ring := rest } else s.port q := by
      intro q
      split
      · next e =>
        subst e
        unfold State.headServed
        rw [modPort_eq, port_setPort_same]
        show PortUnit.judgeSpace { s.port q with ring := (s.port q).ring.tail } = _
        rw [hr]; rfl
      · next e => exact port_setPort_other _ _ _ _ e
    refine h.ports.list (b := busOf it.target) (fun c hc => by rw [to' c hc]) fun q c hc => ?_
    rw [tb, tp]
    dsimp only
    rw [List.filter_append]
    by_cases hq : q = p
    · subst hq
      rw [if_pos rfl, List.filter_cons_of_pos (by rw [← hi]; simpa using hp), List.filter_nil]
      have k := (hc.headInserted (it := new) (r := r) (rest := rest) (by rw [hr]) (by rw [← hi]; exact ht) (by rw [← hi]; exact hs)
        (by rw [← hi]; exact ho)).judgeSpace
      refine k.perm ?_
      rw [List.append_assoc]
      exact List.perm_middle.symm
    · rw [if_neg hq, List.filter_cons_of_neg (by rw [← hi]; simp [hp, Ne.symm hq]), List.filter_nil, List.append_nil]
      exact hc
  · by_cases hc : c = busOf it.target
    · subst hc
      rw [tb]
      dsimp only
      rw [List.map_append, List.nodup_append]
      refine ⟨(h.work.distinct _).1, by simp, fun a ha b hb' e => ?_⟩
      obtain ⟨i, hic, rfl⟩ := List.mem_map.1 ha
      simp only [List.map_cons, List.map_nil, List.mem_singleton] at hb'
      rw [hb', ← hi] at e
      have := fresh _ i hic
      simp only at e
      omega
    · rw [to' c hc]; exact (h.work.distinct c).1
  · rw [tu]
    rcases mem c i hi' with x | ⟨_, rfl⟩
    · have := fresh c i x; omega
    · rw [← hi]; exact Nat.lt_succ_self _
  · rcases mem c i hi' with x | ⟨rfl, rfl⟩
    · exact h.work.items c i x
    · refine ⟨nb, fun _ hpos => ?_⟩
      rw [← hi] at hpos
      simp only [hm] at hpos
      omega
  · have hf : (s.bus c).frame = some f := by
      by_cases hc : c = busOf it.target
      · subst hc; rw [tb] at hf; exact hf
      · rw [to' c hc] at hf; exact hf
    obtain ⟨k1, k2, k3⟩ := h.work.frames c f hf
    refine ⟨k1, fun uid hu => by rw [tu]; have := k2 uid hu; omega, fun i hi' hu => ?_⟩
    rcases mem c i hi' with x | ⟨_, rfl⟩
    · exact k3 i x hu
    · have := k2 _ hu
      rw [← hi] at this
      simp only at this
      omega
  · obtain ⟨i, hic, e⟩ := h.work.owned x uid hx
    exact ⟨i, sub _ i hic, e⟩

/-- A refusal is posted, and its request has left the ring (R59). -/
theorem Accounts.refusal {s : State} {p : Port} {slot : Option SlotIx} {c : Completion} {r : Request} {rest : List Request}
    (h : Accounts s) (hr : (s.port p).ring = r :: rest) (hs : slot = r.slot) (ht : c.tag = r.tag) (hk : c.kind = r.kind) :
    Accounts ((s.modPort p (·.post slot c)).headServed p) := by
  subst hs
  have e : (s.modPort p (·.post r.slot c)).headServed p =
      ({ s with admission := { s.admission with pointer := p, blocked := put s.admission.blocked p none } }).modPort p
        (fun u => PortUnit.judgeSpace ({ u with ring := u.ring.tail }.post r.slot c)) := by
    unfold State.headServed
    have : ∀ u : PortUnit, ({ u.post r.slot c with ring := (u.post r.slot c).ring.tail } : PortUnit) =
        ({ u with ring := u.ring.tail }.post r.slot c) := by
      intro u; unfold PortUnit.post PortUnit.modSlot?; cases r.slot <;> rfl
    simp only [modPort_eq]
    rw [show State.port { s.setPort p ((s.port p).post r.slot c) with
      admission := { (s.setPort p ((s.port p).post r.slot c)).admission with
        pointer := p, blocked := put (s.setPort p ((s.port p).post r.slot c)).admission.blocked p none } } p =
      (s.setPort p ((s.port p).post r.slot c)).port p from rfl, port_setPort_same, this]
    show _ = State.setPort _ p (PortUnit.judgeSpace ({ s.port p with ring := (s.port p).ring.tail }.post r.slot c))
    simp only [State.setPort, put_put]
  rw [e]
  have h1 : Accounts { s with
      admission := { s.admission with pointer := p, blocked := put s.admission.blocked p none } } := h.aside rfl rfl rfl rfl
  refine h1.modPort fun k => ?_
  have hr' : State.port { s with
      admission := { s.admission with pointer := p, blocked := put s.admission.blocked p none } } p = s.port p := rfl
  rw [hr'] at k ⊢
  rw [show ({ s.port p with ring := (s.port p).ring.tail } : PortUnit) = { s.port p with ring := rest } by rw [hr]; rfl]
  exact k.postEntry (by rw [hr]) ht hk

theorem nextHead_ring {s : State} {p : Port} {r : Request} (h : s.nextHead = some (p, r)) :
    ∃ rest, (s.port p).ring = r :: rest := by
  unfold State.nextHead at h
  obtain ⟨q, _, hq⟩ := List.exists_of_findSome?_eq_some h
  obtain ⟨x, hx, e⟩ := Option.map_eq_some_iff.1 hq
  cases e
  unfold State.headToServe at hx
  split at hx
  · cases hx
  · next x rest hr =>
    split at hx
    · cases hx
    · cases hx; exact ⟨rest, hr⟩

/-- An admission begins with a head of its port (R41, R43). -/
theorem InOrder.admitHead {s : State} {p : Port} {r : Request} (h : InOrder s)
    (hr : ∃ rest, (s.port p).ring = r :: rest) : InOrder (s.admitHead p r) := by
  obtain ⟨rest, hr⟩ := hr
  have begins : ∀ t d, (match d with
      | .insert it => it.port = p ∧ it.tag = r.tag ∧ it.slot = r.slot ∧ it.orphan = false ∧ it.bytesMoved = 0
      | .refuse slot c => slot = r.slot ∧ c.tag = r.tag ∧ c.kind = r.kind ∧ c.bytesMoved = 0) →
      InOrder { s with admission := { s.admission with current := some { port := p, target := t, decision := d } } } := by
    intro t d hd
    have k : Accounts { s with admission := { s.admission with current := some { port := p, target := t, decision := d } } } :=
      h.accounts.aside rfl rfl rfl rfl
    refine ⟨k.ports, k.work, fun a ha => ?_⟩
    cases ha
    exact ⟨r, rest, hr, hd⟩
  unfold State.admitHead
  dsimp only
  split
  · exact begins _ _ ⟨rfl, rfl, rfl, rfl⟩
  · split
    · exact h.aside rfl rfl rfl rfl rfl
    · split
      · exact begins _ _ ⟨rfl, rfl, rfl, rfl⟩
      · exact begins _ _ ⟨rfl, rfl, rfl, rfl, rfl⟩

/-! ### Every command -/

theorem inOrder_reset {s : State} (hp : ∀ p, s.port p = .reset) (hb : ∀ b, s.bus b = .reset) (ht : ∀ x, s.target x = .absent)
    (hc : s.admission.current = none) : InOrder s := by
  refine ⟨fun p => ?_, ⟨fun b => ?_, fun b it hit => ?_, fun b r hr => ?_, fun x => ?_, fun x uid hx => ?_⟩, fun a ha => ?_⟩
  · have : s.itemsOf p = [] := by simp [State.itemsOf, hb, BusEngine.reset]
    rw [this, hp]; exact portAccount_reset
  · simp [hb, BusEngine.reset]
  · simp [hb, BusEngine.reset] at hit
  · simp [hb, BusEngine.reset] at hr
  · rw [ht]; exact lives_absent
  · simp [ht, TargetRecord.absent] at hx
  · rw [hc] at ha; cases ha

theorem InOrder.releaseAll {csLow : BitVec 4} : ∀ {l : List Port} {s : State}, InOrder s →
    InOrder (l.foldl (fun s p => s.modPort p (·.releaseReset (csLow.getLsbD p.val))) s) := by
  intro l
  induction l with
  | nil => intro s h; exact h
  | cons p rest ih =>
    intro s h
    exact ih (h.modPort (fun k => k.same rfl rfl rfl rfl rfl fun _ x => x) fun _ => headKept_of_ring rfl)

theorem InOrder.insertion {s : State} {p : Port} {x : Option Target} {it : Item} (h : InOrder s)
    (hc : s.admission.current = some { port := p, target := x, decision := .insert it }) :
    InOrder (((s.takeRevocations (busOf it.target)).append it).headServed p).endAdmission := by
  obtain ⟨r, rest, hr, h1, h2, h3, h4, h5⟩ := h.admits _ hc
  have hk : ((s.takeRevocations (busOf it.target)).port p).ring = (s.port p).ring :=
    allPorts_takeRevocations (ringsKept s) (b := busOf it.target) (rings_refl s) p
  exact (h.accounts.takeRevocations.insertion (hk.trans hr) h1 h2 h3 h4 h5).endAdmission

theorem InOrder.refusal {s : State} {p : Port} {x : Option Target} {slot : Option SlotIx} {c : Completion} (h : InOrder s)
    (hc : s.admission.current = some { port := p, target := x, decision := .refuse slot c }) :
    InOrder ((s.modPort p (·.post slot c)).headServed p).endAdmission := by
  obtain ⟨r, rest, hr, h1, h2, h3, _⟩ := h.admits _ hc
  exact (h.accounts.refusal hr h1 h2 h3).endAdmission

/-- An event that the Bus Engines or the Target Tracker take, in terms of all it can do. -/
theorem InOrder.works {s t : State} (h : InOrder s) (k : Accounts t) (hw : WorkMove s t) (hr : t.ports = s.ports) : InOrder t :=
  h.event k hw fun p => by simp [State.port, hr]

/-- An IDLE target starts a busy period (R104, R107). -/
theorem lives_toProgramming {r : TargetRecord} (h : r.Lives) (hi : r.state = .idle) (uid : Nat) : (r.toProgramming uid).Lives := by
  obtain ⟨_, l2, l3, l4⟩ := h
  rw [hi] at l2 l3 l4
  simp only [TargetState.hasUnit, reduceCtorEq, or_self, not_false_eq_true, ne_eq, iff_false, not_not, forall_const] at l2 l3 l4
  constructor <;> simp [TargetRecord.toProgramming, TargetState.owned, TargetState.hasUnit, l2, l3, l4]

theorem lives_toErasing {r : TargetRecord} (h : r.Lives) (hi : r.state = .idle) (uid a : Nat) : (r.toErasing uid a).Lives := by
  have l3 := h.pendingReset
  rw [hi] at l3
  simp only [reduceCtorEq, ne_eq, iff_false, not_not] at l3
  constructor <;> simp [TargetRecord.toErasing, TargetState.owned, TargetState.hasUnit, l3]

/-- Every command leaves the accounts in order. -/
theorem exec_inOrder {c : Instr} {s t : State} (h : InOrder s) (he : exec c s = .next t) : InOrder t := by
  have R := WorkMove.refl s
  have K := ringsKept s
  have Q := rings_refl s
  have A := h.accounts
  have timer : ∀ {left act} (x : Target), (∀ (u : State) n, InOrder u → InOrder (act (u.elapse n))) →
      InOrder (s.expire x left act) := fun _ => expire_keeps (P := InOrder) h h.settle
  have limit : ∀ (u : State) n {x l}, InOrder u → InOrder ((u.elapse n).limitExpires x l) := fun u n _ _ k =>
    k.event k.accounts.elapse.limitExpires (workMove_limitExpires (workMove_elapse (.refl u)))
      (allPorts_limitExpires (ringsKept u) fun _ => rfl)
  have frame : ∀ (p : Port) (i : Instr), (∀ q bytes, i ≠ .portReset q bytes) →
      InOrder (s.upstream p i false (Sys2Proof.Machine.takeFrame i)) :=
    fun p i hi => h.upstream fun q bytes e => absurd e (hi q bytes)
  cases c
  all_goals (injection he with he; subst he)
  case submit p bytes => exact frame p (.submit p bytes) (by simp)
  case cancel p bytes => exact frame p (.cancel p bytes) (by simp)
  case hold p bytes => exact frame p (.hold p bytes) (by simp)
  case unhold p bytes => exact frame p (.unhold p bytes) (by simp)
  case load p bytes => exact frame p (.load p bytes) (by simp)
  case fetch p m bytes => exact frame p (.fetch p m bytes) (by simp)
  case release p bytes => exact frame p (.release p bytes) (by simp)
  case collect p m bytes => exact frame p (.collect p m bytes) (by simp)
  case cause p m bytes => exact frame p (.cause p m bytes) (by simp)
  case causeEnable p bytes => exact frame p (.causeEnable p bytes) (by simp)
  case summary p m bytes => exact frame p (.summary p m bytes) (by simp)
  case portReset p bytes =>
    refine h.upstream (i := .portReset p bytes) fun q l e hw => ?_
    cases e; exact hw
  case readEntry p m bytes => exact frame p (.readEntry p m bytes) (by simp)
  case readTarget p m bytes => exact frame p (.readTarget p m bytes) (by simp)
  case stageEntry p bytes => exact frame p (.stageEntry p bytes) (by simp)
  case copyActive p bytes => exact frame p (.copyActive p bytes) (by simp)
  case apply p bytes => exact frame p (.apply p bytes) (by simp)
  case applySucceeds =>
    split
    · exact h
    · exact h.event A.applyTaken (workMove_applyTaken R) (allPorts_applyTaken K Q)
  case setupTarget p bytes => exact h.upstream (i := .setupTarget p bytes) fun q l e => by cases e
  case removeTarget p bytes => exact h.upstream (i := .removeTarget p bytes) fun q l e => by cases e
  case resetTarget p bytes => exact frame p (.resetTarget p bytes) (by simp)
  case targetResetClaim x =>
    split
    · next hx =>
      simp only [Bool.and_eq_true, Bool.not_eq_true'] at hx
      exact h.event (A.settleTargetReset hx.2) (workMove_settleTargetReset R) (allPorts_settleTargetReset K Q)
    · exact h
  case resetBus p bytes => exact frame p (.resetBus p bytes) (by simp)
  case busResetClaim b =>
    split
    · exact h
    · exact h.event A.settleBusReset (workMove_settleBusReset R) (allPorts_settleBusReset K Q)
  case busMode p bytes => exact frame p (.busMode p bytes) (by simp)
  case badcode p code bytes => exact frame p (.badcode p code bytes) (by simp)
  case frameWithoutCode p => exact frame p (.frameWithoutCode p) (by simp)
  case summaryByte p =>
    split
    · exact h
    · split
      · exact h.aside rfl rfl rfl rfl rfl
      · exact h.settle.relink fun u => ⟨_, rfl, rfl⟩
  case deviceReset =>
    refine inOrder_reset (fun p => ?_) (fun b => ?_) (fun x => ?_) rfl
    · exact reset_port p
    · exact reset_bus b
    · exact reset_target x
  case resetRelease auth csLow =>
    split
    · exact (h.aside (t := { s with resetLow := false, authority := auth.toFin }) rfl rfl rfl rfl rfl).releaseAll
    · exact h
  case admission =>
    split
    · exact h
    · dsimp only
      split
      · rename_i hn
        exact h.settle.admitHead (nextHead_ring hn)
      · exact h.settle
  case insertion =>
    split
    · rename_i hc
      exact h.insertion hc
    all_goals exact h
  case revocationClaim b =>
    split
    · exact h
    · rename_i rv rest _
      have k : InOrder (s.modBus b (fun e => { e with revocations := rest })) := h.asideBus fun e => ⟨rfl, rfl⟩
      exact k.event k.accounts.revoke (workMove_revoke (.refl _)) (allPorts_revoke (ringsKept _) (rings_refl _))
  case cancelClaim p b =>
    split
    · have k : InOrder (s.modBus b (fun e => { e with cancels := dropFirstOf p e.cancels })) := h.asideBus fun e => ⟨rfl, rfl⟩
      exact k.event k.accounts.cancelItem (workMove_cancelItem (.refl _)) (allPorts_cancelItem (ringsKept _) (rings_refl _))
    · exact h
  case choice b =>
    split
    · exact h
    · dsimp only
      split
      · rename_i hc
        refine h.settle.works (A.settle.startChosen (choose_takes hc)) (workMove_startChosen (choose_float hc)) ?_
        rename_i c
        cases c <;> rfl
      · exact h.settle
  case dataByteReceived b sdi =>
    split
    · rename_i r it hs
      split
      · next hc =>
        simp only [Bool.and_eq_true, decide_eq_true_eq] at hc
        refine h.next (A.receive hs hc.1 rfl) rfl fun a _ => headKept_of_ring ?_
        by_cases hp : a.port = it.port
        · rw [hp, modPort_eq, port_setPort_same, modSlot?_ring]; rfl
        · rw [modPort_eq, port_setPort_other _ _ _ _ hp]; rfl
      · exact h
    · exact h
  case dataByteSent b =>
    split
    · rename_i r it hs
      split
      · exact h.next (A.moveByte (f := fun x => { x with bytesMoved := x.bytesMoved + 1 }) hs rfl
          fun i => ⟨rfl, rfl, rfl, rfl, rfl, rfl, rfl, rfl, rfl⟩) rfl fun _ _ => headKept_of_ring rfl
      · exact h
    · exact h
  case readFrameEnd b =>
    split
    · rename_i r it hs
      obtain ⟨h1, h2, h3, h4, h5, h6, h7⟩ := A.work.serving hs
      split
      · have k : Accounts (s.finish b it (r.readRecord it)) := by
          refine A.finish h2 (A.work.unowned h2 (active_owns h4)) ?_
          unfold FrameRecord.readRecord
          split
          · exact reports_record _ _ _
          · split <;> exact reports_record _ _ _
        exact h.event (k.idleBus.releaseBus (workAccount_frames A.work h1).1) (workMove_releaseBus (workMove_finish R))
          (allPorts_releaseBus K (allPorts_finish K Q))
      · exact h
    · exact h
  case writeEnableFrameEnd b =>
    split
    · rename_i r hr
      split
      · next hp =>
        refine h.next (A.frame rfl fun q hq => ?_) rfl fun _ _ => headKept_of_ring rfl
        cases hq
        exact (workAccount_frames A.work hr).like rfl rfl rfl fun _ y => ⟨by rw [hp]; simp, y⟩
      · exact h
    · exact h
  case programPairEnd b =>
    split
    · rename_i r it hs
      obtain ⟨h1, h2, h3, h4, h5, h6, h7⟩ := A.work.serving hs
      split
      · next hc =>
        simp only [Bool.and_eq_true, decide_eq_true_eq] at hc
        have hb := (workAccount_frames A.work h1).1
        split
        · exact h.event ((A.finish h2 (A.work.unowned h2 (active_owns h4)) (reports_record it _ _)).idleBus.releaseBus hb)
            (workMove_releaseBus (workMove_finish R)) (allPorts_releaseBus K (allPorts_finish K Q))
        · next ho =>
          have hi := h7 (by rw [hc.1.2]; simp) (by simpa using ho)
          refine h.event (Accounts.releaseBus (A.makeOwner hs ?_ rfl (lives_toProgramming (A.work.lives _) hi it.uid)) hb)
            (workMove_releaseBus (workMove_modBus (workMove_modTarget R) (fun e => move_modItem e _ _ fun _ => ⟨rfl, rfl⟩)))
            (allPorts_releaseBus K Q)
          intro e; rw [e, hc.1.1] at h6; cases h6
      · exact h
    · exact h
  case erasePairEnd b =>
    split
    · rename_i r it hs
      obtain ⟨h1, h2, h3, h4, h5, h6, h7⟩ := A.work.serving hs
      split
      · next hc =>
        simp only [Bool.and_eq_true, decide_eq_true_eq] at hc
        have hb := (workAccount_frames A.work h1).1
        split
        · exact h.event ((A.finish h2 (A.work.unowned h2 (active_owns h4)) (reports_record it _ _)).idleBus.releaseBus hb)
            (workMove_releaseBus (workMove_finish R)) (allPorts_releaseBus K (allPorts_finish K Q))
        · next ho =>
          have hi := h7 (by rw [hc.2]; simp) (by simpa using ho)
          refine h.event (Accounts.releaseBus (A.makeOwner hs ?_ rfl (lives_toErasing (A.work.lives _) hi it.uid r.address)) hb)
            (workMove_releaseBus (workMove_modBus (workMove_modTarget R) (fun e => move_modItem e _ _ fun _ => ⟨rfl, rfl⟩)))
            (allPorts_releaseBus K Q)
          intro e; rw [e, hc.1] at h6; cases h6
      · exact h
    · exact h
  case statusFrameEnd b sdi =>
    split
    · rename_i r hr
      have hb := (workAccount_frames A.work hr).1
      split
      · split
        · exact h.event ((A.finishStatusItem hr).idleBus.releaseBus hb) (workMove_releaseBus (workMove_finishStatusItem R))
            (allPorts_releaseBus K (allPorts_finishStatusItem K Q))
        · refine h.event ((A.statusResult.finishStatusItem ?_).idleBus.releaseBus hb)
            (workMove_releaseBus (workMove_finishStatusItem (workMove_statusResult R)))
            (allPorts_releaseBus K (allPorts_finishStatusItem K (allPorts_statusResult K Q)))
          rw [statusResult_frame]; exact hr
      · exact h
    · exact h
  case suspendFrameEnd b =>
    split
    · rename_i r hr
      have hb := (workAccount_frames A.work hr).1
      split
      · split
        · exact h.event (A.idleBus.releaseBus hb) (workMove_releaseBus R) (allPorts_releaseBus K Q)
        · refine h.event (A.suspendEnd.idleBus.releaseBus hb) (workMove_releaseBus (workMove_suspendEnd R))
            (allPorts_releaseBus K ?_)
          refine allPorts_of_ports Q ?_
          unfold State.suspendEnd State.modOwner
          split
          · split <;> rfl
          · rfl
      · exact h
    · exact h
  case resumeFrameEnd b =>
    split
    · rename_i r hr
      have hb := (workAccount_frames A.work hr).1
      split
      · split
        · exact h.event (A.idleBus.releaseBus hb) (workMove_releaseBus R) (allPorts_releaseBus K Q)
        · refine h.event (A.resumeEnd.idleBus.releaseBus hb) (workMove_releaseBus (workMove_resumeEnd R))
            (allPorts_releaseBus K ?_)
          refine allPorts_of_ports Q ?_
          unfold State.resumeEnd State.modOwner
          split
          · split <;> rfl
          · rfl
      · exact h
    · exact h
  case resetFrameEnd b =>
    split
    · rename_i r hr
      have hb := (workAccount_frames A.work hr).1
      split
      · split
        · exact h.event (A.idleBus.releaseBus hb) (workMove_releaseBus R) (allPorts_releaseBus K Q)
        · exact h.event (A.resetSent.idleBus.releaseBus hb) (workMove_releaseBus (workMove_modTarget R))
            (allPorts_releaseBus K Q)
      · exact h
    · exact h
  case pollTimerExpiry x =>
    exact timer x fun u n k => k.works (k.accounts.elapse.timer fun _ => ⟨rfl, rfl, rfl, rfl, rfl, rfl⟩)
      (workMove_modTarget (workMove_elapse (.refl u))) rfl
  case programTimerExpiry x => exact timer x fun u n k => limit u n k
  case busyTimeReachesTel x => exact timer x fun u n k => limit u n k
  case holdOffTimerExpiry x =>
    exact timer x fun u n k => k.works (k.accounts.elapse.timer fun _ => ⟨rfl, rfl, rfl, rfl, rfl, rfl⟩)
      (workMove_modTarget (workMove_elapse (.refl u))) rfl
  case suspendLatencyTimerExpiry x => exact timer x fun u n k => limit u n k
  case suspendedTimerExpiry x =>
    exact timer x fun u n k => k.works (k.accounts.elapse.timer fun _ => ⟨rfl, rfl, rfl, rfl, rfl, rfl⟩)
      (workMove_modTarget (workMove_elapse (.refl u))) rfl
  case recoveryTimerExpiry x =>
    exact timer x fun u n k => k.works k.accounts.elapse.recovered (workMove_modTarget (workMove_elapse (.refl u))) rfl
  case completionPost =>
    split
    · rename_i hc
      exact h.refusal hc
    all_goals exact h

end Sys2Proof.Machine
end

