-- ==== Sys2Proof/WellFormed.lean ====
section
/-! DEFINITION. Which commands the links can carry: a capture comes at the last request byte (R182), and a BADCODE frame's
code is absent from the table (R180). -/

namespace Sys2Proof

/-- At a capture exactly the request bytes after the code have been clocked; at a release any number of bytes has been. -/
def Moment.lengthOk (m : Moment) (request : Nat) (bytes : List Byte) : Bool :=
  match m with
  | .capture => bytes.length == request
  | .release => true

/-- A well-formed command. -/
def Instr.wf : Instr → Bool
  | .fetch _ m bytes => m.lengthOk 2 bytes
  | .collect _ m bytes => m.lengthOk 0 bytes
  | .cause _ m bytes => m.lengthOk 0 bytes
  | .summary _ m bytes => m.lengthOk 0 bytes
  | .readEntry _ m bytes => m.lengthOk 2 bytes
  | .readTarget _ m bytes => m.lengthOk 1 bytes
  | .badcode _ code _ => !frameCodes.contains code
  | .submit _ _ | .cancel _ _ | .hold _ _ | .unhold _ _ | .load _ _ | .release _ _ | .causeEnable _ _
  | .portReset _ _ | .stageEntry _ _ | .copyActive _ _ | .apply _ _ | .applySucceeds | .setupTarget _ _
  | .removeTarget _ _ | .resetTarget _ _ | .targetResetClaim _ | .resetBus _ _ | .busResetClaim _ | .busMode _ _
  | .frameWithoutCode _ | .summaryByte _ | .deviceReset | .resetRelease _ _ | .admission | .insertion
  | .revocationClaim _ | .cancelClaim _ _ | .choice _ | .dataByteReceived _ _ | .dataByteSent _ | .readFrameEnd _
  | .writeEnableFrameEnd _ | .programPairEnd _ | .erasePairEnd _ | .statusFrameEnd _ _ | .suspendFrameEnd _
  | .resumeFrameEnd _ | .resetFrameEnd _ | .pollTimerExpiry _ | .programTimerExpiry _ | .busyTimeReachesTel _
  | .holdOffTimerExpiry _ | .suspendLatencyTimerExpiry _ | .suspendedTimerExpiry _ | .recoveryTimerExpiry _
  | .completionPost => true

end Sys2Proof
end

