-- ==== Sys2Proof/Tests/Slice0.lean ====
section
/-! SUPPORT. Tests of one step on small states, worked examples of the spec, and for every statement with hypotheses a state
that meets them. -/

namespace Sys2Proof.Tests

open Sys2Proof.Machine

set_option Elab.async false

/-! ### Small states -/

/-- The state after a command. -/
def after (c : Instr) (s : State) : State :=
  match exec c s with
  | .next t => t
  | .fault _ => s
  | .refused _ => s

/-- The profile of section 2.7. -/
def flash : Profile :=
  { divider := 1, csSetup := 2, csHold := 2, gapLength := 0, gapMode := .none, bitOrder := .msbFirst, addressWidth := .four,
    dummyBytes := 1, capacityCode := 6, pageCode := 2, eraseUnit := .kib64, resetLength := 2, readOpcode := 0x4C,
    writeEnableOpcode := 0x16, programOpcode := 0x24, eraseOpcode := 0x5E, statusOpcode := 0x0F, suspendOpcode := 0x71,
    resumeOpcode := 0x72, resetOpcode1 := 0x61, resetOpcode2 := 0x62, busyMask := 0x01, failMask := 0x20,
    suspendedMask := 0x80, tPI := 50, tPL := 3000, tEL := 2000, tSH := 500, tSL := 200, tSX := 20, nsus := 4, tRR := 300 }

/-- The region entry of section 2.7: 0x0400_0000 for 64 MiB, port P1, target T2. -/
def window : RegionEntry :=
  { valid := true, ports := 2, base := 0x4000, size := 0x4000, target := 2, offset := 0, rights := 15, mode := .polite }

/-- T2 IDLE with the profile, the window active at index 2, P0 the authority. -/
def ready : State :=
  { State.reset with
    targets := put State.reset.targets 2 { TargetRecord.absent with profile := flash, state := .idle }
    policy := { State.reset.policy with
      active := put State.reset.policy.active 2 window, staged := put State.reset.policy.staged 2 window } }

/-- A READ of 16 bytes into slot S1 of P1 from T2, QUEUED. -/
def read : Item :=
  { uid := 0, port := 1, tag := 4, kind := .read, urgent := false, target := 2, address := 0x2000, length := 16,
    unitsRequested := 0, unitsDone := 0, drop := .none, slot := some 1, region := 2, generation := 0, bytesMoved := 0,
    headBytes := [], suspendCount := 0, cancelSeen := false, orphan := false, state := .queued }

/-- A PROGRAM of 16 bytes from slot S1. -/
def program : Item := { read with kind := .program }

/-- An ERASE of three units. -/
def erase : Item := { read with kind := .erase, length := 0, unitsRequested := 3, slot := none }

/-- A STATUS request. -/
def status : Item := { read with kind := .status, length := 0, slot := none }

/-- Slot S1 of P1 committed with 16 bytes, return state HELD; one credit in use, tag 4 in the table. -/
def portWithWork : PortUnit :=
  { PortUnit.reset with
    slots := put PortUnit.reset.slots 1 { state := .committed, data := [(0, 7), (3, 9)], valid := 16, ret := some .held }
    credits := 1, tags := [4] }

/-- `ready` with an item of P1 on B0. -/
def withItem (it : Item) : State :=
  { (ready.setBus 0 { BusEngine.reset with list := [it] }).setPort 1 portWithWork with nextUid := 1 }

/-- `withItem` with T2 in a state of an operation that the item owns. -/
def busy (it : Item) (st : TargetState) : State :=
  (withItem it).modTarget 2 fun r =>
    { r with state := st, owner := some 0, unit := some { first := 0x10000, size := .kib64 }, poll := .running 10000 4000,
             program := .running 600000 5000, latency := .running 40000 1000, holdOff := .running 100000 10,
             held := .running 4000000 0 }

/-- `withItem` with a frame for its item in flight. -/
def inFlight (it : Item) (kind : FrameKind) (pair : Option PairPosition) : State :=
  let s := withItem { it with state := .active }
  s.modBus 0 fun e => e.start { s.itemFrame 0 it with kind, pair }

/-- A maintenance frame to T2 in flight. -/
def maintaining (kind : FrameKind) (s : State) : State := s.modBus 0 fun e => e.start (s.maintenanceFrame 0 kind 2)

/-- An admission under way of P1 that has read T2 and comes to `d`. -/
def admitting (d : Decision) (s : State) : State :=
  { s with admission := { s.admission with current := some { port := 1, target := some 2, decision := d } } }

/-- A READ of 16 bytes at 0x0400_1000 into S1 (tag 3). -/
def readRequest : Request :=
  { tag := 3, kind := .read, urgent := false, fence := false, slot := some 1, address := 0x04001000, length := 16 }

/-- The SUBMIT bytes of `readRequest`. -/
def readBytes : List Byte := [3, 0x20, 0x04, 0x00, 0x10, 0x00, 0x00, 0x10]

/-- A PROGRAM record FAILED/DEVFAIL, the front record of section 11.8. -/
def failedProgram : Completion :=
  { tag := 12, kind := .program, outcome := .failed, reason := .devFail, bytesMoved := 256, unitsDone := 0, headBytes := [],
    region := some 3, target := some 1, generation := some 42, suspendTotal := 0, cancelSeen := false }

/-- A record DONE. -/
def doneRead : Completion := { failedProgram with tag := 13, kind := .read, outcome := .done, reason := .none }

/-- P2 of section 11.8: two records, ERROR and COMPLETE pending. -/
def collecting : State :=
  ready.setPort 2 { PortUnit.reset with
    queue := [failedProgram, doneRead], tags := [12, 13], credits := 2,
    pending := { CauseSet.empty with error := true, complete := true } }

/-- `n` bytes of 0x00. -/
def zeros (n : Nat) : List Byte := List.replicate n 0

/-! ### Well-formedness -/

theorem test_wf_capture_of_fetch_has_two_bytes :
    Instr.wf (.fetch 0 .capture [1]) = false ∧ Instr.wf (.fetch 0 .capture [1, 2]) = true := by decide

theorem test_wf_capture_of_collect_has_no_byte :
    Instr.wf (.collect 0 .capture [0]) = false ∧ Instr.wf (.collect 0 .release [0]) = true := by decide

theorem test_wf_capture_of_cause_has_no_byte : Instr.wf (.cause 0 .capture [0]) = false := by decide

theorem test_wf_capture_of_summary_has_no_byte : Instr.wf (.summary 0 .capture [0]) = false := by decide

theorem test_wf_capture_of_read_entry_has_two_bytes : Instr.wf (.readEntry 0 .capture [0]) = false := by decide

theorem test_wf_capture_of_read_target_has_one_byte : Instr.wf (.readTarget 0 .capture []) = false := by decide

theorem test_wf_badcode_is_no_table_code :
    Instr.wf (.badcode 0 0x10 []) = false ∧ Instr.wf (.badcode 0 0x5B []) = true := by decide

theorem test_no_word_spells_a_command : decodeTableWord 8 0x10 = none := by decide

/-! ### Formats and worked examples -/

theorem test_profile_layout : flash.toBytes =
    [0x01, 0x22, 0x80, 0x61, 0xA2, 0x4C, 0x16, 0x24, 0x5E, 0x0F, 0x71, 0x72, 0x61, 0x62, 0x01, 0x20, 0x80, 0x00, 0x32, 0x0B,
      0xB8, 0x07, 0xD0, 0x01, 0xF4, 0x00, 0xC8, 0x14, 0x04, 0x01, 0x2C] := by decide

theorem test_profile_reads_back : Profile.ofBytes (9 :: flash.toBytes) 1 = some flash := by decide +kernel

theorem test_profile_above_16_MiB_needs_four_address_bytes :
    Profile.ofBytes { flash with addressWidth := .three }.toBytes 0 = none := by decide +kernel

theorem test_entry_layout : window.toBytes =
    [0x82, 0x0F, 0x02, 0x00, 0x40, 0x00, 0x00, 0x40, 0x00, 0x00, 0x00, 0x00] := by decide

theorem test_descriptor_of_submit : Request.ofBytes readBytes = some readRequest := by decide

/-- The record of section 11.8. -/
theorem test_record_layout : failedProgram.toBytes =
    [0x91, 0x0C, 0x0A, 0x01, 0x00, 0xFF, 0, 0, 0, 0, 0x83, 0xC1, 0x00, 0x2A, 0xFF] := by decide

/-- The frame of a READ, PROGRAM or ERASE item under the profile of section 5.5. -/
def timed (it : Item) : FrameRecord :=
  (ready.modTarget 2 (fun r => { r with profile := { flash with gapLength := 3, gapMode := .afterHeader } })).itemFrame 0 it

/-- The durations of section 5.5. -/
theorem test_durations :
    (timed { read with length := 64 }).duration = 1127 ∧
    (timed { program with length := 256 }).duration = 20 ∧
    ({ timed { program with length := 256 } with pair := some .second } : FrameRecord).duration = 4183 ∧
    ({ timed erase with pair := some .second } : FrameRecord).duration = 84 ∧ (timed status).duration = 39 := by
  decide +kernel

/-- The first summary byte after reset: room, nothing else (R179). -/
theorem test_summary_byte_after_reset : (State.reset.port 0).summaryByte = 0x20 := by decide

/-! ### Frames -/

theorem test_submit_accepts : ((after (.submit 1 readBytes) ready).port 1).ring = [readRequest] ∧
    ((after (.submit 1 readBytes) ready).port 1).credits = 1 ∧
    (pick ((after (.submit 1 readBytes) ready).port 1).slots 1).state = .committed := by decide +kernel

theorem test_submit_duplicate_tag :
    ((after (.submit 1 readBytes) (ready.setPort 1 { PortUnit.reset with tags := [3] })).port 1).last = .dupTag := by
  decide +kernel

/-- A ring whose head is `readRequest`. -/
def ringed : State :=
  ready.setPort 1 { PortUnit.reset with
    ring := [readRequest], tags := [3], credits := 1
    slots := put PortUnit.reset.slots 1 { state := .committed, data := [], valid := 0, ret := some .free } }

theorem test_cancel_of_a_ring_entry : ((after (.cancel 1 [3]) ringed).port 1).ring = [] ∧
    ((after (.cancel 1 [3]) ringed).port 1).queue = [readRequest.recordCancelled] ∧
    (pick ((after (.cancel 1 [3]) ringed).port 1).slots 1).state = .free := by decide +kernel

theorem test_cancel_of_an_item_sends_a_claim :
    ((after (.cancel 1 [4]) (withItem read)).bus 0).cancels = [{ port := 1, item := 0, behind := 0 }] := by decide +kernel

theorem test_hold : ((after (.hold 3 []) ready).port 3).hold = true := by decide +kernel

theorem test_unhold : ((after (.unhold 3 []) (after (.hold 3 []) ready)).port 3).hold = false := by decide +kernel

theorem test_load : (pick ((after (.load 0 [2, 4, 0xAB, 0x00, 0xCD]) ready).port 0).slots 2) =
    { state := .held, data := [(4, 0xAB), (6, 0xCD)], valid := 7, ret := none } := by decide +kernel

theorem test_load_past_the_end : ((after (.load 0 [2, 255, 1, 2]) ready).port 0).last = .badField := by decide +kernel

theorem test_fetch_shows_the_slot : (((after (.fetch 0 .release [2, 4, 0, 0, 0, 0])
    (after (.load 0 [2, 4, 0xAB, 0x00, 0xCD]) ready)).port 0).link.sdo) = [0x20, 0, 0, 0, 0xAB, 0x00, 0xCD] := by decide +kernel

theorem test_fetch_of_a_committed_slot :
    ((after (.fetch 1 .capture [1, 0]) ringed).port 1).link.captured = some (.fetch .slotState []) := by decide +kernel

theorem test_release : (pick ((after (.release 0 [2]) (after (.load 0 [2, 4, 0xAB]) ready)).port 0).slots 2) = Slot.freed := by
  decide +kernel

/-- Frame 1 of section 11.8: ten bytes of a COLLECT give FRAMING, and the summary byte was 0xE0. -/
theorem test_collect_cut_short : ((after (.collect 2 .release (zeros 9)) collecting).port 2).last = .framing ∧
    ((after (.collect 2 .release (zeros 9)) collecting).port 2).queue.length = 2 ∧
    ((after (.collect 2 .release (zeros 9)) collecting).port 2).link.sdo.take 4 = [0xE0, 0, 0x91, 0x0C] := by decide +kernel

/-- Frame 3 of section 11.8: the record leaves, ERROR clears, COMPLETE stays. -/
theorem test_collect_whole : ((after (.collect 2 .release (zeros 16)) collecting).port 2).queue = [doneRead] ∧
    ((after (.collect 2 .release (zeros 16)) collecting).port 2).tags = [13] ∧
    ((after (.collect 2 .release (zeros 16)) collecting).port 2).credits = 1 ∧
    ((after (.collect 2 .release (zeros 16)) collecting).port 2).pending = { CauseSet.empty with complete := true } := by
  decide +kernel

/-- FAULT pending at P2. -/
def faulted : State := collecting.modPort 2 (·.raise .fault)

theorem test_cause_reports_and_clears_fault :
    ((after (.cause 2 .release [0, 0]) faulted).port 2).pending.fault = false ∧
    ((after (.cause 2 .release [0, 0]) faulted).port 2).link.sdo = [0xE0, 0, 1] := by decide +kernel

theorem test_cause_capture :
    ((after (.cause 2 .capture []) collecting).port 2).link.captured = some (.cause (some .error) false) := by decide +kernel

theorem test_cause_enable : ((after (.causeEnable 2 [0x18, 16]) collecting).port 2).enable =
      { CauseSet.empty with space := true, policy := true } ∧
    ((after (.causeEnable 2 [0x18, 16]) collecting).port 2).pending.complete = false := by decide +kernel

theorem test_cause_enable_field : ((after (.causeEnable 2 [0x18, 17]) collecting).port 2).last = .badField := by decide +kernel

/-- Frame 4 of section 11.8: H3 = 1, H4 = 0x04, H5 = 0x07, H6 = 0x01, H22 = 0x00; the filler precedes H0 (log 15). -/
theorem test_summary : ((after (.summary 2 .release (zeros 24))
    (after (.collect 2 .release (zeros 16)) collecting)).port 2).link.sdo =
      [0xE0, 0, 0x02, 0, 1, 1, 0x04, 0x07, 0x01, 0, 0, 0xFF, 0, 0, 0, 0, 0, 0, 0, 0, 0, 0, 0, 0, 0x00] := by decide +kernel

theorem test_port_reset_orphans_a_running_item :
    ((after (.portReset 1 []) (inFlight read .read none)).bus 0).list.map (fun it => (it.uid, it.orphan)) = [(0, true)] ∧
    ((after (.portReset 1 []) (inFlight read .read none)).port 1).credits = 1 ∧
    (pick ((after (.portReset 1 []) (inFlight read .read none)).port 1).slots 1).state = .committed := by decide +kernel

theorem test_port_reset_removes_a_queued_item :
    ((after (.portReset 1 []) (withItem read)).bus 0).list = [] ∧
    (pick ((after (.portReset 1 []) (withItem read)).port 1).slots 1) = Slot.freed := by decide +kernel

theorem test_read_entry_active : ((after (.readEntry 3 .release [0, 2, 0, 0]) ready).port 3).link.sdo =
    [0x20, 0, 0, 0, 0x82] := by decide +kernel

theorem test_read_entry_staged_needs_the_authority :
    ((after (.readEntry 3 .release [1, 2]) ready).port 3).last = .notAuth := by decide +kernel

theorem test_read_target_shows_the_owner :
    (((busy program .programming).targetReply 2).drop 33).take 2 = [0x91, 4] := by decide +kernel

theorem test_read_target_field : ((after (.readTarget 3 .release [8]) ready).port 3).last = .badField := by decide +kernel

theorem test_stage_entry :
    pick (after (.stageEntry 0 (31 :: window.toBytes)) ready).policy.staged 31 = window := by decide +kernel

theorem test_stage_entry_needs_the_authority :
    ((after (.stageEntry 1 (31 :: window.toBytes)) ready).port 1).last = .notAuth := by decide +kernel

/-- The staged entry at index 2 differs from the active STRICT one. -/
def revising : State :=
  { ready with policy := { ready.policy with
      active := put ready.policy.active 2 { window with mode := .strict }
      staged := put ready.policy.staged 2 { window with rights := 1 } } }

theorem test_copy_active :
    pick (after (.copyActive 0 []) revising).policy.staged 2 = { window with mode := .strict } := by decide +kernel

theorem test_apply_succeeds_and_waits :
    (after (.apply 0 []) revising).policy.applies = 1 ∧ ((after (.apply 0 []) revising).port 0).last = .ok := by decide +kernel

/-- A staged entry at index 5 that names no port. -/
def unsound : State :=
  { ready with policy := { ready.policy with staged := put ready.policy.staged 5 { window with ports := 0 } } }

theorem test_apply_fails : (after (.apply 0 []) unsound).policy.failure = some 5 ∧
    ((after (.apply 0 []) unsound).port 0).last = .applyFail := by decide +kernel

theorem test_apply_takes_effect :
    (after .applySucceeds (after (.apply 0 []) revising)).policy.generation = 1 ∧
    ((after .applySucceeds (after (.apply 0 []) revising)).port 1).pending.policy = true ∧
    ((after .applySucceeds (after (.apply 0 []) revising)).bus 1).revocations = [{ indices := [2], generation := 1 }] := by
  decide +kernel

theorem test_setup_target :
    (after (.setupTarget 0 (7 :: flash.toBytes)) ready).target 7 = { TargetRecord.absent with profile := flash, state := .idle } := by
  decide +kernel

theorem test_setup_target_with_an_item_on_the_list :
    ((after (.setupTarget 0 (2 :: flash.toBytes)) (withItem read)).port 0).last = .notNow := by decide +kernel

theorem test_remove_target : (after (.removeTarget 0 [2]) ready).target 2 = TargetRecord.absent := by decide +kernel

theorem test_reset_target_sends_a_claim : (after (.resetTarget 0 [2]) ready).resetClaims = [2] := by decide +kernel

/-- R115: the claim of an idle target is taken at once: a second RESET TARGET, a REMOVE TARGET and a SETUP TARGET find the target
RESETTING and give NOTNOW. -/
theorem test_a_target_reset_is_taken_at_once :
    let s := after (.resetTarget 0 [2]) ready
    let again := after (.resetTarget 0 [2]) s
    let removed := after (.removeTarget 0 [2]) s
    let setup := after (.setupTarget 0 (2 :: flash.toBytes)) s
    ((s.port 0).last, (again.port 0).last, (removed.port 0).last, (setup.port 0).last) = (.ok, .notNow, .notNow, .notNow) ∧
    again.resetClaims = [] ∧ (again.target 2).pendingReset = some { toSend := 2, recovering := false } ∧
    (removed.target 2).state = .resetting ∧ (setup.target 2).state = .resetting := by decide +kernel

/-- R115: so do the choice, which sends the first reset frame (R70), a period of the clock and an expiry that lets time pass. -/
theorem test_the_choice_and_time_find_a_target_reset_taken :
    let s := after (.resetTarget 0 [2]) ready
    let busyOne := after (.resetTarget 0 [2]) (busy { program with state := .ownerBusy } .programming)
    let t := after (.programTimerExpiry 2) busyOne
    ((after (.choice 0) s).bus 0).frame.map (fun r => (r.kind, r.target)) = some (.reset, 2) ∧
    (match step s with | .next u => (u.target 2).state | _ => .absent) = .resetting ∧
    (t.target 2).state = .resetting ∧ (t.port 1).queue.map (fun r => (r.outcome, r.reason)) = [(.failed, .aborted)] := by
  decide +kernel

/-- R115: a lookup finds the target RESETTING, which passes step 5, and the request is inserted (R52). -/
theorem test_an_admission_finds_a_target_reset_taken :
    let t := after .admission (after (.resetTarget 0 [2]) ringed)
    (t.target 2).state = .resetting ∧ t.resetClaims = [] ∧ t.admittingTarget 2 = true := by decide +kernel

/-- R118: an expiry with no time left comes in the order of the queue: the target faults, and the claim takes it from FAULTED. -/
theorem test_an_expiry_meets_a_target_reset_in_either_order :
    let s := (busy { program with state := .ownerBusy } .programming).modTarget 2 fun r => { r with program := .running 600000 600000 }
    let f := after (.programTimerExpiry 2) (after (.resetTarget 0 [2]) s)
    let r := after (.programTimerExpiry 2) (after (.targetResetClaim 2) (after (.resetTarget 0 [2]) s))
    (f.target 2).state = .faulted ∧ ((after (.targetResetClaim 2) f).target 2).state = .resetting ∧
    (f.port 1).queue.map (·.reason) = [.timeout] ∧ (r.port 1).queue.map (·.reason) = [.aborted] := by decide +kernel

/-- R115: with a frame to the target in flight the claim waits, and a second RESET TARGET passes. -/
theorem test_a_target_reset_waits_for_a_frame_in_flight :
    let s := after (.resetTarget 0 [2]) (inFlight status .status none)
    let t := after (.resetTarget 0 [2]) s
    (t.port 0).last = .ok ∧ (t.target 2).state = .idle ∧ t.stands = false ∧ s.resetClaims = [2] := by decide +kernel

/-- An event that waited for an admission finds taken the claim of one that waited before it (R115). -/
theorem test_a_waiting_frame_finds_an_earlier_claim_taken :
    let s := { admitting (.insert read) ringed with
      waiting := [.frame (.resetTarget 0 [3]), .frame (.resetTarget 0 [3])],
      targets := put ready.targets 3 (ready.target 2) }
    let t := after .insertion s
    (t.port 0).last = .notNow ∧ (t.target 3).state = .resetting := by decide +kernel

theorem test_target_reset_claim_aborts_the_owner :
    let t := after (.targetResetClaim 2) { busy { program with state := .ownerBusy } .programming with resetClaims := [2] }
    (t.target 2).state = .resetting ∧ (t.target 2).pendingReset = some { toSend := 2, recovering := false } ∧
    (t.bus 0).list = [] ∧ (t.port 1).queue.map (fun r => (r.outcome, r.reason, r.bytesMoved)) = [(.failed, .aborted, 16)] := by
  decide +kernel

theorem test_reset_bus_sends_a_claim : ((after (.resetBus 0 [1]) ready).bus 1).resets = 1 := by decide +kernel

/-- A bus reset claim of B0 stands ready. -/
def resetting (s : State) : State := s.modBus 0 fun e => { e with resets := 1 }

theorem test_bus_reset_claim : ((after (.busResetClaim 0) (resetting (withItem read))).bus 0).list = [] ∧
    ((after (.busResetClaim 0) (resetting (withItem read))).target 2).state = .resetting ∧
    ((after (.busResetClaim 0) (resetting (withItem read))).target 3).state = .absent ∧
    ((after (.busResetClaim 0) (resetting (withItem read))).port 1).queue.map (·.reason) = [.aborted] := by decide +kernel

theorem test_bus_reset_claim_leaves_the_item_in_flight :
    ((after (.busResetClaim 0) (resetting (inFlight read .read none))).bus 0).list.length = 1 ∧
    ((after (.busResetClaim 0) (resetting (inFlight read .read none))).bus 0).frame.map (fun r => (r.overtaken, r.earlyEnd)) =
      some (true, some 0) := by decide +kernel

theorem test_bus_mode : ((after (.busMode 0 [1, 2]) ready).bus 1).mode = .float := by decide +kernel

theorem test_bus_mode_float_with_a_frame_in_flight :
    ((after (.busMode 0 [0, 2]) (inFlight read .read none)).port 0).last = .notNow := by decide +kernel

theorem test_badcode : ((after (.badcode 1 0x00 [1, 2]) ready).port 1).last = .badCode ∧
    ((after (.badcode 1 0x00 [1, 2]) ready).port 1).link.sdo = [0x20, 0, 0] := by decide +kernel

theorem test_frame_without_code : ((after (.frameWithoutCode 1) (after (.summaryByte 1) ready)).port 1).link.isOpen = false := by
  decide +kernel

theorem test_summary_byte : ((after (.summaryByte 2) collecting).port 2).link.summary = 0xE0 := by decide +kernel

theorem test_device_reset : after .deviceReset (withItem read) = { State.reset with resetLow := true } := by decide +kernel

theorem test_reset_release : (after (.resetRelease 3 4) { ready with resetLow := true }).authority = 3 ∧
    ((after (.resetRelease 3 4) { ready with resetLow := true }).port 2).link.ignoring = true := by decide +kernel

/-! ### Admission -/

theorem test_admission_of_a_read : (after .admission ringed).admission.current =
    some { port := 1, target := some 2, decision := .insert { read with tag := 3, address := 0x1000 } } := by decide +kernel

/-- Section 2.7 step 2: the target is ABSENT. -/
theorem test_admission_of_an_absent_target :
    let refusal := Decision.refuse (some 1) (readRequest.recordRefused .targetDown (some 2) (some 2))
    (after .admission (ringed.setTarget 2 .absent)).admission.current =
      some { port := 1, target := some 2, decision := refusal } := by decide +kernel

theorem test_insertion : ((after .insertion (admitting (.insert read) ringed)).bus 0).list = [read] ∧
    ((after .insertion (admitting (.insert read) ringed)).port 1).ring = [] ∧
    (after .insertion (admitting (.insert read) ringed)).admission.pointer = 1 := by decide +kernel

/-- A refusal to post at P1. -/
def refusing : State :=
  admitting (.refuse (some 1) (readRequest.recordRefused .targetDown (some 2) (some 2))) ringed

theorem test_completion_post : ((after .completionPost refusing).port 1).queue.length = 1 ∧
    ((after .completionPost refusing).port 1).pending.error = true ∧
    (pick ((after .completionPost refusing).port 1).slots 1).state = .free ∧
    (after .completionPost refusing).admission.current = none := by decide +kernel

/-- A limit that expired during the admission faults the target at its end, and the new item falls with it (section 3.7). -/
theorem test_a_waiting_expiry_takes_the_new_item :
    let s := (admitting (.insert { read with uid := 0 }) ringed).modTarget 2
      (fun r => { r with state := .programming, program := .running 600000 600000 })
    let t := after .insertion { s with waiting := [.expiry 2 .program] }
    (t.target 2).state = .faulted ∧ (t.bus 0).list = [] ∧ (t.port 1).queue.map (·.reason) = [.targetDown] ∧
    (t.port 1).pending.fault = true := by decide +kernel

/-! ### Work lists and downstream frames -/

theorem test_revocation_claim_removes_a_queued_item :
    let s := (withItem read).modBus 0 (fun e => { e with revocations := [{ indices := [2], generation := 1 }] })
    ((after (.revocationClaim 0) s).bus 0).list = [] ∧
    ((after (.revocationClaim 0) s).port 1).queue.map (·.reason) = [.revoked] := by decide +kernel

theorem test_revocation_claim_sheds_units :
    let s := (withItem { erase with state := .ownerBusy }).modBus 0
      (fun e => { e with revocations := [{ indices := [2], generation := 1 }] })
    ((after (.revocationClaim 0) s).bus 0).list.map (fun it => (it.unitsRequested, it.drop)) = [(1, .revoked)] := by
  decide +kernel

/-- A cancel claim of P1 on item 0 of B0. -/
def cancelling (s : State) : State := s.modBus 0 fun e => { e with cancels := [{ port := 1, item := 0, behind := 0 }] }

theorem test_cancel_claim_of_a_queued_item :
    ((after (.cancelClaim 1 0) (cancelling (withItem read))).port 1).queue.map (fun r => (r.outcome, r.cancelSeen)) =
      [(.cancelled, true)] := by decide +kernel

/-- Section 5.5: with nine bytes received and the tenth being shifted, a cancel leaves ten. -/
theorem test_cancel_claim_of_a_read_in_flight :
    let s := (inFlight { read with length := 64, bytesMoved := 9 } .read none).modBus 0 (fun e => { e with
      frame := e.frame.map (fun r => { r with progress := { phase := .byte, bytes := 15, spent := 5 } }) })
    ((after (.cancelClaim 1 0) (cancelling s)).bus 0).frame.map (·.dataLimit) = some 10 := by decide +kernel

theorem test_choice_takes_a_normal_item :
    ((after (.choice 0) (withItem read)).bus 0).frame.map (·.header) = some [0x4C, 0x00, 0x00, 0x20, 0x00, 0x00] ∧
    ((after (.choice 0) (withItem read)).bus 0).list.map (·.state) = [.active] ∧
    ((after (.choice 0) (withItem read)).bus 0).portPtr = 2 := by decide +kernel

theorem test_choice_takes_a_due_poll_first :
    let s := (busy { program with state := .ownerBusy } .programming).modTarget 2 (fun r => { r with poll := .expired })
    ((after (.choice 0) s).bus 0).frame.map (fun r => (r.kind, r.header)) = some (.poll, [0x0F]) ∧
    ((after (.choice 0) s).bus 0).pollPtr = 3 := by decide +kernel

theorem test_data_byte_received :
    let t := after (.dataByteReceived 0 0x5A) (inFlight read .read none)
    (t.bus 0).list.map (fun it => (it.bytesMoved, it.headBytes)) = [(1, [0x5A])] ∧
    (pick (t.port 1).slots 1).data = [(0, 0x5A), (3, 9)] := by decide +kernel

theorem test_data_byte_sent :
    ((after (.dataByteSent 0) (inFlight program .programPair (some .second))).bus 0).list.map (·.bytesMoved) = [1] := by
  decide +kernel

theorem test_read_frame_end :
    let t := after (.readFrameEnd 0) (inFlight { read with bytesMoved := 16 } .read none)
    (t.bus 0).list = [] ∧ (t.bus 0).frame = none ∧ (t.port 1).queue.map (fun r => (r.outcome, r.bytesMoved)) = [(.done, 16)] ∧
    (pick (t.port 1).slots 1).state = .held ∧ (pick (t.port 1).slots 1).valid = 16 := by decide +kernel

theorem test_write_enable_frame_end :
    ((after (.writeEnableFrameEnd 0) (inFlight program .programPair (some .first))).bus 0).frame.map
      (fun r => (r.pair, r.progress.phase)) = some (some .second, .deselect) := by decide +kernel

theorem test_program_pair_end :
    let t := after (.programPairEnd 0) (inFlight { program with bytesMoved := 16 } .programPair (some .second))
    (t.target 2).state = .programming ∧ (t.target 2).owner = some 0 ∧ (t.target 2).program = .running 600000 0 ∧
    (t.bus 0).list.map (·.state) = [.ownerBusy] := by decide +kernel

theorem test_erase_pair_end :
    let t := after (.erasePairEnd 0) (inFlight { erase with unitsDone := 1 } .erasePair (some .second))
    (t.target 2).state = .erasing ∧ (t.target 2).unit = some { first := 0x12000, size := .kib64 } ∧
    (t.target 2).holdOff = .running 100000 0 := by decide +kernel

theorem test_status_frame_end_of_a_program :
    let t := after (.statusFrameEnd 0 0x00) (maintaining .poll (busy { program with state := .ownerBusy } .programming))
    (t.target 2).state = .idle ∧ (t.bus 0).list = [] ∧ (t.port 1).queue.map (·.outcome) = [.done] ∧
    (pick (t.port 1).slots 1) = Slot.freed := by decide +kernel

theorem test_status_frame_end_of_a_status_item :
    let t := after (.statusFrameEnd 0 0x41) (inFlight status .status none)
    (t.port 1).queue.map (·.headBytes) = [[0x41]] ∧ (t.bus 0).list = [] := by decide +kernel

/-- The frame in flight on B0 with bit order LSB FIRST. -/
def lsbFirst (s : State) : State := s.modBus 0 fun e => { e with
  frame := e.frame.map fun r => { r with framing := { r.framing with bitOrder := .lsbFirst } } }

/-- R83: with LSB FIRST the first sample of SDI is bit 0 of the byte. -/
theorem test_received_bytes_follow_the_bit_order :
    ((after (.dataByteReceived 0 0x50) (lsbFirst (inFlight read .read none))).bus 0).list.map (·.headBytes) = [[0x0A]] ∧
    ((after (.statusFrameEnd 0 0x82) (lsbFirst (inFlight status .status none))).port 1).queue.map (·.headBytes) = [[0x41]] := by
  decide +kernel

theorem test_suspend_frame_end :
    let t := after (.suspendFrameEnd 0) (maintaining .suspend (busy { erase with state := .ownerBusy } .erasing))
    (t.target 2).state = .suspending ∧ (t.target 2).suspendCount = 1 ∧
    (t.bus 0).list.map (fun it => (it.state, it.suspendCount)) = [(.ownerSuspended, 1)] := by decide +kernel

theorem test_resume_frame_end :
    let t := after (.resumeFrameEnd 0) (maintaining .resume (busy { erase with state := .ownerSuspended } .suspended))
    (t.target 2).state = .erasing ∧ (t.target 2).held = .stopped ∧ (t.bus 0).list.map (·.state) = [.ownerBusy] := by
  decide +kernel

/-- T2 RESETTING with one reset frame to send. -/
def oneToSend : State :=
  ready.modTarget 2 fun r => { r with state := .resetting, pendingReset := some { toSend := 1, recovering := false } }

theorem test_reset_frame_end :
    ((after (.resetFrameEnd 0) (maintaining .reset oneToSend)).target 2).recovery = .running 60000 0 ∧
    ((maintaining .reset oneToSend).bus 0).frame.map (·.header) = some [0x62] := by decide +kernel

/-! ### Timers -/

theorem test_poll_timer_expiry :
    let t := after (.pollTimerExpiry 2) (busy { program with state := .ownerBusy } .programming)
    (t.target 2).poll = .expired ∧ (t.target 2).program = .running 600000 11000 := by decide +kernel

theorem test_program_timer_expiry :
    let t := after (.programTimerExpiry 2) (busy { program with state := .ownerBusy } .programming)
    (t.target 2).state = .faulted ∧ (t.port 1).queue.map (fun r => (r.outcome, r.reason, r.bytesMoved)) =
      [(.failed, .timeout, 16)] ∧ (t.port 1).pending.fault = true ∧ (t.port 0).pending.fault = false ∧
    (pick (t.port 1).slots 1).state = .held := by decide +kernel

theorem test_busy_time_reaches_tel :
    let t := after (.busyTimeReachesTel 2) (busy { erase with state := .ownerBusy } .erasing)
    (t.target 2).state = .faulted ∧ (t.target 2).busyTime = 400000000 := by decide +kernel

theorem test_hold_off_timer_expiry :
    ((after (.holdOffTimerExpiry 2) (busy { erase with state := .ownerBusy } .erasing)).target 2).holdOff = .expired := by
  decide +kernel

theorem test_suspend_latency_timer_expiry :
    ((after (.suspendLatencyTimerExpiry 2) (busy { erase with state := .ownerSuspended } .suspending)).target 2).state =
      .faulted := by decide +kernel

theorem test_suspended_timer_expiry :
    let t := after (.suspendedTimerExpiry 2) (busy { erase with state := .ownerSuspended } .suspended)
    (t.target 2).held = .expired ∧ t.resumeCondition 0 2 = true := by decide +kernel

theorem test_recovery_timer_expiry :
    let s := oneToSend.modTarget 2 (fun r => { r with
      pendingReset := some { toSend := 0, recovering := true }, recovery := .running 60000 0 })
    ((after (.recoveryTimerExpiry 2) s).target 2) = (ready.target 2) := by decide +kernel

theorem test_a_stopped_timer_does_not_expire : after (.recoveryTimerExpiry 2) ready = ready := by decide +kernel

/-! ### The points where events meet -/

/-- Section 1's wait: an APPLY that came during an admission is taken as it ends, before an expiry that waited (log 7). -/
theorem test_a_waiting_apply_is_taken_at_the_end_of_the_admission :
    let s := after (.apply 0 []) (admitting (.insert read) { revising with ports := ringed.ports })
    let t := after .insertion s
    s.policy.applies = 1 ∧ s.policy.generation = 0 ∧ t.policy.applies = 0 ∧ t.policy.generation = 1 := by decide +kernel

/-- APPLY, STAGE ENTRY, APPLY with no admission under way: the edit is in the second APPLY's table (R4, R12). -/
theorem test_an_edit_between_two_applies_is_in_the_second :
    let s := after (.apply 0 []) (after (.stageEntry 0 (31 :: window.toBytes)) (after (.apply 0 []) revising))
    let t := after .applySucceeds s
    s.policy.generation = 1 ∧ (pick s.policy.active 31).valid = false ∧ t.policy.generation = 2 ∧ pick t.policy.active 31 = window := by
  decide +kernel

/-- A CANCEL that waited for its head's admission finds the item QUEUED and removes it as the admission ends (R41, R57). -/
theorem test_a_waiting_cancel_removes_the_item_at_the_end_of_the_admission :
    let t := after .insertion (after (.cancel 1 [3]) (admitting (.insert { read with tag := 3 }) ringed))
    (t.bus 0).list = [] ∧ (t.port 1).queue.map (fun r => (r.outcome, r.cancelSeen)) = [(.cancelled, true)] := by decide +kernel

/-- A PORT RESET that an admission holds back carries the summary byte of its fall (R179): no record waits at the fall, and one
does as the frame is executed. -/
theorem test_a_held_back_frame_carries_the_summary_byte_of_its_fall :
    let s := after (.portReset 1 []) refusing
    let t := after .completionPost s
    (s.port 1).link.isOpen = true ∧ ((refusing.port 1).summaryByte, (t.port 1).link.sdo) = (0x20, [0x20]) ∧
    (t.port 1).queue = [] := by decide +kernel

/-- A target reset claim that a frame held back goes ahead of the expiry that waits for the admission (R52). -/
theorem test_a_standing_target_reset_claim_goes_ahead_of_a_later_expiry :
    let s := admitting (.insert { status with uid := 1 }) (maintaining .poll (busy { program with state := .ownerBusy } .programming))
    let u := after (.programTimerExpiry 2) { s with resetClaims := [2] }
    let t := after (.statusFrameEnd 0 0x01) u
    u.waiting = [.expiry 2 .program] ∧ t.waiting = [.targetReset 2, .expiry 2 .program] ∧ t.resetClaims = [] := by decide +kernel

theorem test_the_first_byte_picks_the_frame :
    frameOfBytes 1 (0x10 :: readBytes) = .submit 1 readBytes ∧ frameOfBytes 0 [0x5D, 0, 2] = .busMode 0 [0, 2] ∧
    frameOfBytes 1 [0x5B, 7] = .badcode 1 0x5B [7] ∧ frameOfBytes 1 [] = .frameWithoutCode 1 := by decide

/-- Twelve bits clocked: one complete byte, HOLD. -/
theorem test_bits_clocked : frameOfBits 1
    [false, false, false, true, false, false, true, false, true, true, true, true] = [.summaryByte 1, .hold 1 []] := by decide

/-- SDO of P2 of section 11.8: high impedance before the fall, then 0xE0 from its most significant bit. -/
theorem test_upstream_sdo :
    collecting.upstreamSdo 2 0 = none ∧
    (List.range 9).map ((after (.summaryByte 2) collecting).upstreamSdo 2) =
      [true, true, true, false, false, false, false, false, false].map some := by decide +kernel

/-! ### Witnesses: states and operands that meet the hypotheses of the statements

Each theorem `meets_<statement>` shows, clause by clause and at the bounds of the ranges, that the hypotheses of
`Obligations.<statement>` can be met together. -/

/-- Some port of `ready` listens, as every port does. -/
theorem ready_hears : ∀ p, ready.hears p := by unfold State.hears; decide +kernel

theorem meets_StepOnAnEmptyQueueIsOneClockPeriod : ready.pending = [] ∧ ready.stands = false := by decide +kernel

/-- Events that cannot occur, and one of each group that can. -/
theorem meets_EveryCommandAnswersAndLeavesTheQueue :
    let r := inFlight read .read none
    ready.resetLow = false ∧ ready.policy.applies = 0 ∧ ready.admission.current = none ∧ ready.hears 1 ∧
    (0x10 : Byte) ∈ frameCodes ∧ (refusing.admission.current.map fun a => decide (a.decision = .insert read)) = some false ∧
    (ready.bus 0).resets = 0 ∧ (ready.bus 0).revocations = [] ∧ (ready.bus 0).cancels = [] ∧ (ready.bus 0).frame = none ∧
    ((r.bus 0).serving.map fun y => (y.1.kind, y.1.pair, decide (y.2.bytesMoved < y.1.dataLimit))) = some (.read, none, true) ∧
    (2 : Target) ∉ ready.resetClaims ∧ (ready.target 2).poll = .stopped ∧ (ready.target 2).state = .idle ∧
    after .insertion refusing = refusing ∧ after (.readFrameEnd 0) r = r ∧ after (.dataByteSent 0) r = r ∧
    after (.badcode 1 0x10 []) ready = ready := by
  unfold State.hears; decide +kernel

theorem meets_DeviceResetAndItsRelease : ({ ready with resetLow := true } : State).resetLow = true := by decide

theorem meets_FramesOfADeafPortAreIgnored :
    portOfFrame (.hold 1 []) = some 1 ∧ ({ ready with resetLow := true } : State).resetLow = true ∧
    ((ready.modPort 1 (·.releaseReset true)).port 1).link.ignoring = true ∧ Instr.hold 1 [] ≠ .summaryByte 1 := by decide +kernel

/-- One byte short of the required length, for a short and a long frame. -/
theorem meets_ShortFramesGiveFraming :
    portOfFrame (.submit 1 (zeros 7)) = some 1 ∧ requiredLength (.submit 1 (zeros 7)) = some 9 ∧
    (bytesOf (.submit 1 (zeros 7))).length + 1 < 9 ∧ portOfFrame (.setupTarget 0 (zeros 31)) = some 0 ∧
    requiredLength (.setupTarget 0 (zeros 31)) = some 33 ∧ (bytesOf (.setupTarget 0 (zeros 31))).length + 1 < 33 ∧
    requiredLength (.fetch 1 .release (zeros 1)) = some 3 ∧ (bytesOf (.fetch 1 .release (zeros 1))).length + 1 < 3 := by
  decide

/-- An insertion to come at P1, with a frame of P1 that waits. -/
def held : State := { admitting (.insert read) ringed with waiting := [.frame (.portReset 1 [])] }

theorem meets_EventsWaitForTheAdmission_frames :
    portOfFrame (.hold 1 []) = some 1 ∧ held.deaf 1 = false ∧ held.frameWaits 1 = true ∧
    (admitting (.insert read) ringed).hears 1 ∧ (admitting (.insert read) ringed).admittingPort 1 = true := by
  unfold State.hears; decide +kernel

/-- A frame that an admission holds back, one opened by its fall and one that opens itself, and one that it does not hold back. -/
theorem meets_EventsWaitForTheAdmission_held_back :
    let s := admitting (.insert read) ringed
    let c := Instr.portReset 1 []
    s.heldBack c = true ∧ (s.port 1).link.isOpen = false ∧ (after (.summaryByte 1) s).heldBack c = true ∧
    ((after (.summaryByte 1) s).port 1).link.isOpen = true ∧ s.heldBack (.portReset 2 []) = false ∧ s.frameWaits 1 = false ∧
    s.admittingPort 2 = false ∧ s.admittingTarget 3 = false ∧ s.admittingBus 1 = false ∧
    (inFlight read .read none).frameTo 2 = true := by decide +kernel

theorem meets_EventsWaitForTheAdmission_targets :
    let s := admitting (.insert read) ringed
    s.hears s.authority ∧ s.admittingTarget 2 = true ∧ 32 ≤ (2 :: flash.toBytes).length ∧
    (byteAt (2 :: flash.toBytes) 0).toNat = 2 ∧ Profile.ofBytes (2 :: flash.toBytes) 1 = some flash := by
  unfold State.hears; decide +kernel

theorem meets_EventsWaitForTheAdmission_limits_and_claims :
    let s := admitting (.insert read) (busy { program with state := .ownerBusy } .programming)
    let e := admitting (.insert read) (busy { erase with state := .ownerBusy } .erasing)
    let c := { resetting s with resetClaims := [2] }
    s.admittingTarget 2 = true ∧ (s.target 2).program = .running 600000 5000 ∧ (s.target 2).latency = .running 40000 1000 ∧
    e.admittingTarget 2 = true ∧ (e.target 2).state = .erasing ∧ c.admittingTarget 2 = true ∧ 2 ∈ c.resetClaims ∧
    c.frameTo 2 = false ∧ c.admittingBus 0 = true ∧ 0 < (c.bus 0).resets ∧ s.stands = false ∧ e.stands = false := by
  decide +kernel

theorem meets_FramesWithoutReplyShiftOutTheSummaryByte :
    portOfFrame (.portReset 1 []) = some 1 ∧ ready.heldBack (.portReset 1 []) = false ∧
    portOfFrame (.badcode 1 0x5B []) = some 1 ∧ (0x5B : Byte) ∉ frameCodes := by decide +kernel

/-- The fields at both sides of every bound of SUBMIT check 3. -/
theorem meets_SubmitFieldErrors :
    let frame (flags high low : Byte) : List Byte := [9, flags, 0, 0, 0, 0, high, low]
    ([frame 0x04 0 1, frame 0x80 0 1, frame 0xC0 0 1, frame 0 0 0, frame 0 1 1, frame 0x01 0 0, frame 0x01 1 1,
      frame 0xE2 0 0, frame 0xE2 0 17, frame 0xE3 0 1, frame 0xE1 0 1, frame 0xE0 0 5, frame 0x02 0 1,
      frame 0x63 0 0].all fun b => (Request.ofBytes b).isNone) = true ∧
    ([frame 0 0 1, frame 0x60 1 0, frame 0xE0 0 4, frame 0x01 1 0, frame 0xE2 0 1, frame 0xE2 0 16, frame 0xE3 0 0].all
      fun b => (Request.ofBytes b).isSome) = true := by decide +kernel

/-- A descriptor with every flag set, and one without a slot. -/
theorem meets_SubmitFieldErrors_layout :
    Request.ofBytes [5, 0x78, 1, 2, 3, 4, 1, 0] = some {
      tag := 5, kind := .read, urgent := true, fence := true, slot := some 3, address := 0x01020304, length := 256 } ∧
    (Request.ofBytes [5, 0xE2, 0, 0, 0, 0, 0, 16]).map (fun r => (r.kind, r.slot)) = some (.erase, none) := by decide +kernel

/-- A port with `rings` ring entries and `used` credits in use. -/
def filled (rings used : Nat) : State :=
  ready.setPort 1 { PortUnit.reset with ring := List.replicate rings { readRequest with tag := 9 }, tags := [9], credits := used }

theorem meets_SubmitChecksAndAccepts_room :
    (filled 8 8).hears 1 ∧ 8 ≤ readBytes.length ∧ 8 ≤ ((filled 8 8).port 1).ring.length ∧ (filled 0 16).hears 1 ∧
    16 ≤ ((filled 0 16).port 1).credits ∧ (filled 7 15).hears 1 ∧ ((filled 7 15).port 1).ring.length < 8 ∧
    ((filled 7 15).port 1).credits < 16 ∧ (9 : Byte) ∈ ((filled 7 15).port 1).tags ∧
    byteAt readBytes 0 ∉ ((filled 7 15).port 1).tags ∧ Request.ofBytes (zeros 8) = none := by
  unfold State.hears; decide +kernel

/-- P1 with S1 HELD, 16 bytes valid. -/
def loaded : State :=
  ready.setPort 1 { PortUnit.reset with
    slots := put PortUnit.reset.slots 1 { state := .held, data := [(0, 7)], valid := 16, ret := none } }

theorem meets_SubmitChecksAndAccepts_slots :
    loaded.hears 1 ∧
    (Request.ofBytes readBytes).map (fun r => (r.slot, r.kind)) = some (some 1, .read) ∧
    (Request.ofBytes [3, 0xE3, 0, 0, 0, 0, 0, 0]).map (fun r => (r.slot, r.kind)) = some (none, .status) ∧
    (Request.ofBytes [3, 0x21, 0, 0, 0, 0, 0, 16]).map (fun r => (r.slot, r.kind, r.length)) = some (some 1, .program, 16) ∧
    (Request.ofBytes [3, 0x21, 0, 0, 0, 0, 0, 17]).map (fun r => (r.slot, r.kind, r.length)) = some (some 1, .program, 17) ∧
    (pick (loaded.port 1).slots 1).valid = 16 ∧ (pick ((withItem read).port 1).slots 1).state = .committed := by
  unfold State.hears; decide +kernel

theorem meets_CancelActsWhereTheTagStands :
    ready.hears 1 ∧ (3 : Byte) ∉ (ready.port 1).tags ∧
    (admitting (.insert read) ringed).hears 1 ∧ (3 : Byte) ∈ ((admitting (.insert read) ringed).port 1).tags ∧
    (admitting (.insert read) ringed).headUnderAdmission 1 3 = true ∧
    ringed.hears 1 ∧ (3 : Byte) ∈ (ringed.port 1).tags ∧ ringed.headUnderAdmission 1 3 = false ∧
    (ringed.port 1).ring.find? (fun x => x.tag == 3) = some readRequest ∧
    (withItem read).hears 1 ∧ (4 : Byte) ∈ ((withItem read).port 1).tags ∧
    ((withItem read).port 1).ring.find? (fun x => x.tag == 4) = none ∧ (withItem read).itemOf 1 4 = some (0, read) ∧
    collecting.hears 2 ∧ (12 : Byte) ∈ (collecting.port 2).tags ∧ collecting.itemOf 2 12 = none := by
  unfold State.hears; decide +kernel

/-- An item of a port and tag on the second list, one on both lists, an orphan, and a bus reset claim that waits beside one that
stands. -/
theorem meets_CancelActsWhereTheTagStands_items :
    let second (it : Item) (s : State) : State := s.setBus 1 { s.bus 1 with list := [it] }
    (second read ready).itemOf 1 4 = some (1, read) ∧ (second program (withItem read)).itemOf 1 4 = some (0, read) ∧
    (second { read with orphan := true } ready).itemOf 1 4 = none ∧
    { (ready.setBus 1 { ready.bus 1 with resets := 1 }) with waiting := [.busReset 1, .busReset 0] }.resetsIssued 1 = 2 := by
  decide +kernel

/-- A ring of seven with SPACE armed and 15 credits, or of six with 14. -/
def armed (rings used : Nat) : State := (filled rings used).modPort 1 fun u => { u with armed := true, queue := [doneRead] }

theorem meets_CollectTakesTheFrontRecord :
    collecting.hears 2 ∧
    (collecting.port 2).link.inForce Captured.isCollect (.collect (collecting.port 2).queue.head?) =
      .collect (some failedProgram) ∧
    (ready.port 2).link.inForce Captured.isCollect (.collect (ready.port 2).queue.head?) = .collect none ∧
    (zeros 15).length < 16 ∧ 16 ≤ (zeros 16).length ∧ (armed 6 15).hears 1 ∧
    (((armed 6 15).port 1).armed = true ∧ ((armed 6 15).port 1).ring.length ≤ 6 ∧ ((armed 6 15).port 1).credits - 1 ≤ 14) ∧
    ¬((armed 7 15).port 1).ring.length ≤ 6 ∧ ¬((armed 6 16).port 1).credits - 1 ≤ 14 := by
  unfold State.hears; decide +kernel

/-- The link of a frame that answers: open after its capture, closed after its release. -/
theorem test_link_of_a_frame_that_answers :
    let s := after (.collect 2 .capture []) (after (.summaryByte 2) collecting)
    (s.port 2).link = (collecting.port 2).linkHolding (.collect (some failedProgram)) ∧
    ((after (.collect 2 .release (zeros 16)) s).port 2).link = (s.port 2).linkReleased (0xE0 :: 0 :: failedProgram.toBytes) := by
  decide +kernel

theorem meets_PortResetCutsThePortLoose :
    let s := cancelling (after (.summaryByte 1) (withItem read))
    let both := (ready.modBus 1 fun e => { e with cancels := [{ port := 1, item := 0, behind := 0 }] }).modPort 1 (·.fall)
    s.hears 1 ∧ s.admittingPort 1 = false ∧ (s.port 1).link.isOpen = true ∧
    (s.bus 0).cancels.find? (fun x => decide (x.port = 1)) = some { port := 1, item := 0, behind := 0 } ∧
    both.hears 1 ∧ both.admittingPort 1 = false ∧ (both.port 1).link.isOpen = true ∧
    (both.bus 1).cancels.find? (fun x => decide (x.port = 1)) = some { port := 1, item := 0, behind := 0 } ∧
    (∀ x ∈ (both.bus 0).cancels, x.port ≠ 1) ∧ (withItem read).hears 1 ∧ (withItem read).admittingPort 1 = false ∧
    ∀ b, ∀ c ∈ ((withItem read).bus b).cancels, c.port ≠ 1 := by
  unfold State.hears; decide +kernel

/-- Cancel claims of the port stand, in an open frame and in one that is not. -/
theorem meets_PortResetCutsThePortLoose_closed :
    let s := cancelling (withItem read)
    let other := ready.modBus 1 fun e => { e with cancels := [{ port := 1, item := 0, behind := 0 }] }
    s.hears 1 ∧ s.admittingPort 1 = false ∧ (s.port 1).link.isOpen = false ∧
    (s.bus 0).cancels.find? (fun x => decide (x.port = 1)) = some { port := 1, item := 0, behind := 0 } ∧
    other.hears 1 ∧ other.admittingPort 1 = false ∧ (other.port 1).link.isOpen = false ∧
    (other.bus 1).cancels.find? (fun x => decide (x.port = 1)) = some { port := 1, item := 0, behind := 0 } ∧
    (∀ x ∈ (other.bus 0).cancels, x.port ≠ 1) ∧
    read ∈ ((withItem read).bus 0).list ∧ read.port = 1 ∧ read.state = .queued ∧ read.orphan = false := by
  unfold State.hears; decide +kernel

/-- Offsets and counts at both sides of the slot's end, and both kinds of slot. -/
theorem meets_LoadWritesTheSlot :
    SlotsCanonical (withItem read) ∧ (withItem read).hears 1 ∧ 2 ≤ [(3 : Byte), 255].length ∧
    (byteAt [3, 255] 0).toNat = (3 : SlotIx).val ∧ (byteAt [3, 255, 1] 1).toNat + ([3, 255, 1] : List Byte).tail.tail.length ≤ 256 ∧
    3 < (byteAt [4, 0] 0).toNat ∧ 256 < (byteAt [3, 255, 1, 2] 1).toNat + 2 ∧
    (pick ((withItem read).port 1).slots 1).state = .committed ∧ (pick ((withItem read).port 1).slots 3).state ≠ .committed := by
  unfold State.hears SlotsCanonical; decide +kernel

theorem meets_FetchReadsTheSlot :
    (withItem read).hears 1 ∧ 2 ≤ [(1 : Byte), 255].length ∧ 3 < (byteAt [4, 0] 0).toNat ∧
    (byteAt [1, 0] 0).toNat = (1 : SlotIx).val ∧ (pick ((withItem read).port 1).slots 1).state = .committed ∧
    loaded.hears 1 ∧ (pick (loaded.port 1).slots 1).state ≠ .committed ∧
    (loaded.port 1).link.inForce Captured.isFetch (.fetch .ok [7]) = .fetch .ok [7] := by
  unfold State.hears; decide +kernel

theorem meets_ReleaseFreesTheSlot :
    (withItem read).hears 1 ∧ 1 ≤ [(4 : Byte)].length ∧ 3 < (byteAt [4] 0).toNat ∧
    (byteAt [1] 0).toNat = (1 : SlotIx).val ∧ (pick ((withItem read).port 1).slots 1).state = .committed ∧
    (byteAt [3] 0).toNat = (3 : SlotIx).val ∧ (pick ((withItem read).port 1).slots 3).state ≠ .committed := by
  unfold State.hears; decide +kernel

theorem meets_SlotsReturnByOutcome :
    let k := pick ((withItem read).port 1).slots 1
    k.data.wf = true ∧ Ending.failed ≠ .done ∧ k.ret = some .held := by decide +kernel

theorem meets_CauseReportsTheHighestCause :
    faulted.hears 2 ∧ (faulted.port 2).topCause = some .fault ∧ (ready.port 2).topCause = none ∧
    (faulted.port 2).link.inForce Captured.isCause (.cause (faulted.port 2).topCause false) = .cause (some .fault) false ∧
    ((after (.cause 2 .capture []) faulted).port 2).link.captured = some (.cause (some .fault) false) ∧
    (((after (.cause 2 .capture []) faulted).modPort 2 (·.raise .fault)).port 2).link.inForce Captured.isCause
      (.cause none false) = .cause (some .fault) true ∧
    (collecting.port 2).link.inForce Captured.isCause (.cause (collecting.port 2).topCause false) =
      .cause (some .error) false ∧ (zeros 1).length < 2 ∧ 2 ≤ (zeros 2).length := by
  unfold State.hears; decide +kernel

/-- A capture that reports FAULT, with a raise of another cause, and a link that has no capture. -/
theorem meets_CauseReportsTheHighestCause_raises :
    let u := (after (.cause 2 .capture []) faulted).port 2
    u.link.captured = some (.cause (some .fault) false) ∧ Cause.fault ≠ .space ∧
    (u.raise .space).pending.has .space = true ∧ (u.raise .space).link.captured = u.link.captured ∧
    (ready.port 2).link.captured = none := by decide +kernel

theorem meets_CauseEnableReplacesTheSet :
    CausesJudged collecting ∧ collecting.hears 2 ∧ 2 ≤ [(31 : Byte), 16].length ∧ 32 ≤ (byteAt [32, 1] 0).toNat ∧
    (byteAt [31, 0] 1).toNat = 0 ∧ 16 < (byteAt [31, 17] 1).toNat ∧ (byteAt [31, 16] 0).toNat < 32 ∧
    1 ≤ (byteAt [31, 1] 1).toNat ∧ (byteAt [31, 16] 1).toNat ≤ 16 := by
  unfold State.hears CausesJudged; decide +kernel

theorem meets_AttentionTheSummaryByteAndTheLink :
    ready.resetLow = false ∧ ready.frameWaits 1 = false ∧ (0x5B : Byte) ∉ frameCodes ∧ collecting.attn 2 = true ∧
    ready.attn 2 = false := by decide +kernel

/-- R178 to R182: an open link without and with a capture, at both sides of the code byte and of the request bytes. -/
theorem meets_AttentionTheSummaryByteAndTheLink_sdo :
    let s := after (.summaryByte 2) collecting
    let t := after (.collect 2 .capture []) s
    (collecting.port 2).link.isOpen = false ∧ (s.port 2).link.isOpen = true ∧ s.hears 2 ∧ (s.port 2).link.captured = none ∧
    (t.port 2).link.isOpen = true ∧ t.hears 2 ∧ (t.port 2).link.captured = some (.collect (some failedProgram)) ∧
    s.upstreamSdo 2 7 = some false ∧ s.upstreamSdo 2 8 = some false ∧ t.upstreamSdo 2 15 = some false ∧
    t.upstreamSdo 2 16 = some true ∧ (8 : Nat) / 8 = 1 ∧ s.stands = false := by
  unfold State.hears; decide +kernel

/-- R178, R182: the bits of a whole COLLECT frame and of a CAUSE frame cut short hold one capture; those of HOLD hold none, at
any length; FETCH has its capture at its second request byte and at no other. -/
theorem meets_AttentionTheSummaryByteAndTheLink_frames :
    let bits (w : List Byte) : List Bool := w.flatMap fun b => (List.range 8).map fun i => b.getLsbD (7 - i)
    completeBytes (bits (0x30 :: zeros 17)) = 0x30 :: zeros 17 ∧
    frameOfBits 1 (bits (0x30 :: zeros 17)) = [.summaryByte 1, .collect 1 .capture [], .collect 1 .release (zeros 17)] ∧
    frameOfBits 1 (bits [0x31]) = [.summaryByte 1, .cause 1 .capture [], .cause 1 .release []] ∧
    captureOfBytes 1 ((0x30 :: zeros 17).take 1) = some (.collect 1 .capture []) ∧
    (List.range 5).map (fun n => (captureOfBytes 1 ([0x21, 0, 0, 0].take n)).isSome) = [false, false, false, true, false] ∧
    ∀ n, captureOfBytes 1 ([0x12].take n) = none := by
  refine ⟨by decide +kernel, by decide +kernel, by decide +kernel, by decide +kernel, by decide +kernel, fun n => ?_⟩
  cases n <;> simp [captureOfBytes]

theorem meets_SummaryReportsThePort :
    (collecting.port 2).link.inForce Captured.isSummary (.summary (collecting.summaryReply 2)) =
      .summary (collecting.summaryReply 2) := by decide +kernel

theorem meets_ReadEntryShowsAnEntry :
    2 ≤ [(0 : Byte), 31].length ∧ 1 < (byteAt [2, 31] 0).toNat ∧ 31 < (byteAt [0, 32] 1).toNat ∧
    (byteAt [1, 31] 0).toNat = 1 ∧ (byteAt [1, 31] 1).toNat ≤ 31 ∧ (1 : Port) ≠ ready.authority ∧ (0 : Port) = ready.authority ∧
    (byteAt [0, 31] 1).toNat = (31 : EntryIx).val ∧ (byteAt [0, 31] 0).toNat = 0 ∧
    (ready.port 1).link.inForce Captured.isReadEntry (.readEntry .ok [1]) = .readEntry .ok [1] := by decide +kernel

theorem meets_StageEntryAndCopyActiveEditTheStagedTable :
    13 ≤ (31 :: window.toBytes).length ∧ (1 : Port) ≠ ready.authority ∧ (0 : Port) = ready.authority ∧
    31 < (byteAt (32 :: window.toBytes) 0).toNat ∧ (byteAt (31 :: window.toBytes) 0).toNat = (31 : EntryIx).val ∧
    ready.policy.applies = 0 ∧ ready.hears 0 ∧ (after (.apply 0 []) (admitting (.insert read) ready)).policy.applies ≠ 0 ∧
    (after (.apply 0 []) (admitting (.insert read) ready)).hears 0 := by
  unfold State.hears; decide +kernel

/-- One entry that fails, at the last index; and an entry at every bound of R10 at once. -/
theorem meets_ApplyChecksTheStagedTable :
    (1 : Port) ≠ ready.authority ∧ (0 : Port) = ready.authority ∧ unsound.hears 0 ∧
    (pick unsound.policy.staged 5).valid = true ∧ (pick unsound.policy.staged 5).ports = 0 ∧
    (∀ j : EntryIx, j.val < 5 → (pick unsound.policy.staged j).passes = true) ∧
    (∀ i : EntryIx, (pick ready.policy.staged i).passes = true) ∧
    ({ window with size := 65536, base := 983040, offset := 0, target := 7 } : RegionEntry).passes = true ∧
    ({ window with size := 65536, base := 983041, offset := 0, target := 7 } : RegionEntry).passes = false ∧
    ({ window with size := 65536, base := 983040, offset := 1, target := 7 } : RegionEntry).passes = false ∧
    ({ window with size := 65537, base := 0, offset := 0, target := 7 } : RegionEntry).passes = false ∧
    ({ window with size := 0 } : RegionEntry).passes = false ∧ ({ window with target := 8 } : RegionEntry).passes = false := by
  unfold State.hears; decide +kernel

/-- A STRICT entry changed with one APPLY waiting, a POLITE one with two, and edits behind. -/
theorem meets_ApplySucceedsPutsTheTableInForce :
    let s := after (.apply 0 []) revising
    let under := after (.apply 0 []) (admitting (.insert read) revising)
    let two := { after (.apply 0 []) under with admission := AdmissionUnit.reset }
    portOfFrame (.hold 1 []) = some 1 ∧ s.deaf 1 = false ∧ s.frameWaits 1 = false ∧ 0 < s.policy.applies ∧ s.admission.current = none ∧ s.policy.applies = 1 ∧ 1 < two.policy.applies ∧
    two.admission.current = none ∧ pick s.policy.active 2 ≠ pick s.policy.staged 2 ∧
    (pick s.policy.active 2).valid = true ∧ (pick s.policy.staged 2).valid = true ∧
    (pick s.policy.active 2).mode = .strict ∧ (pick s.policy.active 2).ports.getLsbD (1 : Port).val = true ∧
    (∀ i : EntryIx, pick ready.policy.active i = pick ready.policy.staged i) ∧
    (after (.copyActive 0 []) under).policy.edits = [.copyActive] ∧ 0 < under.policy.applies ∧
    under.admission.current ≠ none := by decide +kernel

/-- R4: an APPLY that stands as a frame comes, with no admission under way. -/
theorem meets_ApplySucceedsPutsTheTableInForce_frame :
    let s := after (.apply 0 []) revising
    portOfFrame (.stageEntry 0 (31 :: window.toBytes)) = some 0 ∧ s.deaf 0 = false ∧ s.frameWaits 0 = false ∧
    0 < s.policy.applies ∧ s.admission.current = none := by decide +kernel

theorem meets_ReadTargetShowsARecord :
    1 ≤ [(7 : Byte)].length ∧ 7 < (byteAt [8] 0).toNat ∧ (byteAt [7] 0).toNat = (7 : Target).val ∧
    ((busy program .erasing).target 2).owner.bind ((busy program .erasing).bus 0).find = some program ∧
    ((busy program .erasing).target 2).unit = some { first := 0x10000, size := .kib64 } ∧
    (ready.target 7).owner = none ∧ (ready.target 7).unit = none ∧ (ready.target 7).pendingReset = none ∧
    (oneToSend.target 2).pendingReset = some { toSend := 1, recovering := false } ∧
    (ready.port 1).link.inForce Captured.isReadTarget (.readTarget .badField []) = .readTarget .badField [] := by
  decide +kernel

theorem meets_SetupTargetStoresAProfile :
    let bytes := 7 :: flash.toBytes
    ready.heldBack (.setupTarget 0 bytes) = false ∧ 32 ≤ bytes.length ∧ (1 : Port) ≠ ready.authority ∧
    (0 : Port) = ready.authority ∧ 7 < (byteAt (8 :: flash.toBytes) 0).toNat ∧ Profile.ofBytes (7 :: zeros 31) 1 = none ∧
    (byteAt bytes 0).toNat = (7 : Target).val ∧ Profile.ofBytes bytes 1 = some flash ∧
    (ready.target 7).state = .absent ∧ (ready.target 2).state = .idle ∧ (∀ it ∈ (ready.bus 0).list, it.target ≠ 2) ∧
    (∀ it ∈ (ready.bus 1).list, it.target ≠ 7) ∧ (withItem read).hears 0 ∧ (withItem read).heldBack (.setupTarget 0 bytes) = false ∧
    ((withItem read).bus 0).list.map (·.target) = [2] := by
  unfold State.hears; decide +kernel

/-- SETUP TARGET and REMOVE TARGET of the target that the admission under way has read. -/
theorem meets_SetupTargetStoresAProfile_held_back :
    let s := admitting (.insert read) ringed
    s.heldBack (.setupTarget 0 (2 :: flash.toBytes)) = true ∧ s.heldBack (.setupTarget 0 (3 :: flash.toBytes)) = false ∧
    s.heldBack (.setupTarget 1 (2 :: flash.toBytes)) = false ∧ s.heldBack (.removeTarget 0 [2]) = true ∧
    s.heldBack (.removeTarget 0 []) = false := by decide +kernel

theorem meets_RemoveTargetMakesItAbsent :
    ready.heldBack (.removeTarget 0 [2]) = false ∧ 1 ≤ [(2 : Byte)].length ∧ (0 : Port) = ready.authority ∧
    7 < (byteAt [8] 0).toNat ∧ (byteAt [2] 0).toNat = (2 : Target).val ∧ (ready.target 2).state = .idle ∧
    (∀ it ∈ (ready.bus 0).list, it.target ≠ 2) ∧ (byteAt [7] 0).toNat = (7 : Target).val ∧ (ready.target 7).state = .absent := by
  decide +kernel

theorem meets_ResetTargetAndItsClaim :
    let owned := { busy { program with state := .ownerBusy } .programming with resetClaims := [2] }
    1 ≤ [(7 : Byte)].length ∧ (1 : Port) ≠ ready.authority ∧ 7 < (byteAt [8] 0).toNat ∧
    (ready.target 7).state = .absent ∧ (ready.target 2).state ≠ .absent ∧ (ready.target 2).state ≠ .resetting ∧
    ready.admittingTarget 2 = false ∧ (admitting (.insert read) ringed).admittingTarget 2 = true ∧
    (admitting (.insert read) ringed).hears 0 ∧ 2 ∈ owned.resetClaims ∧ owned.frameTo 2 = false ∧
    owned.admittingTarget 2 = false ∧
    (owned.target 2).owner.bind (owned.bus (busOf 2)).find = some { program with state := .ownerBusy } ∧
    (ready.target 2).owner.bind (ready.bus (busOf 2)).find = none ∧ (oneToSend.target 2).state = .resetting := by
  unfold State.hears; decide +kernel

/-- What stands ready: an APPLY, a bus reset claim, a target reset claim, each taken by its own command; nothing with an admission
or a frame in flight that holds it; and commands of each kind that find it taken. -/
theorem meets_ResetTargetAndItsClaim_stands :
    let a := after (.apply 0 []) revising
    let b := resetting (withItem read)
    let x := { ready with resetClaims := [2] }
    let held := { admitting (.insert read) ringed with resetClaims := [2] }
    let p := { busy { program with state := .ownerBusy } .programming with resetClaims := [2] }
    let e := { busy { erase with state := .ownerBusy } .erasing with resetClaims := [2] }
    a.stands = true ∧ a.admission.current = none ∧ 0 < a.policy.applies ∧ b.stands = true ∧ 0 < (b.bus 0).resets ∧
    b.admittingBus 0 = false ∧ x.stands = true ∧ x.frameTo 2 = false ∧ x.admittingTarget 2 = false ∧ ready.stands = false ∧
    held.stands = false ∧ ({ inFlight status .status none with resetClaims := [2] } : State).stands = false ∧
    portOfFrame (.hold 1 []) = some 1 ∧ x.deaf 1 = false ∧ x.frameWaits 1 = false ∧ x.admission.current = none ∧
    (x.bus 0).frame = none ∧ (p.target 2).poll = .running 10000 4000 ∧ (p.target 2).program = .running 600000 5000 ∧
    (e.target 2).state = .erasing ∧ (e.target 2).busyTime < (e.target 2).profile.tEL.toNat * 200000 ∧
    after (.hold 1 []) x = after (.hold 1 []) (after (.targetResetClaim 2) x) := by decide +kernel

/-- R115: a claim on a target with a frame in flight stays, and is taken at the release of the frame. -/
theorem meets_ResetTargetAndItsClaim_in_flight :
    let s := { inFlight status .status none with resetClaims := [2] }
    2 ∈ s.resetClaims ∧ (s.bus 0).frame.map (·.target) = some 2 ∧ after (.targetResetClaim 2) s = s ∧
    ((after (.statusFrameEnd 0 0) s).target 2).state = .resetting := by decide +kernel

theorem meets_ResetBusAndBusModeAtTheirRelease :
    1 ≤ [(1 : Byte)].length ∧ 1 < (byteAt [2] 0).toNat ∧ (byteAt [1] 0).toNat = (1 : Bus).val ∧
    ready.admittingBus 1 = false ∧ (admitting (.insert read) ringed).admittingBus 0 = true ∧
    (admitting (.insert read) ringed).hears 0 ∧ 2 ≤ [(0 : Byte), 2].length ∧ 2 < (byteAt [0, 3] 1).toNat ∧
    (byteAt [0, 2] 1).toNat ≤ 2 ∧ ((inFlight read .read none).bus 0).mode ≠ .float ∧
    ((inFlight read .read none).bus 0).frame ≠ none ∧ (inFlight read .read none).hears 0 ∧ (ready.bus 0).frame = none ∧
    (∀ x, busOf x = 0 → (ready.target x).state = .absent ∨ (ready.target x).state = .idle) ∧ busOf 2 = 0 ∧
    (oneToSend.target 2).state = .resetting := by
  unfold State.hears; decide +kernel

theorem meets_BusResetClaimClearsTheBus :
    let claimed := (resetting (withItem read)).modBus 0
      fun e => { e with cancels := [{ port := 0, item := 0, behind := 0 }] }
    let later := (resetting (withItem read)).modBus 0
      fun e => { e with cancels := [{ port := 0, item := 0, behind := 1 }] }
    0 < (claimed.bus 0).resets ∧ claimed.admittingBus 0 = false ∧
    (claimed.bus 0).cancels.find? (fun x => decide (x.port = claimed.authority)) = some { port := 0, item := 0, behind := 0 } ∧
    0 < (later.bus 0).resets ∧ later.admittingBus 0 = false ∧
    (∀ c ∈ (later.bus 0).cancels, c.port = later.authority → c.behind ≠ 0) ∧
    (later.target 2).state ≠ .absent ∧ (later.target 3).state = .absent := by decide +kernel

/-- A target of 1 MiB with 256-byte pages and 64 KiB units, and one window of 1 MiB: each check at its bound (section 3.7). -/
theorem meets_AdmissionChecksInOrder :
    let tr := { TargetRecord.absent with profile := { flash with capacityCode := 0 }, state := .idle }
    let w := { window with size := 512, rights := 31 }
    let ask (kind : Kind) (address : BitVec 32) (length : BitVec 16) (urgent : Bool) : Request :=
      { readRequest with kind, address, length, urgent }
    refusalOf w tr (ask .read 0x041FFFFF 1 false) = some .outside ∧ refusalOf w tr (ask .read 0x041FFFFF 2 false) = some .span ∧
    refusalOf { w with rights := 14 } tr (ask .read 0x04000000 1 false) = some .rights ∧
    refusalOf { w with rights := 15 } tr (ask .read 0x04000000 1 true) = some .rights ∧
    refusalOf w { tr with state := .faulted } (ask .read 0x04000000 1 false) = some .targetDown ∧
    refusalOf w .absent (ask .erase 0x041FFFFF 16 false) = some .targetDown ∧
    refusalOf w tr (ask .read 0x040FFFFF 1 true) = none ∧ refusalOf w tr (ask .read 0x040FFFFF 2 false) = some .outside ∧
    refusalOf w tr (ask .program 0x040000F0 16 false) = none ∧ refusalOf w tr (ask .program 0x040000F0 17 false) = some .page ∧
    refusalOf w tr (ask .erase 0x04010000 15 false) = none ∧ refusalOf w tr (ask .erase 0x04018000 1 false) = some .align := by
  decide +kernel

theorem meets_AdmissionTakesTheNextHead :
    let waits := after (.apply 0 []) ringed
    waits.admission.current = none ∧ 0 < waits.policy.applies ∧ ringed.admission.current = none ∧
    ringed.stands = false ∧ (ringed.port 1).ring.head? = some readRequest ∧ (ringed.port 1).hold = false ∧
    readRequest.fence = false ∧ pick ringed.admission.blocked 1 = none ∧
    (∀ q, q ≠ 1 → (ringed.port q).ring.head? = none) ∧ (∀ p, (ready.port p).ring.head? = none) ∧
    (admitting (.insert read) ringed).admission.current ≠ none := by decide +kernel

theorem meets_AdmissionDecides :
    let full := ready.modBus 0 fun e => { e with list := List.replicate 24 read }
    let short := ready.modBus 0 fun e => { e with list := List.replicate 23 read }
    (∀ i : EntryIx, (pick State.reset.policy.active i).valid = false) ∧
    (pick ready.policy.active 2).covers 1 0x04000000 = true ∧ (pick ready.policy.active 2).covers 1 0x07FFFFFF = true ∧
    (pick ready.policy.active 2).covers 1 0x08000000 = false ∧
    (∀ j : EntryIx, j.val < 2 → (pick ready.policy.active j).valid = false) ∧
    (pick ready.policy.active 2).target.toNat % 8 = (2 : Target).val ∧ 24 ≤ (full.bus (busOf 2)).list.length ∧
    (short.bus (busOf 2)).list.length < 24 ∧ refusalOf window (ready.target 2) readRequest = none ∧
    refusalOf window .absent readRequest = some .targetDown := by decide +kernel

theorem meets_AdmissionsEndByInsertionOrRefusal :
    let s := admitting (.insert read) ringed
    let rv := s.modBus 0 fun e => { e with revocations := [{ indices := [2], generation := 1 }] }
    let room := s.modPort 1 fun u => { u with armed := true, credits := 14 }
    s.admission.current = some { port := 1, target := some 2, decision := .insert read } ∧
    (rv.bus (busOf read.target)).revocations = [{ indices := [2], generation := 1 }] ∧
    rv.admission.current = some { port := 1, target := some 2, decision := .insert read } ∧
    (s.bus (busOf read.target)).revocations = [] ∧ (room.port 1).armed = true ∧ (room.port 1).ring.tail.length ≤ 6 ∧
    (room.port 1).credits ≤ 14 ∧ (s.port 1).armed = false ∧ (refusing.admission.current.map (·.port)) = some 1 := by
  decide +kernel

theorem meets_WaitingEventsAreTakenAsTheirCommands :
    ready.admission.current = none ∧ ready.stands = false ∧ portOfFrame (.portReset 1 []) = some 1 ∧ 2 ∉ ready.resetClaims ∧
    ready.frameTo 2 = false ∧ (after (.summaryByte 1) ringed).admission.current = none ∧
    (after (.summaryByte 1) ringed).hears 1 ∧ 1 ≤ [(3 : Byte)].length ∧
    byteAt [3] 0 ∈ ((after (.summaryByte 1) ringed).port 1).tags ∧ ((after (.summaryByte 1) ringed).port 1).link.isOpen = true := by
  unfold State.hears; decide +kernel

/-- Limits run out and limits that no longer stand, a frame in flight to the target, and items inserted with and without an
earlier claim of their port. -/
theorem meets_WaitingEventsAreTakenAsTheirCommands_targets :
    let p := (busy { program with state := .ownerBusy } .programming).modTarget 2 fun r => { r with program := .running 600000 600000 }
    let l := (busy { erase with state := .ownerSuspended } .suspending).modTarget 2 fun r => { r with latency := .running 40000 40000 }
    let e := (busy { erase with state := .ownerBusy } .erasing).modTarget 2 fun r => { r with busyTime := 2000 * 200000 }
    let f := inFlight read .read none
    p.admission.current = none ∧ (p.target 2).state = .programming ∧ (p.target 2).program = .running 600000 600000 ∧
    l.admission.current = none ∧ (l.target 2).state = .suspending ∧ (l.target 2).latency = .running 40000 40000 ∧
    e.admission.current = none ∧ (e.target 2).state = .erasing ∧
    (e.target 2).profile.tEL.toNat * 200000 ≤ (e.target 2).busyTime ∧
    (ready.target 2).state = .idle ∧ f.admission.current = none ∧ f.frameTo 2 = true ∧ p.stands = false ∧ l.stands = false ∧
    e.stands = false ∧ f.stands = false := by decide +kernel

theorem meets_WaitingEventsAreTakenAsTheirCommands_cancels :
    let s := withItem read
    let c := cancelling ((withItem read).modBus 0 fun e => { e with list := [read, { read with uid := 1, tag := 5 }] })
    let opened := after (.summaryByte 1) ringed
    opened.hears 1 ∧ s.stands = false ∧ c.stands = false ∧ (opened.port 1).link.isOpen = true ∧ (opened.port 1).ring.find? (fun r => r.tag == 3) = some readRequest ∧
    (3 : Byte) ∈ (opened.port 1).tags ∧ s.admission.current = none ∧ (s.port 1).ring.find? (fun r => r.tag == 4) = none ∧
    s.itemOf 1 4 = some (0, read) ∧ (∀ x ∈ (s.bus 0).cancels, x.port ≠ 1) ∧ c.admission.current = none ∧
    (c.port 1).ring.find? (fun r => r.tag == 5) = none ∧
    (c.itemOf 1 5).map (fun x => (x.1, x.2.uid)) = some (0, 1) ∧
    (c.bus 0).cancels.find? (fun x => decide (x.port = 1)) = some { port := 1, item := 0, behind := 0 } := by
  unfold State.hears; decide +kernel

theorem meets_ItemsLeaveTheirList :
    let freed := (armed 6 15).port 1
    read.orphan = false ∧ ({ read with orphan := true } : Item).orphan = true ∧ freed.armed = true ∧ freed.ring.length ≤ 6 ∧
    freed.credits - 1 ≤ 14 ∧ ¬((armed 7 15).port 1).ring.length ≤ 6 := by decide +kernel

/-- A QUEUED item of the revoked index, a running erase with and without further units. -/
def revoking : State :=
  (withItem read).modBus 0 fun e => { e with
    list := [read, { erase with uid := 1, state := .ownerBusy }, { erase with uid := 2, unitsDone := 2, state := .active }]
    revocations := [{ indices := [2], generation := 1 }] }

theorem meets_RevocationClaimIsTakenWhole :
    ReferencesDistinct { revoking with nextUid := 3 } ∧
    (revoking.bus 0).revocations = [{ indices := [2], generation := 1 }] := by
  unfold ReferencesDistinct; decide +kernel

theorem meets_CancelClaimActsByState :
    let s := cancelling (withItem read)
    let gone := cancelling ready
    let orphaned := cancelling (withItem { read with orphan := true })
    let flying := cancelling (inFlight read .read none)
    (s.bus 0).cancels.find? (fun x => decide (x.port = 1)) = some { port := 1, item := 0, behind := 0 } ∧
    (s.bus 0).find 0 = some read ∧ read.orphan = false ∧ read.state = .queued ∧ (gone.bus 0).find 0 = none ∧
    (gone.bus 0).cancels.find? (fun x => decide (x.port = 1)) = some { port := 1, item := 0, behind := 0 } ∧
    (orphaned.bus 0).find 0 = some { read with orphan := true } ∧
    (flying.bus 0).find 0 = some { read with state := .active } ∧ (flying.bus 0).frame.map (·.item) = some (some 0) := by
  decide +kernel

/-- A READ frame in every phase, and one whose early end was requested. -/
theorem meets_CancelClaimActsByState_early_end :
    let r := timed { read with length := 64 }
    r.kind = .read ∧ r.earlyEnd = none ∧ r.dataLimit = 64 ∧
    [Phase.deselect, .setup, .byte, .pause, .hold].map (fun phase =>
      (({ r with progress := { phase, bytes := 15, spent := 5 } } : FrameRecord).endEarly.earlyEnd)) =
        [some 0, some 0, some 16, some 15, none] ∧ r.endEarly.earlyEnd ≠ none := by decide +kernel

/-- Two items of P1 on T2: an ERASE and a later urgent READ that may pass it, one unit above the unit under erase. -/
def passing : State :=
  (busy { erase with state := .ownerBusy } .erasing).modBus 0 fun e => { e with
    list := [{ erase with state := .ownerBusy }, { read with uid := 1, urgent := true, address := 0x20000 }] }

theorem meets_EligibilityAndSuspendConditions :
    let expired := passing.modTarget 2 fun r => { r with holdOff := .expired }
    (passing.bus 0).list = [{ erase with state := .ownerBusy }] ++ { read with uid := 1, urgent := true, address := 0x20000 } :: [] ∧
    (∀ x ∈ [{ erase with state := .ownerBusy }], x.uid ≠ 1) ∧
    (passing.bus 0).eligibleApart { read with uid := 1, urgent := true, address := 0x20000 } = true ∧
    expired.suspendCondition 0 2 = true ∧ passing.suspendCondition 0 2 = false ∧
    ({ read with address := 0x1FFFF, length := 1 } : Item).overlaps { first := 0x10000, size := .kib64 } = true ∧
    ({ read with address := 0xFFFF, length := 1 } : Item).overlaps { first := 0x10000, size := .kib64 } = false := by
  decide +kernel

theorem meets_ChoiceFollowsTheLevels_maintenance :
    let poll := (busy { program with state := .ownerBusy } .programming).modTarget 2 fun r => { r with poll := .expired }
    let resume := (busy { erase with state := .ownerSuspended } .suspended).modTarget 2 fun r => { r with held := .expired }
    let suspend := passing.modTarget 2 fun r => { r with holdOff := .expired }
    (oneToSend.bus 0).frame = none ∧ (oneToSend.bus 0).mode ≠ .float ∧ busOf 2 = 0 ∧ (oneToSend.target 2).state = .resetting ∧
    (oneToSend.target 2).pendingReset = some { toSend := 1, recovering := false } ∧
    (∀ y, y ≠ 2 → (oneToSend.target y).state ≠ .resetting) ∧
    (poll.bus 0).frame = none ∧ (poll.target 2).poll = .expired ∧ (poll.target 2).state = .programming ∧
    (∀ y, y ≠ 2 → (poll.target y).poll ≠ .expired) ∧ (∀ y, (poll.target y).state ≠ .resetting) ∧
    (resume.bus 0).frame = none ∧ resume.resumeCondition 0 2 = true ∧ (∀ y, (resume.target y).poll ≠ .expired) ∧
    (∀ y, y ≠ 2 → resume.resumeCondition 0 y = false) ∧ (suspend.bus 0).frame = none ∧ (suspend.bus 0).mode = .run ∧
    suspend.suspendCondition 0 2 = true ∧ (∀ y, suspend.resumeCondition 0 y = false) ∧
    (∀ y, y ≠ 2 → suspend.suspendCondition 0 y = false) ∧ oneToSend.stands = false ∧ poll.stands = false ∧
    resume.stands = false ∧ suspend.stands = false := by decide +kernel

theorem meets_ChoiceFollowsTheLevels_items :
    let urgent := withItem { read with urgent := true }
    let s := withItem read
    let float := ready.modBus 0 fun e => { e with mode := .float }
    let halt := ready.modBus 0 fun e => { e with mode := .halt }
    urgent.eligible 0 { read with urgent := true } = true ∧ s.eligible 0 read = true ∧ (s.bus 0).frame = none ∧
    (s.bus 0).mode = .run ∧ (s.bus 0).list = [] ++ read :: [] ∧
    (∀ y, (s.target y).poll ≠ .expired ∧ (s.target y).state ≠ .resetting ∧ s.resumeCondition 0 y = false ∧
      s.suspendCondition 0 y = false) ∧ (float.bus 0).mode = .float ∧ (float.bus 0).frame = none ∧
    (halt.bus 0).mode = .halt ∧ (∀ y, (halt.target y).poll ≠ .expired ∧ halt.resumeCondition 0 y = false) ∧
    (ready.bus 0).list = [] ∧ ((inFlight read .read none).bus 0).frame ≠ none ∧ urgent.stands = false ∧ s.stands = false ∧
    float.stands = false ∧ halt.stands = false := by decide +kernel

theorem meets_FramesCarryTheirBytes :
    flash.addressBytes 0x12345678 = [0x12, 0x34, 0x56, 0x78] ∧
    ({ flash with addressWidth := .three } : Profile).addressBytes 0x123456 = [0x12, 0x34, 0x56] ∧
    (oneToSend.target 2).pendingReset = some { toSend := 1, recovering := false } ∧
    (1 : Nat) ≠ (oneToSend.target 2).profile.resetLength.val := by decide +kernel

/-- Frames that begin in SETUP and in what is left of the interval, and frames in every phase. -/
theorem meets_FramesCarryTheirBytes_pins :
    let s := inFlight read .read none
    let at' (phase : Phase) (spent : Nat) := s.modBus 0 fun e => { e with
      frame := e.frame.map fun r => { r with progress := { phase, bytes := 1, spent } } }
    4 * (flash.divider.toNat + 1) = 8 ∧
    (({ ready.modBus 0 (fun e => { e with sinceRelease := 8 }) with nextUid := 1 }).itemFrame 0 read).progress.phase = .setup ∧
    ((ready.modBus 0 (fun e => { e with sinceRelease := 7 })).itemFrame 0 read).progress.phase = .deselect ∧
    (s.bus 0).mode ≠ .float ∧ ((at' .byte 31).bus 0).frame.map (fun r => (r.progress.phase, r.progress.spent)) = some (.byte, 31) ∧
    2 * (2 * 7 + 1) * 1 + 1 = 31 ∧ (at' .pause 0).pins 0 = .driven (some 2) false (some false) ∧
    (ready.bus 0).frame = none ∧ ((ready.modBus 0 fun e => { e with mode := .float }).pins 0) = .released := by decide +kernel

/-- With cs setup 0 a frame asserted at once stands in its first byte: SDO shows the first bits of the opcode 0x4C from half
clock 0 on, at 5 ns a half clock, and an early end finishes the byte (R83, R92). -/
theorem test_no_setup_begins_with_the_first_byte :
    let s := (ready.modTarget 2 fun r => { r with profile := { flash with csSetup := 0, divider := 0 } }).modBus 0 fun e =>
      { e with sinceRelease := 4 }
    let r := s.itemFrame 0 read
    let at' (n : Nat) := (s.modBus 0 fun e => (e.start r).elapse n).pins 0
    r.progress = { phase := .byte, bytes := 0, spent := 0 } ∧ r.endEarly.earlyEnd = some 1 ∧
    (List.range 16).map at' = (List.range 16).map (fun n => .driven (some 2) (n % 2 == 1) (some ((0x4C : Byte).getLsbD (7 - n / 2)))) ∧
    (({ r with progress := { phase := .deselect, bytes := 0, spent := 0 } } : FrameRecord).elapse r.phases 4).progress =
      r.progress := by decide +kernel

/-- A READ's data byte: SDI is sampled at the rising edges, and neither between them nor in the header. -/
theorem meets_FramesCarryTheirBytes_samples :
    let r := timed read
    let at' (bytes spent : Nat) : FrameRecord := { r with progress := { phase := .byte, bytes, spent } }
    r.direction = .input ∧ r.currentHeader.length = 6 ∧ r.framing.divider.toNat + 1 = 2 ∧
    (List.range 8).map (fun n => (at' 6 n).sampledBit) = [none, none, some 0, none, none, none, some 1, none] ∧
    (at' 6 30).sampledBit = some 7 ∧ (at' 6 32).sampledBit = none ∧ (at' 5 2).sampledBit = none := by decide +kernel

/-- A STATUS frame of section 5.5 at its assertion. -/
theorem meets_FramesLastAsLongAsTheirBytes :
    let r := { timed status with progress := { phase := .setup, bytes := 0, spent := 0 } }
    r.kind ≠ .read ∧ r.kind ≠ .programPair ∧ r.earlyEnd = none ∧ r.currentHeader ≠ [] ∧
    (r.elapse r.phases 73).progress = { phase := .byte, bytes := 1, spent := 31 } ∧
    (r.elapse r.phases 74).progress = { phase := .hold, bytes := 2, spent := 0 } := by decide +kernel

/-- The same frame with cs setup 0, asserted at once. -/
theorem meets_FramesLastAsLongAsTheirBytes_no_setup :
    let t := timed status
    let r := { t with framing := { t.framing with csSetup := 0 }, progress := { phase := .byte, bytes := 0, spent := 0 } }
    r.framing.csSetup = 0 ∧ r.earlyEnd = none ∧ r.currentHeader ≠ [] ∧
    (r.elapse r.phases 69).progress = { phase := .byte, bytes := 1, spent := 31 } ∧
    (r.elapse r.phases 70).progress = { phase := .hold, bytes := 2, spent := 0 } := by decide +kernel

/-- What follows a byte: a pause, the next byte, and the hold. -/
theorem meets_FramesLastAsLongAsTheirBytes_after_bytes :
    let r := timed { read with length := 4 }
    let g := { r with framing := { r.framing with gapMode := .everyByte, gapLength := 1 } }
    (g.afterBytes 1).phase = .pause ∧ (r.afterBytes 1).phase = .byte ∧ (g.afterBytes g.limit).phase = .hold := by decide +kernel

/-- The first frame of a pair, a READ and the second frame of a PROGRAM PAIR, at the assertion. -/
theorem meets_FramesLastAsLongAsTheirBytes_data :
    let start : Progress := { phase := .setup, bytes := 0, spent := 0 }
    let r := { timed { read with length := 1 } with progress := start }
    let p := { timed { program with length := 1 } with pair := some .second, progress := start }
    let w := { timed { program with length := 1 } with progress := start }
    (r.kind, p.kind, w.pair) = (.read, .programPair, some .first) ∧ r.earlyEnd = none ∧ r.currentHeader ≠ [] ∧
    p.earlyEnd = none ∧ p.currentHeader ≠ [] ∧ w.earlyEnd = none ∧ w.currentHeader ≠ [] ∧ w.currentHeader.length = 1 ∧
    (FrameRecord.tick^[2 * (2 + 16 * 7 + 3)] r).progress = { phase := .hold, bytes := 7, spent := 0 } ∧
    (FrameRecord.tick^[2 * (2 + 16 * 6 + 3)] p).progress = { phase := .hold, bytes := 6, spent := 0 } := by decide +kernel

theorem meets_DataBytesMove :
    let r := inFlight read .read none
    let p := inFlight { program with bytesMoved := 15 } .programPair (some .second)
    ((r.bus 0).serving.map fun x => (x.1.kind, x.1.dataLimit, x.2.bytesMoved)) = some (.read, 16, 0) ∧
    ((p.bus 0).serving.map fun x => (x.1.kind, x.1.pair, x.1.count, x.2.bytesMoved)) =
      some (.programPair, some .second, 16, 15) ∧ (pick (r.port 1).slots 1).data.wf = true := by decide +kernel

theorem meets_DataBytesMove_bit_orders :
    ((inFlight read .read none).bus 0).serving.map (fun x => x.1.framing.bitOrder) = some .msbFirst ∧
    ((lsbFirst (inFlight read .read none)).bus 0).serving.map (fun x => x.1.framing.bitOrder) = some .lsbFirst := by
  decide +kernel

theorem meets_FrameEndsFreeTheBusAndReadsComplete :
    let s := inFlight { read with bytesMoved := 16 } .read none
    let cut := (inFlight { read with bytesMoved := 3 } .read none).modBus 0 fun e => { e with
      frame := e.frame.map (fun r => { r with earlyEnd := some 9 }) }
    let overtaken := s.modBus 0 fun e => { e with frame := e.frame.map (fun r => { r with overtaken := true }) }
    ((s.bus 0).serving.map fun x => (x.1.kind, x.1.dataLimit, x.2.bytesMoved, x.1.overtaken, x.1.earlyEnd)) =
      some (.read, 16, 16, false, none) ∧
    ((cut.bus 0).serving.map fun x => (x.1.kind, x.1.dataLimit, x.2.bytesMoved, x.1.earlyEnd)) = some (.read, 3, 3, some 9) ∧
    ((overtaken.bus 0).serving.map fun x => x.1.overtaken) = some true ∧ 2 ∉ ready.resetClaims := by decide +kernel

theorem meets_PairEndsStartTheBusyPeriod :
    let first := inFlight program .programPair (some .first)
    let p := inFlight { program with bytesMoved := 16 } .programPair (some .second)
    let e := inFlight erase .erasePair (some .second)
    ((first.bus 0).frame.map (·.pair)) = some (some .first) ∧
    ((p.bus 0).serving.map fun x => (x.1.kind, x.1.pair, x.1.count, x.2.bytesMoved, x.1.overtaken)) =
      some (.programPair, some .second, 16, 16, false) ∧
    ((e.bus 0).serving.map fun x => (x.1.kind, x.1.pair, x.1.overtaken)) = some (.erasePair, some .second, false) := by
  decide +kernel

/-- Status bytes busy, clear, failed and suspended under the masks of section 2.7, and owners in every place. -/
theorem meets_StatusBytesAreHandedOnAndJudged :
    let p := maintaining .poll (busy { program with state := .ownerBusy } .programming)
    let item := inFlight status .status none
    (0x01 : Byte) &&& flash.busyMask ≠ 0 ∧ (0x20 : Byte) &&& flash.busyMask = 0 ∧ (0x20 : Byte) &&& flash.failMask ≠ 0 ∧
    (0x80 : Byte) &&& flash.suspendedMask ≠ 0 ∧ (p.target 2).state = .programming ∧
    (p.target 2).owner.bind (p.bus (busOf 2)).find = some { program with state := .ownerBusy } ∧
    ((p.bus 0).frame.map fun r => (r.kind, r.item, r.overtaken)) = some (.poll, none, false) ∧
    ((item.bus 0).frame.map fun r => (r.kind, r.item)) = some (.status, some 0) ∧
    (item.bus 0).find 0 = some { status with state := .active } := by decide +kernel

theorem meets_StatusBytesAreHandedOnAndJudged_bit_orders :
    let s := lsbFirst (inFlight status .status none)
    (s.bus 0).frame.map (fun r => (r.kind, r.framing.bitOrder)) = some (.status, .lsbFirst) ∧
    (s.bus 0).frame.bind (fun r => r.item.bind (s.bus 0).find) = some { status with state := .active } := by decide +kernel

theorem meets_SuspendAndResumeMoveTheTarget :
    let s := maintaining .suspend (busy { erase with state := .ownerBusy } .erasing)
    let r := maintaining .resume (busy { erase with state := .ownerSuspended } .suspended)
    ((s.bus 0).frame.map fun x => (x.kind, x.target, x.overtaken)) = some (.suspend, 2, false) ∧ busOf 2 = 0 ∧
    (s.target 2).state = .erasing ∧ ((r.bus 0).frame.map fun x => (x.kind, x.target, x.overtaken)) = some (.resume, 2, false) ∧
    (r.target 2).state = .suspended := by decide +kernel

theorem meets_ResetFramesAndRecovery :
    let s := maintaining .reset oneToSend
    let two := s.modTarget 2 fun r => { r with pendingReset := some { toSend := 2, recovering := false } }
    let last := s.modTarget 2 fun r => { r with recovery := .running 60000 100 }
    ((s.bus 0).frame.map fun x => (x.kind, x.target, x.overtaken)) = some (.reset, 2, false) ∧
    (s.target 2).state = .resetting ∧ (s.target 2).pendingReset = some { toSend := 1, recovering := false } ∧
    (two.target 2).pendingReset = some { toSend := 2, recovering := false } ∧
    (last.target 2).recovery = .running 60000 100 ∧ last.stands = false := by decide +kernel

/-- A suspend hold-off of 0, and the shortest poll interval of R26. -/
theorem meets_TimersExpire_start : Timer.start 0 = .expired ∧ 0 < 8 * 200 ∧ Timer.start (8 * 200) = .running 1600 0 := by decide

theorem meets_TimersExpire :
    let s := busy { program with state := .ownerBusy } .programming
    (s.target 2).poll = .running 10000 4000 ∧ (s.target 2).holdOff = .running 100000 10 ∧
    (s.target 2).held = .running 4000000 0 ∧ s.stands = false ∧ ((busy erase .erasing).target 2).busyTime + 1 ≤ 2000 * 200000 := by decide +kernel

/-- Timers that run, that have stopped and that have expired, and a busy time at, below and above its limit. -/
theorem meets_TimersExpire_elapse :
    let e := (busy { erase with state := .ownerBusy } .erasing).target 2
    e.poll = .running 10000 4000 ∧ e.recovery = .stopped ∧ { e with poll := .expired }.poll = .expired ∧
    e.state = .erasing ∧ e.busyTime + 1 ≤ e.profile.tEL.toNat * 200000 ∧
    { e with busyTime := 400000000 }.busyTime ≤ e.profile.tEL.toNat * 200000 ∧ e.profile.tEL.toNat * 200000 < 400000000 + 1 ∧
    (ready.target 2).state ≠ .erasing ∧ (ready.target 2).state ≠ .suspending := by decide +kernel

theorem meets_LimitExpiriesFaultTheTarget :
    let p := busy { program with state := .ownerBusy } .programming
    let e := busy { erase with state := .ownerBusy } .erasing
    let x := busy { erase with state := .ownerSuspended } .suspending
    ReferencesDistinct p ∧ p.admittingTarget 2 = false ∧ (p.target 2).state = .programming ∧
    (p.target 2).program = .running 600000 5000 ∧ ReferencesDistinct e ∧ e.admittingTarget 2 = false ∧
    (e.target 2).state = .erasing ∧ ReferencesDistinct x ∧ x.admittingTarget 2 = false ∧
    (x.target 2).state = .suspending ∧ (x.target 2).latency = .running 40000 1000 ∧
    p.stands = false ∧ e.stands = false ∧ x.stands = false ∧
    (pick p.policy.active 2).valid = true ∧ (pick p.policy.active 2).target.toNat = (2 : Target).val ∧
    (pick p.policy.active 2).ports.getLsbD (1 : Port).val = true := by
  unfold ReferencesDistinct; decide +kernel

theorem meets_CompletionRecordBytes :
    doneRead.outcome = .done ∧ doneRead.reason = .none ∧ failedProgram.kind = .program ∧ failedProgram.bytesMoved ≤ 256 ∧
    failedProgram.region = some 3 ∧ readRequest.recordCancelled.region = none ∧
    (erase.recordOwner .done .none).kind = .erase ∧ (erase.recordOwner .done .none).unitsDone ≤ 16 ∧
    (erase.recordOwner .done .none).suspendTotal ≤ 240 := by decide +kernel

/-- Every reason, among the outcomes that carry it. -/
theorem meets_CompletionRecordBytes_reasons :
    [Reason.none, .noRegion, .span, .rights, .outside, .page, .align, .targetDown, .revoked, .timeout, .devFail, .aborted,
      .cancelled].map (fun reason => byteAt ({ failedProgram with reason } : Completion).toBytes 2) =
      [0, 1, 2, 3, 4, 5, 6, 7, 8, 9, 10, 11, 12] := by decide +kernel

/-- A profile at the lower and one at the upper bound of every time parameter of R26. -/
theorem meets_FieldsOfProfilesAndEntries :
    ({ flash with tPI := 8, tPL := 1, tEL := 1, tSL := 1, tSX := 1, tRR := 1, nsus := 0, suspendedMask := 0 } : Profile).valid = true ∧
    ({ flash with tPI := 4095, tEL := 16383, tSL := 1023, nsus := 15 } : Profile).valid = true ∧
    ({ flash with tPI := 7 } : Profile).valid = false ∧ ({ flash with tPI := 4096 } : Profile).valid = false ∧
    ({ flash with tEL := 16384 } : Profile).valid = false ∧ ({ flash with tSL := 1024 } : Profile).valid = false := by
  decide +kernel

theorem meets_FieldsOfProfilesAndEntries_read :
    Profile.ofBytes flash.toBytes 0 = some flash ∧ Profile.ofBytes (2 :: flash.toBytes) 1 = some flash := by decide +kernel

theorem meets_FormatsReadBackWhole :
    flash.valid = true ∧ Request.shapeOk readRequest.kind readRequest.slot readRequest.length.toNat = true ∧
    Profile.ofBytes (2 :: flash.toBytes) 1 = some flash ∧ Request.ofBytes readBytes = some readRequest := by decide +kernel

/-- States with work in them that meet the conditions, and whose step answers a next state. -/
theorem meets_StepsKeepSlotsCanonical :
    SlotsCanonical { inFlight read .read none with pending := [.dataByteReceived 0 0x5A] } := by
  unfold SlotsCanonical; decide +kernel

theorem meets_StepsKeepCausesJudged : CausesJudged { collecting with pending := [.collect 2 .release (zeros 16)] } := by
  unfold CausesJudged; decide +kernel

theorem meets_StepsKeepTheListsInOrder :
    ReferencesDistinct { inFlight read .read none with pending := [.portReset 1 []] } ∧
    (∀ p, ((filled 8 8).port p).ring.length ≤ 8) ∧
    FloatIsQuiet { ready with pending := [.busMode 0 [0, 2]] } := by
  unfold ReferencesDistinct FloatIsQuiet; decide +kernel

/-- Bounds: an insertion to come, with room on its list. -/
theorem meets_StepsKeepTheListsInOrder_bounds : WithinBounds { admitting (.insert read) ringed with pending := [.insertion] } :=
  ⟨by decide +kernel, by decide +kernel, fun _ _ it h => by
    have hit : it = read := by
      simp only [admitting, Option.some.injEq, Admitting.mk.injEq, Decision.insert.injEq] at h
      exact h.2.2.symm
    subst hit; decide +kernel⟩

/-- The accounts of `State.reset`. -/
theorem resetInOrder : InOrder .reset := inOrder_reset (by simp) (by simp) (by simp) rfl

/-- A block that follows a command keeps its accounts in order. -/
theorem after_inOrder {c : Instr} {s : State} (h : InOrder s) : InOrder (after c s) := by
  unfold after
  split
  · exact exec_inOrder h (by assumption)
  · exact h
  · exact h

/-- Reset, then a slot loaded, and a request that commits it. -/
def underway : State := after (.submit 1 [3, 0x21, 0, 0, 0, 0, 0, 1]) (after (.load 1 [1, 4, 0xAB]) .reset)

/-- Accounts in order in states with a FREE, a HELD and a COMMITTED slot, and a command to come. -/
theorem meets_StepsKeepTheListsInOrder_accounts :
    InOrder { underway with pending := [.admission] } ∧ (pick (underway.port 1).slots 1).state = .committed ∧
    (underway.port 1).ring.length = 1 :=
  have h := after_inOrder (c := .submit 1 [3, 0x21, 0, 0, 0, 0, 0, 1]) (after_inOrder (c := .load 1 [1, 4, 0xAB]) resetInOrder)
  ⟨h.aside rfl rfl rfl rfl rfl, by decide +kernel, by decide +kernel⟩

theorem meets_StepsKeepSlotsCanonical_slots :
    let s := after (.load 1 [1, 4, 0xAB]) .reset
    InOrder s ∧ (pick (s.port 0).slots 0).state = .free ∧ (pick (s.port 1).slots 1).state = .held ∧
    (pick (s.port 1).slots 1).valid = 5 :=
  ⟨after_inOrder resetInOrder, by decide +kernel, by decide +kernel, by decide +kernel⟩

end Sys2Proof.Tests
end

section
namespace Sys2Proof.Machine

/-- Settles O4. Every unit of the reset state is the reset record of its kind, field by field. -/
theorem resetGivesTheDeviceResetValues : Obligations.ResetGivesTheDeviceResetValues := by
  unfold Obligations.ResetGivesTheDeviceResetValues
  refine ⟨fun p => ?_, fun i => ?_, rfl, rfl, fun x => ?_, by decide, fun b => ?_, rfl, rfl, fun p => ?_⟩
  · rw [reset_port]
    refine ⟨rfl, rfl, rfl, rfl, rfl, rfl, rfl, rfl, fun c => ?_, fun c => ?_, fun k a => ?_⟩
    · cases c <;> rfl
    · cases c <;> rfl
    · simp [PortUnit.reset, Slot.freed]
  · simp [State.reset, PolicyUnit.reset, RegionEntry.empty]
  · rw [reset_target]
    exact ⟨rfl, rfl, rfl, rfl, rfl, rfl, rfl, rfl, rfl, rfl, rfl, rfl, rfl, rfl⟩
  · rw [reset_bus]
    exact ⟨rfl, rfl, rfl, rfl, rfl⟩
  · simp [State.reset, AdmissionUnit.reset]

end Sys2Proof.Machine
end

section
namespace Sys2Proof.Machine

/-! ### Frames taken at their release -/

/-- Of the Port Units, a frame of port `p` closed with `result` changes its own alone, and of that only the last result and the
link (R178, R183). -/
structure FrameTaken (p : Port) (result : Result) (s t : State) : Prop where
  others : ∀ q, q ≠ p → t.port q = s.port q
  own : t.port p = { s.port p with last := (t.port p).last, link := (t.port p).link }
  last : (t.port p).last = result

/-- A frame of its full length whose effect leaves the Port Units alone: the effect, and the port's result and link (R181). -/
theorem plainFrame_taken {s u : State} {p : Port} {need : Nat} {bytes : List Byte} {act : State → State × Result}
    {result : Result} (hn : need ≤ bytes.length + 1) (ha : act (s.setPort p (s.port p).opened) = (u, result))
    (hu : u.ports = (s.setPort p (s.port p).opened).ports) :
    let t := s.plainFrame p need bytes act
    t = { u with ports := t.ports } ∧ FrameTaken p result s t := by
  have hport : ∀ q, u.port q = (s.setPort p (s.port p).opened).port q := fun q => by simp only [State.port, hu]
  have hown : u.port p = (s.port p).opened := by rw [hport, port_setPort_same]
  dsimp only
  rw [plainFrame_long s p need bytes act hn, ha, closeFrame_eq, hown, opened_rise]
  refine ⟨rfl, fun q hq => ?_, ?_, ?_⟩
  · rw [port_setPort_other _ _ _ _ hq, hport, port_setPort_other _ _ _ _ hq]
  · rw [port_setPort_same]
  · rw [port_setPort_same]

/-- The capture of a frame that answers holds the reply in the link of its port, and changes nothing else (R182). -/
theorem captureFrame_holds {s : State} {p : Port} {request : Nat} {bytes : List Byte} {grab : State → Captured}
    {now : Captured} (hi : (s.port p).link.ignoring = false) (hn : request ≤ bytes.length + 1)
    (hg : grab (s.setPort p (s.port p).opened) = now) :
    let t := s.captureFrame p request bytes grab
    OnlyPort p s t ∧ t.port p = { s.port p with link := (t.port p).link } ∧ (t.port p).link = (s.port p).linkHolding now := by
  dsimp only
  rw [captureFrame_eq s p request bytes grab hn, hg]
  refine ⟨onlyPort_setPort _ _ _, ?_, ?_⟩
  · rw [port_setPort_same, opened_eq]
  · rw [port_setPort_same]
    exact opened_linkHolding _ _ hi

/-- The release of a frame that answers and does nothing more: the result of the capture in force is recorded, and SDO has
carried its reply (R181, R182). -/
theorem replyFrame_shows {s : State} {p : Port} {request : Nat} {bytes : List Byte} {mine : Captured → Bool}
    {grab : State → Captured} {now shown : Captured} (hi : (s.port p).link.ignoring = false)
    (hn : request ≤ bytes.length + 1) (hg : grab (s.setPort p (s.port p).opened) = now)
    (hf : (s.port p).link.inForce mine now = shown) :
    let t := s.replyFrame p request request bytes mine grab (fun s c => (s, c.result))
    OnlyPort p s t ∧ t.port p = { s.port p with last := shown.result, link := (t.port p).link } ∧
      (t.port p).link = (s.port p).linkReleased ((s.port p).carries request shown.reply bytes.length) := by
  have hlen : ¬ bytes.length + 1 < request := by omega
  dsimp only
  rw [replyFrame_eq s p request request bytes mine grab _ hn]
  simp only [hg, hf, if_neg hlen, closeFrame_eq, port_setPort_same, setPort_setPort]
  refine ⟨onlyPort_setPort _ _ _, ?_, ?_⟩
  · rw [opened_rise]
  · exact rise_linkReleased _ _ _ _ _ hi

/-! ### READ ENTRY -/

theorem isReadEntry_iff (c : Captured) : c.isReadEntry = true ↔ ∃ result reply, c = .readEntry result reply := by
  cases c <;> simp [Captured.isReadEntry]

/-- The two bytes of a 16-bit field, the high one first. -/
theorem bytes16_toNat (w : BitVec 16) :
    ∃ high low : Byte, bytes16 w = [high, low] ∧ w.toNat = 256 * high.toNat + low.toNat := by
  refine ⟨_, _, rfl, ?_⟩
  have := w.isLt
  simp only [BitVec.extractLsb'_toNat, Nat.shiftRight_eq_div_pow]
  omega

section

variable {p : Port} {bytes : List Byte} {s : State}

/-- A selector or an index outside its range (R8). -/
theorem grabReadEntry_badField (h : 1 < (byteAt bytes 0).toNat ∨ 31 < (byteAt bytes 1).toNat) :
    grabReadEntry p bytes s = .readEntry .badField [] := by
  unfold grabReadEntry
  rcases h with h | h
  · split
    · omega
    · omega
    · rfl
  · rw [below_none h]
    split <;> first | rfl | contradiction

theorem grabReadEntry_active {i : EntryIx} (h0 : (byteAt bytes 0).toNat = 0) (hi : (byteAt bytes 1).toNat = i.val) :
    grabReadEntry p bytes s = .readEntry .ok ((pick s.policy.active i).toBytes ++ bytes16 s.policy.generation) := by
  unfold grabReadEntry
  rw [h0, below_some hi]; rfl

/-- The staged table is shown to the authority alone (R8). -/
theorem grabReadEntry_staged {i : EntryIx} (h1 : (byteAt bytes 0).toNat = 1) (hi : (byteAt bytes 1).toNat = i.val) :
    grabReadEntry p bytes s = if p = s.authority then
        .readEntry .ok ((pick s.policy.staged i).toBytes ++ bytes16 s.policy.generation)
      else .readEntry .notAuth [] := by
  unfold grabReadEntry
  rw [h1, below_some hi]; rfl

end

theorem exec_readEntry (p : Port) (m : Moment) (bytes : List Byte) (s : State) :
    exec (.readEntry p m bytes) s = .next (s.upstream p (.readEntry p m bytes) false (takeReadEntry p m bytes)) := rfl

/-- Settles O24. What is captured is `grabReadEntry`, which opening the frame does not change; the two moments are those of every
frame that answers (`captureFrame_holds`, `replyFrame_shows`). -/
theorem readEntryShowsAnEntry : Obligations.ReadEntryShowsAnEntry := by
  unfold Obligations.ReadEntryShowsAnEntry
  refine ⟨isReadEntry_iff, bytes16_toNat, fun p bytes s hears hlen => ?_⟩
  have hi := hears_ignoring hears
  refine ⟨grabReadEntry p bytes s, grabReadEntry_badField, fun h1 h31 hp => ?_, fun i hi0 h0 => grabReadEntry_active h0 hi0,
    fun i hi1 h1 hp => ?_, ?_, fun result reply hf => ?_⟩
  · rw [grabReadEntry_staged (i := ⟨(byteAt bytes 1).toNat, by omega⟩) h1 rfl, if_neg hp]
  · rw [grabReadEntry_staged h1 hi1, if_pos hp]
  · exact ⟨takeReadEntry p .capture bytes s, by rw [exec_readEntry, upstream_taken hears],
      captureFrame_holds hi (Nat.succ_le_succ hlen) rfl⟩
  · exact ⟨takeReadEntry p .release bytes s, by rw [exec_readEntry, upstream_taken hears],
      replyFrame_shows (shown := .readEntry result reply) hi (Nat.succ_le_succ hlen) rfl hf⟩

/-! ### STAGE ENTRY and COPY ACTIVE -/

theorem exec_stageEntry (p : Port) (bytes : List Byte) (s : State) :
    exec (.stageEntry p bytes) s = .next (s.upstream p (.stageEntry p bytes) false (takeStageEntry p bytes)) := rfl

theorem exec_copyActive (p : Port) (bytes : List Byte) (s : State) :
    exec (.copyActive p bytes) s = .next (s.upstream p (.copyActive p bytes) false (takeCopyActive p bytes)) := rfl

theorem exec_apply (p : Port) (bytes : List Byte) (s : State) :
    exec (.apply p bytes) s = .next (s.upstream p (.apply p bytes) false (takeApply p bytes)) := rfl

/-- A frame taken that also changes the Policy Unit, and nothing else. -/
structure PolicyFrameTaken (p : Port) (result : Result) (u : PolicyUnit) (s t : State) : Prop
    extends FrameTaken p result s t where
  rest : t = { s with ports := t.ports, policy := t.policy }
  policy : t.policy = u

/-- A frame without a reply whose effect is one on the Policy Unit. -/
theorem plainFrame_policy {s : State} {p : Port} {need : Nat} {bytes : List Byte} {act : State → State × Result}
    {result : Result} {f : PolicyUnit → PolicyUnit} (hn : need ≤ bytes.length + 1)
    (ha : act (s.setPort p (s.port p).opened) = ((s.setPort p (s.port p).opened).modPolicy f, result)) :
    PolicyFrameTaken p result (f s.policy) s (s.plainFrame p need bytes act) := by
  obtain ⟨rest, taken⟩ := plainFrame_taken hn ha rfl
  refine ⟨taken, ?_, ?_⟩
  · rw [rest]; rfl
  · rw [rest]; rfl

section

variable {p : Port} {bytes : List Byte} {s : State}

/-- A frame of the authority's, from another port (R6, R7, R10). -/
theorem takeStageEntry_notAuth (hn : 14 ≤ bytes.length + 1) (hp : p ≠ s.authority) :
    PolicyFrameTaken p .notAuth s.policy s (takeStageEntry p bytes s) :=
  plainFrame_policy (f := id) hn (if_pos hp)

theorem takeStageEntry_badField (hn : 14 ≤ bytes.length + 1) (hp : p = s.authority) (h : 31 < (byteAt bytes 0).toNat) :
    PolicyFrameTaken p .badField s.policy s (takeStageEntry p bytes s) :=
  plainFrame_policy (f := id) hn ((if_neg (not_not.2 hp)).trans (by rw [below_none h]; rfl))

theorem takeStageEntry_ok {i : EntryIx} (hn : 14 ≤ bytes.length + 1) (hp : p = s.authority)
    (h : (byteAt bytes 0).toNat = i.val) :
    PolicyFrameTaken p .ok (s.policy.stageEdit (.stage i (RegionEntry.ofBytes bytes 1))) s (takeStageEntry p bytes s) :=
  plainFrame_policy (f := (·.stageEdit (.stage i (RegionEntry.ofBytes bytes 1)))) hn
    ((if_neg (not_not.2 hp)).trans (by rw [below_some h]))

theorem takeCopyActive_notAuth (hp : p ≠ s.authority) :
    PolicyFrameTaken p .notAuth s.policy s (takeCopyActive p bytes s) :=
  plainFrame_policy (f := id) (Nat.le_add_left ..) (if_pos hp)

theorem takeCopyActive_ok (hp : p = s.authority) :
    PolicyFrameTaken p .ok (s.policy.stageEdit .copyActive) s (takeCopyActive p bytes s) :=
  plainFrame_policy (f := (·.stageEdit .copyActive)) (Nat.le_add_left ..) (if_neg (not_not.2 hp))

theorem takeStageEntry_taken (hn : 14 ≤ bytes.length + 1) :
    ∃ result u, PolicyFrameTaken p result u s (takeStageEntry p bytes s) := by
  by_cases hp : p = s.authority
  · by_cases h : 31 < (byteAt bytes 0).toNat
    · exact ⟨_, _, takeStageEntry_badField hn hp h⟩
    · exact ⟨_, _, takeStageEntry_ok (i := ⟨(byteAt bytes 0).toNat, by omega⟩) hn hp rfl⟩
  · exact ⟨_, _, takeStageEntry_notAuth hn hp⟩

theorem takeCopyActive_taken : ∃ result u, PolicyFrameTaken p result u s (takeCopyActive p bytes s) := by
  by_cases hp : p = s.authority
  · exact ⟨_, _, takeCopyActive_ok hp⟩
  · exact ⟨_, _, takeCopyActive_notAuth hp⟩

end

theorem stageEdit_now {u : PolicyUnit} (e : Edit) (h : u.applies = 0) : u.stageEdit e = u.edit e := if_pos h

theorem stageEdit_behind {u : PolicyUnit} (e : Edit) (h : u.applies ≠ 0) :
    u.stageEdit e = { u with edits := u.edits ++ [e] } := if_neg h

/-- Settles O25, by the outcome of each frame. -/
theorem stageEntryAndCopyActiveEditTheStagedTable : Obligations.StageEntryAndCopyActiveEditTheStagedTable := by
  unfold Obligations.StageEntryAndCopyActiveEditTheStagedTable
  refine ⟨fun p bytes s hears hlen => ?_, fun p bytes s hears => ?_⟩
  · have hn : 14 ≤ bytes.length + 1 := Nat.succ_le_succ hlen
    obtain ⟨_, _, taken⟩ := takeStageEntry_taken (p := p) (s := s) hn
    refine ⟨_, by rw [exec_stageEntry, upstream_taken hears], taken.rest, taken.others, taken.own, fun hp => ?_,
      fun hp h31 => ?_, fun hp i hi => ?_⟩
    · have k := takeStageEntry_notAuth hn hp
      exact ⟨k.policy, k.last⟩
    · have k := takeStageEntry_badField hn hp h31
      exact ⟨k.policy, k.last⟩
    · have k := takeStageEntry_ok hn hp hi
      exact ⟨k.last, fun h0 => k.policy.trans (stageEdit_now _ h0), fun h0 => k.policy.trans (stageEdit_behind _ h0)⟩
  · obtain ⟨_, _, taken⟩ := takeCopyActive_taken (p := p) (bytes := bytes) (s := s)
    refine ⟨_, by rw [exec_copyActive, upstream_taken hears], taken.rest, taken.others, taken.own, fun hp => ?_,
      fun hp => ?_⟩
    · have k := takeCopyActive_notAuth (bytes := bytes) hp
      exact ⟨k.policy, k.last⟩
    · have k := takeCopyActive_ok (bytes := bytes) hp
      exact ⟨k.last, fun h0 => k.policy.trans (stageEdit_now _ h0), fun h0 => k.policy.trans (stageEdit_behind _ h0)⟩

/-! ### APPLY -/

/-- The first entry of a table that passes a test. -/
theorem find_entry_some {f : EntryIx → Bool} {i : EntryIx} (hi : f i = true) (h : ∀ j, j.val < i.val → f j = false) :
    allEntries.find? f = some i :=
  Fin.find?_eq_find?_finRange.symm.trans (Fin.find?_eq_some_iff.2 ⟨hi, fun j hj => h j hj⟩)

theorem find_entry_none {f : EntryIx → Bool} (h : ∀ i, f i = false) : allEntries.find? f = none :=
  Fin.find?_eq_find?_finRange.symm.trans (Fin.find?_eq_none_iff.2 h)

/-- The five requirements of R10, in numbers. -/
def RegionEntry.Meets (e : RegionEntry) : Prop :=
  e.ports ≠ 0 ∧ 1 ≤ e.size.toNat ∧ e.size.toNat ≤ 65536 ∧ e.base.toNat + e.size.toNat ≤ 1048576 ∧
    e.offset.toNat + e.size.toNat ≤ 65536 ∧ e.target.toNat ≤ 7

theorem passes_iff (e : RegionEntry) : e.passes = true ↔ ¬(e.valid = true ∧ ¬e.Meets) := by
  unfold RegionEntry.passes RegionEntry.Meets
  cases e.valid <;> simp [and_assoc]

theorem failingIndex_some {u : PolicyUnit} {i : EntryIx} (hi : (pick u.staged i).passes = false)
    (h : ∀ j, j.val < i.val → (pick u.staged j).passes = true) : u.failingIndex = some i :=
  find_entry_some (by simp [hi]) fun j hj => by simp [h j hj]

theorem failingIndex_none {u : PolicyUnit} (h : ∀ i, (pick u.staged i).passes = true) : u.failingIndex = none :=
  find_entry_none fun i => by simp [h i]

section

variable {p : Port} {bytes : List Byte} {s : State}

theorem takeApply_notAuth (hp : p ≠ s.authority) : PolicyFrameTaken p .notAuth s.policy s (takeApply p bytes s) :=
  plainFrame_policy (f := id) (Nat.le_add_left ..) (if_pos hp)

/-- An APPLY of the authority's that fails (R11). -/
theorem takeApply_fails {i : EntryIx} (hp : p = s.authority) (hi : s.policy.failingIndex = some i) :
    PolicyFrameTaken p .applyFail { s.policy with failure := some i } s (takeApply p bytes s) :=
  plainFrame_policy (f := fun u => { u with failure := some i }) (Nat.le_add_left ..)
    ((if_neg (not_not.2 hp)).trans (by rw [setPort_policy, hi]))

/-- An APPLY of the authority's that succeeds (R12). -/
theorem takeApply_succeeds (hp : p = s.authority) (hi : s.policy.failingIndex = none) :
    PolicyFrameTaken p .ok { s.policy with applies := s.policy.applies + 1 } s (takeApply p bytes s) :=
  plainFrame_policy (f := fun u => { u with applies := u.applies + 1 }) (Nat.le_add_left ..)
    ((if_neg (not_not.2 hp)).trans (by rw [setPort_policy, hi]))

theorem takeApply_taken : ∃ result u, PolicyFrameTaken p result u s (takeApply p bytes s) := by
  by_cases hp : p = s.authority
  · cases hi : s.policy.failingIndex with
    | some i => exact ⟨_, _, takeApply_fails hp hi⟩
    | none => exact ⟨_, _, takeApply_succeeds hp hi⟩
  · exact ⟨_, _, takeApply_notAuth hp⟩

end

/-- Settles O26: the entry that fails is the one that `failingIndex` finds. -/
theorem applyChecksTheStagedTable : Obligations.ApplyChecksTheStagedTable := by
  unfold Obligations.ApplyChecksTheStagedTable
  intro p bytes s hears fails
  have passes : ∀ i, (pick s.policy.staged i).passes = true ↔ ¬fails i := fun i => passes_iff _
  obtain ⟨_, _, taken⟩ := takeApply_taken (p := p) (bytes := bytes) (s := s)
  refine ⟨_, by rw [exec_apply, upstream_taken hears], taken.rest, taken.others, taken.own, fun hp => ?_,
    fun hp i hi low => ?_, fun hp none => ?_⟩
  · have k := takeApply_notAuth (bytes := bytes) hp
    exact ⟨k.policy, k.last⟩
  · have first : s.policy.failingIndex = some i :=
      failingIndex_some (Bool.eq_false_iff.2 fun h => (passes i).1 h hi) fun j hj => (passes j).2 (low j hj)
    have k := takeApply_fails (bytes := bytes) hp first
    exact ⟨k.policy, k.last⟩
  · have k := takeApply_succeeds (bytes := bytes) hp (failingIndex_none fun i => (passes i).2 (none i))
    exact ⟨k.policy, k.last⟩

end Sys2Proof.Machine
end

section
namespace Sys2Proof.Machine

/-! ### Frames at their ports, and what stands ready -/

/-- An upstream frame reaches its port by `State.upstream`, held back by what `State.heldBack` names (R33, R41, R165). -/
theorem exec_frame {c : Instr} {p : Port} {s : State} (h : portOfFrame c = some p) (hd : s.deaf p = false) :
    exec c s = .next (s.upstream p c (s.heldBack c) (takeFrame c)) := by
  cases c
  case summaryByte q =>
    cases h
    have hl : s.resetLow = false := (Bool.or_eq_false_iff.1 hd).1
    change execSummaryByte p s = _
    simp only [execSummaryByte, State.upstream, hd, hl, State.heldBack]
    rfl
  all_goals cases h
  all_goals rfl

/-- What an event leaves as it was decides whether an admission holds a frame back (R33, R41, R165). -/
theorem Beside.heldBack {s t : State} (h : Beside s t) (c : Instr) : t.heldBack c = s.heldBack c := by
  unfold State.heldBack
  split
  · simp only [State.admittingPort, h.current]
  · simp only [State.setupWaits, h.authority, h.admittingTarget]
  · simp only [State.removeWaits, h.authority, h.admittingTarget]
  · rfl

/-- What everything that stands ready, once taken, leaves of all but the claims. -/
theorem settle_beside (s : State) : Beside { s with resetClaims := s.settle.resetClaims } s.settle := (settle_rest s).1

theorem settle_stands (s : State) : s.settle.stands = false := (settle_rest s).2

/-- A frame that its port hears finds taken all that stands ready (R4, R115). -/
theorem exec_frame_settle {c : Instr} {p : Port} {s : State} (h : portOfFrame c = some p) (hd : s.deaf p = false)
    (hf : s.frameWaits p = false) : exec c s = exec c s.settle := by
  have hd' : s.settle.deaf p = false := ((settle_beside s).deaf p).trans hd
  have hb : s.settle.heldBack c = s.heldBack c := (settle_beside s).heldBack c
  rw [exec_frame h hd, exec_frame h hd', hb, upstream_settle hd hf]

/-- A frame that its port hears finds taken an event that leads to the same. -/
theorem exec_frame_congr {c : Instr} {p : Port} {s u : State} (h : portOfFrame c = some p) (hd : s.deaf p = false)
    (hf : s.frameWaits p = false) (hu : Beside s u) (hs : u.settle = s.settle) : exec c s = exec c u := by
  rw [exec_frame_settle h hd hf, exec_frame_settle h ((hu.deaf p).trans hd) ((hu.frameWaits p).trans hf), hs]

/-! ### APPLY_SUCCEEDS -/

theorem applyStands_iff (s : State) : s.applyStands = true ↔ s.admission.current = none ∧ 0 < s.policy.applies := by
  simp [State.applyStands, Nat.pos_iff_ne_zero]

theorem exec_applySucceeds (s : State) : exec .applySucceeds s =
    .next (if s.policy.applies = 0 || s.admission.current.isSome then s else s.applyTaken) := rfl

/-- An APPLY that an admission makes wait (R4). -/
theorem exec_applySucceeds_waits {s : State} (h : s.admission.current ≠ none) : exec .applySucceeds s = .next s := by
  rw [exec_applySucceeds, if_pos]
  simp [Option.isSome_iff_ne_none, h]

theorem exec_applySucceeds_taken {s : State} (ha : 0 < s.policy.applies) (hc : s.admission.current = none) :
    exec .applySucceeds s = .next s.applyTaken := by
  rw [exec_applySucceeds, if_neg]
  simp only [hc, Option.isSome_none, Bool.or_false, decide_eq_true_eq]
  omega

/-- The last APPLY that waits is followed by the edits behind it, an earlier one by none (R4). -/
theorem applied_last {u : PolicyUnit} (h : u.applies = 1) :
    u.applied.edits = [] ∧ u.applied.staged = (u.edits.foldl PolicyUnit.edit { u with active := u.staged }).staged := by
  unfold PolicyUnit.applied
  simp only [h, Nat.sub_self, if_true, true_and]
  exact (foldl_edit u.edits _).2.2.2.2 _ rfl rfl

theorem applied_plain {u : PolicyUnit} (h : 1 < u.applies ∨ u.edits = []) :
    u.applied.staged = u.staged ∧ u.applied.edits = u.edits := by
  unfold PolicyUnit.applied
  dsimp only
  split
  · rcases h with h | h
    · omega
    · rw [h]; exact ⟨rfl, rfl⟩
  · exact ⟨rfl, rfl⟩

/-- The Bus Engines after an APPLY: each has the revocation claim, where some index is revoked (R14). -/
theorem applyTaken_buses_none {s : State} (h : s.policy.revokedIndices = []) : s.applyTaken.buses = s.buses := by
  rw [applyTaken_eq, if_pos (by simp [h]), appliedTable_rest]
  rfl

theorem applyTaken_bus_claim {s : State} (h : s.policy.revokedIndices ≠ []) (b : Bus) :
    s.applyTaken.bus b = { s.bus b with revocations := (s.bus b).revocations ++ [s.revocationOf] } := by
  have hb : ∀ c, s.appliedTable.bus c = s.bus c := fun c => by rw [appliedTable_rest]; rfl
  rw [applyTaken_eq, if_neg (by simpa using h), bus_modBus, bus_modBus, hb]
  rcases bus_cases b with rfl | rfl <;> rfl

/-- Settles O27. One APPLY is taken by `State.applyTaken`; a frame finds it taken since all that stands ready is. -/
theorem applySucceedsPutsTheTableInForce : Obligations.ApplySucceedsPutsTheTableInForce := by
  unfold Obligations.ApplySucceedsPutsTheTableInForce
  refine ⟨fun u => ⟨rfl, fun _ _ => rfl⟩, applyStands_iff, fun s _ hc => exec_applySucceeds_waits hc,
    fun c p s hp hd hf ha hc => ⟨_, exec_applySucceeds_taken ha hc, exec_frame_congr hp hd hf (beside_applyTaken s)
      (settle_applyTaken ((applyStands_iff s).2 ⟨hc, ha⟩))⟩, fun s ha hc => ?_⟩
  intro old new changed names revoked
  have hchanged : ∀ i, (old i).changed (new i) = true ↔ changed i := fun i => changed_iff _ _
  have hrevoked : ∀ i, i ∈ s.policy.revokedIndices ↔ revoked i := fun i => by rw [revokedIndices_iff, hchanged]
  have hports : ∀ p : Port, s.policy.policyPorts.getLsbD p.val = true ↔ ∃ i, changed i ∧ (names (old i) p ∨ names (new i) p) :=
    fun p => by
      simp only [policyPorts_iff, namedPorts_iff]
      exact exists_congr fun i => and_congr_left' (hchanged i)
  obtain ⟨active, generation, failure, applies⟩ := applied_fields s.policy
  refine ⟨_, exec_applySucceeds_taken ha hc, by rw [applyTaken_rest], ?_⟩
  rw [applyTaken_policy]
  refine ⟨active, generation, failure, applies, applied_plain, applied_last, (applyTaken_current s).trans hc,
    by rw [applyTaken_rest], fun p => by rw [applyTaken_rest]; exact pick_replicate _ _, fun p h => ?_, fun p h => ?_,
    fun h => ?_, fun h => ⟨s.revocationOf, rfl, hrevoked, fun b => ?_⟩⟩
  · rw [applyTaken_port, if_pos ((hports p).2 h)]
  · rw [applyTaken_port, if_neg]
    rw [hports]
    rintro ⟨i, hi, hn | hn⟩
    · exact (h i hi).1 hn
    · exact (h i hi).2 hn
  · exact applyTaken_buses_none (List.eq_nil_iff_forall_not_mem.2 fun i hi => h i ((hrevoked i).1 hi))
  · obtain ⟨i, hi⟩ := h
    exact applyTaken_bus_claim (List.ne_nil_of_mem ((hrevoked i).2 hi)) b

end Sys2Proof.Machine
end

section
namespace Sys2Proof.Machine

/-! ### ADMISSION -/

theorem exec_admission_busy {s : State} (h : s.admission.current ≠ none) : exec .admission s = .next s := by
  obtain ⟨a, ha⟩ := Option.ne_none_iff_exists'.1 h
  change execAdmission s = _
  simp only [execAdmission, ha]

/-- An idle unit begins by taking all that stands ready (R4, R115). -/
theorem exec_admission_settle {s : State} (h : s.admission.current = none) : exec .admission s = exec .admission s.settle := by
  have hc : s.settle.admission.current = none := (settle_beside s).current.trans h
  change execAdmission s = execAdmission s.settle
  simp only [execAdmission, h, hc, settle_settle]

theorem exec_admission_congr {s u : State} (h : s.admission.current = none) (hu : Beside s u) (hs : u.settle = s.settle) :
    exec .admission s = exec .admission u := by
  rw [exec_admission_settle h, exec_admission_settle (hu.current.trans h), hs]

theorem exec_admission_none {s : State} (h : s.admission.current = none) (hs : s.stands = false) (hn : s.nextHead = none) :
    exec .admission s = .next s := by
  change execAdmission s = _
  simp only [execAdmission, h, settle_none hs, hn]

theorem exec_admission_head {s : State} {p : Port} {r : Request} (h : s.admission.current = none) (hs : s.stands = false)
    (hn : s.nextHead = some (p, r)) : exec .admission s = .next (s.admitHead p r) := by
  change execAdmission s = _
  simp only [execAdmission, h, settle_none hs, hn]

/-- A head whose fence is set is blocked by the items of its port that are no orphans (R44). -/
theorem fenceBlocks_iff (s : State) (p : Port) (r : Request) : s.fenceBlocks p r = false ↔
    (r.fence = true → ∀ b, ∀ it ∈ (s.bus b).list, it.port = p → it.orphan = true) := by
  have count : ∀ b, (s.bus b).countOf p = 0 ↔ ∀ it ∈ (s.bus b).list, it.port = p → it.orphan = true := fun b => by
    simp [BusEngine.countOf]
  have both : (∀ b, (s.bus b).countOf p = 0) ↔ (s.bus 0).countOf p + (s.bus 1).countOf p = 0 := by
    rw [Fin.forall_fin_two, Nat.add_eq_zero_iff]
  unfold State.fenceBlocks
  simp only [← count, both, Bool.and_eq_false_imp, decide_eq_false_iff_not, Nat.pos_iff_ne_zero, not_not]

/-- The head that a port offers (R43). -/
theorem headToServe_iff (s : State) (p : Port) (r : Request) : s.headToServe p = some r ↔
    (s.port p).ring.head? = some r ∧ (s.port p).hold = false ∧
      (r.fence = true → ∀ b, ∀ it ∈ (s.bus b).list, it.port = p → it.orphan = true) ∧ pick s.admission.blocked p = none := by
  rw [← fenceBlocks_iff]
  unfold State.headToServe
  cases (s.port p).ring with
  | nil => simp
  | cons x rest =>
    simp only [List.head?_cons, Option.some.injEq, Option.ite_none_left_eq_some, Bool.or_eq_true, not_or, Bool.not_eq_true,
      Option.isSome_eq_false_iff, Option.isNone_iff_eq_none]
    constructor
    · rintro ⟨⟨⟨h1, h2⟩, h3⟩, rfl⟩
      exact ⟨rfl, h1, h2, h3⟩
    · rintro ⟨rfl, h1, h2, h3⟩
      exact ⟨⟨⟨h1, h2⟩, h3⟩, rfl⟩

theorem nextHead_none {s : State} (h : ∀ p, s.headToServe p = none) : s.nextHead = none := by
  simp [State.nextHead, h]

/-- The first port after the pointer, in cyclic order, that offers a head (R43). -/
theorem nextHead_some {s : State} {p : Port} {r : Request} (h : s.headToServe p = some r)
    (hl : ∀ q, (s.headToServe q).isSome = true → (p - s.admission.pointer - 1).val ≤ (q - s.admission.pointer - 1).val) :
    s.nextHead = some (p, r) := by
  have ring : ∀ c : Port, [c + 1, c + 2, c + 3, c] = [c + 1, c + 1 + 1, c + 1 + 2, c + 1 + 3] := by decide
  unfold State.nextHead
  dsimp only
  rw [ring]
  refine findSome_cyclic (k := p) (by rw [h]; rfl) fun q hq => ?_
  rw [← sub_sub, ← sub_sub]
  exact hl q (by simpa using hq)

/-- Settles O35: the heads that may be taken are those that `State.headToServe` offers. -/
theorem admissionTakesTheNextHead : Obligations.AdmissionTakesTheNextHead := by
  unfold Obligations.AdmissionTakesTheNextHead
  refine ⟨fun s => exec_admission_busy, fun s hc ha => ?_, fun s hc => ⟨exec_admission_settle hc, settle_stands s⟩,
    fun s hc hs => ?_⟩
  · exact ⟨_, exec_applySucceeds_taken ha hc, exec_admission_congr hc (beside_applyTaken s)
      (settle_applyTaken ((applyStands_iff s).2 ⟨hc, ha⟩))⟩
  · intro heads
    have offers : ∀ p r, s.headToServe p = some r ↔ heads p r := headToServe_iff s
    refine ⟨fun none => ?_, fun p r hp first => ?_⟩
    · exact exec_admission_none hc hs (nextHead_none fun p => Option.eq_none_iff_forall_ne_some.2 fun r h =>
        none p r ((offers p r).1 h))
    · refine exec_admission_head hc hs (nextHead_some ((offers p r).2 hp) fun q hq => ?_)
      obtain ⟨x, hx⟩ := Option.isSome_iff_exists.1 hq
      exact first q x ((offers q x).1 hx)

/-! ### The head taken -/

/-- An entry covers a port and an address, in numbers (R3). -/
theorem covers_iff (e : RegionEntry) (p : Port) (address : Nat) : e.covers p address = true ↔
    e.valid = true ∧ e.ports.getLsbD p.val = true ∧ e.base.toNat * 4096 ≤ address ∧
      address < e.base.toNat * 4096 + e.size.toNat * 4096 := by
  simp [RegionEntry.covers, Config.policyPage, and_assoc]

theorem lookup_none {u : PolicyUnit} {p : Port} {address : Nat} (h : ∀ i, (pick u.active i).covers p address = false) :
    u.lookup p address = none := find_entry_none h

/-- The lowest entry that covers the address governs (R3). -/
theorem lookup_some {u : PolicyUnit} {p : Port} {address : Nat} {i : EntryIx} (hi : (pick u.active i).covers p address = true)
    (h : ∀ j, j.val < i.val → (pick u.active j).covers p address = false) : u.lookup p address = some i := find_entry_some hi h

/-- The unit admitting the head of a port, with what its admission has come to (R4, R41). -/
def State.admitting (s : State) (p : Port) (x : Option Target) (d : Decision) : State :=
  { s with admission := { s.admission with current := some { port := p, target := x, decision := d } } }

section

variable {s : State} {p : Port} {r : Request}

theorem admitHead_noRegion (h : s.policy.lookup p r.address.toNat = none) :
    s.admitHead p r = s.admitting p none (.refuse r.slot (r.refusal .noRegion none none)) := by
  simp only [State.admitHead, h]
  rfl

variable {i : EntryIx} {x : Target}

theorem admitHead_full (h : s.policy.lookup p r.address.toNat = some i) (hx : (pick s.policy.active i).targetIx = x)
    (hl : 24 ≤ (s.bus (busOf x)).list.length) : s.admitHead p r =
      { s with admission := { s.admission with blocked := put s.admission.blocked p (some (busOf x)) } } := by
  simp only [State.admitHead, h, hx]
  exact if_pos hl

theorem admitHead_refused {reason : Reason} (h : s.policy.lookup p r.address.toNat = some i)
    (hx : (pick s.policy.active i).targetIx = x) (hl : (s.bus (busOf x)).list.length < 24)
    (hr : refusalOf (pick s.policy.active i) (s.target x) r = some reason) :
    s.admitHead p r = s.admitting p (some x) (.refuse r.slot (r.refusal reason (some i) (some x))) := by
  simp only [State.admitHead, h, hx, hr]
  exact if_neg (not_le.2 hl)

theorem admitHead_inserts (h : s.policy.lookup p r.address.toNat = some i) (hx : (pick s.policy.active i).targetIx = x)
    (hl : (s.bus (busOf x)).list.length < 24) (hr : refusalOf (pick s.policy.active i) (s.target x) r = none) :
    s.admitHead p r =
      s.admitting p (some x) (.insert (r.item p x (pick s.policy.active i) i s.policy.generation)) := by
  simp only [State.admitHead, h, hx, hr]
  exact if_neg (not_le.2 hl)

end

/-- The length of a READ or PROGRAM item, and the units of an ERASE (R56). -/
theorem item_length {r : Request} {p : Port} {x : Target} {e : RegionEntry} {i : EntryIx} {g : BitVec 16}
    (h : r.kind = .read ∨ r.kind = .program) : (r.item p x e i g).length = r.length.toNat := by
  rcases h with h | h <;> simp [Request.item, h]

theorem item_units {r : Request} {p : Port} {x : Target} {e : RegionEntry} {i : EntryIx} {g : BitVec 16}
    (h : r.kind = .erase) : (r.item p x e i g).unitsRequested = r.length.toNat := by
  simp [Request.item, h]

/-- Settles O36, by the branches of `State.admitHead`. -/
theorem admissionDecides : Obligations.AdmissionDecides := by
  unfold Obligations.AdmissionDecides
  intro p r s matches' admitting
  have covers : ∀ i, (pick s.policy.active i).covers p r.address.toNat = true ↔ matches' i := fun i => covers_iff _ _ _
  have misses : ∀ i, ¬matches' i → (pick s.policy.active i).covers p r.address.toNat = false := fun i h =>
    Bool.eq_false_iff.2 (mt (covers i).1 h)
  refine ⟨fun none => admitHead_noRegion (lookup_none fun i => misses i (none i)), fun i x hi low hx => ?_⟩
  have found := lookup_some ((covers i).2 hi) fun j hj => misses j (low j hj)
  have target : (pick s.policy.active i).targetIx = x := Fin.ext hx
  refine ⟨admitHead_full found target, fun room => ⟨fun reason => admitHead_refused found target room, fun passed => ?_⟩⟩
  exact ⟨_, admitHead_inserts found target room passed, rfl, rfl, rfl, rfl, rfl, rfl, item_length, item_units, rfl, rfl, rfl,
    rfl, rfl, rfl, rfl, rfl, rfl, rfl, rfl⟩

end Sys2Proof.Machine
end

section
namespace Sys2Proof.Machine

/-! ### The end of an admission -/

/-- An admission's end: the unit idle, the APPLYs that waited taken, then what else waited, in its order (R4, R52). -/
theorem endAdmission_eq (s : State) : s.endAdmission = s.waiting.foldl (fun u w => takeWaiting w u)
    (State.takeApplies s.policy.applies
      { s with admission := { s.admission with current := none }, waiting := [] }) := by
  unfold State.endAdmission
  dsimp only
  congr 1
  unfold State.settleApplies
  split
  · rfl
  · next h =>
    have h0 : s.policy.applies = 0 := by simpa [State.applyStands] using h
    rw [h0]
    rfl

/-- The record of a completion joins the queue, its slot returns, and the causes are judged (R145, R158, R171, R172). -/
theorem post_eq (u : PortUnit) (slot : Option SlotIx) (r : Completion) : u.post slot r = { u with
    queue := u.queue ++ [r],
    slots := match slot with
      | some k => put u.slots k ((pick u.slots k).giveBack r.kind r.outcome r.bytesMoved)
      | none => u.slots
    pending := { u.pending with
      error := (u.queue ++ [r]).any (fun x => decide (x.outcome ≠ .done)),
      complete := decide (u.watermark ≤ u.queue.length + 1) } } := by
  have count : (u.queue ++ [r]).length = u.queue.length + 1 := List.length_append
  cases slot <;>
    simp only [PortUnit.post, PortUnit.modSlot?, PortUnit.modSlot, PortUnit.judge, PortUnit.errorHolds,
      PortUnit.completeHolds, count]

/-- The head leaves its ring: the pointer moves to its port, a blocked finding of the port ends, and SPACE is judged (R42, R56,
R59, R173). -/
theorem headServed_eq (s : State) (p : Port) : s.headServed p =
    State.setPort { s with admission := { s.admission with pointer := p, blocked := put s.admission.blocked p none } } p
      (PortUnit.judgeSpace { s.port p with ring := (s.port p).ring.tail }) := rfl

theorem exec_insertion {s : State} {p : Port} {tg : Option Target} {it : Item}
    (h : s.admission.current = some { port := p, target := tg, decision := .insert it }) : exec .insertion s =
      .next (((s.takeRevocations (busOf it.target)).append it).headServed p).endAdmission := by
  change execInsertion s = _
  simp only [execInsertion, h]

theorem exec_completionPost {s : State} {p : Port} {tg : Option Target} {slot : Option SlotIx} {r : Completion}
    (h : s.admission.current = some { port := p, target := tg, decision := .refuse slot r }) : exec .completionPost s =
      .next ((s.modPort p (·.post slot r)).headServed p).endAdmission := by
  change execCompletionPost s = _
  simp only [execCompletionPost, h]

theorem exec_revocationClaim {s : State} {b : Bus} {rv : Revocation} {rest : List Revocation}
    (h : (s.bus b).revocations = rv :: rest) : exec (.revocationClaim b) s =
      .next ((s.modBus b (fun e => { e with revocations := rest })).revoke b rv) := by
  change execRevocationClaim b s = _
  simp only [execRevocationClaim, h]

/-- Settles O37. Both ends of an admission are `State.headServed` followed by `State.endAdmission`. -/
theorem admissionsEndByInsertionOrRefusal : Obligations.AdmissionsEndByInsertionOrRefusal := by
  unfold Obligations.AdmissionsEndByInsertionOrRefusal
  intro ends
  refine ⟨fun n s => ⟨rfl, rfl, exec_applySucceeds_taken⟩, fun p tg it s hc => ⟨fun rv rest hr => ?_, fun hr => ?_⟩,
    fun p tg slot r s hc => ?_⟩
  · refine ⟨_, exec_revocationClaim hr, ?_⟩
    have hc' := (workMove_revoke (b := busOf it.target) (rv := rv) (WorkMove.refl
      (s.modBus (busOf it.target) (fun e => { e with revocations := rest })))).current.trans hc
    rw [exec_insertion hc, exec_insertion hc', takeRevocations_cons s _ rv rest hr]
  · refine ⟨(s.append it).headServed p, ?_, rfl, rfl, fun b hb => append_bus_other s it b hb, append_bus_same s it,
      fun q hq => port_setPort_other _ _ _ _ hq, ?_⟩
    · rw [exec_insertion hc, takeRevocations_nil s _ hr, endAdmission_eq]
    · rw [headServed_eq, port_setPort_same]
      exact ⟨fun room => judgeSpace_raises _ room, fun full => judgeSpace_waits _ full⟩
  · refine ⟨(s.modPort p (·.post slot r)).headServed p, ?_, rfl, rfl, fun q hq => ?_, ?_⟩
    · rw [exec_completionPost hc, endAdmission_eq]
    · exact (port_setPort_other _ _ _ _ hq).trans (port_setPort_other s p q _ hq)
    · rw [headServed_eq, port_setPort_same, modPort_eq, port_setPort_same, post_eq]
      exact ⟨fun room => judgeSpace_raises _ room, fun full => judgeSpace_waits _ full⟩

/-! ### REVOCATION_CLAIM -/

theorem revokedBy_iff (it : Item) (rv : Revocation) : it.revokedBy rv = true ↔ it.region ∈ rv.indices := by
  simp [Item.revokedBy]

theorem moreUnits_iff (it : Item) : it.moreUnits = true ↔ it.kind = .erase ∧ it.unitsDone + 1 < it.unitsRequested := by
  simp [Item.moreUnits]

/-- The record of an item removed while QUEUED has no bytes moved and no head bytes (R15, R113, R161). -/
theorem recordQueued_eq (it : Item) (outcome : Ending) (reason : Reason) :
    it.recordQueued outcome reason = it.report outcome reason 0 [] := rfl

theorem recordRevoked_eq (it : Item) : it.recordRevoked =
    it.report (if it.kind = .erase ∧ 0 < it.unitsDone then .truncated else .failed) .revoked 0 [] := by
  simp only [Item.recordRevoked, recordQueued_eq, Bool.and_eq_true, decide_eq_true_eq]

/-- The QUEUED items of the revoked indices leave in list order, and what is left sheds its further units (R15, R16). -/
theorem revoke_eq (s : State) (b : Bus) (rv : Revocation) : s.revoke b rv =
    (s.finishAll b ((s.bus b).list.filter (fun it => decide (it.state = .queued ∧ it.region ∈ rv.indices)))
      (fun it => it.report (if it.kind = .erase ∧ 0 < it.unitsDone then .truncated else .failed) .revoked 0 [])).modBus b
      (fun e => { e with list := e.list.map (fun it =>
        if it.state ≠ .queued ∧ it.region ∈ rv.indices ∧ it.kind = .erase ∧ it.unitsDone + 1 < it.unitsRequested then
          it.shed .revoked
        else it) }) := by
  have out : ∀ it : Item, (decide (it.state = .queued) && it.revokedBy rv) =
      decide (it.state = .queued ∧ it.region ∈ rv.indices) := fun it => by
    rw [Bool.eq_iff_iff]; simp [revokedBy_iff]
  have sheds : ∀ it : Item, (decide (it.state ≠ .queued) && it.revokedBy rv && it.moreUnits) = true ↔
      it.state ≠ .queued ∧ it.region ∈ rv.indices ∧ it.kind = .erase ∧ it.unitsDone + 1 < it.unitsRequested := fun it => by
    simp only [Bool.and_eq_true, decide_eq_true_eq, revokedBy_iff, moreUnits_iff, and_assoc]
  unfold State.revoke
  simp only [out, sheds, recordRevoked_eq]

/-- Of the Admission Unit, items that leave change the blocked findings alone (R46). -/
theorem finishAll_admission (s : State) (b : Bus) (its : List Item) (f : Item → Completion) :
    (s.finishAll b its f).admission = { s.admission with blocked := (s.finishAll b its f).admission.blocked } := by
  obtain ⟨_, current, pointer⟩ := finishAll_rest s b its f
  calc (s.finishAll b its f).admission
      = ⟨(s.finishAll b its f).admission.current, (s.finishAll b its f).admission.pointer,
          (s.finishAll b its f).admission.blocked⟩ := rfl
    _ = ⟨s.admission.current, s.admission.pointer, (s.finishAll b its f).admission.blocked⟩ := by rw [current, pointer]

/-- The records that join a port's queue when the items that a condition picks out of a list leave. -/
theorem finishAll_filter_queue (s : State) (b : Bus) (l : List Item) (g : Item → Bool) (f : Item → Completion) (p : Port) :
    ((s.finishAll b (l.filter g) f).port p).queue =
      (s.port p).queue ++ (l.filter (fun it => g it && decide (it.port = p) && !it.orphan)).map f := by
  rw [finishAll_queue, List.filter_filter]
  congr 3
  funext it
  rw [Bool.and_comm, Bool.and_assoc]

/-- The credits that the orphans among them free. -/
theorem finishAll_filter_credits (s : State) (b : Bus) (l : List Item) (g : Item → Bool) (f : Item → Completion) (p : Port) :
    ((s.finishAll b (l.filter g) f).port p).credits =
      (s.port p).credits - (l.filter (fun it => g it && decide (it.port = p) && it.orphan)).length := by
  rw [finishAll_credits, List.filter_filter]
  congr 3
  funext it
  rw [Bool.and_comm, Bool.and_assoc]

/-- Settles O40: `revoke_eq`, the laws of items that leave one after another, and that the claim's own leaving changes nothing of
them. -/
theorem revocationClaimIsTakenWhole : Obligations.RevocationClaimIsTakenWhole := by
  unfold Obligations.RevocationClaimIsTakenWhole
  intro b rv rest s distinct hr gone sheds
  have rest_eq : (s.modBus b (fun e => { e with revocations := rest })).revoke b rv =
      (s.revoke b rv).modBus b (fun e => { e with revocations := rest }) :=
    revoke_modBus (aside_revocations (fun _ => rest)) s b b rv
  refine ⟨_, exec_revocationClaim hr, ?_⟩
  rw [rest_eq, revoke_eq]
  refine ⟨by rw [(finishAll_rest s b _ _).1]; rfl, finishAll_admission s b _ _, ⟨rfl, rfl⟩,
    finishAll_filter_queue s b _ _ _, finishAll_filter_credits s b _ _ _, fun c hc => ?_, ?_⟩
  · rw [bus_modBus, if_neg hc, bus_modBus, if_neg hc, finishAll_bus_other _ _ _ _ _ hc]
  · rw [bus_modBus, if_pos rfl, bus_modBus, if_pos rfl, finishAll_bus_same, filter_out (distinct b).1]
    simp only [decide_not]
    rfl

end Sys2Proof.Machine
end

section
namespace Sys2Proof.Machine

/-! ### What stands ready, and its first event -/

theorem busResetReady_iff (s : State) (b : Bus) :
    s.busResetReady b = true ↔ 0 < (s.bus b).resets ∧ s.admittingBus b = false := by
  simp [State.busResetReady, Nat.pos_iff_ne_zero]

theorem targetResetReady_iff (s : State) (x : Target) :
    s.targetResetReady x = true ↔ x ∈ s.resetClaims ∧ s.frameTo x = false ∧ s.admittingTarget x = false := by
  simp [State.targetResetReady, and_assoc]

theorem stands_iff (s : State) : s.stands = true ↔ s.applyStands = true ∨ (∃ b, s.busResetReady b = true) ∨
    ∃ x, s.targetResetReady x = true := by
  have claims : s.resetClaims.any s.targetResetReady = true ↔ ∃ x, s.targetResetReady x = true := by
    rw [List.any_eq_true]
    exact exists_congr fun x => and_iff_right_of_imp fun h => ((targetResetReady_iff s x).1 h).1
  simp only [State.stands, Bool.or_eq_true, claims, Fin.exists_fin_two, or_assoc]

theorem exec_busResetClaim {s : State} {b : Bus} (h : (s.bus b).resets ≠ 0) :
    exec (.busResetClaim b) s = .next (s.settleBusReset b) := congrArg _ (if_neg h)

theorem exec_targetResetClaim {s : State} {x : Target} (h : x ∈ s.resetClaims) (hf : s.frameTo x = false) :
    exec (.targetResetClaim x) s = .next (s.settleTargetReset x) := congrArg _ (if_pos (by simp [h, hf]))

/-- A claim that a frame in flight holds back (R115). -/
theorem exec_targetResetClaim_held {s : State} {x : Target} (hf : s.frameTo x = true) :
    exec (.targetResetClaim x) s = .next s := congrArg _ (if_neg (by simp [hf]))

theorem frameTo_of_frame {s : State} {x : Target} {r : FrameRecord} (h : (s.bus (busOf x)).frame = some r)
    (ht : r.target = x) : s.frameTo x = true := by
  simp [State.frameTo, h, ht]

/-- With no APPLY standing, the first bus reset claim that stands ready leads to the same by its own command (R95). -/
theorem first_busReset {s : State} (ha : s.applyStands = false) (h : ∃ b, s.busResetReady b = true) :
    ∃ b, s.busResetReady b = true ∧ exec (.busResetClaim b) s = .next (s.settleBusReset b) ∧
      (s.settleBusReset b).settle = s.settle := by
  have take : ∀ b, s.busResetReady b = true → exec (.busResetClaim b) s = .next (s.settleBusReset b) := fun b hb =>
    exec_busResetClaim ((busResetReady_iff s b).1 hb).1.ne'
  cases h0 : s.busResetReady 0 with
  | true => exact ⟨0, h0, take 0 h0, settle_settleBusReset ha h0 fun h => by cases h⟩
  | false =>
    obtain ⟨b, hb⟩ := h
    rcases bus_cases b with rfl | rfl
    · rw [hb] at h0; cases h0
    · exact ⟨1, hb, take 1 hb, settle_settleBusReset ha hb fun _ => h0⟩

/-- With neither an APPLY nor a bus reset claim, the oldest target reset claim that stands ready (R115). -/
theorem first_targetReset {s : State} (ha : s.applyStands = false) (hb : ∀ b, s.busResetReady b = false)
    (h : ∃ x, s.targetResetReady x = true) : ∃ x, s.targetResetReady x = true ∧
      exec (.targetResetClaim x) s = .next (s.settleTargetReset x) ∧ (s.settleTargetReset x).settle = s.settle := by
  obtain ⟨y, hy⟩ := h
  have found : (s.resetClaims.find? s.targetResetReady).isSome = true :=
    List.find?_isSome.2 ⟨y, ((targetResetReady_iff s y).1 hy).1, hy⟩
  obtain ⟨x, hx⟩ := Option.isSome_iff_exists.1 found
  obtain ⟨ready, before, after, split, earlier⟩ := List.find?_eq_some_iff_append.1 hx
  obtain ⟨claimed, free, _⟩ := (targetResetReady_iff s x).1 ready
  exact ⟨x, ready, exec_targetResetClaim claimed free,
    settle_settleTargetReset ha hb split (fun y hy => by simpa using earlier y hy) ready⟩

/-- A CHOICE on an IDLE bus finds taken all that stands ready (R115). -/
theorem exec_choice_settle {s : State} {b : Bus} (h : (s.bus b).frame = none) : exec (.choice b) s = exec (.choice b) s.settle := by
  have h' : (s.settle.bus b).frame = none := ((settle_beside s).idle b).2 h
  change execChoice b s = execChoice b s.settle
  simp only [execChoice, h, h', settle_settle]

theorem remaining_running {timer : Timer} {period spent : Nat} (h : timer = .running period spent) :
    timer.remaining = some (period - spent) := by rw [h]; rfl

theorem busyLeft_counting {r : TargetRecord} (h : r.state = .erasing ∨ r.state = .suspending) :
    r.busyLeft = some (r.profile.tEL.toNat * 200000 - r.busyTime) := if_pos (by simpa [TargetRecord.counting] using h)

/-- An expiry that lets time pass finds taken all that stands ready (R115). -/
theorem exec_expiry_settle {c : Instr} {s : State} {x : Target} {left : TargetRecord → Option Nat} {act : State → State}
    {n : Nat} (hc : ∀ u : State, exec c u = .next (u.expire x left act)) (hn : left (s.target x) = some n) (h0 : 0 < n) :
    exec c s = exec c s.settle := by
  rw [hc, hc, expire_settle hn h0.ne']

/-- So does the expiry of a timer that has time left (R29). -/
theorem exec_timer_settle {c : Instr} {s : State} {x : Target} {timer : TargetRecord → Timer} {act : State → State}
    (hc : ∀ u : State, exec c u = .next (u.expire x (fun r => (timer r).remaining) act))
    (h : ∃ period spent, timer (s.target x) = .running period spent ∧ spent < period) : exec c s = exec c s.settle := by
  obtain ⟨period, spent, runs, left⟩ := h
  exact exec_expiry_settle hc (remaining_running runs) (Nat.sub_pos_of_lt left)

/-! ### RESET TARGET -/

theorem exec_resetTarget (p : Port) (bytes : List Byte) (s : State) :
    exec (.resetTarget p bytes) s = .next (s.upstream p (.resetTarget p bytes) false (takeResetTarget p bytes)) := rfl

/-- A frame taken that also changes the target reset claims and the events that wait, and nothing else. -/
structure ClaimFrameTaken (p : Port) (result : Result) (claims : List Target) (waiting : List Waiting) (s t : State) : Prop
    extends FrameTaken p result s t where
  rest : t = { s with ports := t.ports, resetClaims := t.resetClaims, waiting := t.waiting }
  claims : t.resetClaims = claims
  waiting : t.waiting = waiting

/-- A frame without a reply whose effect is one on the claims. -/
theorem plainFrame_claims {s : State} {p : Port} {need : Nat} {bytes : List Byte} {act : State → State × Result}
    {result : Result} {claims : List Target} {waiting : List Waiting} (hn : need ≤ bytes.length + 1)
    (ha : act (s.setPort p (s.port p).opened) =
      ({ s.setPort p (s.port p).opened with resetClaims := claims, waiting := waiting }, result)) :
    ClaimFrameTaken p result claims waiting s (s.plainFrame p need bytes act) := by
  obtain ⟨rest, taken⟩ := plainFrame_taken hn ha rfl
  refine ⟨taken, ?_, ?_, ?_⟩
  all_goals rw [rest]
  rfl

/-- The claim that RESET TARGET sends waits for an admission that has read the target, or is issued (R52, R115). -/
theorem sendTargetReset_eq (s : State) (x : Target) : s.sendTargetReset x = { s with
    resetClaims := if s.admittingTarget x then s.resetClaims else s.resetClaims ++ [x]
    waiting := if s.admittingTarget x then s.waiting ++ [.targetReset x] else s.waiting } := by
  unfold State.sendTargetReset
  split <;> rfl

section

variable {p : Port} {bytes : List Byte} {s : State}

theorem takeResetTarget_notAuth (hn : 2 ≤ bytes.length + 1) (hp : p ≠ s.authority) :
    ClaimFrameTaken p .notAuth s.resetClaims s.waiting s (takeResetTarget p bytes s) :=
  plainFrame_claims hn (if_pos hp)

theorem takeResetTarget_badField (hn : 2 ≤ bytes.length + 1) (hp : p = s.authority) (h : 7 < (byteAt bytes 0).toNat) :
    ClaimFrameTaken p .badField s.resetClaims s.waiting s (takeResetTarget p bytes s) :=
  plainFrame_claims hn ((if_neg (not_not.2 hp)).trans (by rw [below_none h]; rfl))

variable {x : Target}

theorem takeResetTarget_notNow (hn : 2 ≤ bytes.length + 1) (hp : p = s.authority) (h : (byteAt bytes 0).toNat = x.val)
    (hx : (s.target x).state = .absent ∨ (s.target x).state = .resetting) :
    ClaimFrameTaken p .notNow s.resetClaims s.waiting s (takeResetTarget p bytes s) := by
  refine plainFrame_claims hn ((if_neg (not_not.2 hp)).trans ?_)
  rcases hx with hx | hx
  · simp only [below_some h, setPort_target, hx]; rfl
  · simp only [below_some h, setPort_target, hx]; rfl

theorem takeResetTarget_sends (hn : 2 ≤ bytes.length + 1) (hp : p = s.authority) (h : (byteAt bytes 0).toNat = x.val)
    (ha : (s.target x).state ≠ .absent) (hr : (s.target x).state ≠ .resetting) :
    ClaimFrameTaken p .ok (if s.admittingTarget x then s.resetClaims else s.resetClaims ++ [x])
      (if s.admittingTarget x then s.waiting ++ [.targetReset x] else s.waiting) s (takeResetTarget p bytes s) := by
  refine plainFrame_claims hn ((if_neg (not_not.2 hp)).trans ?_)
  simp only [below_some h, setPort_target]
  split
  · contradiction
  · contradiction
  all_goals rw [sendTargetReset_eq]; rfl

theorem takeResetTarget_taken (hn : 2 ≤ bytes.length + 1) :
    ∃ result claims waiting, ClaimFrameTaken p result claims waiting s (takeResetTarget p bytes s) := by
  by_cases hp : p = s.authority
  · by_cases h : 7 < (byteAt bytes 0).toNat
    · exact ⟨_, _, _, takeResetTarget_badField hn hp h⟩
    · generalize hx : (⟨(byteAt bytes 0).toNat, by omega⟩ : Target) = x
      have h : (byteAt bytes 0).toNat = x.val := by rw [← hx]
      by_cases ha : (s.target x).state = .absent
      · exact ⟨_, _, _, takeResetTarget_notNow hn hp h (.inl ha)⟩
      · by_cases hr : (s.target x).state = .resetting
        · exact ⟨_, _, _, takeResetTarget_notNow hn hp h (.inr hr)⟩
        · exact ⟨_, _, _, takeResetTarget_sends hn hp h ha hr⟩
  · exact ⟨_, _, _, takeResetTarget_notAuth hn hp⟩

end

/-! ### The claim taken -/

/-- Where nothing holds it back the claim is taken (R115, R116). -/
theorem settleTargetReset_takes {s : State} {x : Target} (h : s.admittingTarget x = false) : s.settleTargetReset x =
    State.takeTargetReset { s with resetClaims := s.resetClaims.filter (fun y => decide (y ≠ x)) } x :=
  if_neg (by simp [h])

theorem takeTargetReset_nothing {s : State} {x : Target}
    (h : (s.target x).state = .absent ∨ (s.target x).state = .resetting) : s.takeTargetReset x = s := by
  unfold State.takeTargetReset
  rcases h with h | h <;> rw [h]

theorem takeTargetReset_resets {s : State} {x : Target} (ha : (s.target x).state ≠ .absent)
    (hr : (s.target x).state ≠ .resetting) : s.takeTargetReset x =
      (s.finishOwner x (s.target x).owner .failed .aborted).modTarget x (·.toResetting) := by
  unfold State.takeTargetReset
  split
  · contradiction
  · contradiction
  all_goals rfl

/-- The owner of a target leaves with its record, where it stands in the list (R111). -/
theorem finishOwner_some {s : State} {x : Target} {owner : Option Nat} {outcome : Ending} {reason : Reason} {it : Item}
    (h : owner.bind (s.bus (busOf x)).find = some it) : s.finishOwner x owner outcome reason =
      s.finish (busOf x) it (it.report outcome reason it.ownerMoved []) := by
  unfold State.finishOwner
  rw [h]
  rfl

theorem finishOwner_none {s : State} {x : Target} {owner : Option Nat} {outcome : Ending} {reason : Reason}
    (h : owner.bind (s.bus (busOf x)).find = none) : s.finishOwner x owner outcome reason = s := by
  unfold State.finishOwner
  rw [h]

/-- Settles O31. What stands ready is taken by `State.settle`, whose first event is that of `first_busReset`, of
`first_targetReset` or of an APPLY; the commands named begin with it. -/
theorem resetTargetAndItsClaim : Obligations.ResetTargetAndItsClaim := by
  unfold Obligations.ResetTargetAndItsClaim
  refine ⟨fun s => ?_, fun c s h => ?_, fun p bytes s hears hlen => ?_, fun x r s _ hf ht => ?_, fun x s hx hf ha => ?_⟩
  · intro busReady ready
    have bus : ∀ b, s.busResetReady b = true ↔ busReady b := busResetReady_iff s
    have target : ∀ x, s.targetResetReady x = true ↔ ready x := targetResetReady_iff s
    refine ⟨?_, settle_none, settle_stands s, fun hs => ?_⟩
    · simp only [stands_iff, applyStands_iff, bus, target]
    · rcases Bool.eq_false_or_eq_true s.applyStands with ha | ha
      · obtain ⟨hc, h0⟩ := (applyStands_iff s).1 ha
        exact ⟨_, _, exec_applySucceeds_taken h0 hc, settle_applyTaken ha, .inl ⟨rfl, hc, h0⟩⟩
      · by_cases hb : ∃ b, s.busResetReady b = true
        · obtain ⟨b, ready, taken, settled⟩ := first_busReset ha hb
          exact ⟨_, _, taken, settled, .inr (.inl ⟨b, rfl, (bus b).1 ready⟩)⟩
        · have ht := (((stands_iff s).1 hs).resolve_left (by simp [ha])).resolve_left hb
          obtain ⟨x, ready, taken, settled⟩ := first_targetReset ha (by simpa using hb) ht
          exact ⟨_, _, taken, settled, .inr (.inr ⟨x, rfl, (target x).1 ready⟩)⟩
  · rcases h with ⟨p, hp, hd, hf⟩ | ⟨rfl, hc⟩ | ⟨b, rfl, hf⟩ | ⟨x, h⟩
    · exact exec_frame_settle hp hd hf
    · exact exec_admission_settle hc
    · exact exec_choice_settle hf
    · rcases h with ⟨rfl, h⟩ | ⟨rfl, h⟩ | ⟨rfl, h⟩ | ⟨rfl, h⟩ | ⟨rfl, h⟩ | ⟨rfl, h⟩ | ⟨rfl, busy, left⟩
      · exact exec_timer_settle (timer := (·.poll)) (fun _ => rfl) h
      · exact exec_timer_settle (timer := (·.program)) (fun _ => rfl) h
      · exact exec_timer_settle (timer := (·.holdOff)) (fun _ => rfl) h
      · exact exec_timer_settle (timer := (·.latency)) (fun _ => rfl) h
      · exact exec_timer_settle (timer := (·.held)) (fun _ => rfl) h
      · exact exec_timer_settle (timer := (·.recovery)) (fun _ => rfl) h
      · exact exec_expiry_settle (left := (·.busyLeft)) (fun _ => rfl) (busyLeft_counting busy) (Nat.sub_pos_of_lt left)
  · have hn : 2 ≤ bytes.length + 1 := Nat.succ_le_succ hlen
    obtain ⟨_, _, _, taken⟩ := takeResetTarget_taken (p := p) (s := s) hn
    refine ⟨_, by rw [exec_resetTarget, upstream_taken hears], taken.rest, taken.others, taken.own, fun hp => ?_,
      fun hp h7 => ?_, fun hp x hx => ⟨fun hs => ?_, fun ha hr => ?_⟩⟩
    · have k := takeResetTarget_notAuth hn hp
      exact ⟨k.claims, k.waiting, k.last⟩
    · have k := takeResetTarget_badField hn hp h7
      exact ⟨k.claims, k.waiting, k.last⟩
    · have k := takeResetTarget_notNow hn hp hx hs
      exact ⟨k.claims, k.waiting, k.last⟩
    · have k := takeResetTarget_sends hn hp hx ha hr
      refine ⟨k.last, fun hb => ?_, fun hb => ?_⟩
      · exact ⟨k.claims.trans (if_pos hb), k.waiting.trans (if_pos hb)⟩
      · exact ⟨k.claims.trans (if_neg (by simp [hb])), k.waiting.trans (if_neg (by simp [hb]))⟩
  · exact exec_targetResetClaim_held (frameTo_of_frame hf ht)
  · intro s1
    have taken : exec (.targetResetClaim x) s = .next (s1.takeTargetReset x) := by
      rw [exec_targetResetClaim hx hf, settleTargetReset_takes ha]
    rw [taken]
    refine ⟨fun h => by rw [takeTargetReset_nothing (s := s1) h], fun h1 h2 => ?_⟩
    rw [takeTargetReset_resets (s := s1) h1 h2]
    refine ⟨fun it owner => ?_, fun owner => ?_⟩
    · rw [finishOwner_some (s := s1) (owner := (s1.target x).owner) owner]; rfl
    · rw [finishOwner_none (s := s1) (owner := (s1.target x).owner) owner]; rfl

end Sys2Proof.Machine
end

section
namespace Sys2Proof.Machine

/-! ### Events that waited, taken with no admission under way -/

theorem takeWaiting_settle (w : Waiting) (s : State) : takeWaiting w s = takeWaiting w s.settle := by
  simp only [takeWaiting, settle_settle]

section

variable {s : State}

theorem admittingTarget_idle (h : s.admission.current = none) (x : Target) : s.admittingTarget x = false := by
  simp [State.admittingTarget, h]

theorem admittingBus_idle (h : s.admission.current = none) (b : Bus) : s.admittingBus b = false := by
  simp [State.admittingBus, h]

theorem admittingPort_idle (h : s.admission.current = none) (p : Port) : s.admittingPort p = false := by
  simp [State.admittingPort, h]

/-- Only an admission holds a frame back (R33, R41, R165). -/
theorem heldBack_idle (h : s.admission.current = none) (c : Instr) : s.heldBack c = false := by
  unfold State.heldBack
  split
  · exact admittingPort_idle h _
  · simp only [State.setupWaits, admittingTarget_idle h]
    split <;> simp
  · simp only [State.removeWaits, admittingTarget_idle h]
    split <;> simp
  · rfl

/-- A frame that waited is taken as its own command takes it. -/
theorem exec_frame_idle {c : Instr} {p : Port} (h : s.admission.current = none) (hp : portOfFrame c = some p)
    (hd : s.deaf p = false) (hf : s.frameWaits p = false) : exec c s = .next (takeWaiting (.frame c) s) := by
  rw [exec_frame hp hd, heldBack_idle h]
  simp only [State.upstream, hd, hf]
  rfl

/-- With nothing standing ready and no admission under way, no bus reset claim is issued (R95). -/
theorem resets_none (h : s.admission.current = none) (hs : s.stands = false) (b : Bus) : (s.bus b).resets = 0 := by
  obtain ⟨_, h0, h1, _⟩ := stands_false.1 hs
  have ready : s.busResetReady b = false := by rcases bus_cases b with rfl | rfl <;> assumption
  simpa [State.busResetReady, admittingBus_idle h] using ready

theorem takeWaiting_busReset (hs : s.stands = false) (b : Bus) : takeWaiting (.busReset b) s = s.takeBusReset b := by
  simp only [takeWaiting, settle_none hs]

theorem takeWaiting_targetReset (hs : s.stands = false) {x : Target} (hf : s.frameTo x = false) :
    takeWaiting (.targetReset x) s = s.takeTargetReset x := by
  simp only [takeWaiting, settle_none hs, hf]
  rfl

theorem takeWaiting_targetReset_held (hs : s.stands = false) {x : Target} (hf : s.frameTo x = true) :
    takeWaiting (.targetReset x) s = { s with resetClaims := s.resetClaims ++ [x] } := by
  simp only [takeWaiting, settle_none hs, hf, if_true]

theorem takeWaiting_expiry (hs : s.stands = false) (x : Target) (l : Limit) :
    takeWaiting (.expiry x l) s = if (s.target x).overLimit l then s.fault x else s := by
  simp only [takeWaiting, settle_none hs]
  rfl

theorem takeWaiting_cancelHead (hs : s.stands = false) (p : Port) (tag : Byte) :
    takeWaiting (.cancelHead p tag) s = s.cancelHead p tag := by
  simp only [takeWaiting, settle_none hs]

end

theorem ripe_iff (timer : Timer) : timer.ripe = true ↔ ∃ period spent, timer = .running period spent ∧ period ≤ spent := by
  cases timer <;> simp [Timer.ripe]

/-- A limit has run out and still stands (R106, R110, R129). -/
theorem overLimit_iff (r : TargetRecord) (l : Limit) : r.overLimit l = true ↔
    (l = .program ∧ r.state = .programming ∧ r.program.ripe = true) ∨
    (l = .latency ∧ r.state = .suspending ∧ r.latency.ripe = true) ∨
    (l = .busyTime ∧ (r.state = .erasing ∨ r.state = .suspending) ∧ r.profile.tEL.toNat * 200000 ≤ r.busyTime) := by
  cases l
  · simp [TargetRecord.overLimit]
  · simp only [TargetRecord.overLimit, TargetRecord.counting, Bool.and_eq_true, Bool.or_eq_true, decide_eq_true_eq,
      reduceCtorEq, false_and, false_or, true_and]
    rfl
  · simp [TargetRecord.overLimit]

/-! ### The CANCEL of what was the head -/

theorem exec_cancel (p : Port) (bytes : List Byte) (s : State) :
    exec (.cancel p bytes) s = .next (s.upstream p (.cancel p bytes) false (takeCancel p bytes)) := rfl

theorem exec_cancelClaim {s : State} {p : Port} {b : Bus} {c : CancelClaim}
    (h : (s.bus b).cancels.find? (fun x => decide (x.port = p)) = some c) : exec (.cancelClaim p b) s =
      .next ((s.modBus b (fun e => { e with cancels := dropFirstOf p e.cancels })).cancelItem b c.item) := by
  change execCancelClaim p b s = _
  simp only [execCancelClaim, h]

/-- On a record, on a ring entry, or on nothing, it acts as CANCEL does (R160). -/
theorem cancelHead_tag {s : State} {p : Port} {tag : Byte}
    (h : (s.port p).ring.find? (fun r => r.tag == tag) ≠ none ∨ s.itemOf p tag = none) :
    s.cancelHead p tag = s.cancelTag p tag := by
  unfold State.cancelHead
  split
  · next hr hi => rcases h with h | h <;> simp_all
  · rfl
  · rfl

/-- The claim that a CANCEL sends to an item (R160). -/
def State.claimOn (s : State) (p : Port) (b : Bus) (it : Item) : CancelClaim :=
  { port := p, item := it.uid, behind := s.resetsIssued b }

/-- A cancel claim joins those of its bus. -/
def State.issueCancel (s : State) (b : Bus) (c : CancelClaim) : State :=
  s.modBus b (fun e => { e with cancels := e.cancels ++ [c] })

/-- On an item it sends its claim, which is taken at once, after the claims that the port sent to that bus before (R41, R57,
R160). -/
theorem cancelHead_item {s : State} {p : Port} {tag : Byte} {b : Bus} {it : Item}
    (hr : (s.port p).ring.find? (fun r => r.tag == tag) = none) (hi : s.itemOf p tag = some (b, it)) :
    s.cancelHead p tag = (s.issueCancel b (s.claimOn p b it)).takeCancels p b (fun _ => true) := by
  simp only [State.cancelHead, State.cancelTag, hr, hi]
  rfl

theorem issueCancel_cancels (s : State) (b : Bus) (c : CancelClaim) :
    ((s.issueCancel b c).bus b).cancels = (s.bus b).cancels ++ [c] := by
  rw [State.issueCancel, bus_modBus, if_pos rfl]

theorem dropFirstOf_append_none {p : Port} {l : List CancelClaim} {c : CancelClaim} (hn : ∀ x ∈ l, x.port ≠ p)
    (hc : c.port = p) : dropFirstOf p (l ++ [c]) = l := by
  induction l with
  | nil => simp [dropFirstOf, hc]
  | cons x rest ih =>
    rw [List.cons_append, dropFirstOf, if_neg (hn x List.mem_cons_self), ih fun y hy => hn y (List.mem_cons_of_mem _ hy)]

theorem dropFirstOf_append_some {p : Port} {l : List CancelClaim} {c d : CancelClaim}
    (h : l.find? (fun x => decide (x.port = p)) = some c) : dropFirstOf p (l ++ [d]) = dropFirstOf p l ++ [d] := by
  induction l with
  | nil => cases h
  | cons x rest ih =>
    rw [List.cons_append, dropFirstOf, dropFirstOf]
    split
    · rfl
    · next hx =>
      rw [List.find?_cons_of_neg (by simpa using hx)] at h
      rw [ih h, List.cons_append]

/-- A claim issued where the port has none on the bus, and taken, is taken on its item (R160). -/
theorem issueCancel_drop {s : State} {p : Port} {b : Bus} {c : CancelClaim} (hn : ∀ x ∈ (s.bus b).cancels, x.port ≠ p)
    (hc : c.port = p) :
    (s.issueCancel b c).modBus b (fun e => { e with cancels := dropFirstOf p e.cancels }) = s := by
  simp only [State.issueCancel, modBus_eq, bus_setBus_same, setBus_setBus, dropFirstOf_append_none hn hc]
  exact setBus_bus s b

theorem find_issued {s : State} {p : Port} {b : Bus} {c : CancelClaim} (hn : ∀ x ∈ (s.bus b).cancels, x.port ≠ p)
    (hc : c.port = p) : ((s.issueCancel b c).bus b).cancels.find? (fun x => decide (x.port = p)) = some c := by
  rw [issueCancel_cancels, List.find?_append, List.find?_eq_none.2 (by simpa using hn)]
  simp [hc]

/-- The only claim of the port on the bus, taken. -/
theorem takeCancels_issued {s : State} {p : Port} {b : Bus} {c : CancelClaim} (hn : ∀ x ∈ (s.bus b).cancels, x.port ≠ p)
    (hc : c.port = p) : (s.issueCancel b c).takeCancels p b (fun _ => true) = s.cancelItem b c.item := by
  rw [takeCancels_cons _ p b _ c (find_issued hn hc) rfl, issueCancel_drop hn hc]
  refine takeCancels_none _ p b _ fun x hx hp => ?_
  rw [cancelItem_cancels] at hx
  exact absurd hp (hn x hx)

/-- An earlier claim of the port, taken before the new one is issued or after. -/
theorem takeCancels_earlier {s : State} {p : Port} {b : Bus} {c d : CancelClaim}
    (h : (s.bus b).cancels.find? (fun x => decide (x.port = p)) = some c) :
    (s.issueCancel b d).takeCancels p b (fun _ => true) =
      (((s.modBus b (fun e => { e with cancels := dropFirstOf p e.cancels })).cancelItem b c.item).issueCancel b d).takeCancels
        p b (fun _ => true) := by
  have first : ((s.issueCancel b d).bus b).cancels.find? (fun x => decide (x.port = p)) = some c := by
    rw [issueCancel_cancels, List.find?_append, h]
    rfl
  have order : (s.issueCancel b d).modBus b (fun e => { e with cancels := dropFirstOf p e.cancels }) =
      (s.modBus b (fun e => { e with cancels := dropFirstOf p e.cancels })).issueCancel b d := by
    simp only [State.issueCancel, modBus_eq, bus_setBus_same, setBus_setBus, dropFirstOf_append_some h]
  rw [takeCancels_cons _ p b _ c first rfl, order]
  exact congrArg (·.takeCancels p b (fun _ => true))
    (cancelItem_modBus (aside_cancels (fun l => l ++ [d])) _ b b c.item)

/-! ### What a cancel claim on another item leaves -/

theorem cancelItem_ring (s : State) (b : Bus) (uid : Nat) (p : Port) :
    ((s.cancelItem b uid).port p).ring = (s.port p).ring := allPorts_cancelItem (ringsKept s) (rings_refl s) p

/-- The test by which CANCEL finds its item: of the port and the tag, and no orphan (R160). -/
def Item.isOf (p : Port) (tag : Byte) (it : Item) : Bool := decide (it.port = p) && decide (it.tag = tag) && !it.orphan

theorem itemOf_congr {s u : State} {p : Port} {tag : Byte}
    (h : ∀ b, (u.bus b).list.find? (Item.isOf p tag) = (s.bus b).list.find? (Item.isOf p tag)) :
    u.itemOf p tag = s.itemOf p tag := by
  have h0 := h 0
  have h1 := h 1
  unfold Item.isOf at h0 h1
  simp only [State.itemOf, h0, h1]

theorem itemOf_find {s : State} {p : Port} {tag : Byte} {b : Bus} {it : Item} (h : s.itemOf p tag = some (b, it)) :
    (s.bus b).list.find? (Item.isOf p tag) = some it := by
  unfold State.itemOf at h
  dsimp only at h
  split at h
  · next x hx => cases h; exact hx
  · obtain ⟨x, hx, e⟩ := Option.map_eq_some_iff.1 h
    cases e
    exact hx

/-- An item marked by a cancel claim, with its further units dropped (R162). -/
def Item.cancelMarked (it : Item) : Item :=
  if Item.moreUnits { it with cancelSeen := true } then Item.shed { it with cancelSeen := true } .cancelled
  else { it with cancelSeen := true }

theorem isOf_cancelMarked (p : Port) (tag : Byte) (it : Item) : it.cancelMarked.isOf p tag = it.isOf p tag := by
  unfold Item.cancelMarked
  split <;> rfl

/-- A cancel claim removes its item, marks it, or does nothing (R161, R162). -/
theorem cancelItem_list (s : State) (b : Bus) (uid : Nat) :
    ((s.cancelItem b uid).bus b).list = (s.bus b).list ∨
    ((s.cancelItem b uid).bus b).list = (s.bus b).list.filter (fun x => x.uid != uid) ∨
    ((s.cancelItem b uid).bus b).list = (s.bus b).list.map (fun x => if x.uid = uid then x.cancelMarked else x) := by
  have marked : ((s.modBus b (·.modItem uid Item.cancelMarked)).bus b).list =
      (s.bus b).list.map (fun x => if x.uid = uid then x.cancelMarked else x) := by
    rw [bus_modBus, if_pos rfl]
    rfl
  unfold State.cancelItem
  split
  · exact .inl rfl
  · next it found =>
    split
    · exact .inl rfl
    · split
      · refine .inr (.inl ?_)
        rw [finish_bus_same, ← (find_mem found).2]
      · refine .inr (.inr ?_)
        dsimp only
        split
        · split
          · split
            · rw [bus_modBus, if_pos rfl]; exact marked
            · exact marked
          · exact marked
        · exact marked

theorem find_filter_other {l : List Item} {f g : Item → Bool} {it : Item} (h : l.find? f = some it) (hg : g it = true) :
    (l.filter g).find? f = some it := by
  induction l with
  | nil => cases h
  | cons x rest ih =>
    rw [List.find?_cons] at h
    split at h
    · next hx =>
      cases h
      rw [List.filter_cons_of_pos hg, List.find?_cons_of_pos hx]
    · next hx =>
      rw [List.filter_cons]
      split
      · rw [List.find?_cons_of_neg (by simp [hx]), ih h]
      · exact ih h

/-- The item that a port and a tag name is found as it was while another item of its bus is cancelled. -/
theorem cancelItem_find {s : State} {b : Bus} {uid : Nat} {p : Port} {tag : Byte} {it : Item}
    (h : (s.bus b).list.find? (Item.isOf p tag) = some it) (hu : uid ≠ it.uid) :
    ((s.cancelItem b uid).bus b).list.find? (Item.isOf p tag) = some it := by
  rcases cancelItem_list s b uid with e | e | e <;> rw [e]
  · exact h
  · exact find_filter_other h (by simpa using hu.symm)
  · have same : (Item.isOf p tag ∘ fun x : Item => if x.uid = uid then x.cancelMarked else x) = Item.isOf p tag := by
      funext x
      simp only [Function.comp_apply]
      split
      · exact isOf_cancelMarked p tag x
      · rfl
    rw [List.find?_map, same, h, Option.map_some, if_neg hu.symm]

/-- An oldest cancel claim, taken, leaves all that decides what stands ready. -/
theorem besideAll_cancelClaim (s : State) (p : Port) (b : Bus) (uid : Nat) :
    BesideAll s ((s.modBus b (fun e => { e with cancels := dropFirstOf p e.cancels })).cancelItem b uid) :=
  BesideAll.trans (t := s.modBus b (fun e => { e with cancels := dropFirstOf p e.cancels })) (besideAll_setBus rfl rfl)
    (besideAll_cancelItem _ b uid)

/-- Another claim of the port on the bus, taken, leaves what the CANCEL of a tag does as it was. -/
theorem cancelHead_earlier {s : State} {p : Port} {tag : Byte} {b : Bus} {it : Item} {c : CancelClaim}
    (hr : (s.port p).ring.find? (fun r => r.tag == tag) = none) (hi : s.itemOf p tag = some (b, it))
    (hc : (s.bus b).cancels.find? (fun x => decide (x.port = p)) = some c) (hu : c.item ≠ it.uid) :
    s.cancelHead p tag =
      ((s.modBus b (fun e => { e with cancels := dropFirstOf p e.cancels })).cancelItem b c.item).cancelHead p tag := by
  have beside := besideAll_cancelClaim s p b c.item
  generalize hs : s.modBus b (fun e => { e with cancels := dropFirstOf p e.cancels }) = s1 at beside ⊢
  have list : ∀ b', (s1.bus b').list = (s.bus b').list := fun b' => by rw [← hs, bus_modBus]; split <;> rfl
  have ring : ((s1.cancelItem b c.item).port p).ring.find? (fun r => r.tag == tag) = none := by
    rw [cancelItem_ring, ← hs]
    exact hr
  have item : (s1.cancelItem b c.item).itemOf p tag = some (b, it) := by
    refine (itemOf_congr fun b' => ?_).trans hi
    by_cases hb : b' = b
    · subst hb
      rw [itemOf_find hi, cancelItem_find (by rw [list]; exact itemOf_find hi) hu]
    · rw [cancelItem_bus_other _ _ _ _ hb, list]
  have claim : (s1.cancelItem b c.item).claimOn p b it = s.claimOn p b it := by
    simp only [State.claimOn, State.resetsIssued, beside.resets, beside.waiting]
  rw [cancelHead_item hr hi, cancelHead_item ring item, claim, takeCancels_earlier hc, hs]

/-- Where no admission holds it back a bus reset claim is taken (R95). -/
theorem settleBusReset_takes {s : State} {b : Bus} (h : s.admittingBus b = false) :
    s.settleBusReset b = (s.modBus b (fun e => { e with resets := e.resets - 1 })).takeBusReset b := if_neg (by simp [h])

/-- The only bus reset claim of a bus, taken by its command. -/
theorem exec_busResetClaim_only {s : State} (idle : s.admission.current = none) (b : Bus) :
    exec (.busResetClaim b) (s.setBus b { s.bus b with resets := 1 }) =
      .next ((s.setBus b { s.bus b with resets := 0 }).takeBusReset b) := by
  have free : (s.setBus b { s.bus b with resets := 1 }).admittingBus b = false := admittingBus_idle idle b
  rw [exec_busResetClaim (by rw [bus_setBus_same]; exact one_ne_zero), settleBusReset_takes free, modBus_eq, bus_setBus_same,
    setBus_setBus]
  rfl

/-- The newest of the target reset claims, and the only one on its target, taken by its command. -/
theorem exec_targetResetClaim_only {s : State} (idle : s.admission.current = none) {x : Target} (hx : x ∉ s.resetClaims)
    (hf : s.frameTo x = false) :
    exec (.targetResetClaim x) { s with resetClaims := s.resetClaims ++ [x] } = .next (s.takeTargetReset x) := by
  have left : (s.resetClaims ++ [x]).filter (fun y => decide (y ≠ x)) = s.resetClaims := by
    rw [List.filter_append, List.filter_eq_self.2 fun y hy => by simpa using fun e : y = x => hx (e ▸ hy)]
    simp
  have ready : State.frameTo { s with resetClaims := s.resetClaims ++ [x] } x = false := hf
  have free : State.admittingTarget { s with resetClaims := s.resetClaims ++ [x] } x = false := admittingTarget_idle idle x
  rw [exec_targetResetClaim (by simp) ready, settleTargetReset_takes free]
  exact congrArg (fun l => Host.Outcome.next (State.takeTargetReset { s with resetClaims := l } x)) left

/-- A CANCEL whose tag is in the table, and names no head under admission (R160). -/
theorem takeCancel_ok {s : State} {p : Port} {bytes : List Byte} (idle : s.admission.current = none)
    (hlen : 1 ≤ bytes.length) (htag : byteAt bytes 0 ∈ (s.port p).tags) (hopen : (s.port p).link.isOpen = true) :
    takeCancel p bytes s = (s.cancelTag p (byteAt bytes 0)).closeFrame p .ok 2 bytes.length [] := by
  rw [takeCancel, plainFrame_long _ _ _ _ _ (Nat.succ_le_succ hlen), opened_of_open _ hopen, setPort_port]
  simp [htag, State.headUnderAdmission, admittingPort_idle idle]

/-- The release of a frame without a reply, answered OK (R178, R181). -/
theorem closeFrame_ok (u : State) (p : Port) (n : Nat) : u.closeFrame p .ok 2 n [] = u.setPort p { u.port p with
    last := .ok, link := { (u.port p).link with
      isOpen := false, captured := none, sdo := (u.port p).link.summary :: List.replicate n 0 } } := by
  rw [closeFrame_eq, rise_eq, rise_link, sdoBytes_nil]

/-- Settles O38, event by event: each is taken by the operation that its own command calls. -/
theorem waitingEventsAreTakenAsTheirCommands : Obligations.WaitingEventsAreTakenAsTheirCommands := by
  unfold Obligations.WaitingEventsAreTakenAsTheirCommands
  intro s idle
  refine ⟨fun w => takeWaiting_settle w s, fun c p => exec_frame_idle idle, fun hs => ⟨fun b => ?_, fun x hx hf => ?_,
    fun x => takeWaiting_targetReset_held hs, fun x l => ?_, fun p bytes hears hlen htag hopen effect => ?_,
    fun p tag b it hr hi => ⟨fun hn behind => ?_, fun c hc hu => ?_⟩⟩⟩
  · have unclaimed : s.setBus b { s.bus b with resets := 0 } = s := by
      rw [← resets_none idle hs b]
      exact setBus_bus s b
    rw [exec_busResetClaim_only idle, unclaimed, takeWaiting_busReset hs]
  · rw [exec_targetResetClaim_only idle hx hf, takeWaiting_targetReset hs hf]
  · intro r runsOut late
    have runOut : (s.target x).overLimit l = true ↔ late := by
      simp only [overLimit_iff, ripe_iff]
      exact .rfl
    rw [takeWaiting_expiry hs]
    exact ⟨fun h => if_pos (runOut.2 h), fun h => if_neg (mt runOut.1 h)⟩
  · intro u
    have hu : u = s.cancelTag p (byteAt bytes 0) := (takeWaiting_cancelHead hs p _).trans (cancelHead_tag effect)
    refine ⟨?_, closeFrame_ok u p bytes.length⟩
    rw [exec_cancel, upstream_taken hears, takeCancel_ok idle hlen htag hopen, hu]
  · rw [takeWaiting_cancelHead hs, cancelHead_item hr hi, takeCancels_issued hn rfl]
    refine (exec_cancelClaim (find_issued hn rfl)).trans ?_
    exact congrArg (fun u : State => Host.Outcome.next (u.cancelItem b it.uid)) (issueCancel_drop hn rfl)
  · have beside := besideAll_cancelClaim s p b c.item
    refine ⟨_, exec_cancelClaim hc, ?_⟩
    rw [takeWaiting_cancelHead hs, takeWaiting_cancelHead (beside.stands.trans hs), cancelHead_earlier hr hi hc hu]

end Sys2Proof.Machine
end

section
namespace Sys2Proof.Machine

/-! ### The fault of a target -/

/-- The Port Units and the Admission Unit agree: all that postings depend on but the items that leave. -/
structure SameDesk (s t : State) : Prop where
  ports : t.ports = s.ports
  admission : t.admission = s.admission

theorem SameDesk.finish {s t : State} (h : SameDesk s t) (b : Bus) (it : Item) (r : Completion) :
    SameDesk (s.finish b it r) (t.finish b it r) := by
  have port : t.port it.port = s.port it.port := by simp only [State.port, h.ports]
  constructor
  · change put t.ports it.port ((t.port it.port).settled it r) = put s.ports it.port ((s.port it.port).settled it r)
    rw [h.ports, port]
  · change (t.releaseBlocked b).admission = (s.releaseBlocked b).admission
    simp only [State.releaseBlocked, h.admission]

theorem SameDesk.finishAll {b : Bus} {f : Item → Completion} : ∀ {its : List Item} {s t : State}, SameDesk s t →
    SameDesk (s.finishAll b its f) (t.finishAll b its f) := by
  intro its
  induction its with
  | nil => exact fun h => h
  | cons it rest ih => exact fun h => ih (h.finish b it (f it))

/-- The owner item of a target. -/
def State.ownerOf (s : State) (x : Target) : Option Item := (s.target x).owner.bind (s.bus (busOf x)).find

theorem ownerOf_congr {s e : State} {x : Target} (ho : (e.target x).owner = (s.target x).owner)
    (hl : (e.bus (busOf x)).list = (s.bus (busOf x)).list) : e.ownerOf x = s.ownerOf x := by
  have found : (e.bus (busOf x)).find = (s.bus (busOf x)).find := funext fun uid => by simp only [BusEngine.find, hl]
  rw [State.ownerOf, State.ownerOf, ho, found]

/-- An item bears the reference of the owner that was found. -/
def Item.isOwner (owner : Option Item) (it : Item) : Prop := owner.map (·.uid) = some it.uid

theorem isOwner_some (o it : Item) : it.isOwner (some o) ↔ it.uid = o.uid := by
  simp only [Item.isOwner, Option.map_some, Option.some.injEq, eq_comm]

theorem isOwner_none (it : Item) : ¬ it.isOwner none := by simp [Item.isOwner]

/-- A QUEUED item of a target, other than its owner (R113). -/
def Item.fallsWith (owner : Option Item) (x : Target) (it : Item) : Prop :=
  it.target = x ∧ it.state = .queued ∧ ¬ it.isOwner owner

/-- The owner of a faulted target has left, and then its QUEUED items (R112, R113). -/
def State.fallen (s : State) (x : Target) : State := (s.finishOwner x (s.target x).owner .failed .timeout).fanOut x

theorem finishAll_modTarget (b : Bus) (x : Target) (f : TargetRecord → TargetRecord) (record : Item → Completion) :
    ∀ (its : List Item) (s : State), (s.modTarget x f).finishAll b its record = (s.finishAll b its record).modTarget x f := by
  intro its
  induction its with
  | nil => exact fun _ => rfl
  | cons it rest ih => exact fun s => ih (s.finish b it (record it))

/-- A fault: the items gone, the target FAULTED, and FAULT raised (R112). -/
theorem fault_eq (s : State) (x : Target) : s.fault x =
    ((s.fallen x).modTarget x (·.toFaulted)).raiseAt (((s.fallen x).modTarget x (·.toFaulted)).policy.mapping x) .fault := by
  have parts : ((s.modTarget x (·.toFaulted)).finishOwner x (s.target x).owner .failed .timeout).fanOut x =
      (s.fallen x).modTarget x (·.toFaulted) := by
    rw [← finishOwner_modTarget]
    exact finishAll_modTarget _ _ _ _ _ _
  unfold State.fault
  dsimp only
  rw [parts]

/-- At most Port Units, Bus Engines and blocked findings differ. -/
def OnlyLists (s t : State) : Prop := t =
  { s with ports := t.ports, buses := t.buses, admission := { s.admission with blocked := t.admission.blocked } }

theorem OnlyLists.trans {s t u : State} (h : OnlyLists s t) (k : OnlyLists t u) : OnlyLists s u := by
  unfold OnlyLists at *
  rw [k, h]

theorem finishAll_lists (s : State) (b : Bus) (its : List Item) (record : Item → Completion) :
    OnlyLists s (s.finishAll b its record) := by
  have rest := (finishAll_rest s b its record).1
  rw [finishAll_admission] at rest
  exact rest

/-! #### The owner -/

section

variable (s : State) (x : Target) (outcome : Ending) (reason : Reason)

/-- An owner's leaving is that of one item, or of none. -/
theorem finishOwner_cases : (∃ it, s.ownerOf x = some it ∧ s.finishOwner x (s.target x).owner outcome reason =
      s.finish (busOf x) it (it.report outcome reason it.ownerMoved [])) ∨
    (s.ownerOf x = none ∧ s.finishOwner x (s.target x).owner outcome reason = s) := by
  cases h : s.ownerOf x with
  | some it => exact .inl ⟨it, rfl, finishOwner_some h⟩
  | none => exact .inr ⟨rfl, finishOwner_none h⟩

theorem finishOwner_rest : OnlyLists s (s.finishOwner x (s.target x).owner outcome reason) := by
  rcases finishOwner_cases s x outcome reason with ⟨it, _, e⟩ | ⟨_, e⟩ <;> rw [e]
  · exact finishAll_lists s (busOf x) [it] fun it => it.report outcome reason it.ownerMoved []
  · rfl

theorem finishOwner_bus_other {b : Bus} (h : b ≠ busOf x) :
    (s.finishOwner x (s.target x).owner outcome reason).bus b = s.bus b := by
  rcases finishOwner_cases s x outcome reason with ⟨it, _, e⟩ | ⟨_, e⟩ <;> rw [e]
  exact finish_bus_other _ _ _ _ _ h

theorem finishOwner_bus_same {g : Item → Bool} (hg : ∀ it, g it = true ↔ ¬ it.isOwner (s.ownerOf x)) :
    (s.finishOwner x (s.target x).owner outcome reason).bus (busOf x) =
      { s.bus (busOf x) with list := (s.bus (busOf x)).list.filter g } := by
  rcases finishOwner_cases s x outcome reason with ⟨it, h, e⟩ | ⟨h, e⟩ <;> rw [e]
  · have same : g = fun y => y.uid != it.uid := by
      funext y
      rw [Bool.eq_iff_iff, hg, h, isOwner_some, bne_iff_ne]
    rw [finish_bus_same, same]
  · have all : ∀ y ∈ (s.bus (busOf x)).list, g y = true := fun y _ => (hg y).2 (h ▸ isOwner_none y)
    rw [List.filter_eq_self.2 all]

/-- The record of an owner joins the queue of its port, unless it is an orphan. -/
theorem finishOwner_queue (p : Port) : ((s.finishOwner x (s.target x).owner outcome reason).port p).queue =
    (s.port p).queue ++ (s.ownerOf x).elim [] fun it =>
      if it.port = p ∧ it.orphan = false then [it.report outcome reason it.ownerMoved []] else [] := by
  rcases finishOwner_cases s x outcome reason with ⟨it, h, e⟩ | ⟨h, e⟩ <;> rw [e, h]
  · rw [finish_queue]
    simp only [Option.elim_some, Bool.and_eq_true, decide_eq_true_eq, Bool.not_eq_true']
  · exact (List.append_nil _).symm

theorem finishOwner_fault (p : Port) :
    ((s.finishOwner x (s.target x).owner outcome reason).port p).pending.fault = (s.port p).pending.fault := by
  rcases finishOwner_cases s x outcome reason with ⟨it, _, e⟩ | ⟨_, e⟩ <;> rw [e]
  exact finish_fault _ _ _ _ _

end

/-! #### The items that fall with the target -/

section

variable {s : State} {x : Target}

/-- After the owner's leaving, the QUEUED items of the target are those that fall with it (R113). -/
theorem fallen_eq {g : Item → Bool} (hg : ∀ it, g it = true ↔ it.fallsWith (s.ownerOf x) x) : s.fallen x =
    (s.finishOwner x (s.target x).owner .failed .timeout).finishAll (busOf x) ((s.bus (busOf x)).list.filter g)
      (fun it => it.report .failed .targetDown 0 []) := by
  classical
  have list := congrArg BusEngine.list (finishOwner_bus_same s x .failed .timeout
    (g := fun it => decide ¬ it.isOwner (s.ownerOf x)) fun it => decide_eq_true_iff)
  unfold State.fallen State.fanOut
  rw [list]
  dsimp only
  rw [List.filter_filter]
  congr 2
  funext it
  rw [Bool.eq_iff_iff, hg]
  simp only [Item.fallsWith, Bool.and_eq_true, decide_eq_true_eq, and_assoc]

/-- The leaving of the owner and of the items. -/
theorem fallen_rest (s : State) (x : Target) : OnlyLists s (s.fallen x) :=
  (finishOwner_rest s x _ _).trans (finishAll_lists _ _ _ _)

theorem fallen_bus_other {b : Bus} (h : b ≠ busOf x) : (s.fallen x).bus b = s.bus b :=
  (finishAll_bus_other _ _ _ _ _ h).trans (finishOwner_bus_other s x _ _ h)

/-- The list without the owner and without the items that fall. -/
theorem fallen_bus_same {g : Item → Bool} (hn : ((s.bus (busOf x)).list.map (·.uid)).Nodup)
    (hg : ∀ it, g it = true ↔ ¬ it.isOwner (s.ownerOf x) ∧ ¬ it.fallsWith (s.ownerOf x) x) :
    (s.fallen x).bus (busOf x) = { s.bus (busOf x) with list := (s.bus (busOf x)).list.filter g } := by
  classical
  have bus := finishOwner_bus_same s x .failed .timeout (g := fun it => decide ¬ it.isOwner (s.ownerOf x))
    fun it => decide_eq_true_iff
  unfold State.fallen State.fanOut
  rw [finishAll_bus_same, bus]
  dsimp only
  rw [filter_out (hn.sublist (List.Sublist.map _ List.filter_sublist)), List.filter_filter]
  congr 2
  funext it
  rw [Bool.eq_iff_iff, hg]
  simp only [Item.fallsWith, Bool.and_eq_true, Bool.not_eq_true', Bool.and_eq_false_iff, decide_eq_true_eq,
    decide_eq_false_iff_not]
  tauto

theorem fallen_fault (s : State) (x : Target) (p : Port) : ((s.fallen x).port p).pending.fault = (s.port p).pending.fault :=
  (finishAll_fault _ _ _ _ _).trans (finishOwner_fault s x _ _ p)

/-- What the desk shows depends on the desk, the owner and the list alone. -/
theorem SameDesk.fallen {e : State} (h : SameDesk s e) (ho : (e.target x).owner = (s.target x).owner)
    (hl : (e.bus (busOf x)).list = (s.bus (busOf x)).list) : SameDesk (s.fallen x) (e.fallen x) := by
  classical
  have owner : e.ownerOf x = s.ownerOf x := ownerOf_congr ho hl
  have first : SameDesk (s.finishOwner x (s.target x).owner .failed .timeout)
      (e.finishOwner x (e.target x).owner .failed .timeout) := by
    rcases finishOwner_cases s x .failed .timeout with ⟨it, hs, k⟩ | ⟨hs, k⟩
    · rw [k, finishOwner_some (owner.trans hs)]
      exact h.finish _ _ _
    · rw [k, finishOwner_none (owner.trans hs)]
      exact h
  rw [fallen_eq (g := fun it => decide (it.fallsWith (s.ownerOf x) x)) fun it => decide_eq_true_iff,
    fallen_eq (s := e) (g := fun it => decide (it.fallsWith (s.ownerOf x) x)) fun it => by rw [owner]; exact decide_eq_true_iff,
    hl]
  exact first.finishAll

/-- The records that the fault of a target adds to the queue of a port. -/
theorem fallen_queue {g : Item → Bool} (hg : ∀ it, g it = true ↔ it.fallsWith (s.ownerOf x) x) (p : Port) :
    ((s.fallen x).port p).queue = (s.port p).queue ++
      ((s.ownerOf x).elim [] fun it =>
        if it.port = p ∧ it.orphan = false then [it.report .failed .timeout it.ownerMoved []] else []) ++
      ((s.bus (busOf x)).list.filter (fun it => g it && decide (it.port = p) && !it.orphan)).map
        (fun it => it.report .failed .targetDown 0 []) := by
  rw [fallen_eq hg, finishAll_filter_queue, finishOwner_queue]

end

/-! #### The fault, as the state of before shows it -/

theorem fault_rest (s : State) (x : Target) :
    s.fault x = { (s.fallen x).setTarget x (s.target x).inFault with ports := (s.fault x).ports } := by
  have target : (s.fallen x).target x = s.target x := by rw [fallen_rest s x]; rfl
  conv_lhs => rw [fault_eq, raiseAt_rest, ← fault_eq, modTarget_eq, target]
  rfl

/-- FAULT is raised at the ports that a valid active entry maps to the target (R5, R112). -/
theorem fault_port (s : State) (x : Target) (p : Port) : (s.fault x).port p =
    if (s.policy.mapping x).getLsbD p.val then ((s.fallen x).port p).raise .fault else (s.fallen x).port p := by
  have policy : ((s.fallen x).modTarget x (·.toFaulted)).policy = s.policy := by rw [fallen_rest s x]; rfl
  rw [fault_eq, raiseAt_port, policy]
  rfl

theorem fault_target_same (s : State) (x : Target) : (s.fault x).target x = (s.target x).inFault := by
  rw [fault_rest]
  exact target_setTarget_same _ _ _

theorem fault_target_other (s : State) {x y : Target} (h : y ≠ x) : (s.fault x).target y = s.target y := by
  rw [fault_rest]
  refine (target_setTarget_other _ _ _ _ h).trans ?_
  rw [fallen_rest s x]
  rfl

theorem fault_bus (s : State) (x : Target) (b : Bus) : (s.fault x).bus b = (s.fallen x).bus b := by
  rw [fault_rest]
  rfl

theorem fault_admission (s : State) (x : Target) : (s.fault x).admission = (s.fallen x).admission := by
  rw [fault_rest]
  rfl

/-- Of a state only target records and Bus Engines differ, as when time passes: owners and lists are the same. -/
structure Aged (record : TargetRecord → TargetRecord) (engine : BusEngine → BusEngine) (s e : State) : Prop where
  rest : e = { s with targets := e.targets, buses := e.buses }
  target : ∀ y, e.target y = record (s.target y)
  bus : ∀ b, e.bus b = engine (s.bus b)
  owner : ∀ r, (record r).owner = r.owner
  list : ∀ u, (engine u).list = u.list

theorem Aged.refl (s : State) : Aged (fun r => r) (fun u => u) s s :=
  ⟨rfl, fun _ => rfl, fun _ => rfl, fun _ => rfl, fun _ => rfl⟩

theorem aged_elapse (s : State) (n : Nat) : Aged (·.elapse n) (·.elapse n) s (s.elapse n) :=
  ⟨rfl, elapse_target s n, elapse_bus s n, fun _ => rfl, fun _ => rfl⟩

section

variable {record : TargetRecord → TargetRecord} {engine : BusEngine → BusEngine} {s e : State}

theorem Aged.policy (h : Aged record engine s e) : e.policy = s.policy := by rw [h.rest]

theorem Aged.admission (h : Aged record engine s e) : e.admission = s.admission := by rw [h.rest]

theorem Aged.sameList (h : Aged record engine s e) (b : Bus) : (e.bus b).list = (s.bus b).list := by rw [h.bus, h.list]

theorem Aged.ownerOf (h : Aged record engine s e) (x : Target) : e.ownerOf x = s.ownerOf x :=
  ownerOf_congr (by rw [h.target, h.owner]) (h.sameList _)

/-- Postings, and so what falls with a target, do not depend on the time. -/
theorem Aged.fallen (h : Aged record engine s e) (x : Target) : SameDesk (s.fallen x) (e.fallen x) :=
  SameDesk.fallen ⟨by rw [h.rest], h.admission⟩ (by rw [h.target, h.owner]) (h.sameList _)

theorem Aged.fallen_port (h : Aged record engine s e) (x : Target) (p : Port) : (e.fallen x).port p = (s.fallen x).port p := by
  simp only [State.port, (h.fallen x).ports]

theorem Aged.fault_rest (h : Aged record engine s e) (x : Target) : e.fault x = { s with
    ports := (e.fault x).ports, targets := (e.fault x).targets, buses := (e.fault x).buses,
    admission := (e.fault x).admission } := by
  have same : e.fault x = { e with
      ports := (e.fault x).ports, targets := (e.fault x).targets, buses := (e.fault x).buses,
      admission := (e.fault x).admission } := by
    rw [Machine.fault_rest, fallen_rest e x]
    rfl
  rw [same, h.rest]

theorem Aged.fault_port (h : Aged record engine s e) (x : Target) (p : Port) : (e.fault x).port p =
    if (s.policy.mapping x).getLsbD p.val then ((s.fallen x).port p).raise .fault else (s.fallen x).port p := by
  rw [Machine.fault_port, h.policy, h.fallen_port]

end

/-! ### Limit expiries -/

/-- An expiry with nothing standing ready, or with no time left, lets the time that is left pass and has its effect (log 11). -/
theorem expire_passes {s : State} {x : Target} {left : TargetRecord → Option Nat} {act : State → State} {n : Nat}
    (h : s.stands = false ∨ n = 0) (hn : left (s.target x) = some n) : s.expire x left act = act (s.elapse n) := by
  rcases h with h | rfl
  · exact expire_runs h hn
  · simp [State.expire, hn]

/-- A limit that has run out, taken with no admission that has read the target (R106, R110, R129). -/
theorem limitExpires_faults {s : State} {x : Target} {l : Limit} (ha : s.admittingTarget x = false)
    (hl : (s.target x).overLimit l = true) : s.limitExpires x l = s.fault x := by
  simp [State.limitExpires, State.takeLimit, ha, hl]

/-- A running timer has run out once the time it had left has passed (R29). -/
theorem ripe_elapse {timer : Timer} {period spent : Nat} (h : timer = .running period spent) :
    (timer.elapse (period - spent)).ripe = true := by
  rw [h]
  simp only [Timer.elapse, Timer.ripe, decide_eq_true_eq]
  omega

section

variable {r : TargetRecord} {period spent : Nat}

theorem overLimit_program (hs : r.state = .programming) (h : r.program = .running period spent) :
    (r.elapse (period - spent)).overLimit .program = true :=
  (overLimit_iff _ _).2 (.inl ⟨rfl, hs, ripe_elapse h⟩)

theorem overLimit_latency (hs : r.state = .suspending) (h : r.latency = .running period spent) :
    (r.elapse (period - spent)).overLimit .latency = true :=
  (overLimit_iff _ _).2 (.inr (.inl ⟨rfl, hs, ripe_elapse h⟩))

/-- So has the busy time, at its limit tEL (R108). -/
theorem overLimit_busyTime (hs : r.state = .erasing ∨ r.state = .suspending) :
    (r.elapse (r.profile.tEL.toNat * 200000 - r.busyTime)).overLimit .busyTime = true := by
  refine (overLimit_iff _ _).2 (.inr (.inr ⟨rfl, hs, ?_⟩))
  have counting : r.counting = true := by simpa [TargetRecord.counting] using hs
  change r.profile.tEL.toNat * 200000 ≤ if r.counting then max r.busyTime (min (r.profile.tEL.toNat * 200000) _) else r.busyTime
  rw [if_pos counting]
  omega

end

/-- A command by which a limit of a target expires faults the target, once the time left has passed. -/
theorem exec_limit_faults {c : Instr} {s : State} {x : Target} {left : TargetRecord → Option Nat} {l : Limit} {n : Nat}
    (hc : exec c s = .next (s.expire x left (·.limitExpires x l))) (h : s.stands = false ∨ n = 0)
    (ha : s.admittingTarget x = false) (hn : left (s.target x) = some n)
    (hl : ((s.target x).elapse n).overLimit l = true) : exec c s = .next ((s.elapse n).fault x) := by
  have free : (s.elapse n).admittingTarget x = false := ha
  rw [hc, expire_passes h hn, limitExpires_faults free (by rw [elapse_target]; exact hl)]

/-- Settles O53. The fault of a state in which time has passed is read off the state before it, since time passes for targets
and frames alone (`SameDesk`). -/
theorem limitExpiriesFaultTheTarget : Obligations.LimitExpiriesFaultTheTarget := by
  unfold Obligations.LimitExpiriesFaultTheTarget
  intro x faults
  have key : ∀ (s e : State) (record : TargetRecord → TargetRecord) (engine : BusEngine → BusEngine),
      ReferencesDistinct s → Aged record engine s e → faults s (e.fault x) record engine := by
    intro s e record engine distinct aged
    unfold faults
    intro u owner owns falls mapped
    have mapping : ∀ p : Port, (s.policy.mapping x).getLsbD p.val = true ↔ mapped p := mapping_iff s.policy x
    have raised : ∀ p, mapped p → (e.fault x).port p = ((s.fallen x).port p).raise .fault := fun p hp => by
      rw [aged.fault_port, if_pos ((mapping p).2 hp)]
    have unraised : ∀ p, ¬ mapped p → (e.fault x).port p = (s.fallen x).port p := fun p hp => by
      rw [aged.fault_port, if_neg (mt (mapping p).1 hp)]
    have fallen : s.fallen x = (s.finishOwner x (s.target x).owner .failed .timeout).finishAll (busOf x)
      (u.list.filter (fun it => decide (falls it))) (fun it => it.report .failed .targetDown 0 []) :=
      fallen_eq fun it => decide_eq_true_iff
    refine ⟨aged.fault_rest x, ?_, ?_, fun y hy => ?_, fun b hb => ?_, ?_, ⟨?_, ?_, ?_⟩, fun p => ?_, fun p hp => ?_,
      fun p hp => ?_⟩
    · rw [fault_admission, fallen_rest e x, aged.admission]
    · rw [fault_target_same, aged.target]
    · rw [fault_target_other _ hy, aged.target]
    · rw [fault_bus, fallen_bus_other hb, aged.bus]
    · have nodup : ((e.bus (busOf x)).list.map (·.uid)).Nodup := by rw [aged.sameList]; exact (distinct _).1
      rw [fault_bus, fallen_bus_same nodup (g := fun it => decide (¬ owns it ∧ ¬ falls it)), aged.bus, aged.list]
      intro it
      rw [aged.ownerOf]
      exact decide_eq_true_iff
    · rw [fault_admission, (aged.fallen x).admission, fallen]
      rfl
    · intro p hp
      rw [raised p hp, fallen]
      rfl
    · intro p hp
      rw [unraised p hp, fallen]
      rfl
    · have queue : ((e.fault x).port p).queue = ((s.fallen x).port p).queue := by
        rw [aged.fault_port]
        split <;> rfl
      rw [queue, fallen_queue (g := fun it => decide (falls it)) fun it => decide_eq_true_iff]
      congr 2
      change Option.elim owner _ _ = _
      generalize owner = o
      cases o <;> rfl
    · rw [raised p hp]
      rfl
    · rw [unraised p hp, fallen_fault]
  refine ⟨fun s distinct => key s s _ _ distinct (.refl s), fun c n period spent s distinct h ha limit =>
    ⟨(s.elapse n).fault x, ?_, key s (s.elapse n) _ _ distinct (aged_elapse s n)⟩⟩
  rcases limit with ⟨rfl, state, runs, rfl⟩ | ⟨rfl, state, runs, rfl⟩ | ⟨rfl, state, rfl⟩
  · exact exec_limit_faults (left := (·.program.remaining)) rfl h ha (remaining_running runs) (overLimit_program state runs)
  · exact exec_limit_faults (left := (·.latency.remaining)) rfl h ha (remaining_running runs) (overLimit_latency state runs)
  · exact exec_limit_faults (left := (·.busyLeft)) rfl h ha (busyLeft_counting state) (overLimit_busyTime state)

end Sys2Proof.Machine
end

section
namespace Sys2Proof.Machine

/-! ### What every step keeps of the rings, the lists and the modes -/

/-- No move of a Bus Engine brings a new reference into its list, or changes the order of those that stay (R64). -/
theorem busMove_uids {e e' : BusEngine} (h : BusMove e e') : (e'.list.map (·.uid)).Sublist (e.list.map (·.uid)) := by
  cases h with
  | filter g => exact List.filter_sublist.map _
  | items f hf =>
    have same : (e.list.map f).map (·.uid) = e.list.map (·.uid) := by
      rw [List.map_map]
      exact List.map_congr_left fun it _ => (hf it).1
    exact same ▸ List.Sublist.refl _
  | aside _ hl => exact hl ▸ List.Sublist.refl _
  | frame | idle | mode => exact .refl _

theorem busMoves_uids {e e' : BusEngine} (h : BusMoves e e') : (e'.list.map (·.uid)).Sublist (e.list.map (·.uid)) := by
  induction h with
  | refl => exact .refl _
  | tail _ m ih => exact (busMove_uids m).trans ih

theorem busMoves_length {e e' : BusEngine} (h : BusMoves e e') : e'.list.length ≤ e.list.length := by
  simpa using (busMoves_uids h).length_le

/-- No move starts a frame in FLOAT, and none puts a bus with a frame in flight into FLOAT (R79, R80). -/
theorem busMove_float {e e' : BusEngine} (h : BusMove e e') (quiet : e.mode = .float → e.frame = none) :
    e'.mode = .float → e'.frame = none := by
  cases h with
  | filter | items => exact quiet
  | aside _ _ hf hm => exact hf.symm ▸ hm.symm ▸ quiet
  | frame r free => exact fun hm => absurd (quiet hm) (free.resolve_left (not_not.2 hm))
  | idle => exact fun _ => rfl
  | mode m free => exact fun hm => (free hm).elim id quiet

theorem busMoves_float {e e' : BusEngine} (h : BusMoves e e') (quiet : e.mode = .float → e.frame = none) :
    e'.mode = .float → e'.frame = none := by
  induction h with
  | refl => exact quiet
  | tail _ m ih => exact busMove_float m ih

theorem bus_congr {s t : State} (h : t.buses = s.buses) (b : Bus) : t.bus b = s.bus b := by simp only [State.bus, h]

/-- The list of a bus after an insertion: its own item at the tail, or as it was (R56). -/
theorem append_list (s : State) (it : Item) (b : Bus) : ((s.append it).bus b).list =
    (s.bus b).list ++ if b = busOf it.target then [{ it with uid := s.nextUid }] else [] := by
  split
  · next h => subst h; rw [append_bus_same]
  · next h => rw [append_bus_other s it b h, List.append_nil]

/-- No step of the work lists starts a frame in FLOAT. -/
theorem workStep_floatIsQuiet (s t : State) (h : WorkStep s t) (quiet : FloatIsQuiet s) : FloatIsQuiet t := by
  intro b
  cases h with
  | moves m => exact busMoves_float (m.buses b) (quiet b)
  | begins _ hb | ends hb => rw [bus_congr hb]; exact quiet b
  | inserts _ _ it _ hb =>
    rw [bus_congr hb]
    by_cases h : b = busOf it.target
    · subst h; rw [append_bus_same]; exact quiet _
    · rw [append_bus_other s it b h]; exact quiet b
  | device hb => rw [hb]; exact fun _ => rfl

/-- An item that is inserted takes a reference that no item has (log 10). -/
theorem workStep_referencesDistinct (s t : State) (h : WorkStep s t) (distinct : ReferencesDistinct s) :
    ReferencesDistinct t := by
  intro b
  obtain ⟨nodup, old⟩ := distinct b
  cases h with
  | moves m =>
    have sub := busMoves_uids (m.buses b)
    refine ⟨nodup.sublist sub, fun it hit => ?_⟩
    obtain ⟨x, hx, e⟩ := List.mem_map.1 (sub.subset (List.mem_map_of_mem hit))
    rw [m.uid, ← e]
    exact old x hx
  | begins _ hb hu | ends hb hu => rw [bus_congr hb, hu]; exact ⟨nodup, old⟩
  | inserts _ _ it _ hb hu =>
    rw [bus_congr hb, hu, append_list]
    split
    · constructor
      · rw [List.map_append, List.nodup_append]
        refine ⟨nodup, List.nodup_singleton _, fun uid huid new hnew e => ?_⟩
        obtain ⟨x, hx, rfl⟩ := List.mem_map.1 huid
        have fresh : new = s.nextUid := List.mem_singleton.1 hnew
        exact absurd (old x hx) (by omega)
      · intro x hx
        rcases List.mem_append.1 hx with hx | hx
        · exact (old x hx).trans (Nat.lt_succ_self _)
        · rw [List.mem_singleton.1 hx]; exact Nat.lt_succ_self _
    · rw [List.append_nil]
      exact ⟨nodup, fun x hx => (old x hx).trans (Nat.lt_succ_self _)⟩
  | device hb => rw [hb]; exact ⟨List.nodup_nil, fun _ hit => by cases hit⟩

/-- The bounds of the work lists alone: at most 24 items, and room for an insertion to come (R45, R64). -/
def ListsBounded (s : State) : Prop := (∀ b, (s.bus b).list.length ≤ 24) ∧
  ∀ p x it, s.admission.current = some { port := p, target := x, decision := .insert it } →
    (s.bus (busOf it.target)).list.length < 24

theorem withinBounds_iff (s : State) : WithinBounds s ↔ (∀ p, (s.port p).ring.length ≤ 8) ∧ ListsBounded s := Iff.rfl

/-- Only an insertion lengthens a list, and it finds the room that its admission has seen (R45). -/
theorem workStep_listsBounded (s t : State) (h : WorkStep s t) (bounded : ListsBounded s) : ListsBounded t := by
  obtain ⟨lists, room⟩ := bounded
  cases h with
  | moves m =>
    refine ⟨fun b => (busMoves_length (m.buses b)).trans (lists b), fun p x it hc => ?_⟩
    exact (busMoves_length (m.buses _)).trans_lt (room p x it (m.current ▸ hc))
  | begins a hb _ hc _ seen =>
    refine ⟨fun b => by rw [bus_congr hb]; exact lists b, fun p x it now => ?_⟩
    rw [bus_congr hb]
    have begun : a = { port := p, target := x, decision := .insert it } := Option.some.inj (hc.symm.trans now)
    exact seen it (by rw [begun])
  | inserts p x it now hb _ hc =>
    refine ⟨fun b => ?_, fun _ _ _ h => by rw [hc] at h; cases h⟩
    rw [bus_congr hb, append_list, List.length_append]
    split
    · next e => subst e; exact room p x it now
    · exact lists b
  | ends hb _ hc =>
    exact ⟨fun b => by rw [bus_congr hb]; exact lists b, fun _ _ _ h => by rw [hc] at h; cases h⟩
  | device hb _ hc => exact ⟨fun b => by rw [hb]; exact Nat.zero_le _, fun _ _ _ h => by rw [hc] at h; cases h⟩

theorem dropOrphan_ring (u : PortUnit) (k : Option SlotIx) : (u.dropOrphan k).ring = u.ring := by
  simp [PortUnit.dropOrphan]

theorem collectFront_ring (u : PortUnit) (r : Completion) : (u.collectFront r).ring = u.ring := by
  simp [PortUnit.collectFront, PortUnit.judge]

/-- Only an accepted SUBMIT lengthens a ring, and it finds an entry free (R40, R153). -/
theorem portMove_ring {u v : PortUnit} (h : PortMove u v) (bounded : u.ring.length ≤ 8) : v.ring.length ≤ 8 := by
  cases h with
  | accept r room => simpa [PortUnit.accept] using room
  | shorten l short => exact short.trans bounded
  | cutLoose | device => exact Nat.zero_le _
  | post k r => rw [post_ring]; exact bounded
  | drop k => rw [dropOrphan_ring]; exact bounded
  | space => rw [judgeSpace_ring]; exact bounded
  | collect r => rw [collectFront_ring]; exact bounded
  | store => rw [modSlot?_ring]; exact bounded
  | link | result | hold | raise | arm | load | free | clear | enable => exact bounded

theorem step_withinBounds {s t : State} (bounds : WithinBounds s) (h : step s = .next t) : WithinBounds t := by
  obtain ⟨rings, lists⟩ := (withinBounds_iff s).1 bounds
  exact (withinBounds_iff t).2 ⟨step_keeps_ports (fun _ _ => portMove_ring) h rings,
    step_keeps_work workStep_listsBounded (fun _ _ => id) h lists⟩

/-- The passing of time moves nothing that an account is about (R29, R85). -/
theorem InOrder.elapse {s : State} {n : Nat} (h : InOrder s) : InOrder (s.elapse n) :=
  h.works h.accounts.elapse (workMove_elapse (.refl s)) rfl

theorem step_inOrder {s t : State} (h : InOrder s) (hs : step s = .next t) : InOrder t := by
  unfold step at hs
  split at hs
  · cases hs
    exact h.settle.elapse
  · next rest _ =>
    have k : InOrder { s with pending := rest } := h.aside rfl rfl rfl rfl rfl
    exact exec_inOrder k hs

/-- Settles O60. The rings by the moves of the Port Units, lists, references and FLOAT by the steps of the work lists, and the
accounts by what every command does to them. -/
theorem stepsKeepTheListsInOrder : Obligations.StepsKeepTheListsInOrder := by
  unfold Obligations.StepsKeepTheListsInOrder
  exact ⟨fun _ _ => step_withinBounds, fun _ _ distinct h => step_keeps_work workStep_referencesDistinct (fun _ _ => id) h distinct,
    fun _ _ quiet h => step_keeps_work workStep_floatIsQuiet (fun _ _ => id) h quiet, fun _ _ => step_inOrder⟩

/-! ### Reset -/

theorem reset_inOrder : InOrder .reset := inOrder_reset reset_port reset_bus reset_target rfl

/-- Settles O57: at reset every list and slot is empty, no frame is in flight, and no admission is under way. -/
theorem resetMeetsTheConditions : Obligations.ResetMeetsTheConditions := by
  unfold Obligations.ResetMeetsTheConditions
  refine ⟨fun p k => ?_, fun p => ?_, ⟨fun p => ?_, fun b => ?_, fun _ _ _ h => by cases h⟩, reset_inOrder.work.distinct,
    fun b _ => ?_, reset_inOrder⟩
  · rw [reset_port]; simp [PortUnit.reset, Slot.freed]
  · rw [reset_port]; exact ⟨rfl, rfl⟩
  · rw [reset_port]; exact Nat.zero_le _
  · rw [reset_bus]; exact Nat.zero_le _
  · rw [reset_bus]; rfl

end Sys2Proof.Machine
end

section
namespace Sys2Proof.Machine

/-! ### Time -/

theorem elapse_rest (s : State) (n : Nat) :
    s.elapse n = { s with targets := (s.elapse n).targets, buses := (s.elapse n).buses } := rfl

theorem step_idle {s : State} (h : s.pending = []) : step s = .next (s.settle.elapse 1) := by
  unfold step
  rw [h]

/-- Settles O2: a step on an empty queue is `State.elapse`, which is taken apart by target and by bus. -/
theorem stepOnAnEmptyQueueIsOneClockPeriod : Obligations.StepOnAnEmptyQueueIsOneClockPeriod := by
  unfold Obligations.StepOnAnEmptyQueueIsOneClockPeriod
  refine ⟨fun _ _ => rfl, fun n s => ⟨elapse_rest s n, elapse_target s n, elapse_bus s n⟩, fun s => step_idle,
    fun s idle quiet => ⟨s.elapse 1, ?_, elapse_rest s 1, elapse_target s 1, elapse_bus s 1⟩⟩
  rw [step_idle idle, settle_none quiet]

/-! ### Timers -/

theorem elapse_busyTime (r : TargetRecord) (n : Nat) : (r.elapse n).busyTime =
    if r.state = .erasing ∨ r.state = .suspending then max r.busyTime (min (r.profile.tEL.toNat * 200000) (r.busyTime + n))
    else r.busyTime := by
  simp only [TargetRecord.elapse, TargetRecord.counting, Bool.or_eq_true, decide_eq_true_eq]
  rfl

/-- The expiry of a timer, whose effect marks it expired (R71, R123, R133): its time left passes, and it alone is marked. -/
theorem expire_marks {s : State} {x : Target} {left : TargetRecord → Option Nat} {mark : TargetRecord → TargetRecord} {n : Nat}
    (h : s.stands = false ∨ n = 0) (hn : left (s.target x) = some n) :
    let t := s.expire x left (·.modTarget x mark)
    t = { s with targets := t.targets, buses := t.buses } ∧ t.target x = mark ((s.target x).elapse n) ∧
      (∀ y, y ≠ x → t.target y = (s.target y).elapse n) ∧ ∀ b, t.bus b = (s.bus b).elapse n := by
  dsimp only
  rw [expire_passes h hn]
  refine ⟨rfl, ?_, fun y hy => ?_, elapse_bus s n⟩
  · rw [target_modTarget, if_pos rfl, elapse_target]
  · rw [target_modTarget, if_neg hy, elapse_target]

/-- Settles O52: the busy time in numbers, and the three expiries as one (`expire_marks`). -/
theorem timersExpire : Obligations.TimersExpire := by
  unfold Obligations.TimersExpire
  refine ⟨⟨rfl, fun n hn => if_neg hn.ne'⟩, fun r n => ⟨rfl, fun counting => ?_, fun he hs => ?_⟩,
    fun x period spent s h => ?_⟩
  · rw [elapse_busyTime, if_pos counting]
    omega
  · rw [elapse_busyTime, if_neg (by simp [he, hs])]
  · have ready : s.stands = false ∨ period - spent = 0 := h.imp_right Nat.sub_eq_zero_of_le
    exact ⟨fun runs => ⟨_, rfl, expire_marks ready (remaining_running runs)⟩,
      fun runs => ⟨_, rfl, expire_marks ready (remaining_running runs)⟩,
      fun runs => ⟨_, rfl, expire_marks ready (remaining_running runs)⟩⟩

end Sys2Proof.Machine
end

section
namespace Sys2Proof.Machine

/-! ### When an admission is under way, and what it holds back -/

section

variable (s : State)

theorem frameWaits_iff (p : Port) : s.frameWaits p = true ↔ ∃ c, .frame c ∈ s.waiting ∧ portOfFrame c = some p := by
  simp only [State.frameWaits, List.any_eq_true]
  constructor
  · rintro ⟨w, hw, hp⟩
    cases w with
    | frame c => exact ⟨c, hw, eq_of_beq hp⟩
    | cancelHead | expiry | targetReset | busReset => cases hp
  · rintro ⟨c, hc, hp⟩
    exact ⟨.frame c, hc, beq_of_eq hp⟩

theorem admittingPort_iff (p : Port) : s.admittingPort p = true ↔ ∃ a, s.admission.current = some a ∧ a.port = p := by
  unfold State.admittingPort
  cases s.admission.current <;> simp

theorem admittingTarget_iff (x : Target) :
    s.admittingTarget x = true ↔ ∃ a, s.admission.current = some a ∧ a.target = some x := by
  unfold State.admittingTarget
  cases s.admission.current <;> simp

theorem admittingBus_iff (b : Bus) :
    s.admittingBus b = true ↔ ∃ a x, s.admission.current = some a ∧ a.target = some x ∧ busOf x = b := by
  unfold State.admittingBus
  cases s.admission.current <;> simp

theorem frameTo_iff (x : Target) : s.frameTo x = true ↔ ∃ r, (s.bus (busOf x)).frame = some r ∧ r.target = x := by
  unfold State.frameTo
  cases (s.bus (busOf x)).frame <;> simp

theorem below_eq_some {n : Nat} {b : Byte} {k : Fin n} : below n b = some k ↔ b.toNat = k.val := by
  unfold below
  split
  · rw [Option.some.injEq, Fin.ext_iff]
  · next h => exact iff_of_false (by simp) fun e => h (e ▸ k.isLt)

/-- A SETUP TARGET of the authority's, whole and with a valid profile, on the target under admission (R33). -/
theorem setupWaits_iff (p : Port) (bytes : List Byte) : s.setupWaits p bytes = true ↔ p = s.authority ∧ 32 ≤ bytes.length ∧
    Profile.ofBytes bytes 1 ≠ none ∧
    ∃ a x, (byteAt bytes 0).toNat = x.val ∧ s.admission.current = some a ∧ a.target = some x := by
  simp only [State.setupWaits, Bool.and_eq_true, decide_eq_true_eq, Option.isSome_iff_ne_none, and_assoc, ← below_eq_some]
  cases below 8 (byteAt bytes 0) with
  | none => simp
  | some x => simp [admittingTarget_iff]

theorem removeWaits_iff (p : Port) (bytes : List Byte) : s.removeWaits p bytes = true ↔ p = s.authority ∧ 1 ≤ bytes.length ∧
    ∃ a x, (byteAt bytes 0).toNat = x.val ∧ s.admission.current = some a ∧ a.target = some x := by
  simp only [State.removeWaits, Bool.and_eq_true, decide_eq_true_eq, and_assoc, ← below_eq_some]
  cases below 8 (byteAt bytes 0) with
  | none => simp
  | some x => simp [admittingTarget_iff]

/-- Only these frames are held back by an admission alone (R33, R41). -/
theorem heldBack_frames (c : Instr) (h : s.heldBack c = true) :
    ∃ p bytes, c = .portReset p bytes ∨ c = .setupTarget p bytes ∨ c = .removeTarget p bytes := by
  unfold State.heldBack at h
  split at h
  · exact ⟨_, _, .inl rfl⟩
  · exact ⟨_, _, .inr (.inl rfl)⟩
  · exact ⟨_, _, .inr (.inr rfl)⟩
  · cases h

end

/-! ### How it holds them back -/

section

variable {s : State} {p : Port} {x : Target}

theorem exec_frame_waits {c : Instr} (hp : portOfFrame c = some p) (hd : s.deaf p = false) (hf : s.frameWaits p = true) :
    exec c s = .next (s.wait (.frame c)) := by
  rw [exec_frame hp hd, upstream_waits hd hf]

/-- A frame that nothing holds back is taken as it comes. -/
theorem exec_frame_taken {c : Instr} (hp : portOfFrame c = some p) (hears : s.hears p) (free : s.heldBack c = false) :
    exec c s = .next (takeFrame c s) := by
  rw [exec_frame hp hears.1, upstream_taken_of hears free]

/-- A frame held back waits with its frame open (R179, log 5). -/
theorem exec_frame_held {c : Instr} (hp : portOfFrame c = some p) (hears : s.hears p) (held : s.heldBack c = true) :
    exec c s = .next ((s.openFrame p).wait (.frame c)) := by
  rw [exec_frame hp hears.1, upstream_held hears held]

/-- A limit expiry waits for an admission that has read the target, while the time it names passes (R52, log 11). -/
theorem expire_limit_waits {left : TargetRecord → Option Nat} {l : Limit} {n : Nat} (h : s.stands = false ∨ n = 0)
    (ha : s.admittingTarget x = true) (hn : left (s.target x) = some n) :
    s.expire x left (·.limitExpires x l) = (s.elapse n).wait (.expiry x l) := by
  have ha' : (s.elapse n).admittingTarget x = true := ha
  rw [expire_passes h hn]
  exact if_pos ha'

theorem settleTargetReset_waits (ha : s.admittingTarget x = true) : s.settleTargetReset x = State.waitFirst
    { s with resetClaims := s.resetClaims.filter (fun y => decide (y ≠ x)) } (.targetReset x) := if_pos ha

theorem settleBusReset_waits {b : Bus} (ha : s.admittingBus b = true) : s.settleBusReset b =
    (s.setBus b { s.bus b with resets := (s.bus b).resets - 1 }).wait (.busReset b) := if_pos ha

end

/-- Settles O8. The frames by `State.upstream`, the expiries by `State.expire`, and the claims by the settling of one claim. -/
theorem eventsWaitForTheAdmission : Obligations.EventsWaitForTheAdmission := by
  unfold Obligations.EventsWaitForTheAdmission
  intro opened
  refine ⟨fun s => ⟨fun _ => rfl, frameWaits_iff s, admittingPort_iff s, admittingTarget_iff s, admittingBus_iff s,
      frameTo_iff s, fun _ _ => rfl, heldBack_frames s⟩, fun c p s => exec_frame_waits,
    fun p bytes s hears held => exec_frame_held (c := .portReset p bytes) rfl hears held,
    fun x bytes pr s hears ha len number valid => ?_, fun x bytes s hears ha len number => ?_,
    fun x period spent s h ha runs => ?_, fun x period spent s h ha runs => ?_, fun x s h ha counting => ?_,
    fun x s ha claimed free => ?_, fun b s ha issued => ?_⟩
  · obtain ⟨a, now, read⟩ := (admittingTarget_iff s x).1 ha
    exact exec_frame_held (c := .setupTarget s.authority bytes) rfl hears
      ((setupWaits_iff s _ bytes).2 ⟨rfl, len, by simp [valid], a, x, number, now, read⟩)
  · obtain ⟨a, now, read⟩ := (admittingTarget_iff s x).1 ha
    exact exec_frame_held (c := .removeTarget s.authority bytes) rfl hears
      ((removeWaits_iff s _ bytes).2 ⟨rfl, len, a, x, number, now, read⟩)
  · exact congrArg _ (expire_limit_waits (h.imp_right Nat.sub_eq_zero_of_le) ha (remaining_running runs))
  · exact congrArg _ (expire_limit_waits (h.imp_right Nat.sub_eq_zero_of_le) ha (remaining_running runs))
  · exact congrArg _ (expire_limit_waits (h.imp_right Nat.sub_eq_zero_of_le) ha (busyLeft_counting counting))
  · rw [exec_targetResetClaim claimed free, settleTargetReset_waits ha]; rfl
  · rw [exec_busResetClaim issued.ne', settleBusReset_waits ha]

/-! ### SETUP TARGET and REMOVE TARGET -/

/-- A target is quiet: ABSENT, IDLE or FAULTED, and no item of its bus names it (R33). -/
theorem quiet_iff (s : State) (x : Target) : s.quiet x = true ↔
    ((s.target x).state = .absent ∨ (s.target x).state = .idle ∨ (s.target x).state = .faulted) ∧
      ∀ it ∈ (s.bus (busOf x)).list, it.target ≠ x := by
  have rest : (s.target x).atRest = true ↔
      (s.target x).state = .absent ∨ (s.target x).state = .idle ∨ (s.target x).state = .faulted := by
    unfold TargetRecord.atRest
    cases (s.target x).state <;> simp
  simp only [State.quiet, Bool.and_eq_true, rest, BusEngine.names, Bool.not_eq_true', List.any_eq_false, decide_eq_true_eq]

/-- A frame taken that also changes the target records, and nothing else. -/
structure TargetFrameTaken (p : Port) (result : Result) (targets : Vector TargetRecord 8) (s t : State) : Prop
    extends FrameTaken p result s t where
  rest : t = { s with ports := t.ports, targets := t.targets }
  targets : t.targets = targets

/-- A frame without a reply whose effect is one on the target records. -/
theorem plainFrame_targets {s : State} {p : Port} {need : Nat} {bytes : List Byte} {act : State → State × Result}
    {result : Result} {targets : Vector TargetRecord 8} (hn : need ≤ bytes.length + 1)
    (ha : act (s.setPort p (s.port p).opened) = ({ s.setPort p (s.port p).opened with targets := targets }, result)) :
    TargetFrameTaken p result targets s (s.plainFrame p need bytes act) := by
  obtain ⟨rest, taken⟩ := plainFrame_taken hn ha rfl
  refine ⟨taken, ?_, ?_⟩
  all_goals rw [rest]
  rfl

section

variable {p : Port} {bytes : List Byte} {s : State} {x : Target} {pr : Profile}

theorem takeSetupTarget_notAuth (hn : 33 ≤ bytes.length + 1) (hp : p ≠ s.authority) :
    TargetFrameTaken p .notAuth s.targets s (takeSetupTarget p bytes s) := plainFrame_targets hn (if_pos hp)

theorem takeSetupTarget_badField (hn : 33 ≤ bytes.length + 1) (hp : p = s.authority)
    (h : 7 < (byteAt bytes 0).toNat ∨ Profile.ofBytes bytes 1 = none) :
    TargetFrameTaken p .badField s.targets s (takeSetupTarget p bytes s) := by
  refine plainFrame_targets hn ((if_neg (not_not.2 hp)).trans ?_)
  rcases h with h | h
  · rw [below_none h]; rfl
  · rw [h]; cases below 8 (byteAt bytes 0) <;> rfl

theorem takeSetupTarget_notNow (hn : 33 ≤ bytes.length + 1) (hp : p = s.authority) (hx : (byteAt bytes 0).toNat = x.val)
    (hpr : Profile.ofBytes bytes 1 = some pr) (hq : s.quiet x = false) :
    TargetFrameTaken p .notNow s.targets s (takeSetupTarget p bytes s) := by
  refine plainFrame_targets hn ((if_neg (not_not.2 hp)).trans ?_)
  rw [below_some hx, hpr]
  exact if_neg (Bool.eq_false_iff.1 hq)

/-- The profile is stored (R31). -/
theorem takeSetupTarget_ok (hn : 33 ≤ bytes.length + 1) (hp : p = s.authority) (hx : (byteAt bytes 0).toNat = x.val)
    (hpr : Profile.ofBytes bytes 1 = some pr) (hq : s.quiet x = true) :
    TargetFrameTaken p .ok (s.setTarget x ((s.target x).setup pr)).targets s (takeSetupTarget p bytes s) := by
  refine plainFrame_targets hn ((if_neg (not_not.2 hp)).trans ?_)
  rw [below_some hx, hpr]
  exact if_pos hq

theorem takeSetupTarget_taken (hn : 33 ≤ bytes.length + 1) :
    ∃ result targets, TargetFrameTaken p result targets s (takeSetupTarget p bytes s) := by
  by_cases hp : p = s.authority
  · by_cases h : 7 < (byteAt bytes 0).toNat ∨ Profile.ofBytes bytes 1 = none
    · exact ⟨_, _, takeSetupTarget_badField hn hp h⟩
    · obtain ⟨number, valid⟩ := not_or.1 h
      obtain ⟨pr, hpr⟩ := Option.ne_none_iff_exists'.1 valid
      have hx : (byteAt bytes 0).toNat = (⟨(byteAt bytes 0).toNat, by omega⟩ : Target).val := rfl
      cases hq : s.quiet ⟨(byteAt bytes 0).toNat, by omega⟩ with
      | false => exact ⟨_, _, takeSetupTarget_notNow hn hp hx hpr hq⟩
      | true => exact ⟨_, _, takeSetupTarget_ok hn hp hx hpr hq⟩
  · exact ⟨_, _, takeSetupTarget_notAuth hn hp⟩

/-- A target that may be removed: IDLE or FAULTED, and quiet (R32). -/
theorem removable_iff : ((s.target x).removable && s.quiet x) = true ↔
    ((s.target x).state = .idle ∨ (s.target x).state = .faulted) ∧ ∀ it ∈ (s.bus (busOf x)).list, it.target ≠ x := by
  simp only [TargetRecord.removable, Bool.and_eq_true, Bool.or_eq_true, decide_eq_true_eq, quiet_iff]
  exact ⟨fun ⟨rest, _, unnamed⟩ => ⟨rest, unnamed⟩, fun ⟨rest, unnamed⟩ => ⟨rest, .inr rest, unnamed⟩⟩

theorem takeRemoveTarget_notAuth (hn : 2 ≤ bytes.length + 1) (hp : p ≠ s.authority) :
    TargetFrameTaken p .notAuth s.targets s (takeRemoveTarget p bytes s) := plainFrame_targets hn (if_pos hp)

theorem takeRemoveTarget_badField (hn : 2 ≤ bytes.length + 1) (hp : p = s.authority) (h : 7 < (byteAt bytes 0).toNat) :
    TargetFrameTaken p .badField s.targets s (takeRemoveTarget p bytes s) :=
  plainFrame_targets hn ((if_neg (not_not.2 hp)).trans (by rw [below_none h]; rfl))

theorem takeRemoveTarget_notNow (hn : 2 ≤ bytes.length + 1) (hp : p = s.authority) (hx : (byteAt bytes 0).toNat = x.val)
    (hq : ((s.target x).removable && s.quiet x) = false) :
    TargetFrameTaken p .notNow s.targets s (takeRemoveTarget p bytes s) := by
  refine plainFrame_targets hn ((if_neg (not_not.2 hp)).trans ?_)
  rw [below_some hx]
  exact if_neg (Bool.eq_false_iff.1 hq)

/-- The target becomes ABSENT (R32). -/
theorem takeRemoveTarget_ok (hn : 2 ≤ bytes.length + 1) (hp : p = s.authority) (hx : (byteAt bytes 0).toNat = x.val)
    (hq : ((s.target x).removable && s.quiet x) = true) :
    TargetFrameTaken p .ok (s.setTarget x .absent).targets s (takeRemoveTarget p bytes s) := by
  refine plainFrame_targets hn ((if_neg (not_not.2 hp)).trans ?_)
  rw [below_some hx]
  exact if_pos hq

theorem takeRemoveTarget_taken (hn : 2 ≤ bytes.length + 1) :
    ∃ result targets, TargetFrameTaken p result targets s (takeRemoveTarget p bytes s) := by
  by_cases hp : p = s.authority
  · by_cases number : 7 < (byteAt bytes 0).toNat
    · exact ⟨_, _, takeRemoveTarget_badField hn hp number⟩
    · generalize h : (⟨(byteAt bytes 0).toNat, by omega⟩ : Target) = x
      have hx : (byteAt bytes 0).toNat = x.val := by rw [← h]
      cases hq : (s.target x).removable && s.quiet x with
      | false => exact ⟨_, _, takeRemoveTarget_notNow hn hp hx hq⟩
      | true => exact ⟨_, _, takeRemoveTarget_ok hn hp hx hq⟩
  · exact ⟨_, _, takeRemoveTarget_notAuth hn hp⟩

end

/-- Target records as a frame has left them. -/
theorem TargetFrameTaken.target {p : Port} {result : Result} {x : Target} {r : TargetRecord} {s t : State}
    (h : TargetFrameTaken p result (s.setTarget x r).targets s t) (y : Target) : t.target y = (s.setTarget x r).target y := by
  simp only [State.target, h.targets]

/-- Settles O29, by the outcome of the frame. -/
theorem setupTargetStoresAProfile : Obligations.SetupTargetStoresAProfile := by
  unfold Obligations.SetupTargetStoresAProfile
  refine ⟨fun p bytes s => setupWaits_iff s p bytes, fun p bytes s hears free hlen => ?_⟩
  have hn : 33 ≤ bytes.length + 1 := Nat.succ_le_succ hlen
  obtain ⟨_, _, taken⟩ := takeSetupTarget_taken (p := p) (s := s) hn
  refine ⟨takeSetupTarget p bytes s, exec_frame_taken (c := .setupTarget p bytes) rfl hears free,
    taken.rest, taken.others, taken.own, fun hp => ?_,
    fun hp h => ?_, fun hp x hx pr hpr => ⟨fun hq => ?_, fun hq => ?_⟩⟩
  · have k := takeSetupTarget_notAuth hn hp
    exact ⟨k.targets, k.last⟩
  · have k := takeSetupTarget_badField hn hp h
    exact ⟨k.targets, k.last⟩
  · have k := takeSetupTarget_notNow hn hp hx hpr (Bool.eq_false_iff.2 (mt (quiet_iff s x).1 hq))
    exact ⟨k.targets, k.last⟩
  · have k := takeSetupTarget_ok hn hp hx hpr ((quiet_iff s x).2 hq)
    refine ⟨k.last, fun y hy => ?_, fun absent => ?_, fun present => ?_⟩
    · rw [k.target, target_setTarget_other _ _ _ _ hy]
    · rw [k.target, target_setTarget_same]; exact if_pos absent
    · rw [k.target, target_setTarget_same]; exact if_neg present

/-- Settles O30, by the outcome of the frame. -/
theorem removeTargetMakesItAbsent : Obligations.RemoveTargetMakesItAbsent := by
  unfold Obligations.RemoveTargetMakesItAbsent
  refine ⟨fun p bytes s => removeWaits_iff s p bytes, fun p bytes s hears free hlen => ?_⟩
  have hn : 2 ≤ bytes.length + 1 := Nat.succ_le_succ hlen
  obtain ⟨_, _, taken⟩ := takeRemoveTarget_taken (p := p) (s := s) hn
  refine ⟨takeRemoveTarget p bytes s, exec_frame_taken (c := .removeTarget p bytes) rfl hears free,
    taken.rest, taken.others, taken.own, fun hp => ?_,
    fun hp h => ?_, fun hp x hx => ⟨fun hm => ?_, fun hm => ?_⟩⟩
  · have k := takeRemoveTarget_notAuth hn hp
    exact ⟨k.targets, k.last⟩
  · have k := takeRemoveTarget_badField hn hp h
    exact ⟨k.targets, k.last⟩
  · have k := takeRemoveTarget_notNow hn hp hx (Bool.eq_false_iff.2 (mt removable_iff.1 hm))
    exact ⟨k.targets, k.last⟩
  · have k := takeRemoveTarget_ok hn hp hx (removable_iff.2 hm)
    have gone : (takeRemoveTarget p bytes s).target x = .absent := by rw [k.target, target_setTarget_same]
    refine ⟨k.last, fun y hy => by rw [k.target, target_setTarget_other _ _ _ _ hy], ?_⟩
    rw [gone]
    exact ⟨rfl, rfl, rfl, rfl, rfl, rfl, rfl, rfl, rfl, rfl, rfl, rfl, rfl, rfl⟩

end Sys2Proof.Machine
end

section
namespace Sys2Proof.Machine

/-! ### Data bytes -/

theorem serving_iff (e : BusEngine) (r : FrameRecord) (it : Item) : e.serving = some (r, it) ↔
    e.frame = some r ∧ ∃ uid, r.item = some uid ∧ e.find uid = some it := by
  unfold BusEngine.serving
  cases e.frame with
  | none => simp
  | some q =>
    simp only [Option.map_eq_some_iff, Prod.mk.injEq, Option.some.injEq, Option.bind_eq_some_iff]
    constructor
    · rintro ⟨_, found, rfl, rfl⟩
      exact ⟨rfl, found⟩
    · rintro ⟨rfl, found⟩
      exact ⟨it, found, rfl, rfl⟩

/-- The samples of SDI stand in the byte received in the bit order of the frame (R22, R83). -/
theorem received_samples (o : BitOrder) (sdi : Byte) (i : Nat) (h : i < 8) :
    (o.received sdi).getLsbD (if o = .msbFirst then 7 - i else i) = sdi.getLsbD (7 - i) := by
  rw [← BitOrder.bit_received o sdi h]
  cases o <;> rfl

section

variable {s : State} {b : Bus} {r : FrameRecord} {it : Item}

/-- The state after a data byte of the READ in flight: the item and the frame count it, and the slot holds it (R86). -/
def State.byteReceived (s : State) (b : Bus) (r : FrameRecord) (it : Item) (data : Byte) : State :=
  (s.modBus b (fun e => (e.modItem it.uid (·.receive data)).start
    { r with progress := r.afterBytes (r.header.length + it.bytesMoved + 1) })).modPort it.port
      (·.modSlot? it.slot (fun k => { k with data := k.data.write it.bytesMoved data }))

theorem exec_dataByteReceived {sdi : Byte} (hs : (s.bus b).serving = some (r, it)) (hk : r.kind = .read)
    (more : it.bytesMoved < r.dataLimit) : exec (.dataByteReceived b sdi) s =
      .next (s.byteReceived b r it (r.framing.bitOrder.received sdi)) := by
  change execDataByteReceived b sdi s = _
  simp only [execDataByteReceived, hs]
  exact congrArg _ (if_pos (by simp [hk, more]))

theorem exec_dataByteSent (hs : (s.bus b).serving = some (r, it)) (hk : r.kind = .programPair) (hp : r.pair = some .second)
    (more : it.bytesMoved < r.count) : exec (.dataByteSent b) s =
      .next (s.modBus b (fun e => (e.modItem it.uid (fun x => { x with bytesMoved := x.bytesMoved + 1 })).start
        { r with progress := r.afterBytes (r.header.length + it.bytesMoved + 1) })) := by
  change execDataByteSent b s = _
  simp only [execDataByteSent, hs]
  exact congrArg _ (if_pos (by simp [hk, hp, more]))

theorem byteReceived_port_same (data : Byte) : (s.byteReceived b r it data).port it.port =
    (s.port it.port).modSlot? it.slot (fun k => { k with data := k.data.write it.bytesMoved data }) :=
  port_setPort_same _ _ _

theorem byteReceived_port_other (data : Byte) {q : Port} (h : q ≠ it.port) :
    (s.byteReceived b r it data).port q = s.port q := port_setPort_other _ _ _ _ h

end

theorem onlyBus_setBus (s : State) (b : Bus) (e : BusEngine) : OnlyBus b s (s.setBus b e) :=
  ⟨rfl, fun c h => bus_setBus_other s b c e h⟩

/-- Settles O46: the two commands by their effect on the bus and on the slot of the item served. -/
theorem dataBytesMove : Obligations.DataBytesMove := by
  unfold Obligations.DataBytesMove
  refine ⟨serving_iff, fun b sdi r it s hs hk more => ?_, fun b r it s hs hk hp more => ?_⟩
  · refine ⟨r.framing.bitOrder.received sdi, _, received_samples _ sdi, exec_dataByteReceived hs hk more, rfl,
      fun c hc => bus_setBus_other s b c _ hc, bus_setBus_same s b _, fun q hq => byteReceived_port_other _ hq,
      fun none => ?_, fun k named => ?_⟩
    · rw [byteReceived_port_same, none]; rfl
    · rw [byteReceived_port_same, named]
      exact ⟨_, rfl, rfl, rfl, rfl, fun canonical inside => read_write canonical inside _⟩
  · exact ⟨_, exec_dataByteSent hs hk hp more, onlyBus_setBus s b _, bus_setBus_same s b _⟩

end Sys2Proof.Machine
end

section
namespace Sys2Proof.Machine

/-! ### Status bytes -/

/-- A busy bit governs (R25, R101). -/
theorem judge_busy {pr : Profile} {status : Byte} (h : status &&& pr.busyMask ≠ 0) : pr.judge status = .busy := if_neg h

theorem judge_clear {pr : Profile} {status : Byte} (h : status &&& pr.busyMask = 0) : pr.judge status =
    .clear (status &&& pr.failMask != 0) (status &&& pr.suspendedMask != 0) := if_pos h

section

variable {s : State} {x : Target} {status : Byte}

/-- Only a PROGRAMMING, ERASING or SUSPENDING target weighs a status byte (R101). -/
theorem statusResult_unpolled (hp : (s.target x).state ≠ .programming) (he : (s.target x).state ≠ .erasing)
    (hs : (s.target x).state ≠ .suspending) : s.statusResult x status = s := by
  unfold State.statusResult
  split <;> first | contradiction | rfl

/-- A busy status byte starts the poll timer again (R102). -/
theorem statusResult_busy (h : (s.target x).state = .programming ∨ (s.target x).state = .erasing ∨
    (s.target x).state = .suspending) (busy : status &&& (s.target x).profile.busyMask ≠ 0) :
    s.statusResult x status = s.modTarget x (·.restartPoll) := by
  rcases h with h | h | h <;> simp only [State.statusResult, h, judge_busy busy]

variable (clear : status &&& (s.target x).profile.busyMask = 0)

include clear

theorem statusResult_held (h : (s.target x).state = .suspending)
    (held : status &&& (s.target x).profile.suspendedMask ≠ 0) :
    s.statusResult x status = s.modTarget x (·.toSuspended) := by
  simp only [State.statusResult, h, judge_clear clear, bne_iff_ne.2 held]

theorem statusResult_programEnd (h : (s.target x).state = .programming) :
    s.statusResult x status = s.programEnd x (status &&& (s.target x).profile.failMask != 0) := by
  simp only [State.statusResult, h, judge_clear clear]

/-- An erase unit ends: the target is ERASING, or SUSPENDING with its suspended bits clear (R109, R128). -/
theorem statusResult_eraseUnitEnd (h : (s.target x).state = .erasing ∨
    ((s.target x).state = .suspending ∧ ¬ status &&& (s.target x).profile.suspendedMask ≠ 0)) :
    s.statusResult x status = s.eraseUnitEnd x (status &&& (s.target x).profile.failMask != 0) := by
  rcases h with h | ⟨h, unheld⟩
  · simp only [State.statusResult, h, judge_clear clear]
  · simp only [State.statusResult, h, judge_clear clear, bne_eq_false_iff_eq.2 (not_not.1 unheld)]

end

/-! #### The end of a program and of an erase unit -/

section

variable (s : State) (x : Target)

/-- The state in which a busy target has become IDLE, its owner still in the list. -/
def State.madeIdle (s : State) (x : Target) : State := s.setTarget x (s.target x).inIdle

theorem programEnd_eq (failed : Bool) : s.programEnd x failed =
    if failed then (s.madeIdle x).finishOwner x (s.target x).owner .failed .devFail
    else (s.madeIdle x).finishOwner x (s.target x).owner .done .none := rfl

theorem eraseUnitEnd_eq (failed : Bool) : s.eraseUnitEnd x failed =
    if failed then (s.madeIdle x).finishOwner x (s.target x).owner .failed .devFail
    else (s.madeIdle x).unitEndedWell x (s.target x).owner := rfl

variable {s x} {failed : Bool} {it : Item}

theorem programEnd_unowned (h : s.ownerOf x = none) : s.programEnd x failed = s.madeIdle x := by
  rw [programEnd_eq]
  split <;> exact finishOwner_none (s := s.madeIdle x) h

theorem unitEndedWell_unowned (h : s.ownerOf x = none) : (s.madeIdle x).unitEndedWell x (s.target x).owner = s.madeIdle x := by
  have h' : (s.target x).owner.bind ((s.madeIdle x).bus (busOf x)).find = none := h
  unfold State.unitEndedWell
  rw [h']

theorem eraseUnitEnd_unowned (h : s.ownerOf x = none) : s.eraseUnitEnd x failed = s.madeIdle x := by
  rw [eraseUnitEnd_eq]
  split
  · exact finishOwner_none (s := s.madeIdle x) h
  · exact unitEndedWell_unowned h

theorem programEnd_failed (h : s.ownerOf x = some it) : s.programEnd x true =
    (s.madeIdle x).finish (busOf x) it (it.report .failed .devFail it.ownerMoved []) := finishOwner_some (s := s.madeIdle x) h

theorem programEnd_done (h : s.ownerOf x = some it) : s.programEnd x false =
    (s.madeIdle x).finish (busOf x) it (it.report .done .none it.ownerMoved []) := finishOwner_some (s := s.madeIdle x) h

theorem eraseUnitEnd_failed (h : s.ownerOf x = some it) : s.eraseUnitEnd x true =
    (s.madeIdle x).finish (busOf x) it (it.report .failed .devFail it.ownerMoved []) := finishOwner_some (s := s.madeIdle x) h

/-- The last requested unit: the owner leaves DONE, or TRUNCATED with its drop reason (R65). -/
theorem eraseUnitEnd_last (h : s.ownerOf x = some it) (last : it.unitsDone + 1 = it.unitsRequested) : s.eraseUnitEnd x false =
    (s.madeIdle x).finish (busOf x) { it with unitsDone := it.unitsDone + 1 }
      ({ it with unitsDone := it.unitsDone + 1 } : Item).recordUnitsDone := by
  have h' : (s.target x).owner.bind ((s.madeIdle x).bus (busOf x)).find = some it := h
  simp only [eraseUnitEnd_eq, State.unitEndedWell, h', last]
  rfl

/-- With units left the owner is QUEUED again (R65). -/
theorem eraseUnitEnd_more (h : s.ownerOf x = some it) (more : it.unitsDone + 1 ≠ it.unitsRequested) : s.eraseUnitEnd x false =
    (s.madeIdle x).modBus (busOf x) (·.modItem it.uid (fun y => { y with unitsDone := y.unitsDone + 1, state := .queued })) := by
  have h' : (s.target x).owner.bind ((s.madeIdle x).bus (busOf x)).find = some it := h
  simp only [eraseUnitEnd_eq, State.unitEndedWell, h', more]
  rfl

end

theorem recordUnitsDone_done {it : Item} (h : it.drop = .none) :
    it.recordUnitsDone = it.report .done .none it.ownerMoved [] := if_pos h

theorem recordUnitsDone_dropped {it : Item} (h : it.drop ≠ .none) :
    it.recordUnitsDone = it.report .truncated it.drop.asReason it.ownerMoved [] := if_neg h

/-! #### The frame that brings the byte -/

section

variable {s : State} {b : Bus} {r : FrameRecord}

/-- A status frame or a poll hands the byte on unless a bus reset overtook it, serves its item, and frees the bus (R89, R91). -/
theorem exec_statusFrameEnd {sdi : Byte} (hf : (s.bus b).frame = some r) (hk : r.kind = .status ∨ r.kind = .poll) :
    exec (.statusFrameEnd b sdi) s = .next (((if r.overtaken then s
      else s.statusResult r.target (r.framing.bitOrder.received sdi)).finishStatusItem b r
        (r.framing.bitOrder.received sdi)).releaseBus b r.target) := by
  change execStatusFrameEnd b sdi s = _
  simp only [execStatusFrameEnd, hf]
  exact congrArg _ (if_pos (by simpa using hk))

variable {status : Byte}

theorem finishStatusItem_none (h : r.item.bind (s.bus b).find = none) : s.finishStatusItem b r status = s := by
  unfold State.finishStatusItem
  rw [h]

theorem finishStatusItem_some {it : Item} (h : r.item.bind (s.bus b).find = some it) : s.finishStatusItem b r status =
    s.finish b it (if r.overtaken then it.report .failed .aborted it.bytesMoved [status]
      else it.report .done .none it.bytesMoved [status]) := by
  unfold State.finishStatusItem
  rw [h]
  dsimp only
  split <;> rfl

end

/-- Settles O49. The judgement by the target's state, and the owner's leaving by the end of a program or of an erase unit. -/
theorem statusBytesAreHandedOnAndJudged : Obligations.StatusBytesAreHandedOnAndJudged := by
  unfold Obligations.StatusBytesAreHandedOnAndJudged
  refine ⟨fun x status s => ?_, fun b sdi r s hf hk => ?_⟩
  · intro r busy failed held owner idle unitEnds
    have ends : r.state = .programming ∨ unitEnds → ¬ busy →
        s.statusResult x status = s.programEnd x (status &&& r.profile.failMask != 0) ∨
        s.statusResult x status = s.eraseUnitEnd x (status &&& r.profile.failMask != 0) := fun h clear =>
      h.imp (statusResult_programEnd (not_not.1 clear)) (statusResult_eraseUnitEnd (not_not.1 clear))
    refine ⟨statusResult_unpolled, statusResult_busy, fun h clear => statusResult_held (not_not.1 clear) h,
      fun h clear unowned => ?_, fun it owned clear => ⟨fun h fails => ?_, fun h passes => ?_, fun h passes => ?_⟩⟩
    · rcases ends h clear with e | e <;> rw [e]
      · exact programEnd_unowned unowned
      · exact eraseUnitEnd_unowned unowned
    · rcases ends h clear with e | e <;> rw [e, bne_iff_ne.2 fails]
      · exact programEnd_failed owned
      · exact eraseUnitEnd_failed owned
    · rw [statusResult_programEnd (not_not.1 clear) h, bne_eq_false_iff_eq.2 (not_not.1 passes)]
      exact programEnd_done owned
    · rw [statusResult_eraseUnitEnd (not_not.1 clear) h, bne_eq_false_iff_eq.2 (not_not.1 passes)]
      intro more
      refine ⟨fun last whole => ?_, fun last cut => ?_, fun last cut => ?_, eraseUnitEnd_more owned⟩ <;>
        rw [eraseUnitEnd_last owned last]
      · rw [recordUnitsDone_done (it := more) whole]; rfl
      · rw [recordUnitsDone_dropped (it := more) (by simp [more, cut])]; simp only [more, cut]; rfl
      · rw [recordUnitsDone_dropped (it := more) (by simp [more, cut])]; simp only [more, cut]; rfl
  · refine ⟨r.framing.bitOrder.received sdi, received_samples _ sdi, fun unserved => ?_, fun it served => ?_⟩
    · rw [exec_statusFrameEnd hf hk, finishStatusItem_none unserved]
    · rw [exec_statusFrameEnd hf hk, finishStatusItem_some served]

end Sys2Proof.Machine
end

section
namespace Sys2Proof.Machine

/-! ### Bytes and fields, in numbers -/

theorem byteAt_append_left {l m : List Byte} {i : Nat} (h : i < l.length) : byteAt (l ++ m) i = byteAt l i :=
  List.getD_append _ _ _ _ h

theorem byteAt_append_right {l m : List Byte} {i : Nat} (h : l.length ≤ i) : byteAt (l ++ m) i = byteAt m (i - l.length) :=
  List.getD_append_right _ _ _ _ h

theorem append_toNat {v w : Nat} (x : BitVec v) (y : BitVec w) : (x ++ y).toNat = 2 ^ w * x.toNat + y.toNat := by
  rw [BitVec.toNat_append, Nat.shiftLeft_eq, Nat.mul_comm, Nat.two_pow_add_eq_or_of_lt y.isLt]

theorem word16At_toNat (bytes : List Byte) (i : Nat) :
    (word16At bytes i).toNat = 256 * (byteAt bytes i).toNat + (byteAt bytes (i + 1)).toNat := append_toNat _ _

theorem word24At_toNat (bytes : List Byte) (i : Nat) : (word24At bytes i).toNat =
    65536 * (byteAt bytes i).toNat + 256 * (byteAt bytes (i + 1)).toNat + (byteAt bytes (i + 2)).toNat := by
  rw [word24At, append_toNat, word16At_toNat]
  omega

theorem word32At_toNat (bytes : List Byte) (i : Nat) : (word32At bytes i).toNat = 16777216 * (byteAt bytes i).toNat +
    65536 * (byteAt bytes (i + 1)).toNat + 256 * (byteAt bytes (i + 2)).toNat + (byteAt bytes (i + 3)).toNat := by
  rw [word32At, append_toNat, word16At_toNat, word16At_toNat, Nat.add_assoc i 2 1]
  omega

/-- A field of `n` bits from bit `k` up. -/
theorem field_toNat {w : Nat} (b : BitVec w) (k n : Nat) : (b.extractLsb' k n).toNat = b.toNat / 2 ^ k % 2 ^ n := by
  rw [BitVec.extractLsb'_toNat, Nat.shiftRight_eq_div_pow]

/-- The lowest `n` bits. -/
theorem low_toNat {w : Nat} (b : BitVec w) (n : Nat) : (b.extractLsb' 0 n).toNat = b.toNat % 2 ^ n := by
  rw [field_toNat, pow_zero, Nat.div_one]

theorem bit_iff {w : Nat} (b : BitVec w) (k : Nat) : b.getLsbD k = true ↔ b.toNat / 2 ^ k % 2 = 1 := by
  rw [BitVec.getLsbD, Nat.testBit_eq_decide_div_mod_eq, decide_eq_true_iff]

/-- A field put above another one in a byte. -/
theorem or_toNat {low high : Byte} {x y : Nat} (k : Nat) (hl : low.toNat = x) (hh : high.toNat = y * 2 ^ k) (h : x < 2 ^ k) :
    (low ||| high).toNat = x + y * 2 ^ k := by
  rw [BitVec.or_comm, BitVec.toNat_or, hl, hh, Nat.mul_comm, ← Nat.two_pow_add_eq_or_of_lt h, Nat.add_comm]

/-- A field moved to its place in a byte. -/
theorem shift_toNat {b : Byte} {k : Nat} (h : b.toNat * 2 ^ k < 256) : (b <<< k).toNat = b.toNat * 2 ^ k := by
  rw [BitVec.toNat_shiftLeft, Nat.shiftLeft_eq, Nat.mod_eq_of_lt h]

theorem flagBit_toNat (flag : Bool) {k : Nat} (h : k < 8) : (flagBit flag k).toNat = flag.toNat * 2 ^ k := by
  cases flag with
  | false => exact (Nat.zero_mul _).symm
  | true =>
    have place : 2 ^ k < 2 ^ 8 := Nat.pow_lt_pow_right (by omega) h
    exact shift_toNat (b := 1) (by simpa using place)

theorem small_toNat {w : Nat} (b : BitVec w) (h : w ≤ 8) : (b.setWidth 8).toNat = b.toNat := BitVec.toNat_setWidth_of_le h

theorem ofNat8_toNat {n : Nat} (h : n < 256) : (BitVec.ofNat 8 n).toNat = n := Nat.mod_eq_of_lt h

end Sys2Proof.Machine
end

section
namespace Sys2Proof.Machine

/-! ### The codes of a profile (R189) -/

theorem gapMode_ofCode {c : BitVec 2} : c.toNat ≠ 3 → ∃ g, GapMode.ofCode c = some g ∧ g.code.toNat = c.toNat := by
  revert c; decide

theorem gapMode_ofCode_none {c : BitVec 2} : c.toNat = 3 → GapMode.ofCode c = none := by
  revert c; decide

theorem eraseUnit_ofCode {c : BitVec 2} : c.toNat ≠ 3 → ∃ u, EraseUnit.ofCode c = some u ∧ u.code.toNat = c.toNat := by
  revert c; decide

theorem eraseUnit_ofCode_none {c : BitVec 2} : c.toNat = 3 → EraseUnit.ofCode c = none := by
  revert c; decide

theorem gapMode_iffs {g : GapMode} {w : Nat} (h : w = g.code.toNat) :
    (g = .none ↔ w = 0) ∧ (g = .everyByte ↔ w = 1) ∧ (g = .afterHeader ↔ w = 2) := by
  subst h; cases g <;> decide

theorem eraseUnit_iffs {u : EraseUnit} {w : Nat} (h : w = u.code.toNat) :
    (u = .kib4 ↔ w = 0) ∧ (u = .kib32 ↔ w = 1) ∧ (u = .kib64 ↔ w = 2) := by
  subst h; cases u <;> decide

theorem gapMode_code_lt (g : GapMode) : g.code.toNat < 3 := by cases g <;> decide

theorem eraseUnit_code_lt (u : EraseUnit) : u.code.toNat < 3 := by cases u <;> decide

theorem gapMode_code_inj {g k : GapMode} : g.code.toNat = k.code.toNat → g = k := by
  cases g <;> cases k <;> decide

theorem eraseUnit_code_inj {u k : EraseUnit} : u.code.toNat = k.code.toNat → u = k := by
  cases u <;> cases k <;> decide

theorem lsbFirst_iff (c : Bool) : (if c = true then BitOrder.lsbFirst else .msbFirst) = .lsbFirst ↔ c = true := by
  cases c <;> simp

theorem fourBytes_iff (c : Bool) : (if c = true then AddressWidth.four else .three) = .four ↔ c = true := by
  cases c <;> simp

/-! ### A profile and the bytes that spell it (R189) -/

/-- The bytes from position `i` spell the profile, field by field (R189). -/
structure Profile.Spelled (pr : Profile) (w : List Byte) (i : Nat) : Prop where
  divider : (byteAt w (i + 0)).toNat = pr.divider.toNat
  csSetup : (byteAt w (i + 1)).toNat % 8 = pr.csSetup.toNat
  csHold : (byteAt w (i + 1)).toNat / 16 % 8 = pr.csHold.toNat
  gapLength : (byteAt w (i + 2)).toNat % 16 = pr.gapLength.toNat
  gapMode : (byteAt w (i + 2)).toNat / 16 % 4 = pr.gapMode.code.toNat
  bitOrder : pr.bitOrder = .lsbFirst ↔ (byteAt w (i + 2)).toNat / 64 % 2 = 1
  addressWidth : pr.addressWidth = .four ↔ (byteAt w (i + 2)).toNat / 128 = 1
  dummyBytes : (byteAt w (i + 3)).toNat % 16 = pr.dummyBytes.toNat
  capacityCode : (byteAt w (i + 3)).toNat / 16 = pr.capacityCode.val
  pageCode : (byteAt w (i + 4)).toNat % 4 = pr.pageCode.toNat
  eraseUnit : (byteAt w (i + 4)).toNat / 16 % 4 = pr.eraseUnit.code.toNat
  resetLength : (byteAt w (i + 4)).toNat / 64 = pr.resetLength.val
  readOpcode : byteAt w (i + 5) = pr.readOpcode
  writeEnableOpcode : byteAt w (i + 6) = pr.writeEnableOpcode
  programOpcode : byteAt w (i + 7) = pr.programOpcode
  eraseOpcode : byteAt w (i + 8) = pr.eraseOpcode
  statusOpcode : byteAt w (i + 9) = pr.statusOpcode
  suspendOpcode : byteAt w (i + 10) = pr.suspendOpcode
  resumeOpcode : byteAt w (i + 11) = pr.resumeOpcode
  resetOpcode1 : byteAt w (i + 12) = pr.resetOpcode1
  resetOpcode2 : byteAt w (i + 13) = pr.resetOpcode2
  busyMask : byteAt w (i + 14) = pr.busyMask
  failMask : byteAt w (i + 15) = pr.failMask
  suspendedMask : byteAt w (i + 16) = pr.suspendedMask
  tPI : 256 * (byteAt w (i + 17)).toNat + (byteAt w (i + 18)).toNat = pr.tPI.toNat
  tPL : 256 * (byteAt w (i + 19)).toNat + (byteAt w (i + 20)).toNat = pr.tPL.toNat
  tEL : 256 * (byteAt w (i + 21)).toNat + (byteAt w (i + 22)).toNat = pr.tEL.toNat
  tSH : 256 * (byteAt w (i + 23)).toNat + (byteAt w (i + 24)).toNat = pr.tSH.toNat
  tSL : 256 * (byteAt w (i + 25)).toNat + (byteAt w (i + 26)).toNat = pr.tSL.toNat
  tSX : byteAt w (i + 27) = pr.tSX
  nsus : (byteAt w (i + 28)).toNat = pr.nsus.toNat
  tRR : 256 * (byteAt w (i + 29)).toNat + (byteAt w (i + 30)).toNat = pr.tRR.toNat

/-- No two profiles are spelled by the same bytes. -/
theorem Profile.Spelled.unique {pr q : Profile} {w : List Byte} {i : Nat} (h : pr.Spelled w i) (k : q.Spelled w i) :
    pr = q := by
  have order : pr.bitOrder = q.bitOrder := by
    have same := h.bitOrder.trans k.bitOrder.symm
    revert same
    cases pr.bitOrder <;> cases q.bitOrder <;> simp
  have width : pr.addressWidth = q.addressWidth := by
    have same := h.addressWidth.trans k.addressWidth.symm
    revert same
    cases pr.addressWidth <;> cases q.addressWidth <;> simp
  have gap := gapMode_code_inj (h.gapMode.symm.trans k.gapMode)
  have unit := eraseUnit_code_inj (h.eraseUnit.symm.trans k.eraseUnit)
  have number {n : Nat} {x y : BitVec n} {v : Nat} (hx : v = x.toNat) (hy : v = y.toNat) : x = y :=
    BitVec.eq_of_toNat_eq (hx.symm.trans hy)
  cases pr; cases q
  simp only [Profile.mk.injEq]
  exact ⟨number h.divider k.divider, number h.csSetup k.csSetup, number h.csHold k.csHold, number h.gapLength k.gapLength,
    gap, order, width, number h.dummyBytes k.dummyBytes, Fin.ext (h.capacityCode.symm.trans k.capacityCode),
    number h.pageCode k.pageCode, unit, Fin.ext (h.resetLength.symm.trans k.resetLength),
    h.readOpcode.symm.trans k.readOpcode, h.writeEnableOpcode.symm.trans k.writeEnableOpcode,
    h.programOpcode.symm.trans k.programOpcode, h.eraseOpcode.symm.trans k.eraseOpcode,
    h.statusOpcode.symm.trans k.statusOpcode, h.suspendOpcode.symm.trans k.suspendOpcode,
    h.resumeOpcode.symm.trans k.resumeOpcode, h.resetOpcode1.symm.trans k.resetOpcode1,
    h.resetOpcode2.symm.trans k.resetOpcode2, h.busyMask.symm.trans k.busyMask, h.failMask.symm.trans k.failMask,
    h.suspendedMask.symm.trans k.suspendedMask, number h.tPI k.tPI, number h.tPL k.tPL, number h.tEL k.tEL,
    number h.tSH k.tSH, number h.tSL k.tSL, h.tSX.symm.trans k.tSX, number h.nsus k.nsus, number h.tRR k.tRR⟩

/-- The codes of the 31 bytes name listed values, and the bits without a field are 0 where R27 asks it. -/
def ProfileCoded (w : List Byte) (i : Nat) : Prop :=
  (byteAt w (i + 0)).toNat ≤ 63 ∧ (byteAt w (i + 2)).toNat / 16 % 4 ≠ 3 ∧ (byteAt w (i + 3)).toNat / 16 ≤ 8 ∧
    (byteAt w (i + 4)).toNat / 16 % 4 ≠ 3 ∧ (byteAt w (i + 4)).toNat / 64 ≠ 3 ∧ (byteAt w (i + 28)).toNat ≤ 15

/-- Bytes that spell a profile are coded. -/
theorem Profile.Spelled.coded {pr : Profile} {w : List Byte} {i : Nat} (h : pr.Spelled w i) : ProfileCoded w i := by
  have gap := gapMode_code_lt pr.gapMode
  have unit := eraseUnit_code_lt pr.eraseUnit
  have divider := pr.divider.isLt
  have nsus := pr.nsus.isLt
  have capacity := pr.capacityCode.isLt
  have reset := pr.resetLength.isLt
  refine ⟨?_, ?_, ?_, ?_, ?_, ?_⟩
  · rw [h.divider]; omega
  · rw [h.gapMode]; omega
  · rw [h.capacityCode]; omega
  · rw [h.eraseUnit]; omega
  · rw [h.resetLength]; omega
  · rw [h.nsus]; omega

/-- The four fields of which some code names no value. -/
theorem profile_ofBytes_uncoded {w : List Byte} {i : Nat} (h : ¬ ProfileCoded w i) : Profile.ofBytes w i = none := by
  unfold Profile.ofBytes
  dsimp only
  split
  · next g u c l hg hu hc hl =>
    refine if_neg fun ok => h ?_
    simp only [Bool.and_eq_true, decide_eq_true_eq] at ok
    obtain ⟨⟨divider, nsus⟩, _⟩ := ok
    have gap : ((byteAt w (i + 2)).extractLsb' 4 2).toNat ≠ 3 := fun e => by rw [gapMode_ofCode_none e] at hg; cases hg
    have unit : ((byteAt w (i + 4)).extractLsb' 4 2).toNat ≠ 3 := fun e => by rw [eraseUnit_ofCode_none e] at hu; cases hu
    have capacity := c.isLt
    have reset := l.isLt
    rw [← below_eq_some.1 hc] at capacity
    rw [← below_eq_some.1 hl] at reset
    rw [field_toNat] at gap unit
    rw [small_toNat _ (by omega), field_toNat] at capacity reset
    have := (byteAt w (i + 3)).isLt
    have := (byteAt w (i + 4)).isLt
    exact ⟨divider, gap, by omega, unit, by omega, nsus⟩
  · rfl

/-- Coded bytes spell a profile, and it is read where it is valid (R27). -/
theorem profile_ofBytes_coded {w : List Byte} {i : Nat} (h : ProfileCoded w i) :
    ∃ pr : Profile, pr.Spelled w i ∧ Profile.ofBytes w i = if pr.valid then some pr else none := by
  obtain ⟨divider, gap, capacity, unit, reset, nsus⟩ := h
  obtain ⟨g, hg, gcode⟩ := gapMode_ofCode (c := (byteAt w (i + 2)).extractLsb' 4 2) (by rw [field_toNat]; exact gap)
  obtain ⟨u, hu, ucode⟩ := eraseUnit_ofCode (c := (byteAt w (i + 4)).extractLsb' 4 2) (by rw [field_toNat]; exact unit)
  have hc := below_some (n := 9) (b := ((byteAt w (i + 3)).extractLsb' 4 4).setWidth 8)
    (k := ⟨(byteAt w (i + 3)).toNat / 16, by omega⟩)
    (by rw [small_toNat _ (by omega), field_toNat]; have := (byteAt w (i + 3)).isLt; dsimp only; omega)
  have hl := below_some (n := 3) (b := ((byteAt w (i + 4)).extractLsb' 6 2).setWidth 8)
    (k := ⟨(byteAt w (i + 4)).toNat / 64, by have := (byteAt w (i + 4)).isLt; omega⟩)
    (by rw [small_toNat _ (by omega), field_toNat]; have := (byteAt w (i + 4)).isLt; dsimp only; omega)
  rw [field_toNat] at gcode ucode
  unfold Profile.ofBytes
  simp only [hg, hu, hc, hl]
  refine ⟨_, ?_, by simp only [divider, nsus, decide_true, Bool.true_and]; rfl⟩
  have two : (byteAt w (i + 2)).toNat < 256 := (byteAt w (i + 2)).isLt
  exact {
    divider := by rw [low_toNat]; omega
    csSetup := (low_toNat _ 3).symm
    csHold := (field_toNat _ 4 3).symm
    gapLength := (low_toNat _ 4).symm
    gapMode := gcode.symm
    bitOrder := (lsbFirst_iff _).trans (bit_iff _ 6)
    addressWidth := ((fourBytes_iff _).trans (bit_iff _ 7)).trans (by omega)
    dummyBytes := (low_toNat _ 4).symm
    capacityCode := rfl
    pageCode := (low_toNat _ 2).symm
    eraseUnit := ucode.symm
    resetLength := rfl
    readOpcode := rfl
    writeEnableOpcode := rfl
    programOpcode := rfl
    eraseOpcode := rfl
    statusOpcode := rfl
    suspendOpcode := rfl
    resumeOpcode := rfl
    resetOpcode1 := rfl
    resetOpcode2 := rfl
    busyMask := rfl
    failMask := rfl
    suspendedMask := rfl
    tPI := (word16At_toNat _ _).symm
    tPL := (word16At_toNat _ _).symm
    tEL := (word16At_toNat _ _).symm
    tSH := (word16At_toNat _ _).symm
    tSL := (word16At_toNat _ _).symm
    tSX := rfl
    nsus := by rw [low_toNat]; omega
    tRR := (word16At_toNat _ _).symm }

end Sys2Proof.Machine
end

section
namespace Sys2Proof.Machine

/-! ### The layout of a profile (R189) -/

section

variable (pr : Profile)

theorem profile_byte1 : (byteAt pr.toBytes 1).toNat = pr.csSetup.toNat + pr.csHold.toNat * 2 ^ 4 := by
  have setup := pr.csSetup.isLt
  have hold := pr.csHold.isLt
  have shifted : (pr.csHold.setWidth 8 <<< 4).toNat = pr.csHold.toNat * 2 ^ 4 := by
    rw [shift_toNat, small_toNat _ (by omega)]
    rw [small_toNat _ (by omega)]
    omega
  exact or_toNat 4 (small_toNat _ (by omega)) shifted (by omega)

theorem profile_byte2 : (byteAt pr.toBytes 2).toNat = pr.gapLength.toNat + pr.gapMode.code.toNat * 2 ^ 4 +
    (decide (pr.bitOrder = .lsbFirst)).toNat * 2 ^ 6 + (decide (pr.addressWidth = .four)).toNat * 2 ^ 7 := by
  have gap := pr.gapLength.isLt
  have mode := gapMode_code_lt pr.gapMode
  have order := (decide (pr.bitOrder = .lsbFirst)).toNat_le
  exact or_toNat 7 (or_toNat 6 (or_toNat 4 (small_toNat _ (by omega)) (shift_toNat (by omega)) gap)
    (flagBit_toNat _ (by omega)) (by omega)) (flagBit_toNat _ (by omega)) (by omega)

theorem profile_byte3 : (byteAt pr.toBytes 3).toNat = pr.dummyBytes.toNat + pr.capacityCode.val * 2 ^ 4 := by
  have capacity := pr.capacityCode.isLt
  have code : (BitVec.ofNat 8 pr.capacityCode.val).toNat = pr.capacityCode.val := ofNat8_toNat (by omega)
  have shifted : (BitVec.ofNat 8 pr.capacityCode.val <<< 4).toNat = pr.capacityCode.val * 2 ^ 4 := by
    rw [shift_toNat, code]
    rw [code]
    omega
  exact or_toNat 4 (small_toNat _ (by omega)) shifted pr.dummyBytes.isLt

theorem profile_byte4 : (byteAt pr.toBytes 4).toNat =
    pr.pageCode.toNat + pr.eraseUnit.code.toNat * 2 ^ 4 + pr.resetLength.val * 2 ^ 6 := by
  have page := pr.pageCode.isLt
  have unit := eraseUnit_code_lt pr.eraseUnit
  have reset := pr.resetLength.isLt
  have code : (BitVec.ofNat 8 pr.resetLength.val).toNat = pr.resetLength.val := ofNat8_toNat (by omega)
  have shifted : (BitVec.ofNat 8 pr.resetLength.val <<< 6).toNat = pr.resetLength.val * 2 ^ 6 := by
    rw [shift_toNat, code]
    rw [code]
    omega
  exact or_toNat 6 (or_toNat 4 (small_toNat _ (by omega)) (shift_toNat (by omega)) (by omega)) shifted (by omega)

theorem profile_toBytes_length : pr.toBytes.length = 31 := rfl

/-- The two bytes of a 16-bit field, the high one first. -/
theorem bytes16_spell (w : BitVec 16) : 256 * (w.extractLsb' 8 8).toNat + (w.extractLsb' 0 8).toNat = w.toNat := by
  have := w.isLt
  rw [field_toNat, low_toNat]
  omega

/-- The layout spells the profile. -/
theorem profile_toBytes_spelled : pr.Spelled pr.toBytes 0 := by
  have b1 : (byteAt pr.toBytes (0 + 1)).toNat = _ := profile_byte1 pr
  have b2 : (byteAt pr.toBytes (0 + 2)).toNat = _ := profile_byte2 pr
  have b3 : (byteAt pr.toBytes (0 + 3)).toNat = _ := profile_byte3 pr
  have b4 : (byteAt pr.toBytes (0 + 4)).toNat = _ := profile_byte4 pr
  have setup := pr.csSetup.isLt
  have hold := pr.csHold.isLt
  have gap := pr.gapLength.isLt
  have mode := gapMode_code_lt pr.gapMode
  have order := (decide (pr.bitOrder = .lsbFirst)).toNat_le
  have width := (decide (pr.addressWidth = .four)).toNat_le
  have dummy := pr.dummyBytes.isLt
  have page := pr.pageCode.isLt
  have unit := eraseUnit_code_lt pr.eraseUnit
  constructor
  case divider => exact small_toNat pr.divider (by omega)
  case nsus => exact small_toNat pr.nsus (by omega)
  case bitOrder =>
    rw [← decide_eq_true_iff (p := pr.bitOrder = .lsbFirst), ← Bool.toNat_eq_one]
    omega
  case addressWidth =>
    rw [← decide_eq_true_iff (p := pr.addressWidth = .four), ← Bool.toNat_eq_one]
    omega
  case tPI | tPL | tEL | tSH | tSL | tRR => exact bytes16_spell _
  case csSetup | csHold | gapLength | gapMode | dummyBytes | capacityCode | pageCode | eraseUnit | resetLength => omega
  all_goals rfl

end

/-! ### Which profiles are valid (R27), and what is read -/

/-- The conditions of R27 on a profile. -/
theorem profile_valid_iff (pr : Profile) : pr.valid = true ↔
    8 ≤ pr.tPI.toNat ∧ pr.tPI.toNat ≤ 4095 ∧ 1 ≤ pr.tPL.toNat ∧ 1 ≤ pr.tEL.toNat ∧ pr.tEL.toNat ≤ 16383 ∧
      1 ≤ pr.tSL.toNat ∧ pr.tSL.toNat ≤ 1023 ∧ 1 ≤ pr.tSX.toNat ∧ 1 ≤ pr.tRR.toNat ∧
      (pr.capacityCode.val ≤ 4 ∨ pr.addressWidth = .four) ∧ pr.busyMask.toNat ≠ 0 ∧
      (pr.nsus.toNat = 0 ∨ pr.suspendedMask.toNat ≠ 0 ∧ pr.suspendedMask &&& pr.busyMask = 0) := by
  have zero {n : Nat} (x : BitVec n) : x.toNat = 0 ↔ x = 0 := BitVec.toNat_inj (y := 0)
  simp only [Profile.valid, Bool.and_eq_true, Bool.or_eq_true, decide_eq_true_eq, bne_iff_ne, beq_iff_eq, ne_eq, zero,
    and_assoc]

/-- What is read is valid, and the bytes spell it. -/
theorem profile_ofBytes_some {w : List Byte} {i : Nat} {pr : Profile} (h : Profile.ofBytes w i = some pr) :
    pr.Spelled w i ∧ pr.valid = true := by
  by_cases coded : ProfileCoded w i
  · obtain ⟨q, spelled, read⟩ := profile_ofBytes_coded coded
    rw [read, Option.ite_none_right_eq_some] at h
    obtain ⟨valid, e⟩ := h
    cases e
    exact ⟨spelled, valid⟩
  · rw [profile_ofBytes_uncoded coded] at h
    cases h

/-- A valid profile is read from the bytes that spell it. -/
theorem profile_ofBytes_spelled {w : List Byte} {i : Nat} {pr : Profile} (h : pr.Spelled w i) (valid : pr.valid = true) :
    Profile.ofBytes w i = some pr := by
  obtain ⟨q, spelled, read⟩ := profile_ofBytes_coded h.coded
  rw [read, spelled.unique h, if_pos valid]

/-- The field errors of a profile (R27), in numbers of its bytes. -/
theorem profile_ofBytes_none (w : List Byte) (i : Nat) :
    let f (k : Nat) := (byteAt w (i + k)).toNat
    let word (k : Nat) := 256 * f k + f (k + 1)
    Profile.ofBytes w i = none ↔
      (63 < f 0 ∨ f 2 / 16 % 4 = 3 ∨ 8 < f 3 / 16 ∨ f 4 / 16 % 4 = 3 ∨ f 4 / 64 = 3 ∨
        ¬(8 ≤ word 17 ∧ word 17 ≤ 4095) ∨ word 19 = 0 ∨ ¬(1 ≤ word 21 ∧ word 21 ≤ 16383) ∨
        ¬(1 ≤ word 25 ∧ word 25 ≤ 1023) ∨ f 27 = 0 ∨ 15 < f 28 ∨ word 29 = 0 ∨
        (4 < f 3 / 16 ∧ f 2 < 128) ∨ f 14 = 0 ∨ (0 < f 28 ∧ f 16 = 0) ∨
        (0 < f 28 ∧ byteAt w (i + 16) &&& byteAt w (i + 14) ≠ 0)) := by
  dsimp only
  by_cases coded : ProfileCoded w i
  · obtain ⟨q, s, read⟩ := profile_ofBytes_coded coded
    obtain ⟨c0, c2, c3, c4, c5, c28⟩ := coded
    have wide : q.addressWidth = .four ↔ 128 ≤ (byteAt w (i + 2)).toNat := s.addressWidth.trans (by
      have := (byteAt w (i + 2)).isLt
      omega)
    have refused : Profile.ofBytes w i = none ↔ ¬ q.valid = true := by
      rw [read]
      split <;> simp_all only [reduceCtorEq, not_true_eq_false, not_false_eq_true]
    rw [refused, profile_valid_iff, ← s.tPI, ← s.tPL, ← s.tEL, ← s.tSL, s.tSX.symm, ← s.tRR,
      ← s.capacityCode, wide, s.busyMask.symm, ← s.nsus, s.suspendedMask.symm]
    by_cases apart : byteAt w (i + 16) &&& byteAt w (i + 14) = 0
    · simp only [apart, Nat.reduceAdd, ne_eq, not_true_eq_false, and_false, or_false, and_true]
      omega
    · simp only [apart, Nat.reduceAdd, ne_eq, not_false_eq_true, and_true, and_false, or_false]
      omega
  · rw [profile_ofBytes_uncoded coded]
    unfold ProfileCoded at coded
    simp only [true_iff]
    omega

end Sys2Proof.Machine
end

section
namespace Sys2Proof.Machine

/-! ### A region entry and the bytes that spell it (R188) -/

/-- The bytes from position `i` spell the entry, field by field, whatever stands in the bits without a field (R188). -/
structure RegionEntry.Spelled (e : RegionEntry) (w : List Byte) (i : Nat) : Prop where
  valid : e.valid = true ↔ 128 ≤ (byteAt w (i + 0)).toNat
  mode : e.mode = .strict ↔ 64 ≤ (byteAt w (i + 0)).toNat % 128
  ports : e.ports.toNat = (byteAt w (i + 0)).toNat % 16
  rights : e.rights.toNat = (byteAt w (i + 1)).toNat % 32
  target : e.target.toNat = (byteAt w (i + 2)).toNat % 16
  base : e.base.toNat =
    (65536 * (byteAt w (i + 3)).toNat + 256 * (byteAt w (i + 4)).toNat + (byteAt w (i + 5)).toNat) % 1048576
  size : e.size.toNat =
    (65536 * (byteAt w (i + 6)).toNat + 256 * (byteAt w (i + 7)).toNat + (byteAt w (i + 8)).toNat) % 1048576
  offset : e.offset.toNat =
    (65536 * (byteAt w (i + 9)).toNat + 256 * (byteAt w (i + 10)).toNat + (byteAt w (i + 11)).toNat) % 1048576

/-- No two entries are spelled by the same bytes. -/
theorem RegionEntry.Spelled.unique {e k : RegionEntry} {w : List Byte} {i : Nat} (h : e.Spelled w i) (l : k.Spelled w i) :
    e = k := by
  have mode : e.mode = k.mode := by
    have same := h.mode.trans l.mode.symm
    revert same
    cases e.mode <;> cases k.mode <;> simp
  have number {n : Nat} {x y : BitVec n} {v : Nat} (hx : x.toNat = v) (hy : y.toNat = v) : x = y :=
    BitVec.eq_of_toNat_eq (hx.trans hy.symm)
  cases e; cases k
  simp only [RegionEntry.mk.injEq]
  exact ⟨Bool.eq_iff_iff.2 (h.valid.trans l.valid.symm), number h.ports l.ports, number h.base l.base, number h.size l.size,
    number h.target l.target, number h.offset l.offset, number h.rights l.rights, mode⟩

theorem strict_iff (c : Bool) : (if c = true then RegionMode.strict else .polite) = .strict ↔ c = true := by
  cases c <;> simp

/-- The lowest 20 bits of three bytes. -/
theorem pages_toNat (w : List Byte) (i : Nat) : ((word24At w i).extractLsb' 0 20).toNat =
    (65536 * (byteAt w i).toNat + 256 * (byteAt w (i + 1)).toNat + (byteAt w (i + 2)).toNat) % 1048576 := by
  rw [low_toNat, word24At_toNat]
  norm_num

/-- What is read is spelled by the bytes. -/
theorem regionEntry_ofBytes_spelled (w : List Byte) (i : Nat) : (RegionEntry.ofBytes w i).Spelled w i := by
  have b := (byteAt w i).isLt
  exact {
    valid := (bit_iff (byteAt w i) 7).trans (by rw [Nat.add_zero]; omega)
    mode := ((strict_iff _).trans (bit_iff (byteAt w i) 6)).trans (by rw [Nat.add_zero]; omega)
    ports := low_toNat _ 4
    rights := low_toNat _ 5
    target := low_toNat _ 4
    base := pages_toNat w (i + 3)
    size := pages_toNat w (i + 6)
    offset := pages_toNat w (i + 9) }

section

variable (e : RegionEntry)

theorem regionEntry_byte0 : (byteAt e.toBytes 0).toNat =
    (if e.valid then 128 else 0) + (if e.mode = .strict then 64 else 0) + e.ports.toNat := by
  have ports := e.ports.isLt
  have number : (byteAt e.toBytes 0).toNat = e.ports.toNat + (decide (e.mode = .strict)).toNat * 2 ^ 6 + e.valid.toNat * 2 ^ 7 := by
    have strict := (decide (e.mode = .strict)).toNat_le
    have order : byteAt e.toBytes 0 =
        e.ports.setWidth 8 ||| flagBit (decide (e.mode = .strict)) 6 ||| flagBit e.valid 7 := by
      rw [BitVec.or_assoc, BitVec.or_comm, BitVec.or_comm (flagBit _ 6)]
      rfl
    rw [order]
    exact or_toNat 7 (or_toNat 6 (small_toNat _ (by omega)) (flagBit_toNat _ (by omega)) (by omega))
      (flagBit_toNat _ (by omega)) (by omega)
  simp only [number, Bool.toNat, Bool.cond_eq_ite, decide_eq_true_eq]
  split <;> split <;> omega

/-- The three bytes of a page field. -/
theorem bytes20_spell (w : BitVec 20) : 65536 * ((w.extractLsb' 16 4).setWidth 8).toNat + 256 * (w.extractLsb' 8 8).toNat +
    (w.extractLsb' 0 8).toNat = w.toNat := by
  have := w.isLt
  rw [small_toNat _ (by omega), field_toNat, field_toNat, low_toNat]
  omega

/-- The layout of the entry, in numbers. -/
theorem regionEntry_toBytes :
    let f (k : Nat) := (byteAt e.toBytes k).toNat
    f 0 = (if e.valid then 128 else 0) + (if e.mode = .strict then 64 else 0) + e.ports.toNat ∧ f 1 = e.rights.toNat ∧
      f 2 = e.target.toNat ∧ 65536 * f 3 + 256 * f 4 + f 5 = e.base.toNat ∧ 65536 * f 6 + 256 * f 7 + f 8 = e.size.toNat ∧
      65536 * f 9 + 256 * f 10 + f 11 = e.offset.toNat :=
  ⟨regionEntry_byte0 e, small_toNat e.rights (by omega), small_toNat e.target (by omega), bytes20_spell _, bytes20_spell _,
    bytes20_spell _⟩

/-- The layout spells the entry. -/
theorem regionEntry_toBytes_spelled : e.Spelled e.toBytes 0 := by
  have layout := regionEntry_toBytes e
  dsimp only at layout
  obtain ⟨first, rights, target, base, size, offset⟩ := layout
  have l1 := e.ports.isLt
  have l2 := e.rights.isLt
  have l3 := e.target.isLt
  have l4 := e.base.isLt
  have l5 := e.size.isLt
  have l6 := e.offset.isLt
  constructor
  case valid => rw [Nat.add_zero, first]; split <;> split <;> simp only [*, true_iff, false_iff, Bool.false_eq_true] <;> omega
  case mode => rw [Nat.add_zero, first]; split <;> split <;> simp only [*, true_iff, false_iff] <;> omega
  case ports => rw [Nat.add_zero, first]; split <;> split <;> omega
  all_goals simp only [Nat.zero_add]; omega

end

/-! ### The fields of the formats -/

/-- Settles O55: what is read and what is laid out are spelled by their bytes, and the field errors are those of the bytes
that spell no valid profile. -/
theorem fieldsOfProfilesAndEntries : Obligations.FieldsOfProfilesAndEntries := by
  refine ⟨profile_ofBytes_none, ?_, ?_, regionEntry_toBytes⟩
  · intro w i pr gap unit rest
    have spelled {w : List Byte} {i : Nat} (h : pr.Spelled w i) : rest w i :=
      ⟨h.divider, h.csSetup, h.csHold, h.gapLength, gapMode_iffs h.gapMode, h.bitOrder, h.addressWidth, h.dummyBytes,
        h.capacityCode, h.pageCode, eraseUnit_iffs h.eraseUnit, h.resetLength, h.readOpcode, h.writeEnableOpcode,
        h.programOpcode, h.eraseOpcode, h.statusOpcode, h.suspendOpcode, h.resumeOpcode, h.resetOpcode1, h.resetOpcode2,
        h.busyMask, h.failMask, h.suspendedMask, h.tPI, h.tPL, h.tEL, h.tSH, h.tSL, h.tSX, h.nsus, h.tRR⟩
    have setup := pr.csSetup.isLt
    have hold := pr.csHold.isLt
    have page := pr.pageCode.isLt
    refine ⟨fun h => spelled (profile_ofBytes_some h).1, spelled (profile_toBytes_spelled pr), ?_, ?_, ?_⟩
    · rw [profile_byte1]; omega
    · rw [profile_byte1]; omega
    · rw [profile_byte4]; omega
  · intro w i f e
    have h := regionEntry_ofBytes_spelled w i
    exact ⟨h.valid, h.mode, h.ports, h.rights, h.target, h.base, h.size, h.offset⟩

end Sys2Proof.Machine
end

section
namespace Sys2Proof.Machine

/-! ### A descriptor and its bytes (R186) -/

theorem kind_ofCode (k : Kind) {c : BitVec 3} (h : c.toNat = k.code.toNat) : Kind.ofCode c = some k := by
  unfold Kind.ofCode
  rw [h]
  cases k <;> rfl

theorem kind_code_lt (k : Kind) : k.code.toNat < 4 := by cases k <;> decide

theorem slotCode_lt (slot : Option SlotIx) : (slotCode slot).toNat < 8 := by revert slot; decide

theorem slotOfCode_slotCode (slot : Option SlotIx) : slotOfCode ((slotCode slot).setWidth 3) = some slot := by
  revert slot; decide

/-- The three bits of a slot code are read back. -/
theorem slotOfCode_eq {slot : Option SlotIx} {c : BitVec 3} (h : c.toNat = (slotCode slot).toNat) :
    slotOfCode c = some slot := by
  have e : c = (slotCode slot).setWidth 3 := by
    apply BitVec.eq_of_toNat_eq
    rw [h, BitVec.toNat_setWidth, Nat.mod_eq_of_lt (slotCode_lt slot)]
  rw [e, slotOfCode_slotCode]

/-- The byte of kind, flags and slot (R186). -/
theorem request_flags (r : Request) : (byteAt r.toBytes 1).toNat =
    r.kind.code.toNat + r.urgent.toNat * 2 ^ 3 + r.fence.toNat * 2 ^ 4 + (slotCode r.slot).toNat * 2 ^ 5 := by
  have kind := kind_code_lt r.kind
  have slot := slotCode_lt r.slot
  have urgent := r.urgent.toNat_le
  have fence := r.fence.toNat_le
  exact or_toNat 5 (or_toNat 4 (or_toNat 3 rfl (flagBit_toNat _ (by omega)) (by omega)) (flagBit_toNat _ (by omega))
    (by omega)) (shift_toNat (by omega)) (by omega)

/-- The four bytes of a 32-bit field. -/
theorem bytes32_spell (w : BitVec 32) : 16777216 * (w.extractLsb' 24 8).toNat + 65536 * (w.extractLsb' 16 8).toNat +
    256 * (w.extractLsb' 8 8).toNat + (w.extractLsb' 0 8).toNat = w.toNat := by
  have := w.isLt
  rw [field_toNat, field_toNat, field_toNat, low_toNat]
  omega

/-- An acceptable descriptor, laid out and read back. -/
theorem request_ofBytes_toBytes (r : Request) (ok : Request.shapeOk r.kind r.slot r.length.toNat = true) :
    Request.ofBytes r.toBytes = some r := by
  have flags := request_flags r
  have kind := kind_code_lt r.kind
  have slot := slotCode_lt r.slot
  have urgent := r.urgent.toNat_le
  have fence := r.fence.toNat_le
  have readKind := kind_ofCode r.kind (c := (byteAt r.toBytes 1).extractLsb' 0 3) (by rw [low_toNat]; omega)
  have readSlot := slotOfCode_eq (slot := r.slot) (c := (byteAt r.toBytes 1).extractLsb' 5 3) (by rw [field_toNat]; omega)
  have readUrgent : (byteAt r.toBytes 1).getLsbD 3 = r.urgent := by
    rw [Bool.eq_iff_iff, bit_iff, ← Bool.toNat_eq_one]
    omega
  have readFence : (byteAt r.toBytes 1).getLsbD 4 = r.fence := by
    rw [Bool.eq_iff_iff, bit_iff, ← Bool.toNat_eq_one]
    omega
  have readAddress : word32At r.toBytes 2 = r.address :=
    BitVec.eq_of_toNat_eq ((word32At_toNat _ _).trans (bytes32_spell r.address))
  have readLength : word16At r.toBytes 6 = r.length :=
    BitVec.eq_of_toNat_eq ((word16At_toNat _ _).trans (bytes16_spell r.length))
  simp only [Request.ofBytes, readKind, readSlot, readUrgent, readFence, readAddress, readLength, ok, if_true]
  rfl

/-- Only an acceptable descriptor is read. -/
theorem request_ofBytes_shapeOk {w : List Byte} {r : Request} (h : Request.ofBytes w = some r) :
    Request.shapeOk r.kind r.slot r.length.toNat = true := by
  unfold Request.ofBytes at h
  dsimp only at h
  split at h
  · obtain ⟨ok, e⟩ := Option.ite_none_right_eq_some.1 h
    cases e
    exact ok
  · cases h

/-! ### What is laid out is read back -/

/-- Settles O56: no two values are spelled by the same bytes, and the layout spells its value. -/
theorem formatsReadBackWhole : Obligations.FormatsReadBackWhole :=
  ⟨fun e => ⟨rfl, (regionEntry_ofBytes_spelled e.toBytes 0).unique (regionEntry_toBytes_spelled e)⟩,
    fun pr valid => ⟨profile_toBytes_length pr, profile_ofBytes_spelled (profile_toBytes_spelled pr) valid⟩,
    fun r ok => ⟨rfl, request_ofBytes_toBytes r ok⟩,
    fun _ _ _ h => (profile_ofBytes_some h).2,
    fun _ _ h => request_ofBytes_shapeOk h⟩

end Sys2Proof.Machine
end

section
namespace Sys2Proof.Machine

/-! ### The READ TARGET reply (R190) -/

/-- Byte G33: an owner, its port and its kind. -/
theorem ownerBytes_some (it : Item) : (byteAt (ownerBytes (some it)) 0).toNat =
    128 + (if it.orphan then 64 else 0) + 16 * it.port.val + it.kind.code.toNat := by
  have kind := kind_code_lt it.kind
  have port := it.port.isLt
  have code : (BitVec.ofNat 8 it.port.val).toNat = it.port.val := ofNat8_toNat (by omega)
  have shifted : (BitVec.ofNat 8 it.port.val <<< 4).toNat = it.port.val * 2 ^ 4 := by
    rw [shift_toNat, code]
    rw [code]
    omega
  have order : byteAt (ownerBytes (some it)) 0 =
      it.kind.code ||| (BitVec.ofNat 8 it.port.val <<< 4) ||| flagBit it.orphan 6 ||| flagBit true 7 := by
    rw [BitVec.or_comm, BitVec.or_comm (_ ||| _) (flagBit it.orphan 6), BitVec.or_comm it.kind.code, ← BitVec.or_assoc,
      ← BitVec.or_assoc]
    rfl
  have orphan := it.orphan.toNat_le
  rw [order, or_toNat 7 (or_toNat 6 (or_toNat 4 rfl shifted (by omega)) (flagBit_toNat _ (by omega)) (by omega))
    (flagBit_toNat _ (by omega)) (by omega)]
  cases it.orphan <;> simp only [Bool.toNat_true, Bool.toNat_false, if_true, if_false, Bool.false_eq_true] <;> omega

/-- Byte G35: a unit under erase and its size. -/
theorem unitBytes_size (u : UnitRange) : (byteAt (unitBytes (some u)) 0).toNat = 128 + u.size.code.toNat := by
  have unit := eraseUnit_code_lt u.size
  have order : byteAt (unitBytes (some u)) 0 = u.size.code ||| flagBit true 7 := BitVec.or_comm _ _
  rw [order, or_toNat 7 rfl (flagBit_toNat _ (by omega)) (by omega), Bool.toNat_true]
  omega

/-- Bytes G36 to G39: the first address of the unit. -/
theorem unitBytes_first (u : UnitRange) : (word32At (unitBytes (some u)) 1).toNat = u.first % 4294967296 :=
  (word32At_toNat _ _).trans ((bytes32_spell (BitVec.ofNat 32 u.first)).trans (BitVec.toNat_ofNat _ _))

/-- Bytes G41 to G43: a number in 24 bits. -/
theorem bytes24_toNat (n : Nat) : (word24At (bytes24 (BitVec.ofNat 24 n)) 0).toNat = n % 16777216 := by
  have spell (w : BitVec 24) : 65536 * (w.extractLsb' 16 8).toNat + 256 * (w.extractLsb' 8 8).toNat +
      (w.extractLsb' 0 8).toNat = w.toNat := by
    have := w.isLt
    rw [field_toNat, field_toNat, low_toNat]
    omega
  exact (word24At_toNat _ _).trans ((spell (BitVec.ofNat 24 n)).trans (BitVec.toNat_ofNat _ _))

/-- Byte G44: the commands still to send, and the recovery. -/
theorem pendingResetByte_some {pr : PendingReset} (h : pr.toSend ≤ 2) :
    (pendingResetByte (some pr)).toNat = pr.toSend + (if pr.recovering then 128 else 0) := by
  have number : (pendingResetByte (some pr)).toNat = pr.toSend + pr.recovering.toNat * 2 ^ 7 :=
    or_toNat 7 (ofNat8_toNat (by omega)) (flagBit_toNat _ (by omega)) (by omega)
  rw [number]
  cases pr.recovering <;> rfl

/-- Where the parts of the reply stand. -/
structure TargetReplied (s : State) (x : Target) (reply : List Byte) : Prop where
  length : reply.length = 45
  target : byteAt reply 0 = BitVec.ofNat 8 x.val
  state : byteAt reply 1 = (s.target x).state.code
  profile : (reply.drop 2).take 31 = (s.target x).profile.toBytes
  owner : byteAt reply 33 = byteAt (ownerBytes ((s.target x).owner.bind (s.bus (busOf x)).find)) 0
  tag : byteAt reply 34 = byteAt (ownerBytes ((s.target x).owner.bind (s.bus (busOf x)).find)) 1
  unitSize : byteAt reply 35 = byteAt (unitBytes (s.target x).unit) 0
  unitFirst : word32At reply 36 = word32At (unitBytes (s.target x).unit) 1
  suspendCount : byteAt reply 40 = BitVec.ofNat 8 (s.target x).suspendCount
  busyTime : word24At reply 41 = word24At (bytes24 (BitVec.ofNat 24 ((s.target x).busyTime / Config.ticksPerMicrosecond))) 0
  pendingReset : byteAt reply 44 = pendingResetByte (s.target x).pendingReset

theorem byteAt_append (l m : List Byte) (i : Nat) :
    byteAt (l ++ m) i = if i < l.length then byteAt l i else byteAt m (i - l.length) := by
  split
  · next h => exact byteAt_append_left h
  · next h => exact byteAt_append_right (Nat.le_of_not_lt h)

theorem ownerBytes_length (o : Option Item) : (ownerBytes o).length = 2 := by cases o <;> rfl

theorem unitBytes_length (u : Option UnitRange) : (unitBytes u).length = 5 := by cases u <;> rfl

theorem targetReply_replied (s : State) (x : Target) : TargetReplied s x (s.targetReply x) := by
  have busy (w : BitVec 24) : (bytes24 w).length = 3 := rfl
  have fields := profile_toBytes_length (s.target x).profile
  unfold State.targetReply
  constructor
  case profile =>
    simp only [List.append_assoc]
    exact List.take_left' fields
  all_goals
    simp only [List.append_assoc, List.length_append, word32At, word24At, word16At, byteAt_append, fields, busy,
      ownerBytes_length, unitBytes_length, List.length_cons, List.length_nil, Nat.reduceAdd, Nat.reduceSub, Nat.reduceLT,
      if_true, if_false]
  all_goals rfl

/-! ### READ TARGET -/

theorem isReadTarget_iff (c : Captured) : c.isReadTarget = true ↔ ∃ result reply, c = .readTarget result reply := by
  cases c <;> simp [Captured.isReadTarget]

/-- A target byte above 7 (R34). -/
theorem grabReadTarget_badField {bytes : List Byte} {s : State} (h : 7 < (byteAt bytes 0).toNat) :
    grabReadTarget bytes s = .readTarget .badField [] := by
  rw [grabReadTarget, below_none h]

theorem grabReadTarget_ok {bytes : List Byte} {s : State} {x : Target} (h : (byteAt bytes 0).toNat = x.val) :
    grabReadTarget bytes s = .readTarget .ok (s.targetReply x) := by
  rw [grabReadTarget, below_some h]

theorem exec_readTarget (p : Port) (m : Moment) (bytes : List Byte) (s : State) :
    exec (.readTarget p m bytes) s = .next (s.upstream p (.readTarget p m bytes) false (takeReadTarget p m bytes)) := rfl

/-- Settles O28: the parts of the reply stand where R190 puts them, and the two moments are those of every frame that answers. -/
theorem readTargetShowsARecord : Obligations.ReadTargetShowsARecord := by
  unfold Obligations.ReadTargetShowsARecord
  refine ⟨isReadTarget_iff, fun w i => ⟨word24At_toNat w i, word32At_toNat w i⟩, fun p bytes s hears hlen => ?_⟩
  have hi := hears_ignoring hears
  refine ⟨grabReadTarget bytes s, grabReadTarget_badField, fun x hx => ?_, ?_, fun result reply hf => ?_⟩
  · have h := targetReply_replied s x
    refine ⟨s.targetReply x, grabReadTarget_ok hx, h.length, ?_, ?_, h.profile, fun none => ?_, fun it own => ?_, fun none => ?_,
      fun u under => ?_, h.suspendCount, ?_, fun none => ?_, fun pr pending few => ?_⟩
    · rw [h.target, ofNat8_toNat (by omega)]
    · rw [h.state]
      cases (s.target x).state <;> rfl
    · rw [h.owner, h.tag, none]
      exact ⟨rfl, rfl⟩
    · rw [h.owner, h.tag, own, ownerBytes_some]
      refine ⟨?_, rfl⟩
      cases it.kind <;> rfl
    · rw [h.unitSize, h.unitFirst, none]
      exact ⟨rfl, rfl⟩
    · rw [h.unitSize, h.unitFirst, under, unitBytes_size, unitBytes_first]
      refine ⟨?_, rfl⟩
      cases u.size <;> rfl
    · rw [h.busyTime, bytes24_toNat]
    · rw [h.pendingReset, none]
      rfl
    · rw [h.pendingReset, pending, pendingResetByte_some few]
  · exact ⟨takeReadTarget p .capture bytes s, by rw [exec_readTarget, upstream_taken hears],
      captureFrame_holds hi (Nat.succ_le_succ hlen) rfl⟩
  · exact ⟨takeReadTarget p .release bytes s, by rw [exec_readTarget, upstream_taken hears],
      replyFrame_shows (shown := .readTarget result reply) hi (Nat.succ_le_succ hlen) rfl hf⟩

end Sys2Proof.Machine
end

section
namespace Sys2Proof.Machine

/-! ### One phase of a frame (R83, R85) -/

section

variable {r : FrameRecord} {fuel n k : Nat}

theorem elapse_stays (h : r.progress.spent + n < r.phaseTicks) :
    r.elapse (fuel + 1) n = { r with progress := { r.progress with spent := r.progress.spent + n } } := by
  rw [FrameRecord.elapse, if_pos h]

theorem elapse_waits (h : r.phaseTicks ≤ r.progress.spent + n) (a : r.awaitsEvent = true) :
    r.elapse (fuel + 1) n = { r with progress := { r.progress with spent := r.phaseTicks } } := by
  rw [FrameRecord.elapse, if_neg (Nat.not_lt.2 h), if_pos a]

theorem elapse_passes (h : r.phaseTicks ≤ r.progress.spent + n) (a : ¬ r.awaitsEvent = true) : r.elapse (fuel + 1) n =
    FrameRecord.elapse fuel (r.progress.spent + n - r.phaseTicks) { r with progress := r.nextPhase } := by
  rw [FrameRecord.elapse, if_neg (Nat.not_lt.2 h), if_neg a]

theorem awaitsEvent_iff (r : FrameRecord) : r.awaitsEvent = true ↔ r.progress.phase = .hold ∨ (r.progress.phase = .byte ∧
    r.currentHeader.length ≤ r.progress.bytes ∧ (r.kind = .read ∨ r.kind = .programPair)) := by
  unfold FrameRecord.awaitsEvent
  cases r.progress.phase <;> simp

theorem pauseAfter_iff (r : FrameRecord) (k : Nat) : r.pauseAfter k = true ↔ r.framing.gapLength ≠ 0 ∧
    (r.framing.gapMode = .everyByte ∨
      (r.framing.gapMode = .afterHeader ∧ k = r.currentHeader.length ∧ 0 < r.currentCount)) := by
  unfold FrameRecord.pauseAfter
  cases r.framing.gapMode <;> simp

theorem afterBytes_hold (h : r.limit ≤ k) : r.afterBytes k = { phase := .hold, bytes := k, spent := 0 } := by
  rw [FrameRecord.afterBytes, if_pos h]

theorem afterBytes_pause (h : k < r.limit) (p : r.pauseAfter k = true) :
    r.afterBytes k = { phase := .pause, bytes := k, spent := 0 } := by
  rw [FrameRecord.afterBytes, if_neg (Nat.not_le.2 h), if_pos p]

theorem afterBytes_byte (h : k < r.limit) (p : ¬ r.pauseAfter k = true) :
    r.afterBytes k = { phase := .byte, bytes := k, spent := 0 } := by
  rw [FrameRecord.afterBytes, if_neg (Nat.not_le.2 h), if_neg p]

theorem nextPhase_deselect (h : r.progress.phase = .deselect) : r.nextPhase = { phase := .setup, bytes := 0, spent := 0 } := by
  rw [FrameRecord.nextPhase, h]

theorem nextPhase_setup (h : r.progress.phase = .setup) :
    r.nextPhase = { phase := if r.limit = 0 then .hold else .byte, bytes := 0, spent := 0 } := by
  rw [FrameRecord.nextPhase, h]

theorem nextPhase_byte (h : r.progress.phase = .byte) : r.nextPhase = r.afterBytes (r.progress.bytes + 1) := by
  rw [FrameRecord.nextPhase, h]

theorem nextPhase_pause (h : r.progress.phase = .pause) :
    r.nextPhase = { phase := .byte, bytes := r.progress.bytes, spent := 0 } := by
  rw [FrameRecord.nextPhase, h]

end

/-! ### From phase to phase -/

/-- The record at another point of its frame. -/
def FrameRecord.at (r : FrameRecord) (q : Progress) : FrameRecord := { r with progress := q }

/-- The begin of a phase. -/
def begin (phase : Phase) (bytes : Nat) : Progress := { phase, bytes, spent := 0 }

/-- `walk q fuel n` is a frame `n` clock periods after it stood at `q`, through at most `fuel` phases. `Passes walk k q ticks u`:
it goes from `q` through `k` phases to `u` in `ticks` clock periods, without a hold on the way. -/
def Passes (walk : Progress → Nat → Nat → FrameRecord) (k : Nat) (q : Progress) (ticks : Nat) (u : Progress) : Prop :=
  ∀ fuel n, (n < ticks → (walk q (fuel + k) n).progress.phase ≠ .hold) ∧
    (ticks ≤ n → walk q (fuel + k) n = walk u fuel (n - ticks))

theorem Passes.trans {walk : Progress → Nat → Nat → FrameRecord} {k l a b : Nat} {q u v : Progress}
    (first : Passes walk k q a u) (second : Passes walk l u b v) : Passes walk (l + k) q (a + b) v := by
  intro fuel n
  obtain ⟨early, late⟩ := first (fuel + l) n
  obtain ⟨early', late'⟩ := second fuel (n - a)
  rw [← Nat.add_assoc]
  refine ⟨fun h => ?_, fun h => ?_⟩
  · rcases Nat.lt_or_ge n a with inside | past
    · exact early inside
    · rw [late past]
      exact early' (by omega)
  · rw [late (by omega), late' (by omega), Nat.sub_sub]

/-- The half clocks of the pauses after the bytes `b + 1` to `b + m`. -/
def FrameRecord.gaps (r : FrameRecord) : (b m : Nat) → Nat
  | _, 0 => 0
  | b, m + 1 => (if r.pauseAfter (b + 1) then r.framing.gapLength.toNat else 0) + r.gaps (b + 1) m

/-- A walk that goes through each byte and each pause of a frame in its length. -/
structure Shifts (r : FrameRecord) (walk : Progress → Nat → Nat → FrameRecord) : Prop where
  byte : ∀ b, b < r.totalBytes → Passes walk 1 (begin .byte b) (r.framing.halfClock * 16) (r.afterBytes (b + 1))
  pause : ∀ b, b < r.totalBytes → r.pauseAfter b = true →
    Passes walk 1 (begin .pause b) (r.framing.halfClock * r.framing.gapLength.toNat) (begin .byte b)

/-- From the begin of a byte to the hold, where `m` bytes follow it. -/
theorem Shifts.rest {r : FrameRecord} {walk : Progress → Nat → Nat → FrameRecord} (h : Shifts r walk)
    (full : r.limit = r.totalBytes) (m : Nat) : ∀ b, b + m + 1 = r.totalBytes → ∃ k ≤ 2 * m + 1,
      Passes walk k (begin .byte b) (r.framing.halfClock * (16 * (m + 1) + r.gaps b m)) (begin .hold r.totalBytes) := by
  induction m with
  | zero =>
    intro b last
    have byte := h.byte b (by omega)
    rw [afterBytes_hold (by omega)] at byte
    exact ⟨1, Nat.le_refl _, by rw [← last]; exact byte⟩
  | succ m ih =>
    intro b more
    obtain ⟨k, bound, rest⟩ := ih (b + 1) (by omega)
    have byte := h.byte b (by omega)
    by_cases p : r.pauseAfter (b + 1) = true
    · rw [afterBytes_pause (by omega) p] at byte
      refine ⟨k + 1 + 1, by omega, ?_⟩
      have all := byte.trans ((h.pause (b + 1) (by omega) p).trans rest)
      rw [← Nat.mul_add, ← Nat.mul_add] at all
      convert all using 2
      rw [FrameRecord.gaps, if_pos p]
      omega
    · rw [afterBytes_byte (by omega) p] at byte
      refine ⟨k + 1, by omega, ?_⟩
      have all := byte.trans rest
      rw [← Nat.mul_add] at all
      convert all using 2
      rw [FrameRecord.gaps, if_neg p]
      omega

/-! ### The pauses of a frame -/

theorem gaps_none {r : FrameRecord} (h : ∀ k, ¬ r.pauseAfter k = true) (m : Nat) : ∀ b, r.gaps b m = 0 := by
  induction m with
  | zero => exact fun _ => rfl
  | succ m ih => exact fun b => by rw [FrameRecord.gaps, if_neg (h _), ih]

theorem gaps_all {r : FrameRecord} (h : ∀ k, r.pauseAfter k = true) (m : Nat) :
    ∀ b, r.gaps b m = m * r.framing.gapLength.toNat := by
  induction m with
  | zero => exact fun _ => (Nat.zero_mul _).symm
  | succ m ih => exact fun b => by rw [FrameRecord.gaps, if_pos (h _), ih, Nat.succ_mul, Nat.add_comm]

theorem gaps_one {r : FrameRecord} {l : Nat} (h : ∀ k, r.pauseAfter k = true ↔ k = l) (m : Nat) :
    ∀ b, r.gaps b m = if b < l ∧ l ≤ b + m then r.framing.gapLength.toNat else 0 := by
  induction m with
  | zero => exact fun b => (if_neg (by omega)).symm
  | succ m ih =>
    intro b
    rw [FrameRecord.gaps, ih]
    simp only [h]
    split <;> split <;> split <;> omega

/-- The pauses of a whole frame (R85). -/
theorem gaps_frame {r : FrameRecord} (h : r.currentHeader ≠ []) :
    r.gaps 0 (r.totalBytes - 1) = r.pauses * r.framing.gapLength.toNat := by
  have header := List.length_pos_of_ne_nil h
  by_cases zero : r.framing.gapLength = 0
  · rw [gaps_none fun k p => ((pauseAfter_iff r k).1 p).1 zero, zero]
    rfl
  unfold FrameRecord.pauses
  have pauses (k : Nat) := pauseAfter_iff r k
  simp only [ne_eq, zero, not_false_eq_true, true_and] at pauses
  cases mode : r.framing.gapMode with
  | none =>
    simp only [mode, reduceCtorEq, false_and, or_self] at pauses
    rw [gaps_none fun k => (pauses k).1, Nat.zero_mul]
  | everyByte =>
    simp only [mode, true_or, iff_true] at pauses
    rw [gaps_all pauses]
  | afterHeader =>
    simp only [mode, reduceCtorEq, true_and, false_or] at pauses
    by_cases data : 0 < r.currentCount
    · simp only [data, and_true] at pauses
      have inside : 0 < r.currentHeader.length ∧ r.currentHeader.length ≤ 0 + (r.totalBytes - 1) := by
        unfold FrameRecord.totalBytes
        omega
      rw [gaps_one pauses, if_pos inside, if_pos data, Nat.one_mul]
    · rw [gaps_none fun k p => data ((pauses k).1 p).2, if_neg data, Nat.zero_mul]

end Sys2Proof.Machine
end

section
namespace Sys2Proof.Machine

/-- From the begin of the first byte to the hold, in the length of the bytes and the pauses. -/
theorem Shifts.frame {r : FrameRecord} {walk : Progress → Nat → Nat → FrameRecord} (h : Shifts r walk)
    (full : r.limit = r.totalBytes) (header : r.currentHeader ≠ []) : ∃ k < 2 * r.totalBytes, Passes walk k (begin .byte 0)
      (r.framing.halfClock * (16 * r.totalBytes + r.pauses * r.framing.gapLength.toNat)) (begin .hold r.totalBytes) := by
  have nonempty : 0 < r.totalBytes := Nat.add_pos_left (List.length_pos_of_ne_nil header) _
  obtain ⟨k, bound, rest⟩ := h.rest full (r.totalBytes - 1) 0 (by omega)
  rw [gaps_frame header, Nat.sub_add_cancel nonempty] at rest
  exact ⟨k, by omega, rest⟩

/-- What a walk through a frame says of each clock period. -/
theorem Passes.periods {walk : Progress → Nat → Nat → FrameRecord} {k body fuel : Nat} {q u : Progress}
    (h : Passes walk k q body u) (bound : k ≤ fuel) : (∀ n, n < body → (walk q fuel n).progress.phase ≠ .hold) ∧
      ∀ n, walk q fuel (body + n) = walk u (fuel - k) n := by
  rw [← Nat.sub_add_cancel bound]
  refine ⟨fun n => (h _ n).1, fun n => ?_⟩
  rw [(h _ _).2 (Nat.le_add_right _ _), Nat.add_sub_cancel_left, Nat.sub_add_cancel bound]

/-! ### Frames by the clock alone -/

/-- The walk of `FrameRecord.elapse`. -/
def elapseWalk (r : FrameRecord) (q : Progress) (fuel n : Nat) : FrameRecord := (r.at q).elapse fuel n

theorem elapse_phase (r : FrameRecord) {phase : Phase} {bytes : Nat} (hold : phase ≠ .hold)
    (a : ¬ (r.at (begin phase bytes)).awaitsEvent = true) : Passes (elapseWalk r) 1 (begin phase bytes)
      (r.at (begin phase bytes)).phaseTicks (r.at (begin phase bytes)).nextPhase := by
  intro fuel n
  have spent : (r.at (begin phase bytes)).progress.spent + n = n := Nat.zero_add n
  unfold elapseWalk
  refine ⟨fun h => ?_, fun h => ?_⟩
  · rw [elapse_stays (by rw [spent]; exact h)]
    exact hold
  · rw [elapse_passes (by rw [spent]; exact h) a, spent]
    rfl

/-- A frame in which no byte awaits a command. -/
theorem elapse_shifts {r : FrameRecord} (clocked : ∀ b, b < r.totalBytes → ¬ (r.at (begin .byte b)).awaitsEvent = true) :
    Shifts r (elapseWalk r) where
  byte b inside := elapse_phase r (by decide) (clocked b inside)
  pause b _ _ := elapse_phase r (by decide) Bool.false_ne_true

theorem elapse_hold {r : FrameRecord} {bytes fuel n : Nat} (h : n ≤ (r.at (begin .hold bytes)).phaseTicks) :
    elapseWalk r (begin .hold bytes) (fuel + 1) n = r.at { phase := .hold, bytes, spent := n } := by
  have spent : (r.at (begin .hold bytes)).progress.spent + n = n := Nat.zero_add n
  unfold elapseWalk
  rcases Nat.lt_or_eq_of_le h with inside | full
  · rw [elapse_stays (by rw [spent]; exact inside), spent]
    rfl
  · rw [elapse_waits (by rw [spent, full]) rfl, ← full]
    rfl

/-! ### Frames whose commands come in time -/

/-- The walk of `FrameRecord.tick`. -/
def tickWalk (r : FrameRecord) (q : Progress) (_ n : Nat) : FrameRecord := FrameRecord.tick^[n] (r.at q)

/-- The begin of a phase that takes time, or of the hold. -/
def Settled (r : FrameRecord) (q : Progress) : Prop :=
  q.spent = 0 ∧ (q.phase = .hold ∨ 0 < (r.at q).phaseTicks)

theorem byteTicks_pos (r : FrameRecord) (b : Nat) : 0 < (r.at (begin .byte b)).phaseTicks :=
  Nat.mul_pos (Nat.succ_pos _) (Nat.succ_pos 15)

theorem settled_byte (r : FrameRecord) (b : Nat) : Settled r (begin .byte b) := ⟨rfl, .inr (byteTicks_pos r b)⟩

theorem settled_afterBytes (r : FrameRecord) (k : Nat) : Settled r (r.afterBytes k) := by
  rcases Nat.lt_or_ge k r.limit with inside | past
  · by_cases p : r.pauseAfter k = true
    · rw [afterBytes_pause inside p]
      have gap : 0 < r.framing.gapLength.toNat :=
        Nat.pos_of_ne_zero fun zero => ((pauseAfter_iff r k).1 p).1 (BitVec.eq_of_toNat_eq zero)
      exact ⟨rfl, .inr (Nat.mul_pos (Nat.succ_pos _) gap)⟩
    · rw [afterBytes_byte inside p]
      exact settled_byte r k
  · rw [afterBytes_hold past]
    exact ⟨rfl, .inl rfl⟩

/-- Nothing passes in no time where a phase has just begun. -/
theorem elapse_settled {r : FrameRecord} {q : Progress} {fuel : Nat} (h : Settled r q) :
    (r.at q).elapse (fuel + 1) 0 = r.at q := by
  obtain ⟨spent, place⟩ := h
  have start : (r.at q).progress.spent + 0 = 0 := spent
  by_cases long : 0 < (r.at q).phaseTicks
  · rw [elapse_stays (by rw [start]; exact long)]
    rfl
  · have hold := place.resolve_right long
    rw [elapse_waits (by omega) ((awaitsEvent_iff _).2 (.inl hold)), Nat.eq_zero_of_not_pos long, ← spent]
    rfl

theorem tick_eq {r t : FrameRecord} (h : r.elapse (2 * r.totalBytes + 3 + 1) 1 = t)
    (a : ¬(t.progress.phase = .byte ∧ t.progress.spent = t.phaseTicks)) : r.tick = t := by
  subst h
  exact if_neg a

theorem tick_stays {r : FrameRecord} (h : r.progress.spent + 1 < r.phaseTicks) :
    r.tick = r.at { r.progress with spent := r.progress.spent + 1 } :=
  tick_eq (elapse_stays h) fun ⟨_, full⟩ => Nat.ne_of_lt h full

/-- A byte whose command comes as it ends. -/
theorem tick_byte {r : FrameRecord} (h : r.progress.spent + 1 = r.phaseTicks) (byte : r.progress.phase = .byte)
    (a : r.awaitsEvent = true) : r.tick = r.at r.nextPhase := by
  have waits : r.elapse r.phases 1 = r.at { r.progress with spent := r.phaseTicks } := elapse_waits (Nat.le_of_eq h.symm) a
  rw [FrameRecord.tick, waits, nextPhase_byte byte]
  exact if_pos ⟨byte, rfl⟩

/-- A phase that ends by the clock. -/
theorem tick_passes {r : FrameRecord} (h : r.progress.spent + 1 = r.phaseTicks) (a : ¬ r.awaitsEvent = true)
    (next : Settled r r.nextPhase) : r.tick = r.at r.nextPhase := by
  have passes := elapse_passes (fuel := 2 * r.totalBytes + 3) (Nat.le_of_eq h.symm) a
  rw [h, Nat.sub_self] at passes
  refine tick_eq (passes.trans (elapse_settled next)) fun ⟨byte, full⟩ => ?_
  obtain ⟨spent, hold | long⟩ := next
  · exact absurd (hold.symm.trans byte) (by decide)
  · rw [← full] at long
    exact Nat.ne_of_gt long spent

theorem ticks_inside (r : FrameRecord) {phase : Phase} {bytes n : Nat} (h : n < (r.at (begin phase bytes)).phaseTicks) :
    FrameRecord.tick^[n] (r.at (begin phase bytes)) = r.at { phase, bytes, spent := n } := by
  induction n with
  | zero => rfl
  | succ n ih =>
    rw [Function.iterate_succ_apply', ih (by omega)]
    exact tick_stays h

theorem ticks_phase (r : FrameRecord) {phase : Phase} {bytes : Nat} (hold : phase ≠ .hold)
    (long : 0 < (r.at (begin phase bytes)).phaseTicks) (next : Settled r (r.at (begin phase bytes)).nextPhase) :
    FrameRecord.tick^[(r.at (begin phase bytes)).phaseTicks] (r.at (begin phase bytes)) =
      r.at (r.at (begin phase bytes)).nextPhase := by
  generalize ticks : (r.at (begin phase bytes)).phaseTicks = l at long
  obtain ⟨m, rfl⟩ : ∃ m, l = m + 1 := ⟨l - 1, by omega⟩
  rw [Function.iterate_succ_apply', ticks_inside r (by omega)]
  have last : (r.at { phase, bytes, spent := m }).progress.spent + 1 = (r.at { phase, bytes, spent := m }).phaseTicks := ticks.symm
  have same : (r.at (begin phase bytes)).nextPhase = (r.at { phase, bytes, spent := m }).nextPhase := by
    cases phase with
    | hold => exact absurd rfl hold
    | deselect | setup | byte | pause => rfl
  rw [same] at next ⊢
  by_cases a : (r.at { phase, bytes, spent := m }).awaitsEvent = true
  · exact tick_byte last (((awaitsEvent_iff _).1 a).resolve_left hold).1 a
  · exact tick_passes last a next

theorem tick_phase (r : FrameRecord) {phase : Phase} {bytes : Nat} (hold : phase ≠ .hold)
    (long : 0 < (r.at (begin phase bytes)).phaseTicks) (next : Settled r (r.at (begin phase bytes)).nextPhase) :
    Passes (tickWalk r) 1 (begin phase bytes) (r.at (begin phase bytes)).phaseTicks (r.at (begin phase bytes)).nextPhase := by
  intro fuel n
  unfold tickWalk
  refine ⟨fun h => ?_, fun h => ?_⟩
  · rw [ticks_inside r h]
    exact hold
  · rw [← ticks_phase r hold long next, ← Function.iterate_add_apply, Nat.sub_add_cancel h]

theorem tick_shifts (r : FrameRecord) : Shifts r (tickWalk r) where
  byte b _ := tick_phase r (by decide) (byteTicks_pos r b) (settled_afterBytes r (b + 1))
  pause b _ p := by
    have gap : 0 < r.framing.gapLength.toNat :=
      Nat.pos_of_ne_zero fun zero => ((pauseAfter_iff r b).1 p).1 (BitVec.eq_of_toNat_eq zero)
    exact tick_phase r (by decide) (Nat.mul_pos (Nat.succ_pos _) gap) (settled_byte r b)

theorem ticks_hold {r : FrameRecord} {bytes n : Nat} (h : n ≤ (r.at (begin .hold bytes)).phaseTicks) :
    FrameRecord.tick^[n] (r.at (begin .hold bytes)) = r.at { phase := .hold, bytes, spent := n } := by
  induction n with
  | zero => rfl
  | succ n ih =>
    rw [Function.iterate_succ_apply', ih (by omega)]
    rcases Nat.lt_or_eq_of_le h with inside | full
    · exact tick_stays inside
    · exact tick_eq ((elapse_waits (Nat.le_of_eq full.symm) rfl).trans (by rw [full]; rfl)) fun ⟨byte, _⟩ => by cases byte

end Sys2Proof.Machine
end

section
namespace Sys2Proof.Machine

/-! ### A whole frame (R22, R85) -/

/-- A frame as it is asserted: at its setup, or with no setup at its first byte. -/
def Asserted (r : FrameRecord) : Prop :=
  r.progress = begin .setup 0 ∨ r.framing.csSetup = 0 ∧ r.progress = begin .byte 0

/-- The clock periods from the assertion to the hold. -/
def FrameRecord.bodyTicks (r : FrameRecord) : Nat := r.framing.halfClock *
  (r.framing.csSetup.toNat + 16 * r.totalBytes + r.pauses * r.framing.gapLength.toNat)

section

variable {r : FrameRecord}

theorem total_pos (header : r.currentHeader ≠ []) : 0 < r.totalBytes :=
  Nat.add_pos_left (List.length_pos_of_ne_nil header) _

/-- With no setup the frame lasts from its first byte. -/
theorem bodyTicks_noSetup (noSetup : r.framing.csSetup.toNat = 0) : r.bodyTicks =
    r.framing.halfClock * (16 * r.totalBytes + r.pauses * r.framing.gapLength.toNat) := by
  rw [FrameRecord.bodyTicks, noSetup, Nat.zero_add]

theorem bodyTicks_setup (r : FrameRecord) : r.framing.halfClock * r.framing.csSetup.toNat +
    r.framing.halfClock * (16 * r.totalBytes + r.pauses * r.framing.gapLength.toNat) = r.bodyTicks := by
  rw [← Nat.mul_add, ← Nat.add_assoc, FrameRecord.bodyTicks]

theorem nextPhase_assertion (full : r.limit = r.totalBytes) (header : r.currentHeader ≠ []) :
    (r.at (begin .setup 0)).nextPhase = begin .byte 0 := by
  have nonempty := total_pos header
  have long : ¬ (r.at (begin .setup 0)).limit = 0 := fun zero => by
    have : r.limit = 0 := zero
    omega
  rw [nextPhase_setup rfl, if_neg long]
  rfl

/-- A walk that goes through the setup, the bytes and the pauses brings an asserted frame to its hold. -/
theorem Shifts.whole {walk : Progress → Nat → Nat → FrameRecord} (h : Shifts r walk) (full : r.limit = r.totalBytes)
    (header : r.currentHeader ≠ []) (start : Asserted r)
    (setup : r.progress = begin .setup 0 →
      Passes walk 1 (begin .setup 0) (r.framing.halfClock * r.framing.csSetup.toNat) (begin .byte 0)) :
    ∃ k ≤ 2 * r.totalBytes, Passes walk k r.progress r.bodyTicks (begin .hold r.totalBytes) := by
  obtain ⟨k, bound, frame⟩ := h.frame full header
  rcases start with place | ⟨noSetup, place⟩
  · rw [← bodyTicks_setup r, place]
    exact ⟨k + 1, bound, (setup place).trans frame⟩
  · rw [bodyTicks_noSetup (by rw [noSetup]; rfl), place]
    exact ⟨k, by omega, frame⟩

/-- By the clock alone. -/
theorem elapse_whole (full : r.limit = r.totalBytes) (header : r.currentHeader ≠ []) (start : Asserted r)
    (clocked : r.kind ≠ .read ∧ (r.kind ≠ .programPair ∨ r.pair = some .first)) :
    (∀ n, n < r.bodyTicks → (r.elapse r.phases n).progress.phase ≠ .hold) ∧
      ∀ n, n ≤ r.framing.halfClock * r.framing.csHold.toNat → r.elapse r.phases (r.bodyTicks + n) =
        r.at { phase := .hold, bytes := r.totalBytes, spent := n } := by
  obtain ⟨notRead, header_only⟩ := clocked
  have free (b : Nat) (inside : b < r.totalBytes) : ¬ (r.at (begin .byte b)).awaitsEvent = true := by
    intro a
    rcases (awaitsEvent_iff _).1 a with hold | ⟨_, data, read | pair⟩
    · cases hold
    · exact notRead read
    · have first : r.pair = some .first := header_only.resolve_left fun no => no pair
      have data : r.currentHeader.length ≤ b := data
      rw [FrameRecord.totalBytes, FrameRecord.currentCount, if_pos first] at inside
      omega
  have setup := elapse_phase r (phase := .setup) (bytes := 0) (by decide) Bool.false_ne_true
  rw [nextPhase_assertion full header] at setup
  obtain ⟨k, bound, whole⟩ := (elapse_shifts free).whole full header start fun _ => setup
  obtain ⟨early, late⟩ := whole.periods (fuel := r.phases) (by unfold FrameRecord.phases; omega)
  refine ⟨early, fun n inside => (late n).trans ?_⟩
  obtain ⟨f, hf⟩ : ∃ f, r.phases - k = f + 1 := ⟨r.phases - k - 1, by unfold FrameRecord.phases; omega⟩
  rw [hf]
  exact elapse_hold inside

/-- A setup of no length is no clock period: the first one is of the first byte. -/
theorem tick_noSetup (full : r.limit = r.totalBytes) (header : r.currentHeader ≠ []) (noSetup : r.framing.csSetup.toNat = 0) :
    (r.at (begin .setup 0)).tick = (r.at (begin .byte 0)).tick := by
  have nothing : (r.at (begin .setup 0)).phaseTicks = 0 := (congrArg (r.framing.halfClock * ·) noSetup).trans (Nat.mul_zero _)
  have half : 1 ≤ r.framing.halfClock := Nat.succ_pos _
  have long : 0 + 1 < (r.at (begin .byte 0)).phaseTicks :=
    Nat.lt_of_lt_of_le (by decide : 0 + 1 < 1 * 16) (Nat.mul_le_mul_right 16 half)
  have passes := elapse_passes (r := r.at (begin .setup 0)) (fuel := 2 * r.totalBytes + 3) (n := 1)
    (by rw [nothing]; exact Nat.zero_le _) Bool.false_ne_true
  rw [nextPhase_assertion full header, nothing] at passes
  rw [tick_stays (r := r.at (begin .byte 0)) long]
  exact tick_eq (passes.trans (elapse_stays long)) fun ⟨_, spent⟩ => Nat.ne_of_lt long spent

/-- With the command of each data byte as it ends. -/
def TicksWhole (r : FrameRecord) : Prop :=
  (∀ n, n < r.bodyTicks → (FrameRecord.tick^[n] r).progress.phase ≠ .hold) ∧
    ∀ n, n ≤ r.framing.halfClock * r.framing.csHold.toNat → FrameRecord.tick^[r.bodyTicks + n] r =
      r.at { phase := .hold, bytes := r.totalBytes, spent := n }

/-- Where the setup takes time. -/
theorem ticksWhole_setup (full : r.limit = r.totalBytes) (header : r.currentHeader ≠ []) (start : Asserted r)
    (long : r.progress = begin .setup 0 → 0 < r.framing.csSetup.toNat) : TicksWhole r := by
  have next := nextPhase_assertion full header
  obtain ⟨k, _, whole⟩ := (tick_shifts r).whole full header start fun place => by
    have setup := tick_phase r (phase := .setup) (bytes := 0) (by decide) (Nat.mul_pos (Nat.succ_pos _) (long place))
      (by rw [next]; exact settled_byte r 0)
    rw [next] at setup
    exact setup
  obtain ⟨early, late⟩ := whole.periods (Nat.le_refl k)
  exact ⟨early, fun n inside => (late n).trans (ticks_hold inside)⟩

theorem tick_whole (full : r.limit = r.totalBytes) (header : r.currentHeader ≠ []) (start : Asserted r) : TicksWhole r := by
  by_cases instant : r.progress = begin .setup 0 ∧ r.framing.csSetup.toNat = 0
  · obtain ⟨place, noSetup⟩ := instant
    have first : (r.at (begin .setup 0)) = r := by rw [← place]; rfl
    obtain ⟨early, late⟩ := ticksWhole_setup (r := r.at (begin .byte 0)) full header
      (.inr ⟨BitVec.eq_of_toNat_eq noSetup, rfl⟩) fun no => by cases no
    have same (n : Nat) (later : 0 < n) : FrameRecord.tick^[n] r = FrameRecord.tick^[n] (r.at (begin .byte 0)) := by
      obtain ⟨m, rfl⟩ : ∃ m, n = m + 1 := ⟨n - 1, by omega⟩
      rw [Function.iterate_succ_apply, Function.iterate_succ_apply, ← tick_noSetup full header noSetup, first]
    have body : 0 < r.bodyTicks := Nat.mul_pos (Nat.succ_pos _) (by have := total_pos header; omega)
    refine ⟨fun n inside => ?_, fun n inside => ?_⟩
    · rcases Nat.eq_zero_or_pos n with zero | later
      · rw [zero, ← first]
        exact Phase.noConfusion
      · rw [same n later]
        exact early n inside
    · rw [same _ (by omega)]
      exact late n inside
  · exact ticksWhole_setup full header start fun place => Nat.pos_of_ne_zero fun zero => instant ⟨place, zero⟩

end

/-- Settles O45: each phase by the cases of `elapse`, and the whole frame as the walk through its phases (`Shifts.whole`), which the
clock alone and `FrameRecord.tick` each make. -/
theorem framesLastAsLongAsTheirBytes : Obligations.FramesLastAsLongAsTheirBytes := by
  unfold Obligations.FramesLastAsLongAsTheirBytes
  refine ⟨fun r fuel n => ?_, fun r whole header start => ?_⟩
  · intro half header limit length awaited pauses spent next
    have hlimit : r.limit = limit := by
      unfold FrameRecord.limit
      cases e : r.earlyEnd <;> simp only [limit, e] <;> rfl
    have hlength : r.phaseTicks = length := rfl
    have hawaited : r.awaitsEvent = true ↔ awaited := awaitsEvent_iff r
    have hpauses (k : Nat) : r.pauseAfter k = true ↔ pauses k := pauseAfter_iff r k
    have after (k : Nat) : (limit ≤ k → r.afterBytes k = { phase := .hold, bytes := k, spent := 0 }) ∧
        (k < limit → pauses k → r.afterBytes k = { phase := .pause, bytes := k, spent := 0 }) ∧
        (k < limit → ¬ pauses k → r.afterBytes k = { phase := .byte, bytes := k, spent := 0 }) := by
      rw [← hlimit, ← hpauses]
      exact ⟨afterBytes_hold, afterBytes_pause, afterBytes_byte⟩
    refine ⟨hlength, rfl, after, fun h => elapse_stays h, fun h a => elapse_waits h (hawaited.2 a), fun h a => ?_⟩
    have passes := elapse_passes (fuel := fuel) h (fun w => a (hawaited.1 w))
    have goes {q : Progress} (e : r.nextPhase = q) : r.elapse (fuel + 1) n =
        FrameRecord.elapse fuel (r.progress.spent + n - length) { r with progress := q } := by rw [passes, e]; rfl
    refine ⟨fun at_ => goes (nextPhase_deselect at_), fun at_ zero => goes ?_, fun at_ long => goes ?_,
      fun at_ => goes (nextPhase_pause at_), fun at_ => ?_⟩
    · rw [nextPhase_setup at_, if_pos (hlimit.trans zero)]
    · rw [nextPhase_setup at_, if_neg fun zero => long (hlimit.symm.trans zero)]
    · obtain ⟨hold, pause, byte⟩ := after (r.progress.bytes + 1)
      exact ⟨fun h => goes ((nextPhase_byte at_).trans (hold h)), fun h p => goes ((nextPhase_byte at_).trans (pause h p)),
        fun h p => goes ((nextPhase_byte at_).trans (byte h p))⟩
  · have full : r.limit = r.totalBytes := by rw [FrameRecord.limit, whole]; rfl
    exact ⟨rfl, fun notRead first => elapse_whole full header start ⟨notRead, first⟩, tick_whole full header start⟩

end Sys2Proof.Machine
end

section
namespace Sys2Proof.Machine

/-! ### An item leaves its list -/

/-- An orphan's slot and credit are freed, and SPACE is judged (R148, R166, R173). -/
theorem dropOrphan_eq (u : PortUnit) (slot : Option SlotIx) : u.dropOrphan slot = PortUnit.judgeSpace { u with
    credits := u.credits - 1
    slots := match slot with
      | some k => put u.slots k { state := .free, data := [], valid := 0, ret := none }
      | none => u.slots } := by
  cases slot <;> rfl

/-- The port of an orphan that has left its list (R148, R166). -/
theorem discarded_port (s : State) (b : Bus) {it : Item} (r : Completion) (h : it.orphan = true) :
    (s.finish b it r).port it.port = PortUnit.judgeSpace { s.port it.port with
      credits := (s.port it.port).credits - 1
      slots := match it.slot with
        | some k => put (s.port it.port).slots k { state := .free, data := [], valid := 0, ret := none }
        | none => (s.port it.port).slots } :=
  (finish_port_same s b it r).trans ((if_pos h).trans (dropOrphan_eq _ _))

/-- Settles O39, by the laws of `State.finish`: its port is changed by `PortUnit.post` or by `PortUnit.dropOrphan`. -/
theorem itemsLeaveTheirList : Obligations.ItemsLeaveTheirList := by
  unfold Obligations.ItemsLeaveTheirList
  intro b it r s
  refine ⟨rfl, rfl, rfl, finish_blocked s b it r, fun c => finish_bus_other s b c it r, finish_bus_same s b it r,
    fun q => finish_port_other s b it r q, fun own => ?_, fun orphan => ⟨fun room => ?_, fun full => ?_⟩⟩
  · exact (finish_port_same s b it r).trans ((if_neg (by simp [own])).trans (post_eq _ _ _))
  · exact (discarded_port s b r orphan).trans (judgeSpace_raises _ room)
  · exact (discarded_port s b r orphan).trans (judgeSpace_waits _ full)

/-! ### The admission checks -/

theorem grants_iff (e : RegionEntry) (r : Request) : e.grants r = true ↔
    e.rights.getLsbD r.kind.rightBit = true ∧ (r.urgent = true → e.rights.getLsbD 4 = true) := by
  cases hu : r.urgent <;> simp [RegionEntry.grants, hu]

/-- The number of addresses that a request covers (R38): an erase unit is never 0, but for an ABSENT target (R48). -/
theorem span_eq (r : Request) (tr : TargetRecord) : r.span tr.admissionUnit = match r.kind with
    | .read | .program => r.length.toNat
    | .erase => if tr.state = .absent then 1 else r.length.toNat * tr.profile.eraseUnit.bytes
    | .status => 1 := by
  have unit : tr.profile.eraseUnit.bytes ≠ 0 := by cases tr.profile.eraseUnit <;> decide
  unfold Request.span TargetRecord.admissionUnit TargetRecord.present
  cases r.kind with
  | erase => by_cases h : tr.state = .absent <;> simp [h, unit]
  | read | program | status => rfl

section

variable {e : RegionEntry} {tr : TargetRecord} {r : Request}

/-- The last physical address of a request (R51). -/
def lastPhysical (e : RegionEntry) (tr : TargetRecord) (r : Request) : Nat :=
  e.translate r.address.toNat + r.span tr.admissionUnit - 1

/-- The request runs past the end of the window of its first byte (R49). -/
def OverrunsWindow (e : RegionEntry) (tr : TargetRecord) (r : Request) : Prop :=
  e.base.toNat * 4096 + e.size.toNat * 4096 < r.address.toNat + r.span tr.admissionUnit

theorem refusalOf_span (h : OverrunsWindow e tr r) : refusalOf e tr r = some .span := if_pos h

theorem refusalOf_rights (h : ¬ OverrunsWindow e tr r) (g : ¬ e.grants r = true) : refusalOf e tr r = some .rights :=
  (if_neg h).trans (if_pos (by simpa using g))

theorem refusalOf_down (h : ¬ OverrunsWindow e tr r) (g : e.grants r = true) (d : tr.state = .absent ∨ tr.state = .faulted) :
    refusalOf e tr r = some .targetDown := (if_neg h).trans ((if_neg (by simp [g])).trans (if_pos d))

theorem refusalOf_outside (h : ¬ OverrunsWindow e tr r) (g : e.grants r = true)
    (d : ¬(tr.state = .absent ∨ tr.state = .faulted))
    (o : tr.profile.capacity ≤ lastPhysical e tr r) : refusalOf e tr r = some .outside :=
  (if_neg h).trans ((if_neg (by simp [g])).trans ((if_neg d).trans (if_pos o)))

/-- Inside its window and its target, a request is judged by its kind alone (R54, R55). -/
theorem refusalOf_kind (h : ¬ OverrunsWindow e tr r) (g : e.grants r = true)
    (d : ¬(tr.state = .absent ∨ tr.state = .faulted))
    (o : ¬ tr.profile.capacity ≤ lastPhysical e tr r) : refusalOf e tr r = match r.kind with
      | .program =>
        if e.translate r.address.toNat / tr.profile.pageSize = lastPhysical e tr r / tr.profile.pageSize then none
        else some .page
      | .erase => if e.translate r.address.toNat % tr.profile.eraseUnit.bytes = 0 then none else some .align
      | .read | .status => none :=
  (if_neg h).trans ((if_neg (by simp [g])).trans ((if_neg d).trans (if_neg o)))

end

/-- Settles O34: the checks of `refusalOf`, each where the ones before it have passed. -/
theorem admissionChecksInOrder : Obligations.AdmissionChecksInOrder := by
  unfold Obligations.AdmissionChecksInOrder
  intro e tr r address base unit span physical last right spans granted down outside crosses askew
  have hspan : r.span tr.admissionUnit = span := span_eq r tr
  have hlast : lastPhysical e tr r = last := by rw [lastPhysical, hspan]; rfl
  have hspans : OverrunsWindow e tr r ↔ spans := by rw [OverrunsWindow, hspan]
  have hgranted : e.grants r = true ↔ granted := grants_iff e r
  have houtside : tr.profile.capacity ≤ lastPhysical e tr r ↔ outside := by rw [hlast]; exact .rfl
  rw [← hspans, ← hgranted, ← houtside]
  refine ⟨refusalOf_span, refusalOf_rights, refusalOf_down, refusalOf_outside, fun h g d o cross => ?_,
    fun h g d o skew => ?_, fun h g d o whole straight => ?_⟩
  all_goals rw [refusalOf_kind h g d o, hlast]
  · rw [cross.1]; exact if_neg cross.2
  · rw [skew.1]; exact if_neg skew.2
  · cases hk : r.kind with
    | program => exact if_pos (not_not.1 fun h => whole ⟨hk, h⟩)
    | erase => exact if_pos (not_not.1 fun h => straight ⟨hk, h⟩)
    | read | status => rfl

end Sys2Proof.Machine
end

section
namespace Sys2Proof.Machine

/-! ### RESET BUS and BUS MODE -/

/-- A frame taken that also changes the Bus Engines and the events that wait, and nothing else. -/
structure BusFrameTaken (p : Port) (result : Result) (buses : Vector BusEngine 2) (waiting : List Waiting) (s t : State) : Prop
    extends FrameTaken p result s t where
  rest : t = { s with ports := t.ports, buses := t.buses, waiting := t.waiting }
  buses : t.buses = buses
  waiting : t.waiting = waiting

/-- A frame without a reply whose effect is one on the Bus Engines and the events that wait. -/
theorem plainFrame_buses {s : State} {p : Port} {need : Nat} {bytes : List Byte} {act : State → State × Result}
    {result : Result} {buses : Vector BusEngine 2} {waiting : List Waiting} (hn : need ≤ bytes.length + 1)
    (ha : act (s.setPort p (s.port p).opened) =
      ({ s.setPort p (s.port p).opened with buses := buses, waiting := waiting }, result)) :
    BusFrameTaken p result buses waiting s (s.plainFrame p need bytes act) := by
  obtain ⟨rest, taken⟩ := plainFrame_taken hn ha rfl
  refine ⟨taken, ?_, ?_, ?_⟩
  all_goals rw [rest]
  rfl

section

variable {p : Port} {bytes : List Byte} {s t : State} {b : Bus} {mode : BusMode}

theorem BusFrameTaken.bus_same {result : Result} {e : BusEngine} {w : List Waiting}
    (h : BusFrameTaken p result (s.setBus b e).buses w s t) : t.bus b = e :=
  (bus_congr h.buses b).trans (bus_setBus_same s b e)

theorem BusFrameTaken.bus_other {result : Result} {e : BusEngine} {w : List Waiting}
    (h : BusFrameTaken p result (s.setBus b e).buses w s t) {c : Bus} (hc : c ≠ b) : t.bus c = s.bus c :=
  (bus_congr h.buses c).trans (bus_setBus_other s b c e hc)

theorem takeResetBus_notAuth (hn : 2 ≤ bytes.length + 1) (hp : p ≠ s.authority) :
    BusFrameTaken p .notAuth s.buses s.waiting s (takeResetBus p bytes s) := plainFrame_buses hn (if_pos hp)

theorem takeResetBus_badField (hn : 2 ≤ bytes.length + 1) (hp : p = s.authority) (h : 1 < (byteAt bytes 0).toNat) :
    BusFrameTaken p .badField s.buses s.waiting s (takeResetBus p bytes s) :=
  plainFrame_buses hn ((if_neg (not_not.2 hp)).trans (by rw [below_none h]; rfl))

/-- The claim waits for an admission that has read a target of the bus (R95). -/
theorem takeResetBus_waits (hn : 2 ≤ bytes.length + 1) (hp : p = s.authority) (h : (byteAt bytes 0).toNat = b.val)
    (ha : s.admittingBus b = true) :
    BusFrameTaken p .ok s.buses (s.waiting ++ [.busReset b]) s (takeResetBus p bytes s) := by
  refine plainFrame_buses hn ((if_neg (not_not.2 hp)).trans ?_)
  rw [below_some h]
  exact congrArg (·, Result.ok) (if_pos ha)

/-- The claim is issued (R95). -/
theorem takeResetBus_issues (hn : 2 ≤ bytes.length + 1) (hp : p = s.authority) (h : (byteAt bytes 0).toNat = b.val)
    (ha : s.admittingBus b = false) :
    BusFrameTaken p .ok (s.setBus b { s.bus b with resets := (s.bus b).resets + 1 }).buses s.waiting s
      (takeResetBus p bytes s) := by
  refine plainFrame_buses hn ((if_neg (not_not.2 hp)).trans ?_)
  rw [below_some h]
  exact congrArg (·, Result.ok) (if_neg (Bool.eq_false_iff.1 ha))

theorem takeResetBus_taken (hn : 2 ≤ bytes.length + 1) :
    ∃ result buses waiting, BusFrameTaken p result buses waiting s (takeResetBus p bytes s) := by
  by_cases hp : p = s.authority
  · by_cases number : 1 < (byteAt bytes 0).toNat
    · exact ⟨_, _, _, takeResetBus_badField hn hp number⟩
    · have hb : (byteAt bytes 0).toNat = (⟨(byteAt bytes 0).toNat, by omega⟩ : Bus).val := rfl
      cases ha : s.admittingBus ⟨(byteAt bytes 0).toNat, by omega⟩ with
      | true => exact ⟨_, _, _, takeResetBus_waits hn hp hb ha⟩
      | false => exact ⟨_, _, _, takeResetBus_issues hn hp hb ha⟩
  · exact ⟨_, _, _, takeResetBus_notAuth hn hp⟩

/-- The mode codes (R185). -/
theorem busMode_ofByte {c : Byte} (h : c.toNat ≤ 2) :
    BusMode.ofByte c = some (if c.toNat = 0 then .run else if c.toNat = 1 then .halt else .float) := by
  unfold BusMode.ofByte
  generalize c.toNat = n at h
  interval_cases n <;> rfl

theorem busMode_ofByte_none {c : Byte} (h : 2 < c.toNat) : BusMode.ofByte c = none := by
  unfold BusMode.ofByte
  split
  · omega
  · omega
  · omega
  · rfl

/-- FLOAT is refused while a frame is in flight or a target of the bus is not at rest, on a bus not in FLOAT (R80 check 3). -/
theorem floatRefused_iff : s.floatRefused b = true ↔ (s.bus b).mode ≠ .float ∧ ((s.bus b).frame ≠ none ∨ ∃ x, busOf x = b ∧
    (s.target x).state ≠ .absent ∧ (s.target x).state ≠ .idle ∧ (s.target x).state ≠ .faulted) := by
  have rest : ∀ r : TargetRecord, (!r.atRest) = true ↔ r.state ≠ .absent ∧ r.state ≠ .idle ∧ r.state ≠ .faulted := by
    intro r
    unfold TargetRecord.atRest
    cases r.state <;> simp
  simp only [State.floatRefused, Bool.and_eq_true, Bool.or_eq_true, decide_eq_true_eq, List.any_eq_true, mem_targetsOf, rest,
    Option.isSome_iff_ne_none]

theorem takeBusMode_notAuth (hn : 3 ≤ bytes.length + 1) (hp : p ≠ s.authority) :
    BusFrameTaken p .notAuth s.buses s.waiting s (takeBusMode p bytes s) := plainFrame_buses hn (if_pos hp)

theorem takeBusMode_badField (hn : 3 ≤ bytes.length + 1) (hp : p = s.authority)
    (h : 1 < (byteAt bytes 0).toNat ∨ 2 < (byteAt bytes 1).toNat) :
    BusFrameTaken p .badField s.buses s.waiting s (takeBusMode p bytes s) := by
  refine plainFrame_buses hn ((if_neg (not_not.2 hp)).trans ?_)
  rcases h with h | h
  · rw [below_none h]; rfl
  · rw [busMode_ofByte_none h]; cases below 2 (byteAt bytes 0) <;> rfl

theorem takeBusMode_notNow (hn : 3 ≤ bytes.length + 1) (hp : p = s.authority) (h : (byteAt bytes 0).toNat = b.val)
    (hm : BusMode.ofByte (byteAt bytes 1) = some .float) (hf : s.floatRefused b = true) :
    BusFrameTaken p .notNow s.buses s.waiting s (takeBusMode p bytes s) := by
  refine plainFrame_buses hn ((if_neg (not_not.2 hp)).trans ?_)
  rw [below_some h, hm]
  exact if_pos (Bool.and_eq_true_iff.2 ⟨decide_eq_true rfl, hf⟩)

/-- The mode is set (R80). -/
theorem takeBusMode_ok (hn : 3 ≤ bytes.length + 1) (hp : p = s.authority) (h : (byteAt bytes 0).toNat = b.val)
    (hm : BusMode.ofByte (byteAt bytes 1) = some mode) (hf : ¬(mode = .float ∧ s.floatRefused b = true)) :
    BusFrameTaken p .ok (s.setBus b { s.bus b with mode }).buses s.waiting s (takeBusMode p bytes s) := by
  refine plainFrame_buses hn ((if_neg (not_not.2 hp)).trans ?_)
  rw [below_some h, hm]
  exact if_neg fun h => hf ((Bool.and_eq_true_iff.1 h).imp_left of_decide_eq_true)

theorem takeBusMode_taken (hn : 3 ≤ bytes.length + 1) :
    ∃ result buses, BusFrameTaken p result buses s.waiting s (takeBusMode p bytes s) := by
  by_cases hp : p = s.authority
  · by_cases h : 1 < (byteAt bytes 0).toNat ∨ 2 < (byteAt bytes 1).toNat
    · exact ⟨_, _, takeBusMode_badField hn hp h⟩
    · have hb : (byteAt bytes 0).toNat = (⟨(byteAt bytes 0).toNat, by omega⟩ : Bus).val := rfl
      obtain ⟨mode, hm⟩ : ∃ mode, BusMode.ofByte (byteAt bytes 1) = some mode := ⟨_, busMode_ofByte (by omega)⟩
      by_cases hf : mode = .float ∧ s.floatRefused ⟨(byteAt bytes 0).toNat, by omega⟩ = true
      · exact ⟨_, _, takeBusMode_notNow hn hp hb (hm.trans (by rw [hf.1])) hf.2⟩
      · exact ⟨_, _, takeBusMode_ok hn hp hb hm hf⟩
  · exact ⟨_, _, takeBusMode_notAuth hn hp⟩

end

/-- Settles O32, by the outcome of each frame. -/
theorem resetBusAndBusModeAtTheirRelease : Obligations.ResetBusAndBusModeAtTheirRelease := by
  unfold Obligations.ResetBusAndBusModeAtTheirRelease
  refine ⟨fun p bytes s hears hlen => ?_, fun p bytes s hears hlen => ?_⟩
  · have hn : 2 ≤ bytes.length + 1 := Nat.succ_le_succ hlen
    obtain ⟨_, _, _, taken⟩ := takeResetBus_taken (p := p) (s := s) hn
    refine ⟨takeResetBus p bytes s, exec_frame_taken (c := .resetBus p bytes) rfl hears rfl, taken.rest, taken.others,
      taken.own, fun hp => ?_, fun hp h => ?_, fun hp b hb => ⟨?_, fun ha => ?_, fun ha => ?_⟩⟩
    · have k := takeResetBus_notAuth hn hp
      exact ⟨k.buses, k.waiting, k.last⟩
    · have k := takeResetBus_badField hn hp h
      exact ⟨k.buses, k.waiting, k.last⟩
    · cases ha : s.admittingBus b with
      | true => exact (takeResetBus_waits hn hp hb ha).last
      | false => exact (takeResetBus_issues hn hp hb ha).last
    · have k := takeResetBus_waits hn hp hb ha
      exact ⟨k.buses, k.waiting⟩
    · have k := takeResetBus_issues hn hp hb ha
      exact ⟨k.waiting, fun c => k.bus_other, k.bus_same⟩
  · intro code
    have hn : 3 ≤ bytes.length + 1 := Nat.succ_le_succ hlen
    obtain ⟨_, _, taken⟩ := takeBusMode_taken (p := p) (s := s) hn
    have rest := taken.rest
    rw [taken.waiting] at rest
    refine ⟨takeBusMode p bytes s, exec_frame_taken (c := .busMode p bytes) rfl hears rfl, rest, taken.others, taken.own,
      fun hp => ?_, fun hp h => ?_, fun hp b hb hc => ?_⟩
    · have k := takeBusMode_notAuth hn hp
      exact ⟨k.buses, k.last⟩
    · have k := takeBusMode_badField hn hp h
      exact ⟨k.buses, k.last⟩
    · intro busy
      have mode := busMode_ofByte hc
      have float : (if code = 0 then BusMode.run else if code = 1 then .halt else .float) = .float ↔ code = 2 := by
        split_ifs <;> simp <;> omega
      refine ⟨fun two notFloat isBusy => ?_, fun free => ?_⟩
      · have k := takeBusMode_notNow hn hp hb (mode.trans (congrArg some (float.2 two)))
          (floatRefused_iff.2 ⟨notFloat, isBusy⟩)
        exact ⟨k.buses, k.last⟩
      · have k := takeBusMode_ok hn hp hb mode fun h => free ⟨float.1 h.1, floatRefused_iff.1 h.2⟩
        exact ⟨k.last, fun c => k.bus_other, k.bus_same⟩

end Sys2Proof.Machine
end

section
namespace Sys2Proof.Machine

/-! ### BUS_RESET_CLAIM -/

/-- A cancel claim that the authority sent before the bus reset claim is taken before it (R160). -/
theorem takeBusReset_cancel {s : State} {b : Bus} {c : CancelClaim}
    (h : (s.bus b).cancels.find? (fun x => decide (x.port = s.authority)) = some c) (first : c.behind = 0) :
    s.takeBusReset b = ((s.modBus b (fun e => { e with cancels := dropFirstOf s.authority e.cancels })).cancelItem b
      c.item).takeBusReset b := by
  have authority : ((s.modBus b (fun e => { e with cancels := dropFirstOf s.authority e.cancels })).cancelItem b
      c.item).authority = s.authority := (besideAll_cancelClaim s s.authority b c.item).authority
  unfold State.takeBusReset
  rw [takeCancels_cons s s.authority b (fun c => decide (c.behind = 0)) c h (decide_eq_true first), authority]

/-- A cancel claim may be taken before or after a bus reset claim is withdrawn. -/
theorem cancelClaim_resets (s : State) (p : Port) (b : Bus) (uid : Nat) (g : Nat → Nat) :
    ((s.modBus b (fun e => { e with cancels := dropFirstOf p e.cancels })).cancelItem b uid).modBus b
        (fun e => { e with resets := g e.resets }) =
      ((s.modBus b (fun e => { e with resets := g e.resets })).modBus b
        (fun e => { e with cancels := dropFirstOf p e.cancels })).cancelItem b uid := by
  rw [modBus_comm s b b (fun e => { e with resets := g e.resets }) (fun e => { e with cancels := dropFirstOf p e.cancels })
    fun _ => rfl]
  exact (cancelItem_modBus (aside_resets g) _ b b uid).symm

/-- The bus reset claim finds the authority's earlier cancel claim taken (R160). -/
theorem settleBusReset_cancel {s : State} {b : Bus} {c : CancelClaim} (ha : s.admittingBus b = false)
    (h : (s.bus b).cancels.find? (fun x => decide (x.port = s.authority)) = some c) (first : c.behind = 0) :
    s.settleBusReset b = ((s.modBus b (fun e => { e with cancels := dropFirstOf s.authority e.cancels })).cancelItem b
      c.item).settleBusReset b := by
  have beside := besideAll_cancelClaim s s.authority b c.item
  have found : ((s.modBus b (fun e => { e with resets := e.resets - 1 })).bus b).cancels.find?
      (fun x => decide (x.port = s.authority)) = some c := by rw [bus_modBus, if_pos rfl]; exact h
  rw [settleBusReset_takes ha, settleBusReset_takes ((beside.admittingBus b).trans ha), takeBusReset_cancel found first,
    cancelClaim_resets s s.authority b c.item (· - 1)]
  rfl

/-- The item that the frame in flight on a bus serves. -/
def BusEngine.inFlight (e : BusEngine) : Option Nat := e.frame.bind (·.item)

/-- The items that a bus reset claim removes have left, in list order (R96). -/
def State.aborted (s : State) (b : Bus) : State :=
  s.finishAll b ((s.bus b).list.filter (fun it => decide ¬ (s.bus b).inFlight = some it.uid))
    (fun it => it.report .failed .aborted it.bytesMoved it.headBytes)

theorem aborted_modBus {f : BusEngine → BusEngine} (hf : Aside f) (s : State) (b : Bus) :
    (s.modBus b f).aborted b = (s.aborted b).modBus b f := by
  unfold State.aborted BusEngine.inFlight
  rw [bus_modBus, if_pos rfl, hf.list_eq, hf.frame_eq, finishAll_modBus hf]

/-- Of the bus's own list, the item in flight stays. -/
theorem aborted_bus_same (s : State) (b : Bus) : (s.aborted b).bus b =
    { s.bus b with list := (s.bus b).list.filter (fun it => decide ((s.bus b).inFlight = some it.uid)) } := by
  unfold State.aborted
  rw [finishAll_bus_same]
  refine congrArg (fun l => ({ s.bus b with list := l } : BusEngine)) (List.filter_congr fun x hx => ?_)
  rw [Bool.eq_iff_iff, List.all_eq_true, decide_eq_true_eq]
  constructor
  · intro stays
    by_contra leaves
    exact absurd (stays x (List.mem_filter.2 ⟨hx, decide_eq_true leaves⟩)) (by simp)
  · intro serves it hit
    refine bne_iff_ne.2 fun same => of_decide_eq_true (List.mem_filter.1 hit).2 ?_
    rw [serves, same]

/-- A target of a bus that is reset: RESETTING, where it is present (R119). -/
def TargetRecord.busReset (r : TargetRecord) : TargetRecord := if r.present then r.toResetting else r

theorem busReset_absent {r : TargetRecord} (h : r.state = .absent) : r.busReset = r :=
  if_neg (by simp [TargetRecord.present, h])

theorem busReset_present {r : TargetRecord} (h : r.state ≠ .absent) : r.busReset = r.inReset :=
  if_pos (by simp [TargetRecord.present, h])

/-- A Bus Engine whose bus reset claim is taken, but for its list: one claim fewer stands, before the cancel claims too, and
the frame in flight is overtaken (R97, R160). -/
def BusEngine.resetTaken (e : BusEngine) : BusEngine :=
  { e with
    cancels := e.cancels.map (fun c => { c with behind := c.behind - 1 })
    resets := e.resets - 1
    frame := e.frame.map (fun r => { r.endEarly with overtaken := true }) }

/-- With no earlier cancel claim of the authority's, a bus reset claim removes the items, changes the engine and resets the
targets of the bus (R96, R97, R119). -/
theorem takeBusReset_clears {s : State} {b : Bus} (later : ∀ c ∈ (s.bus b).cancels, c.port = s.authority → c.behind ≠ 0) :
    s.takeBusReset b = (targetsOf b).foldl (fun u x => u.modTarget x TargetRecord.busReset)
      (((s.aborted b).modBus b (·.closeRanks)).modBus b
        (fun e => { e with frame := e.frame.map (fun r => { r.endEarly with overtaken := true }) })) := by
  have leaves : ∀ (w : Option Nat) (it : Item), (some it.uid != w) = decide ¬ w = some it.uid := fun w it => by
    rw [Bool.eq_iff_iff, bne_iff_ne, decide_eq_true_eq, ne_comm]
  have ranks : Aside BusEngine.closeRanks := ⟨fun _ _ => rfl, fun _ _ => rfl⟩
  unfold State.takeBusReset
  rw [takeCancels_none _ _ _ _ fun c hc hp => decide_eq_false (later c hc hp), ← aborted_modBus ranks]
  simp only [leaves]
  rfl

/-- The items leave the state as they would before the claim was taken. -/
theorem settleBusReset_clears {s : State} {b : Bus} (free : s.admittingBus b = false)
    (later : ∀ c ∈ (s.bus b).cancels, c.port = s.authority → c.behind ≠ 0) : s.settleBusReset b =
      (targetsOf b).foldl (fun u x => u.modTarget x TargetRecord.busReset) ((s.aborted b).modBus b (·.resetTaken)) := by
  have taken : ((s.modBus b (fun e => { e with resets := e.resets - 1 })).bus b).cancels = (s.bus b).cancels := by
    rw [bus_modBus, if_pos rfl]
  rw [settleBusReset_takes free, takeBusReset_clears (by rw [taken]; exact later), aborted_modBus (aside_resets (· - 1))]
  simp only [modBus_eq, bus_setBus_same, setBus_setBus]
  rfl

/-- Settles O33: an earlier cancel claim by `settleBusReset_cancel`, the claim itself by `settleBusReset_clears`. -/
theorem busResetClaimClearsTheBus : Obligations.BusResetClaimClearsTheBus := by
  unfold Obligations.BusResetClaimClearsTheBus
  intro b s issued free serves out
  refine ⟨fun c found first => ?_, fun later => ?_⟩
  · have beside := besideAll_cancelClaim s s.authority b c.item
    refine ⟨_, exec_cancelClaim found, ?_⟩
    rw [exec_busResetClaim issued.ne', exec_busResetClaim ((beside.resets b).trans_ne issued.ne'),
      settleBusReset_cancel free found first]
  · obtain ⟨rest, target⟩ := modTargets (targetsOf b) .busReset (targetsOf_nodup b) ((s.aborted b).modBus b (·.resetTaken))
    rw [← settleBusReset_clears free later] at rest target
    have bus : ∀ c, (s.settleBusReset b).bus c = ((s.aborted b).modBus b (·.resetTaken)).bus c := fun c => by rw [rest]; rfl
    have same : (s.settleBusReset b).bus b = ((s.aborted b).bus b).resetTaken := (bus b).trans (bus_setBus_same _ _ _)
    have record : ∀ x, ((s.aborted b).modBus b (·.resetTaken)).target x = s.target x := fun x => by
      rw [State.aborted, (finishAll_rest s b _ _).1]; rfl
    refine ⟨_, exec_busResetClaim issued.ne', ?_, ?_, ⟨?_, ?_⟩, fun p => ?_, fun c hc => ?_, ?_⟩
    · rw [rest, State.aborted, (finishAll_rest s b _ _).1]; rfl
    · rw [rest]; exact finishAll_admission s b _ _
    · rw [rest]; rfl
    · rw [rest]; rfl
    · rw [rest]; exact finishAll_queue s b _ _ p
    · rw [bus, bus_modBus, if_neg hc]; exact finishAll_bus_other s b c _ _ hc
    · rw [same, aborted_bus_same]
      refine ⟨rfl, rfl, rfl, rfl, rfl, rfl, rfl, rfl, rfl, fun x unreached => ?_, fun x hx present => ?_⟩
      · rw [target, record, ite_eq_right_iff]
        exact fun hx => busReset_absent (unreached.resolve_left (not_not.2 ((mem_targetsOf b x).1 hx)))
      · rw [target, record, if_pos ((mem_targetsOf b x).2 hx), busReset_present present]

end Sys2Proof.Machine
end

section
namespace Sys2Proof.Machine

/-! ### CANCEL -/

/-- The head of a port's ring, under admission, bears the tag (R41). -/
theorem headUnderAdmission_iff (s : State) (p : Port) (tag : Byte) : s.headUnderAdmission p tag = true ↔
    ∃ a r rest, s.admission.current = some a ∧ a.port = p ∧ (s.port p).ring = r :: rest ∧ r.tag = tag := by
  rw [State.headUnderAdmission, Bool.and_eq_true, admittingPort_iff, beq_iff_eq]
  cases (s.port p).ring with
  | nil => simp
  | cons x xs => simp [← and_assoc]

theorem isOf_iff (p : Port) (tag : Byte) (it : Item) :
    it.isOf p tag = true ↔ it.port = p ∧ it.tag = tag ∧ it.orphan = false := by
  simp [Item.isOf, and_assoc]

/-- The first list is searched before the second (R160). -/
theorem itemOf_eq (s : State) (p : Port) (tag : Byte) : s.itemOf p tag =
    (((s.bus 0).list.find? (Item.isOf p tag)).map (Prod.mk 0)).or
      (((s.bus 1).list.find? (Item.isOf p tag)).map (Prod.mk 1)) := by
  unfold State.itemOf Item.isOf
  dsimp only
  split
  · next it found => rw [found]; rfl
  · next absent => rw [absent]; rfl

theorem itemOf_first (s : State) (p : Port) (tag : Byte) (it : Item) :
    s.itemOf p tag = some (0, it) ↔ (s.bus 0).list.find? (Item.isOf p tag) = some it := by
  rw [itemOf_eq]
  cases (s.bus 0).list.find? (Item.isOf p tag) <;> simp

theorem itemOf_second (s : State) (p : Port) (tag : Byte) (it : Item) : s.itemOf p tag = some (1, it) ↔
    (s.bus 0).list.find? (Item.isOf p tag) = none ∧ (s.bus 1).list.find? (Item.isOf p tag) = some it := by
  rw [itemOf_eq]
  cases (s.bus 0).list.find? (Item.isOf p tag) <;> simp

theorem itemOf_none (s : State) (p : Port) (tag : Byte) :
    s.itemOf p tag = none ↔ ∀ b, ∀ it ∈ (s.bus b).list, ¬ it.isOf p tag = true := by
  rw [itemOf_eq, Fin.forall_fin_two, Option.or_eq_none_iff, Option.map_eq_none_iff, Option.map_eq_none_iff,
    List.find?_eq_none, List.find?_eq_none]

/-- The bus reset claims of a bus that are issued: those that stand and those that wait (R95). -/
theorem resetsIssued_eq (b : Bus) (s : State) : s.resetsIssued b = (s.bus b).resets + s.waiting.count (.busReset b) := by
  have test : ∀ w : Waiting, w.isResetOf b = (w == .busReset b) := fun w => by
    rw [Bool.eq_iff_iff, beq_iff_eq]
    cases w <;> simp [Waiting.isResetOf]
  simp only [State.resetsIssued, test, List.count, List.countP_eq_length_filter]

/-- Judging SPACE touches only that cause, its arming and the capture of a CAUSE (R173, R176). -/
theorem judgeSpace_rest (u : PortUnit) : u.judgeSpace = { u with
    pending := { u.pending with space := u.judgeSpace.pending.space }
    armed := u.judgeSpace.armed
    link := u.judgeSpace.link } := by
  unfold PortUnit.judgeSpace
  split <;> rfl

@[simp] theorem judgeSpace_last (u : PortUnit) : u.judgeSpace.last = u.last := by
  unfold PortUnit.judgeSpace
  split <;> rfl

/-- A Port Unit whose ring entry has left by CANCEL, before SPACE is judged (R160). -/
def PortUnit.entryPosted (u : PortUnit) (r : Request) : PortUnit :=
  { u with ring := u.ring.filter (fun x => x.tag != r.tag) }.post r.slot r.recordCancelled

/-- The blocked findings of the Admission Unit, replaced. -/
def State.setBlocked (s : State) (v : Vector (Option Bus) 4) : State :=
  { s with admission := { s.admission with blocked := v } }

/-- The blocked findings once a ring entry of a port has left: its own ends when the entry was the head (R46, R160). -/
def State.blockedWithout (s : State) (p : Port) (tag : Byte) : Vector (Option Bus) 4 :=
  if (s.port p).ring.head?.map (·.tag) = some tag then put s.admission.blocked p none else s.admission.blocked

theorem cancelEntry_eq (s : State) (p : Port) (r : Request) : s.cancelEntry p r =
    (s.setPort p ((s.port p).entryPosted r).judgeSpace).setBlocked (s.blockedWithout p r.tag) := by
  unfold State.cancelEntry State.blockedWithout
  simp only [beq_iff_eq]
  split <;> rfl

theorem cancelTag_entry {s : State} {p : Port} {tag : Byte} {r : Request}
    (h : (s.port p).ring.find? (fun r => r.tag == tag) = some r) : s.cancelTag p tag = s.cancelEntry p r := by
  simp only [State.cancelTag, h]

theorem cancelTag_item {s : State} {p : Port} {tag : Byte} {b : Bus} {it : Item}
    (h : (s.port p).ring.find? (fun r => r.tag == tag) = none) (hi : s.itemOf p tag = some (b, it)) :
    s.cancelTag p tag = s.issueCancel b (s.claimOn p b it) := by
  simp only [State.cancelTag, h, hi]
  rfl

theorem cancelTag_record {s : State} {p : Port} {tag : Byte} (h : (s.port p).ring.find? (fun r => r.tag == tag) = none)
    (hi : s.itemOf p tag = none) : s.cancelTag p tag = s := by
  simp only [State.cancelTag, h, hi]

/-- What the release of a CANCEL does in its open frame, with its result (R41, R160). -/
def State.cancelled (s : State) (p : Port) (tag : Byte) : State × Result :=
  if tag ∉ (s.port p).tags then (s, .unknownTag)
  else if s.headUnderAdmission p tag then (s.wait (.cancelHead p tag), .ok)
  else (s.cancelTag p tag, .ok)

/-- A Port Unit's frame opened, for the release of a frame without a reply. -/
def State.inFrame (s : State) (p : Port) : State := s.setPort p (s.port p).opened

theorem takeCancel_eq (p : Port) (bytes : List Byte) (s : State) :
    takeCancel p bytes s = s.plainFrame p 2 bytes (fun u => u.cancelled p (byteAt bytes 0)) := by
  unfold takeCancel State.cancelled
  simp only [Bool.not_eq_true', List.contains_eq_mem, decide_eq_false_iff_not]

section

variable {s : State} {p : Port} {tag : Byte}

theorem inFrame_tags : ((s.inFrame p).port p).tags = (s.port p).tags := by
  rw [State.inFrame, port_setPort_same, opened_tags]

theorem inFrame_ring : ((s.inFrame p).port p).ring = (s.port p).ring := by
  rw [State.inFrame, port_setPort_same, opened_ring]

theorem inFrame_headUnderAdmission : (s.inFrame p).headUnderAdmission p tag = s.headUnderAdmission p tag := by
  rw [State.headUnderAdmission, inFrame_ring]
  rfl

theorem cancelled_unknown (out : tag ∉ (s.port p).tags) : (s.inFrame p).cancelled p tag = (s.inFrame p, .unknownTag) :=
  if_pos (by rwa [inFrame_tags])

theorem cancelled_waits (known : tag ∈ (s.port p).tags) (head : s.headUnderAdmission p tag = true) :
    (s.inFrame p).cancelled p tag = ((s.inFrame p).wait (.cancelHead p tag), .ok) :=
  (if_neg (by rwa [inFrame_tags, not_not])).trans (if_pos (inFrame_headUnderAdmission.trans head))

theorem cancelled_tag (known : tag ∈ (s.port p).tags) (head : s.headUnderAdmission p tag = false) :
    (s.inFrame p).cancelled p tag = ((s.inFrame p).cancelTag p tag, .ok) :=
  (if_neg (by rwa [inFrame_tags, not_not])).trans
    (if_neg (by rw [inFrame_headUnderAdmission, head]; exact Bool.false_ne_true))

end

/-- A CANCEL in its frame, whose effect leaves the Port Units alone. -/
theorem takeCancel_taken {s u : State} {p : Port} {bytes : List Byte} {result : Result} (hlen : 1 ≤ bytes.length)
    (effect : (s.inFrame p).cancelled p (byteAt bytes 0) = (u, result)) (hu : u.ports = (s.inFrame p).ports) :
    let t := takeCancel p bytes s
    t = { u with ports := t.ports } ∧ FrameTaken p result s t := by
  rw [takeCancel_eq]
  exact plainFrame_taken (act := fun v => v.cancelled p (byteAt bytes 0)) (Nat.succ_le_succ hlen) effect hu

/-- The port of a frame taken, by its result. -/
theorem FrameTaken.port {p : Port} {result : Result} {s t : State} (h : FrameTaken p result s t) :
    t.port p = { s.port p with last := result, link := (t.port p).link } := h.own.trans (by rw [h.last])

/-- The record of a ring entry removed by CANCEL joins the queue, its slot returns, and ERROR and COMPLETE are judged (R145,
R158, R160). -/
theorem entryPosted_eq (u : PortUnit) (r : Request) : u.entryPosted r = { u with
    ring := u.ring.filter (fun x => x.tag != r.tag)
    queue := u.queue ++ [r.recordCancelled]
    slots := match r.slot with
      | some k => put u.slots k ((pick u.slots k).giveBack r.kind .cancelled 0)
      | none => u.slots
    pending := { u.pending with error := true, complete := decide (u.watermark ≤ u.queue.length + 1) } } := by
  have error : (u.queue ++ [r.recordCancelled]).any (fun x => decide (x.outcome ≠ .done)) = true := by
    simp [Request.recordCancelled]
  refine (post_eq _ _ _).trans ?_
  rw [error]
  rfl

/-- What a ring entry's leaving by CANCEL makes of the Port Unit, but for its result and link: SPACE is judged last (R160,
R173). -/
structure EntryCancelled (u : PortUnit) (r : Request) (v : PortUnit) : Prop where
  rest : v = { u with
    ring := u.ring.filter (fun x => x.tag != r.tag)
    queue := u.queue ++ [r.recordCancelled]
    slots := match r.slot with
      | some k => put u.slots k ((pick u.slots k).giveBack r.kind .cancelled 0)
      | none => u.slots
    pending := { u.pending with
      error := true, complete := decide (u.watermark ≤ u.queue.length + 1), space := v.pending.space }
    armed := v.armed
    last := v.last
    link := v.link }
  room : u.armed = true ∧ v.ring.length ≤ 6 ∧ u.credits ≤ 14 → v.pending.space = true ∧ v.armed = false
  full : ¬(u.armed = true ∧ v.ring.length ≤ 6 ∧ u.credits ≤ 14) → v.pending.space = u.pending.space ∧ v.armed = u.armed

theorem entryPosted_judgeSpace (u : PortUnit) (r : Request) : EntryCancelled u r (u.entryPosted r).judgeSpace := by
  rw [entryPosted_eq]
  refine ⟨by rw [judgeSpace_last]; exact judgeSpace_rest _, fun room => ?_, fun full => ?_⟩
  · rw [judgeSpace_ring] at room
    rw [judgeSpace_raises _ room]
    exact ⟨rfl, rfl⟩
  · rw [judgeSpace_ring] at full
    rw [judgeSpace_waits _ full]
    exact ⟨rfl, rfl⟩

/-- So it is in the frame that opens before and closes after. -/
theorem EntryCancelled.inFrame {u v : PortUnit} {r : Request} (h : EntryCancelled u.opened r v) (result : Result)
    (request n : Nat) (reply : List Byte) : EntryCancelled u r (v.rise result request n reply) := by
  obtain ⟨rest, room, full⟩ := h
  rw [opened_eq] at rest room full
  refine ⟨?_, room, full⟩
  rw [rest]
  rfl

theorem closeFrame_setPort (s : State) (p : Port) (u : PortUnit) (result : Result) (request n : Nat) (reply : List Byte) :
    (s.setPort p u).closeFrame p result request n reply = s.setPort p (u.rise result request n reply) := by
  rw [closeFrame_eq, port_setPort_same, setPort_setPort]

/-- A ring entry removed in the frame that closes (R160). -/
theorem takeCancel_entry {s : State} {p : Port} {bytes : List Byte} {r : Request} (hlen : 1 ≤ bytes.length)
    (known : byteAt bytes 0 ∈ (s.port p).tags) (head : s.headUnderAdmission p (byteAt bytes 0) = false)
    (found : (s.port p).ring.find? (fun r => r.tag == byteAt bytes 0) = some r) : takeCancel p bytes s =
      (s.setPort p (((s.port p).opened.entryPosted r).judgeSpace.rise .ok 2 bytes.length [])).setBlocked
        (s.blockedWithout p r.tag) := by
  have effect : (s.inFrame p).cancelled p (byteAt bytes 0) = ((s.inFrame p).cancelEntry p r, .ok) := by
    rw [cancelled_tag known head, cancelTag_entry (by rwa [inFrame_ring])]
  have blocked : (s.inFrame p).blockedWithout p r.tag = s.blockedWithout p r.tag := by
    rw [State.blockedWithout, inFrame_ring]
    rfl
  rw [takeCancel_eq, plainFrame_long _ _ _ _ _ (Nat.succ_le_succ hlen)]
  change ((s.inFrame p).cancelled p (byteAt bytes 0)).1.closeFrame p ((s.inFrame p).cancelled p (byteAt bytes 0)).2 2 _ [] = _
  rw [effect, cancelEntry_eq, blocked, State.inFrame, port_setPort_same, setPort_setPort]
  exact congrArg (·.setBlocked (s.blockedWithout p r.tag)) (closeFrame_setPort s p _ _ _ _ _)

/-- A claim sent in the frame that closes (R160). -/
theorem takeCancel_item {s : State} {p : Port} {bytes : List Byte} {b : Bus} {it : Item} (hlen : 1 ≤ bytes.length)
    (known : byteAt bytes 0 ∈ (s.port p).tags) (head : s.headUnderAdmission p (byteAt bytes 0) = false)
    (gone : (s.port p).ring.find? (fun r => r.tag == byteAt bytes 0) = none)
    (hi : s.itemOf p (byteAt bytes 0) = some (b, it)) :
    let t := takeCancel p bytes s
    t = { s.issueCancel b (s.claimOn p b it) with ports := t.ports } ∧ FrameTaken p .ok s t := by
  have effect : (s.inFrame p).cancelled p (byteAt bytes 0) = ((s.inFrame p).issueCancel b (s.claimOn p b it), .ok) := by
    rw [cancelled_tag known head, cancelTag_item (s := s.inFrame p) (by rwa [inFrame_ring]) hi]
    rfl
  obtain ⟨rest, taken⟩ := takeCancel_taken hlen effect rfl
  exact ⟨rest, taken⟩

/-- A record is left alone (R160). -/
theorem takeCancel_record {s : State} {p : Port} {bytes : List Byte} (hlen : 1 ≤ bytes.length)
    (known : byteAt bytes 0 ∈ (s.port p).tags) (head : s.headUnderAdmission p (byteAt bytes 0) = false)
    (gone : (s.port p).ring.find? (fun r => r.tag == byteAt bytes 0) = none) (hi : s.itemOf p (byteAt bytes 0) = none) :
    let t := takeCancel p bytes s
    t = { s with ports := t.ports } ∧ FrameTaken p .ok s t := by
  have effect : (s.inFrame p).cancelled p (byteAt bytes 0) = (s.inFrame p, .ok) := by
    rw [cancelled_tag known head, cancelTag_record (s := s.inFrame p) (by rwa [inFrame_ring]) hi]
  obtain ⟨rest, taken⟩ := takeCancel_taken hlen effect rfl
  exact ⟨rest, taken⟩

/-- Settles O13. The item of a tag by `itemOf_eq`; the release by the branches of `State.cancelled`, of which only the removal
of a ring entry touches more of the Port Unit than its result and link. -/
theorem cancelActsWhereTheTagStands : Obligations.CancelActsWhereTheTagStands := by
  unfold Obligations.CancelActsWhereTheTagStands
  refine ⟨fun p tag s => ?_, resetsIssued_eq, fun p bytes s hears hlen => ?_⟩
  · intro mine first
    have test : Item.isOf p tag = fun it => decide (mine it) := funext fun it => by
      rw [Bool.eq_iff_iff, isOf_iff, decide_eq_true_eq]
    have found : ∀ b, (s.bus b).list.find? (Item.isOf p tag) = first b := fun b => by rw [test]
    have nowhere : (∀ b, ∀ it ∈ (s.bus b).list, ¬ it.isOf p tag = true) ↔ ∀ b, ∀ it ∈ (s.bus b).list, ¬ mine it := by
      simp only [isOf_iff]
      exact .rfl
    simp only [← found, ← nowhere]
    exact ⟨headUnderAdmission_iff s p tag, itemOf_first s p tag, itemOf_second s p tag, itemOf_none s p tag⟩
  · intro tag
    refine ⟨takeCancel p bytes s, exec_frame_taken (c := .cancel p bytes) rfl hears rfl, fun out => ?_, fun known head => ?_,
      fun known head => ⟨fun r found => ?_, fun gone b it hi => ?_, fun gone hi => ?_⟩⟩
    · obtain ⟨rest, taken⟩ := takeCancel_taken hlen (cancelled_unknown out) rfl
      exact ⟨⟨rest, taken.others⟩, taken.port⟩
    · obtain ⟨rest, taken⟩ := takeCancel_taken hlen (cancelled_waits known head) rfl
      exact ⟨rest, taken.others, taken.port⟩
    · have named : r.tag = tag := by simpa using List.find?_some found
      have taken := takeCancel_entry hlen known head found
      generalize takeCancel p bytes s = t at taken
      rw [← named]
      have blocked : t.admission.blocked = s.blockedWithout p r.tag := by rw [taken]; rfl
      have port : t.port p = ((s.port p).opened.entryPosted r).judgeSpace.rise .ok 2 bytes.length [] := by
        rw [taken]; exact port_setPort_same s p _
      have own : EntryCancelled (s.port p) r (t.port p) := by
        rw [port]; exact (entryPosted_judgeSpace _ r).inFrame _ _ _ _
      refine ⟨by rw [taken]; rfl, by rw [taken]; rfl, fun q hq => ⟨by rw [taken]; exact port_setPort_other s p q _ hq, ?_⟩,
        ?_, ?_⟩
      · rw [blocked, State.blockedWithout]
        split
        · exact pick_put_other _ _ _ _ hq
        · rfl
      · rw [blocked, State.blockedWithout]
        split
        · exact pick_put_same _ _ _
        · rfl
      · have rest := own.rest
        have last : (t.port p).last = .ok := by rw [port]; rfl
        exact ⟨congrArg (·.ring) rest, congrArg (·.queue) rest, congrArg (·.slots) rest, congrArg (·.credits) rest,
          congrArg (·.tags) rest, congrArg (·.hold) rest, congrArg (·.enable) rest, congrArg (·.watermark) rest, last,
          congrArg (·.pending.error) rest, congrArg (·.pending.complete) rest, congrArg (·.pending.fault) rest,
          congrArg (·.pending.policy) rest, own.room, own.full⟩
    · obtain ⟨rest, taken⟩ := takeCancel_item hlen known head gone hi
      have bus : ∀ c, (takeCancel p bytes s).bus c = (s.issueCancel b (s.claimOn p b it)).bus c := fun c => by rw [rest]; rfl
      refine ⟨by rw [rest]; rfl, taken.others, taken.port, fun c hc => ?_, ?_⟩
      · rw [bus, State.issueCancel, bus_modBus, if_neg hc]
      · rw [bus, State.issueCancel, bus_modBus, if_pos rfl]
        rfl
    · obtain ⟨rest, taken⟩ := takeCancel_record hlen known head gone hi
      exact ⟨⟨rest, taken.others⟩, taken.port⟩

end Sys2Proof.Machine
end

section
namespace Sys2Proof.Machine

/-! ### PORT RESET -/

/-- What decides whether a port hears its frames stands as it did (R4, R115, R178). -/
theorem BesideAll.hears {s t : State} {p : Port} (h : BesideAll s t) (hears : s.hears p) : t.hears p :=
  ⟨(h.deaf p).trans hears.1, (h.frameWaits p).trans hears.2.1, h.stands.trans hears.2.2⟩

theorem inFrame_hears {s : State} {p : Port} (hears : s.hears p) : (s.inFrame p).hears p := by
  obtain ⟨deaf, waits, stands⟩ := hears
  have ignoring := opened_ignoring _ (hears_ignoring ⟨deaf, waits, stands⟩)
  refine ⟨?_, waits, stands⟩
  simp only [State.deaf, Bool.or_eq_false_iff] at deaf ⊢
  exact ⟨deaf.1, by rwa [State.inFrame, port_setPort_same]⟩

theorem inFrame_open {s : State} {p : Port} (h : (s.port p).link.isOpen = true) : s.inFrame p = s := by
  rw [State.inFrame, opened_of_open _ h, setPort_port]

/-- The fall that SUMMARY_BYTE commands opens the frame that is not open (R179). -/
theorem exec_summaryByte {s : State} {p : Port} (hears : s.hears p) (h : (s.port p).link.isOpen = false) :
    exec (.summaryByte p) s = .next (s.inFrame p) := by
  rw [exec_frame_taken (c := .summaryByte p) rfl hears rfl, State.inFrame, PortUnit.opened, h]
  rfl

/-- PORT RESET is taken in its frame, which then closes (R165). -/
theorem takePortReset_eq (p : Port) (bytes : List Byte) (s : State) :
    takePortReset p bytes s = ((s.inFrame p).portReset p).closeFrame p .ok 1 bytes.length [] := by
  unfold takePortReset State.inFrame
  rw [plainFrame_long s p 1 bytes _ (Nat.le_add_left 1 _)]

theorem exec_portReset {s : State} {p : Port} {bytes : List Byte} (hears : s.hears p) (free : s.admittingPort p = false) :
    exec (.portReset p bytes) s = .next (((s.inFrame p).portReset p).closeFrame p .ok 1 bytes.length []) := by
  have taken : exec (.portReset p bytes) s = .next (takePortReset p bytes s) :=
    exec_frame_taken (c := .portReset p bytes) rfl hears free
  rw [taken, takePortReset_eq]

/-- The oldest cancel claim of the port, those on the first bus before those on the second, may be taken before the port reset
(R160). -/
theorem portReset_cancel {s : State} {p : Port} {b : Bus} {c : CancelClaim}
    (found : (s.bus b).cancels.find? (fun x => decide (x.port = p)) = some c)
    (order : b = 1 → ∀ x ∈ (s.bus 0).cancels, x.port ≠ p) : s.portReset p =
      ((s.modBus b (fun e => { e with cancels := dropFirstOf p e.cancels })).cancelItem b c.item).portReset p := by
  have cancels : (s.takeCancels p 0 (fun _ => true)).takeCancels p 1 (fun _ => true) =
      ((((s.modBus b (fun e => { e with cancels := dropFirstOf p e.cancels })).cancelItem b c.item).takeCancels p 0
        (fun _ => true)).takeCancels p 1 (fun _ => true)) := by
    rcases bus_cases b with rfl | rfl
    · rw [takeCancels_cons s p 0 _ c found rfl]
    · have first : ∀ u : State, (u.bus 0).cancels = (s.bus 0).cancels → u.takeCancels p 0 (fun _ => true) = u := fun u hu =>
        takeCancels_none u p 0 _ fun x hx hp => absurd hp (order rfl x (hu ▸ hx))
      rw [first s rfl, first, takeCancels_cons s p 1 _ c found rfl]
      rw [cancelItem_bus_other _ _ _ _ (by decide), bus_modBus, if_neg (by decide)]
  unfold State.portReset
  rw [cancels]

/-- So a CANCEL_CLAIM of the port in the open frame leads to the same (R160). -/
theorem exec_portReset_cancel {s : State} {p : Port} {b : Bus} {c : CancelClaim} {bytes : List Byte} (hears : s.hears p)
    (free : s.admittingPort p = false) (found : (s.bus b).cancels.find? (fun x => decide (x.port = p)) = some c)
    (order : b = 1 → ∀ x ∈ (s.bus 0).cancels, x.port ≠ p) :
    ∃ u, exec (.cancelClaim p b) (s.inFrame p) = .next u ∧ exec (.portReset p bytes) s = exec (.portReset p bytes) u := by
  have beside := besideAll_cancelClaim (s.inFrame p) p b c.item
  refine ⟨_, exec_cancelClaim found, ?_⟩
  generalize hu : ((s.inFrame p).modBus b (fun e => { e with cancels := dropFirstOf p e.cancels })).cancelItem b c.item = u
    at beside ⊢
  have isOpen : (u.port p).link.isOpen = true := by
    rw [(beside.links p).1, State.inFrame, port_setPort_same, opened_isOpen]
  have freeToo : u.admittingPort p = false := by rw [State.admittingPort, beside.current]; exact free
  rw [exec_portReset hears free, exec_portReset (beside.hears (inFrame_hears hears)) freeToo, inFrame_open isOpen,
    portReset_cancel (s := s.inFrame p) found order, hu]

/-! #### The lists -/

/-- Both lists take the port reset (R165 steps 2 and 3). -/
def State.resetLists (s : State) (p : Port) : State := (s.portResetBus p 0).portResetBus p 1

/-- Of the items of a port, those that outlive its reset: running ones and orphans (R165). -/
def Item.outlives (p : Port) (it : Item) : Bool := decide (it.port = p) && (decide (it.state ≠ .queued) || it.orphan)

theorem removedByPortReset_iff (it : Item) (p : Port) :
    it.removedByPortReset p = true ↔ it.port = p ∧ it.state = .queued ∧ it.orphan = false := by
  simp [Item.removedByPortReset, and_assoc]

theorem resetLists_rest (s : State) (p : Port) :
    s.resetLists p = { s with buses := (s.resetLists p).buses, admission := (s.resetLists p).admission } ∧
      (s.resetLists p).admission = { s.admission with blocked := (s.resetLists p).admission.blocked } := by
  obtain ⟨rest0, current0, pointer0, _⟩ := portResetBus_rest s p 0
  obtain ⟨rest1, current1, pointer1, _⟩ := portResetBus_rest (s.portResetBus p 0) p 1
  refine ⟨?_, ?_⟩
  · unfold State.resetLists
    rw [rest1, rest0]
  · calc (s.resetLists p).admission
        = ⟨(s.resetLists p).admission.current, (s.resetLists p).admission.pointer, (s.resetLists p).admission.blocked⟩ := rfl
      _ = ⟨s.admission.current, s.admission.pointer, (s.resetLists p).admission.blocked⟩ := by
          rw [State.resetLists, current1, current0, pointer1, pointer0]

theorem resetLists_bus (s : State) (p : Port) (b : Bus) : (s.resetLists p).bus b = (s.bus b).portReset p := by
  obtain ⟨_, _, _, same0, other0⟩ := portResetBus_rest s p 0
  obtain ⟨_, _, _, same1, other1⟩ := portResetBus_rest (s.portResetBus p 0) p 1
  unfold State.resetLists
  rcases bus_cases b with rfl | rfl
  · rw [other1 0 (by decide), same0]
  · rw [same1, other0 1 (by decide)]

/-- The items of the port after its reset: those that outlive it, orphans all. -/
theorem resetLists_itemsOf (s : State) (p : Port) : (s.resetLists p).itemsOf p =
    ((s.bus 0).list.filter (Item.outlives p) ++ (s.bus 1).list.filter (Item.outlives p)).map
      (fun it => { it with orphan := true }) := by
  have own : ∀ l : List Item, (resetItems p l).filter (fun it => decide (it.port = p)) =
      (l.filter (Item.outlives p)).map (fun it => { it with orphan := true }) := fun l => by
    rw [resetItems_port, List.filter_filter]
    congr 2
    funext it
    by_cases hp : it.port = p <;> simp [Item.removedByPortReset, Item.outlives, hp]
  unfold State.itemsOf
  rw [resetLists_bus, resetLists_bus, List.filter_append, List.map_append, ← own, ← own]
  rfl

theorem portResetBus_blocked (s : State) (p : Port) (b : Bus) (q : Port) : pick (s.portResetBus p b).admission.blocked q =
    if pick s.admission.blocked q = some b ∧ (s.bus b).list.any (·.removedByPortReset p) = true then none
    else pick s.admission.blocked q := by
  unfold State.portResetBus
  dsimp only
  split
  · next gone => rw [releaseBlocked_blocked]; simp only [gone, and_true]; rfl
  · next stays => rw [if_neg fun h => stays h.2]; rfl

/-- A head blocked by a list that loses an item is released, and no other (R46). -/
theorem resetLists_blocked (s : State) (p q : Port) : pick (s.resetLists p).admission.blocked q =
    if ∃ b, pick s.admission.blocked q = some b ∧
        ∃ it ∈ (s.bus b).list, it.port = p ∧ it.state = .queued ∧ it.orphan = false then none
    else pick s.admission.blocked q := by
  obtain ⟨_, _, _, _, others⟩ := portResetBus_rest s p 0
  have loses : ∀ b, (s.bus b).list.any (·.removedByPortReset p) = true ↔
      ∃ it ∈ (s.bus b).list, it.port = p ∧ it.state = .queued ∧ it.orphan = false := fun b => by
    simp only [List.any_eq_true, removedByPortReset_iff]
  simp only [← loses]
  unfold State.resetLists
  rw [portResetBus_blocked, portResetBus_blocked, others 1 (by decide)]
  cases pick s.admission.blocked q with
  | none => simp
  | some b => rcases bus_cases b with rfl | rfl <;> simp

/-- The list after a port reset: what is not of the port, runs or is an orphan stays (R165). -/
theorem busPortReset_eq (e : BusEngine) (p : Port) : e.portReset p = { e with
    list := (e.list.filter (fun it => decide (it.port ≠ p) || decide (it.state ≠ .queued) || it.orphan)).map
      (fun it => if it.port = p then { it with orphan := true } else it) } := by
  have stays : ∀ it : Item, (!it.removedByPortReset p) =
      (decide (it.port ≠ p) || decide (it.state ≠ .queued) || it.orphan) := fun it => by
    simp [Item.removedByPortReset]
  simp only [BusEngine.portReset, stays]

/-- Opened before and closed after, a port reset sets every field of the Port Unit (R165, R168). -/
theorem portReset_inFrame {u v : PortUnit} {items : List Item} {n : Nat}
    (h : v = (u.opened.portReset items).rise .ok 1 n []) : v = { u with
      ring := [], tags := [], queue := [], credits := items.length, hold := false, slots := v.slots,
      pending := { fault := false, error := false, complete := false, space := false, policy := false },
      enable := { fault := true, error := true, complete := true, space := false, policy := false },
      watermark := 1, armed := false, last := .ok, link := v.link } := by
  rw [h]
  rfl

/-- A slot after a port reset (R149). -/
theorem pick_slotsKept (u : PortUnit) (items : List Item) (k : SlotIx) :
    pick (u.slotsKept items) k = if items.any (fun it => it.slot == some k) then pick u.slots k else .freed := by
  fin_cases k <;> rfl

/-- With no cancel claims of the port's, a port reset is that of the lists and of the Port Unit, and ends a blocked finding of
the port (R165). -/
theorem portReset_unclaimed {s : State} {p : Port} (unclaimed : ∀ b, ∀ c ∈ (s.bus b).cancels, c.port ≠ p) : s.portReset p =
    ((s.resetLists p).setPort p ((s.port p).portReset ((s.resetLists p).itemsOf p))).setBlocked
      (put (s.resetLists p).admission.blocked p none) := by
  have skip : ∀ b, s.takeCancels p b (fun _ => true) = s := fun b =>
    takeCancels_none s p b _ fun c hc hp => absurd hp (unclaimed b c hc)
  have port : (s.resetLists p).port p = s.port p := by rw [(resetLists_rest s p).1]; rfl
  unfold State.portReset
  rw [skip, skip, ← port]
  rfl

theorem portResetBus_setPort (s : State) (p q : Port) (u : PortUnit) (b : Bus) :
    (s.setPort q u).portResetBus p b = (s.portResetBus p b).setPort q u := by
  unfold State.portResetBus
  dsimp only
  rw [setPort_bus]
  split <;> rfl

theorem resetLists_setPort (s : State) (p q : Port) (u : PortUnit) :
    (s.setPort q u).resetLists p = (s.resetLists p).setPort q u := by
  simp only [State.resetLists, portResetBus_setPort]

/-- The state after a port reset without cancel claims of the port's, in the frame that closes (R165). -/
theorem exec_portReset_unclaimed {s : State} {p : Port} {bytes : List Byte} (hears : s.hears p)
    (free : s.admittingPort p = false) (unclaimed : ∀ b, ∀ c ∈ (s.bus b).cancels, c.port ≠ p) :
    ∃ t, exec (.portReset p bytes) s = .next t ∧
      t = ((s.resetLists p).setPort p (t.port p)).setBlocked (put (s.resetLists p).admission.blocked p none) ∧
      t.port p = ((s.port p).opened.portReset ((s.resetLists p).itemsOf p)).rise .ok 1 bytes.length [] := by
  generalize hu : ((s.port p).opened.portReset ((s.resetLists p).itemsOf p)).rise .ok 1 bytes.length [] = u
  have port : (((s.resetLists p).setPort p u).setBlocked (put (s.resetLists p).admission.blocked p none)).port p = u :=
    port_setPort_same _ p u
  refine ⟨_, ?_, by rw [port], port⟩
  have reset := portReset_unclaimed (s := s.inFrame p) unclaimed
  rw [State.inFrame, resetLists_setPort, port_setPort_same, setPort_setPort] at reset
  rw [exec_portReset hears free, State.inFrame, reset, ← hu]
  exact congrArg (fun v : State => Host.Outcome.next (v.setBlocked _)) (closeFrame_setPort _ p _ _ _ _ _)

/-- Settles O15. Earlier cancel claims by `exec_portReset_cancel`; without them `exec_portReset_unclaimed`, and the laws of
`State.resetLists`. -/
theorem portResetCutsThePortLoose : Obligations.PortResetCutsThePortLoose := by
  unfold Obligations.PortResetCutsThePortLoose
  intro p bytes s hears free own kept
  refine ⟨fun isOpen b c found order => ?_, fun closed b c found order => ?_, fun unclaimed => ?_⟩
  · obtain ⟨u, taken, same⟩ := exec_portReset_cancel (bytes := bytes) hears free found order
    exact ⟨u, (congrArg _ (inFrame_open isOpen)).symm.trans taken, same⟩
  · obtain ⟨u, taken, same⟩ := exec_portReset_cancel (bytes := bytes) hears free found order
    exact ⟨_, u, exec_summaryByte hears closed, taken, same⟩
  · obtain ⟨t, taken, ht, port⟩ := exec_portReset_unclaimed (bytes := bytes) hears free unclaimed
    obtain ⟨rest, admission⟩ := resetLists_rest s p
    have blocked : t.admission.blocked = put (s.resetLists p).admission.blocked p none := by rw [ht]; rfl
    have items := resetLists_itemsOf s p
    have slot : ∀ k, pick (t.port p).slots k =
        if ((s.resetLists p).itemsOf p).any (fun it => it.slot == some k) then pick (s.port p).slots k else .freed := by
      intro k
      rw [port, ← opened_slots (s.port p)]
      exact pick_slotsKept _ _ k
    rw [items] at port slot
    refine ⟨t, taken, ?_, ?_, ?_, fun q hq => ?_, fun q hq => ?_, fun b => ?_, ?_, fun k => ?_⟩
    · rw [ht, rest]; rfl
    · rw [ht, State.setBlocked, setPort_admission, admission]
    · rw [blocked, pick_put_same]
    · rw [blocked, pick_put_other _ _ _ _ hq, resetLists_blocked]
    · rw [ht]
      exact (port_setPort_other _ p q _ hq).trans (by rw [rest]; rfl)
    · rw [ht]
      exact (resetLists_bus s p b).trans (busPortReset_eq _ p)
    · have whole := portReset_inFrame port
      rw [List.length_map, List.length_append] at whole
      exact whole
    · rw [slot, List.any_map, List.any_append]
      rfl

end Sys2Proof.Machine
end

section
namespace Sys2Proof.Machine

/-! ### Eligibility, and the conditions of suspension and resume -/

/-- The range of an item shares no address with the unit under erase, where there is one (R75). -/
def Item.Clear (it : Item) (unit : Option UnitRange) : Prop :=
  ∀ u, unit = some u → ¬ ∃ a, it.address ≤ a ∧ a < it.address + it.length ∧ u.first ≤ a ∧ a < u.first + u.size.bytes

theorem clear_none (it : Item) : it.Clear none := nofun

theorem clear_some (it : Item) (u : UnitRange) : it.Clear (some u) ↔ it.overlaps u = false := by
  rw [← Bool.not_eq_true, overlaps_iff]
  exact ⟨fun h => h u rfl, fun h _ hu => Option.some.inj hu ▸ h⟩

/-- The states in which each kind may start (R75). -/
theorem stateAllows_iff (it : Item) (r : TargetRecord) : it.stateAllows r = true ↔
    r.state = .idle ∨ (it.kind = .read ∧ r.state = .suspended ∧ it.Clear r.unit) ∨
      (it.kind = .status ∧ (r.state = .programming ∨ r.state = .erasing ∨ r.state = .suspended)) := by
  unfold Item.stateAllows
  cases it.kind with
  | read =>
    cases r.state with
    | suspended => cases r.unit <;> simp [clear_none, clear_some]
    | _ => simp
  | status => cases r.state <;> simp
  | program | erase => cases r.state <;> simp

theorem holdsBack_false_iff (earlier later : Item) : earlier.holdsBack later = false ↔
    (earlier.port = later.port → earlier.target = later.target →
      later.urgent = true ∧ (later.kind = .read ∨ later.kind = .status) ∧ earlier.kind = .erase) := by
  simp [Item.holdsBack, and_assoc, or_iff_not_imp_left]

/-- The ordering of R76 looks at the items before the first one with the same reference. -/
theorem passesOrder_iff {e : BusEngine} {it : Item} {before after : List Item} (split : e.list = before ++ it :: after)
    (first : ∀ x ∈ before, x.uid ≠ it.uid) : e.passesOrder it = true ↔ ∀ x ∈ before, x.holdsBack it = false := by
  rw [BusEngine.passesOrder, split, takeWhile_before first]
  simp

theorem eligibleApart_iff (e : BusEngine) (it : Item) :
    e.eligibleApart it = true ↔ it.state = .queued ∧ e.passesOrder it = true := by
  simp [BusEngine.eligibleApart]

theorem eligible_iff (s : State) (b : Bus) (it : Item) : s.eligible b it = true ↔
    (s.bus b).eligibleApart it = true ∧ it.stateAllows (s.target it.target) = true := Bool.and_eq_true_iff

/-- A trigger is an urgent READ of the target, eligible apart from the target state and clear of its unit (R124). -/
theorem trigger_iff (s : State) (b : Bus) (x : Target) (it : Item) : s.trigger b x it = true ↔
    it.target = x ∧ it.kind = .read ∧ it.urgent = true ∧ (s.bus b).eligibleApart it = true ∧ it.Clear (s.target x).unit := by
  unfold State.trigger
  cases (s.target x).unit <;> simp [clear_none, clear_some, and_assoc]

theorem suspendCondition_iff (s : State) (b : Bus) (x : Target) : s.suspendCondition b x = true ↔
    (s.target x).state = .erasing ∧ 0 < (s.target x).profile.nsus.toNat ∧
      (s.target x).suspendCount < (s.target x).profile.nsus.toNat ∧ (s.target x).holdOff = .expired ∧
      (s.bus b).mode = .run ∧ ∃ it ∈ (s.bus b).list, s.trigger b x it = true := by
  simp only [State.suspendCondition, Bool.and_eq_true, decide_eq_true_eq, List.any_eq_true, and_assoc]

theorem resumeCondition_iff (s : State) (b : Bus) (x : Target) : s.resumeCondition b x = true ↔
    (s.target x).state = .suspended ∧ ((s.target x).held = .expired ∨
      ∀ it ∈ (s.bus b).list, it.target = x → (it.kind = .read ∨ it.kind = .status) → s.eligible b it = false) := by
  simp [State.resumeCondition]

/-- Settles O42, each condition by the lemma that says when it holds. -/
theorem eligibilityAndSuspendConditions : Obligations.EligibilityAndSuspendConditions := by
  unfold Obligations.EligibilityAndSuspendConditions
  refine ⟨rfl, rfl, rfl, fun b s => ⟨fun it before after split first => ?_, fun it => ?_, fun x => ?_,
    resumeCondition_iff s b⟩⟩
  · simp only [eligibleApart_iff, passesOrder_iff split first, holdsBack_false_iff]
  · rw [eligible_iff, stateAllows_iff]
    rfl
  · rw [suspendCondition_iff]
    refine and_congr_right fun _ => and_congr_right fun _ => and_congr_right fun _ => and_congr_right fun _ =>
      and_congr_right fun _ => exists_congr fun it => and_congr_right fun _ => (trigger_iff s b x it).trans ?_
    exact and_congr_right fun target => by rw [← target]; rfl

end Sys2Proof.Machine
end

section
namespace Sys2Proof.Machine

/-! ### What each level offers -/

section
variable {s : State} {b : Bus}

/-- The lowest-numbered target of the bus of which a tested condition holds is found. -/
theorem find_lowest_of {f : Target → Bool} {Q : Target → Prop} (test : ∀ x, f x = true ↔ Q x) {x : Target}
    (h : (busOf x = b ∧ Q x) ∧ ∀ y, y.val < x.val → ¬ (busOf y = b ∧ Q y)) : (targetsOf b).find? f = some x := by
  obtain ⟨⟨bus, holds⟩, lowest⟩ := h
  exact find_lowest bus ((test x).2 holds) fun y less hy =>
    Bool.eq_false_iff.2 fun hf => lowest y less ⟨hy, (test y).1 hf⟩

theorem find_none_of {f : Target → Bool} {Q : Target → Prop} (test : ∀ x, f x = true ↔ Q x)
    (h : ∀ x, ¬ (busOf x = b ∧ Q x)) : (targetsOf b).find? f = none :=
  find_targets_none fun y hy => Bool.eq_false_iff.2 fun hf => h y ⟨hy, (test y).1 hf⟩

/-- Level 2 takes the due poll that comes first from the poll pointer on (R71). -/
theorem level2_some {x : Target} (bus : busOf x = b) (due : (s.target x).pollDue = true)
    (first : ∀ y, busOf y = b → (s.target y).pollDue = true →
      (chipSelectOf x - (s.bus b).pollPtr).val ≤ (chipSelectOf y - (s.bus b).pollPtr).val) :
    s.level2 b = some (.maintenance .poll x) := by
  have home : targetOf b (chipSelectOf x) = x := bus ▸ targetOf_chipSelectOf x
  have found := find_cyclic (g := fun k => (s.target (targetOf b k)).pollDue) (c := (s.bus b).pollPtr)
    (k := chipSelectOf x) (by rw [home]; exact due) fun j hj => by
      simpa only [chipSelectOf_targetOf] using first _ (busOf_targetOf b j) hj
  rw [State.level2, found, Option.map_some, home]

theorem level2_none (h : ∀ x, busOf x = b → (s.target x).pollDue = false) : s.level2 b = none := by
  rw [State.level2, List.find?_eq_none.2 fun k _ => by simp [h _ (busOf_targetOf b k)], Option.map_none]

/-- Level 5 takes the oldest eligible urgent item (R73). -/
theorem level5_some {it : Item} {before after : List Item} (split : (s.bus b).list = before ++ it :: after)
    (urgent : it.urgent = true ∧ s.eligible b it = true)
    (oldest : ∀ x ∈ before, ¬ (x.urgent = true ∧ s.eligible b x = true)) : s.level5 b = some (.urgentItem it) := by
  rw [State.level5, find_first split (by simpa using urgent) fun x hx => by simpa using oldest x hx, Option.map_some]

theorem level5_none (h : ∀ it ∈ (s.bus b).list, ¬ (it.urgent = true ∧ s.eligible b it = true)) : s.level5 b = none := by
  rw [State.level5, List.find?_eq_none.2 fun it hit => by simpa using h it hit, Option.map_none]

/-- The test of level 6 at one port. -/
theorem normalAt_iff (it : Item) (q : Port) : (decide (it.port = q) && !it.urgent && s.eligible b it) = true ↔
    it.port = q ∧ it.urgent = false ∧ s.eligible b it = true := by simp [and_assoc]

/-- Level 6 takes, of the first port from the port pointer on that has one, the oldest eligible normal item (R74). -/
theorem level6_some {it : Item} {before after : List Item} (split : (s.bus b).list = before ++ it :: after)
    (normal : it.urgent = false ∧ s.eligible b it = true)
    (oldest : ∀ x ∈ before, x.port = it.port → ¬ (x.urgent = false ∧ s.eligible b x = true))
    (first : ∀ x ∈ (s.bus b).list, x.urgent = false ∧ s.eligible b x = true →
      (it.port - (s.bus b).portPtr).val ≤ (x.port - (s.bus b).portPtr).val) :
    s.level6 b = some (.normalItem it) := by
  have own : (s.bus b).list.find? (fun x => decide (x.port = it.port) && !x.urgent && s.eligible b x) = some it :=
    find_first split ((normalAt_iff it _).2 ⟨rfl, normal⟩) fun x hx => Bool.eq_false_iff.2 fun h =>
      have ⟨port, hn⟩ := (normalAt_iff x _).1 h
      oldest x hx port hn
  rw [State.level6, findSome_cyclic (k := it.port) own fun q hq => ?_, Option.map_some]
  obtain ⟨x, hx, test⟩ := List.find?_isSome.1 hq
  obtain ⟨rfl, hn⟩ := (normalAt_iff x q).1 test
  exact first x hx hn

theorem level6_none (h : ∀ it ∈ (s.bus b).list, ¬ (it.urgent = false ∧ s.eligible b it = true)) : s.level6 b = none := by
  have empty : ∀ q, (s.bus b).list.find? (fun x => decide (x.port = q) && !x.urgent && s.eligible b x) = none := fun q =>
    List.find?_eq_none.2 fun x hx test => h x hx ((normalAt_iff x q).1 test).2
  rw [State.level6, List.findSome?_eq_none_iff.2 fun q _ => empty q, Option.map_none]

/-! ### The first level that offers anything, by the bus mode -/

theorem choose_of_float (m : (s.bus b).mode = .float) : s.choose b = none := by rw [State.choose, m]

/-- A level put behind three others does not change what they offer. -/
theorem orElse_extend {α : Type} {x y z : Option α} (w : Option α) {c : α} (h : (x <|> y <|> z) = some c) :
    (x <|> y <|> z <|> w) = some c := by
  cases x with
  | some _ => exact h
  | none =>
    cases y with
    | some _ => exact h
    | none =>
      have h : z = some c := h
      rw [h]
      rfl

/-- The first three levels are considered in RUN and in HALT (R79). -/
theorem choose_maintenance {c : Chosen} (m : (s.bus b).mode ≠ .float)
    (h : (s.level1 b <|> s.level2 b <|> s.level3 b) = some c) : s.choose b = some c := by
  unfold State.choose
  cases hm : (s.bus b).mode with
  | float => exact absurd hm m
  | halt => exact h
  | run =>
    exact orElse_extend _ h

theorem choose_halt (m : (s.bus b).mode = .halt) (h1 : s.level1 b = none) (h2 : s.level2 b = none) (h3 : s.level3 b = none) :
    s.choose b = none := by
  rw [State.choose, m]
  simp only [h1, h2, h3]
  rfl

theorem choose_run (m : (s.bus b).mode = .run) (h1 : s.level1 b = none) (h2 : s.level2 b = none) (h3 : s.level3 b = none) :
    s.choose b = (s.level4 b <|> s.level5 b <|> s.level6 b) := by
  rw [State.choose, m]
  simp only [h1, h2, h3]
  rfl

/-! ### What a choice brings about -/

theorem exec_choice_busy (h : (s.bus b).frame ≠ none) : exec (.choice b) s = .next s := by
  obtain ⟨r, hr⟩ := Option.ne_none_iff_exists'.1 h
  change execChoice b s = _
  rw [execChoice, hr]

theorem startChosen_sends {kind : FrameKind} (h : kind ≠ .poll) (x : Target) : s.startChosen b (.maintenance kind x) =
    s.setBus b { s.bus b with frame := some (s.maintenanceFrame b kind x) } := by
  simp only [State.startChosen, if_neg h]
  rfl

theorem startChosen_poll (x : Target) : s.startChosen b (.maintenance .poll x) =
    s.setBus b { s.bus b with frame := some (s.maintenanceFrame b .poll x), pollPtr := chipSelectOf x + 1 } := rfl

theorem startChosen_urgent (it : Item) : s.startChosen b (.urgentItem it) = s.setBus b { s.bus b with
    list := (s.bus b).list.map (fun x => if x.uid = it.uid then { x with state := .active } else x)
    frame := some (s.itemFrame b it) } := rfl

theorem startChosen_normal (it : Item) : s.startChosen b (.normalItem it) = s.setBus b { s.bus b with
    list := (s.bus b).list.map (fun x => if x.uid = it.uid then { x with state := .active } else x)
    frame := some (s.itemFrame b it)
    portPtr := it.port + 1 } := by
  simp only [State.startChosen, State.startItem, modBus_eq, bus_setBus_same, setBus_setBus]
  rfl

end

/-- Settles O43. At each level the choice is what the level's own lemma offers, once the levels before it offer nothing. -/
theorem choiceFollowsTheLevels : Obligations.ChoiceFollowsTheLevels := by
  unfold Obligations.ChoiceFollowsTheLevels
  refine ⟨fun b s => exec_choice_busy, fun b s idle => ⟨exec_choice_settle idle, settle_stands s⟩, fun b s still idle => ?_⟩
  have takes : ∀ {c t}, s.choose b = some c → s.startChosen b c = t → exec (.choice b) s = .next t := fun h e =>
    e ▸ choice_idle still idle h
  have nothing : s.choose b = none → exec (.choice b) s = .next s := choice_nothing still
  have polls : ∀ x, (busOf x = b ∧ (s.target x).pollDue = true) ↔ busOf x = b ∧ (s.target x).poll = .expired ∧
    ((s.target x).state = .programming ∨ (s.target x).state = .erasing ∨ (s.target x).state = .suspending) := fun x =>
      and_congr_right fun _ => pollDue_iff _
  refine ⟨fun m => nothing (choose_of_float m), fun m => ⟨fun x lowest => ?_, fun noReset => ?_⟩⟩
  · have h1 : s.level1 b = some (.maintenance .reset x) :=
      congrArg (Option.map _) (find_lowest_of (fun y => resetDue_iff (s.target y)) lowest)
    exact takes (choose_maintenance m (by rw [h1]; rfl)) (startChosen_sends (by decide) x)
  have h1 : s.level1 b = none := congrArg (Option.map _) (find_none_of (fun y => resetDue_iff (s.target y)) noReset)
  refine ⟨fun x poll first => ?_, fun noPoll => ?_⟩
  · obtain ⟨bus, due⟩ := (polls x).2 poll
    have h2 : s.level2 b = some (.maintenance .poll x) :=
      level2_some bus due fun y hy dy => first y ((polls y).1 ⟨hy, dy⟩)
    exact takes (choose_maintenance m (by rw [h1, h2]; rfl)) (startChosen_poll x)
  have h2 : s.level2 b = none := level2_none fun x hx => Bool.eq_false_iff.2 fun due => noPoll x ((polls x).1 ⟨hx, due⟩)
  refine ⟨fun x lowest => ?_, fun noResume => ?_⟩
  · have h3 : s.level3 b = some (.maintenance .resume x) := congrArg (Option.map _) (find_lowest_of (fun _ => .rfl) lowest)
    exact takes (choose_maintenance m (by rw [h1, h2, h3]; rfl)) (startChosen_sends (by decide) x)
  have h3 : s.level3 b = none := congrArg (Option.map _) (find_none_of (fun _ => .rfl) noResume)
  refine ⟨fun halt => nothing (choose_halt halt h1 h2 h3), fun run => ⟨fun x lowest => ?_, fun noSuspend => ?_⟩⟩
  · have h4 : s.level4 b = some (.maintenance .suspend x) := congrArg (Option.map _) (find_lowest_of (fun _ => .rfl) lowest)
    exact takes (by rw [choose_run run h1 h2 h3, h4]; rfl) (startChosen_sends (by decide) x)
  have h4 : s.level4 b = none := congrArg (Option.map _) (find_none_of (fun _ => .rfl) noSuspend)
  refine ⟨fun it before after split urgent oldest => ?_, fun noUrgent => ?_⟩
  · exact takes (by rw [choose_run run h1 h2 h3, h4, level5_some split urgent oldest]; rfl) (startChosen_urgent it)
  have h5 : s.level5 b = none := level5_none noUrgent
  refine ⟨fun it before after split normal oldest first => ?_, fun noNormal => ?_⟩
  · exact takes (by rw [choose_run run h1 h2 h3, h4, h5, level6_some split normal oldest first]; rfl)
      (startChosen_normal it)
  · exact nothing (by rw [choose_run run h1 h2 h3, h4, h5, level6_none noNormal]; rfl)

end Sys2Proof.Machine
end

section
namespace Sys2Proof.Machine

/-! ### What a frame carries -/

section
variable (s : State) (b : Bus) {it : Item}

theorem busOf_val (x : Target) : (busOf x).val = x.val / 4 := by revert x; decide

/-- The first frame of a pair is its write-enable frame (R84). -/
theorem current_first {r : FrameRecord} (h : r.pair = some .first) :
    r.currentHeader = r.writeEnable ∧ r.currentCount = 0 := ⟨if_pos h, if_pos h⟩

theorem current_last {r : FrameRecord} (h : r.pair ≠ some .first) :
    r.currentHeader = r.header ∧ r.currentCount = r.count := ⟨if_neg h, if_neg h⟩

/-- What the frames of all kinds of item have in common (R77, R82). -/
theorem itemFrame_common (it : Item) : (s.itemFrame b it).framing = (s.target it.target).profile.framing ∧
    (s.itemFrame b it).earlyEnd = none ∧ (s.itemFrame b it).overtaken = false ∧
    (s.itemFrame b it).progress = (s.bus b).startProgress (s.target it.target).profile.framing := by
  unfold State.itemFrame
  cases it.kind <;> exact ⟨rfl, rfl, rfl, rfl⟩

theorem startProgress_bytes (e : BusEngine) (f : Framing) : (e.startProgress f).bytes = 0 := by
  unfold BusEngine.startProgress
  split <;> rfl

theorem itemFrame_read (h : it.kind = .read) : (s.itemFrame b it).kind = .read ∧ (s.itemFrame b it).pair = none ∧
    (s.itemFrame b it).direction = .input ∧ (s.itemFrame b it).count = it.length ∧
    (s.itemFrame b it).header = [(s.target it.target).profile.readOpcode] ++
      (s.target it.target).profile.addressBytes it.address ++
      List.replicate (s.target it.target).profile.dummyBytes.toNat 0 := by
  simp [State.itemFrame, h]

theorem itemFrame_status (h : it.kind = .status) : (s.itemFrame b it).kind = .status ∧ (s.itemFrame b it).pair = none ∧
    (s.itemFrame b it).direction = .input ∧ (s.itemFrame b it).count = 1 ∧
    (s.itemFrame b it).header = [(s.target it.target).profile.statusOpcode] := by
  simp [State.itemFrame, h]

theorem itemFrame_program (h : it.kind = .program) : (s.itemFrame b it).kind = .programPair ∧
    (s.itemFrame b it).pair = some .first ∧
    (s.itemFrame b it).writeEnable = [(s.target it.target).profile.writeEnableOpcode] ∧
    (s.itemFrame b it).direction = .output ∧ (s.itemFrame b it).count = it.length ∧
    (s.itemFrame b it).header = [(s.target it.target).profile.programOpcode] ++
      (s.target it.target).profile.addressBytes it.address := by
  simp [State.itemFrame, h]

/-- The erase frame carries the address of the next unit (R88). -/
theorem itemFrame_erase (h : it.kind = .erase) : (s.itemFrame b it).kind = .erasePair ∧
    (s.itemFrame b it).pair = some .first ∧
    (s.itemFrame b it).writeEnable = [(s.target it.target).profile.writeEnableOpcode] ∧
    (s.itemFrame b it).direction = .none ∧ (s.itemFrame b it).count = 0 ∧
    (s.itemFrame b it).address = it.unitAddress (s.target it.target).profile.eraseUnit ∧
    (s.itemFrame b it).header = [(s.target it.target).profile.eraseOpcode] ++
      (s.target it.target).profile.addressBytes (it.unitAddress (s.target it.target).profile.eraseUnit) := by
  simp [State.itemFrame, h]

/-- The first reset frame of a sequence, with all of it to send, carries reset opcode 1, the second one reset opcode 2 (R90). -/
theorem resetFrame_header {x : Target} {pend : PendingReset} (h : (s.target x).pendingReset = some pend) :
    (s.maintenanceFrame b .reset x).header = [if pend.toSend = (s.target x).profile.resetLength.val then
      (s.target x).profile.resetOpcode1 else (s.target x).profile.resetOpcode2] := by
  simp only [State.maintenanceFrame, h]
  rfl

end

/-! ### Address bytes -/

/-- How many address bytes a width gives (R23). -/
def AddressWidth.bytes : AddressWidth → Nat
  | .three => 3
  | .four => 4

theorem addressBytes_length (pr : Profile) (a : Nat) : (pr.addressBytes a).length = pr.addressWidth.bytes := by
  unfold Profile.addressBytes
  cases pr.addressWidth <;> rfl

theorem byteAt_bytes32 (w : BitVec 32) {i : Nat} (h : i < 4) : byteAt (bytes32 w) i = w.extractLsb' (8 * (3 - i)) 8 := by
  match i, h with
  | 0, _ | 1, _ | 2, _ | 3, _ => rfl

/-- Byte `3 - i` of an address, counted from the least significant one. -/
theorem byteAt_address (a : Nat) {i : Nat} (h : i < 4) :
    (byteAt (bytes32 (BitVec.ofNat 32 a)) i).toNat = a / 256 ^ (3 - i) % 256 := by
  rw [byteAt_bytes32 _ h, field_toNat, BitVec.toNat_ofNat]
  match i, h with
  | 0, _ | 1, _ | 2, _ | 3, _ =>
    simp only [Nat.reduceSub, Nat.reduceMul, Nat.reducePow]
    omega

theorem byteAt_addressBytes (pr : Profile) (a : Nat) {i : Nat} (h : i < pr.addressWidth.bytes) :
    (byteAt (pr.addressBytes a) i).toNat = a / 256 ^ (pr.addressWidth.bytes - 1 - i) % 256 := by
  revert h
  unfold Profile.addressBytes
  cases pr.addressWidth with
  | four => exact fun h => byteAt_address a h
  | three =>
    intro h
    have shifted := byteAt_address a (i := i + 1) (Nat.succ_lt_succ h)
    rwa [Nat.sub_add_eq, Nat.sub_right_comm] at shifted

/-! ### What the pins show, and when SDI is sampled -/

section
variable {s : State} {b : Bus} {r : FrameRecord}

theorem pins_float (m : (s.bus b).mode = .float) : s.pins b = .released := by
  simp only [State.pins, m]

theorem pins_idle (m : (s.bus b).mode ≠ .float) (idle : (s.bus b).frame = none) : s.pins b = .driven none false none := by
  unfold State.pins
  cases hm : (s.bus b).mode with
  | float => exact absurd hm m
  | run | halt => simp only [idle]

/-- The pins in each phase of the frame in flight (R81, R83). -/
theorem pins_frame (m : (s.bus b).mode ≠ .float) (flight : (s.bus b).frame = some r) :
    (r.progress.phase = .deselect → s.pins b = .driven none false none) ∧
    (r.progress.phase = .setup ∨ r.progress.phase = .hold →
      s.pins b = .driven (some (chipSelectOf r.target)) false none) ∧
    (r.progress.phase = .byte → s.pins b = .driven (some (chipSelectOf r.target)) (r.halfClockOfByte % 2 == 1)
      (some (r.framing.bitOrder.bit (s.byteSent b r r.progress.bytes) (r.halfClockOfByte / 2)))) ∧
    (r.progress.phase = .pause → s.pins b = .driven (some (chipSelectOf r.target)) false
      (some (r.framing.bitOrder.bit (s.byteSent b r (r.progress.bytes - 1)) 7))) := by
  unfold State.pins
  cases hm : (s.bus b).mode with
  | float => exact absurd hm m
  | run | halt =>
    simp only [flight]
    cases r.progress.phase <;> simp

/-- Half clock `j` of a byte. -/
theorem halfClockOfByte_eq {j k : Nat} (hj : j < 16) (hk : k < r.framing.halfClock)
    (spent : r.progress.spent = j * r.framing.halfClock + k) : r.halfClockOfByte = j := by
  rw [FrameRecord.halfClockOfByte, spent, Nat.mul_comm, Nat.mul_add_div (by omega), Nat.div_eq_of_lt hk]
  omega

/-- SCK is low in the first half of bit `i` (R83). -/
theorem pins_bit_low (m : (s.bus b).mode ≠ .float) (flight : (s.bus b).frame = some r) (byte : r.progress.phase = .byte)
    {i k : Nat} (hi : i < 8) (hk : k < r.framing.halfClock) (spent : r.progress.spent = 2 * i * r.framing.halfClock + k) :
    s.pins b = .driven (some (chipSelectOf r.target)) false
      (some (r.framing.bitOrder.bit (s.byteSent b r r.progress.bytes) i)) := by
  obtain ⟨_, _, shifted, _⟩ := pins_frame m flight
  rw [shifted byte, halfClockOfByte_eq (by omega) hk spent, Nat.mul_mod_right,
    Nat.mul_div_cancel_left i Nat.two_pos]
  rfl

/-- SCK is high in the second half of bit `i` (R83). -/
theorem pins_bit_high (m : (s.bus b).mode ≠ .float) (flight : (s.bus b).frame = some r) (byte : r.progress.phase = .byte)
    {i k : Nat} (hi : i < 8) (hk : k < r.framing.halfClock)
    (spent : r.progress.spent = (2 * i + 1) * r.framing.halfClock + k) :
    s.pins b = .driven (some (chipSelectOf r.target)) true
      (some (r.framing.bitOrder.bit (s.byteSent b r r.progress.bytes) i)) := by
  have odd : (2 * i + 1) % 2 = 1 := by omega
  have half : (2 * i + 1) / 2 = i := by omega
  obtain ⟨_, _, shifted, _⟩ := pins_frame m flight
  rw [shifted byte, halfClockOfByte_eq (by omega) hk spent, odd, half]
  rfl

theorem bit_eq (o : BitOrder) (w : Byte) (i : Nat) :
    o.bit w i = w.getLsbD (if o = .msbFirst then 7 - i else i) := by cases o <;> rfl

/-- A rising edge of SCK is where the second half of a bit begins (R83). -/
theorem risingEdge_iff {spent half i : Nat} (pos : 0 < half) :
    (spent % (2 * half) = half ∧ spent / (2 * half) = i) ↔ spent = (2 * i + 1) * half := by
  constructor
  · rintro ⟨edge, rfl⟩
    have := Nat.div_add_mod spent (2 * half)
    rw [edge] at this
    linarith
  · rintro rfl
    have split : (2 * i + 1) * half = 2 * half * i + half := by ring
    have less : half < 2 * half := by omega
    rw [split, Nat.mul_add_mod, Nat.mul_add_div (by omega), Nat.mod_eq_of_lt less, Nat.div_eq_of_lt less]
    exact ⟨rfl, rfl⟩

theorem sampledBit_iff (r : FrameRecord) (i : Nat) : r.sampledBit = some i ↔
    (r.progress.phase = .byte ∧ r.direction = .input ∧ r.currentHeader.length ≤ r.progress.bytes) ∧
      r.progress.spent = (2 * i + 1) * r.framing.halfClock := by
  have pos : 0 < r.framing.halfClock := Nat.succ_pos _
  rw [← risingEdge_iff pos]
  simp only [FrameRecord.sampledBit, Option.ite_none_right_eq_some, Option.some.injEq, and_assoc]

end

/-- Settles O44: the frames by the kind of their item, the pins by the phase of the frame in flight. The byte on the line is the
model's `State.byteSent`, and half clock `j` of a byte belongs to bit `j / 2`. -/
theorem framesCarryTheirBytes : Obligations.FramesCarryTheirBytes := by
  unfold Obligations.FramesCarryTheirBytes
  refine ⟨fun x => ⟨busOf_val x, rfl⟩, fun _ => rfl, fun r => ⟨current_first, current_last⟩,
    fun b s => ⟨fun it => ?_, fun _ _ => rfl⟩, fun b s => ⟨pins_float, pins_idle, fun r m flight => ?_⟩, sampledBit_iff, fun b it s => ?_, fun b kind x s => ?_⟩
  · obtain ⟨_, _, _, progress⟩ := itemFrame_common s b it
    exact progress
  · intro half select sent bit
    have sent_eq : ∀ n, s.byteSent b r n = sent n := by
      intro n
      refine if_congr .rfl rfl ?_
      cases r.direction with
      | none | input => rfl
      | output =>
        rcases (s.bus b).serving with _ | ⟨_, it⟩
        · rfl
        · dsimp only
          cases it.slot <;> rfl
    have line : ∀ n i, r.framing.bitOrder.bit (s.byteSent b r n) i = bit n i := fun n i => by rw [bit_eq, sent_eq]
    obtain ⟨deselected, unshifted, _, paused⟩ := pins_frame m flight
    refine ⟨deselected, unshifted, fun i k byte hi hk => ⟨fun spent => ?_, fun spent => ?_⟩, fun pause => ?_⟩
    · rw [pins_bit_low m flight byte hi hk spent, line]
    · rw [pins_bit_high m flight byte hi hk spent, line]
    · rw [paused pause, line]
  · obtain ⟨target, item, _⟩ := itemFrame_like s b it
    obtain ⟨framing, early, overtaken, progress⟩ := itemFrame_common s b it
    exact ⟨target, item, framing, early, overtaken, progress ▸ startProgress_bytes _ _,
      fun a => ⟨addressBytes_length _ a, fun i => byteAt_addressBytes _ a⟩,
      itemFrame_read s b, itemFrame_status s b, itemFrame_program s b, itemFrame_erase s b⟩
  · refine ⟨rfl, rfl, rfl, rfl, rfl, rfl, ?_, ?_, ?_, ?_⟩
    · rintro rfl
      exact ⟨rfl, rfl, rfl⟩
    · rintro rfl
      exact ⟨rfl, rfl⟩
    · rintro rfl
      exact ⟨rfl, rfl⟩
    · rintro rfl
      refine ⟨rfl, fun pend h => ⟨fun all => ?_, fun fewer => ?_⟩⟩
      · exact (resetFrame_header s b h).trans (by rw [if_pos all])
      · exact (resetFrame_header s b h).trans (by rw [if_neg fewer])

end Sys2Proof.Machine
end

section
namespace Sys2Proof.Machine

/-! ### The early end of a READ (R92) -/

theorem dataLimit_eq (r : FrameRecord) : r.dataLimit = (match r.earlyEnd with
    | some n => n
    | none => r.currentHeader.length + r.currentCount) - r.currentHeader.length := by
  unfold FrameRecord.dataLimit FrameRecord.limit FrameRecord.totalBytes
  cases r.earlyEnd <;> rfl

section

variable {r : FrameRecord}

theorem endEarly_unchanged (h : r.kind ≠ .read ∨ r.earlyEnd ≠ none) : r.endEarly = r := by
  refine if_neg fun first => ?_
  rw [Bool.and_eq_true, decide_eq_true_eq, Option.isNone_iff_eq_none] at first
  exact h.elim (· first.1) (· first.2)

/-- The first request cuts the frame at its present phase. -/
theorem endEarly_first (read : r.kind = .read) (first : r.earlyEnd = none) : r.endEarly =
    { r with
      earlyEnd := r.cut
      progress := if r.progress.phase = .pause then { r.progress with phase := .hold, spent := 0 } else r.progress } :=
  if_pos (by rw [read, first]; rfl)

variable (read : r.kind = .read) (first : r.earlyEnd = none)

include read first

theorem endEarly_unshifted (h : r.progress.phase = .deselect ∨ r.progress.phase = .setup) :
    r.endEarly = { r with earlyEnd := some 0 } := by
  rw [endEarly_first read first, FrameRecord.cut]
  rcases h with h | h <;> rw [h] <;> rfl

theorem endEarly_byte (h : r.progress.phase = .byte) :
    r.endEarly = { r with earlyEnd := some (r.progress.bytes + 1) } := by
  rw [endEarly_first read first, FrameRecord.cut, h]
  rfl

theorem endEarly_pause (h : r.progress.phase = .pause) : r.endEarly = { r with
    earlyEnd := some r.progress.bytes, progress := { phase := .hold, bytes := r.progress.bytes, spent := 0 } } := by
  rw [endEarly_first read first, FrameRecord.cut, h]
  rfl

theorem endEarly_hold (h : r.progress.phase = .hold) : r.endEarly = r := by
  rw [endEarly_first read first, FrameRecord.cut, h, ← first]
  rfl

end

/-! ### CANCEL_CLAIM -/

/-- The frame in flight after a cancel claim on `it`: the early end is requested of the READ that serves it, with data bytes
still to be received (R93, R162). -/
def FrameRecord.cancelledFor (r : FrameRecord) (it : Item) : FrameRecord :=
  if it.kind = .read ∧ it.state = .active ∧ r.item = some it.uid ∧ it.bytesMoved < r.dataLimit then r.endEarly else r

/-- A Bus Engine after a cancel claim on a running item (R162). -/
def BusEngine.cancelRunning (e : BusEngine) (it : Item) : BusEngine :=
  { e with
    list := e.list.map (fun x => if x.uid = it.uid then x.cancelMarked else x)
    frame := e.frame.map (·.cancelledFor it) }

theorem cancelRunning_kept {e : BusEngine} {it : Item} (h : ∀ r, e.frame = some r → r.cancelledFor it = r) :
    e.cancelRunning it = e.modItem it.uid Item.cancelMarked := by
  have frame : e.frame.map (·.cancelledFor it) = e.frame := by
    rcases flight : e.frame with _ | r
    · rfl
    · exact congrArg some (h r flight)
  rw [BusEngine.cancelRunning, frame]
  rfl

theorem cancelRunning_frame {e : BusEngine} {it : Item} {r : FrameRecord} (h : e.frame = some r) :
    e.cancelRunning it = { e.modItem it.uid Item.cancelMarked with frame := some (r.cancelledFor it) } := by
  rw [BusEngine.cancelRunning, h]
  rfl

theorem cancelMarked_eq (x : Item) : x.cancelMarked =
    if x.kind = .erase ∧ x.unitsDone + 1 < x.unitsRequested then
      { x with cancelSeen := true, unitsRequested := x.unitsDone + 1,
               drop := if x.drop = .none then .cancelled else x.drop }
    else { x with cancelSeen := true } :=
  if_congr (moreUnits_iff _) rfl rfl

theorem frameOf_eq_some {e : BusEngine} {uid : Nat} {r : FrameRecord} :
    e.frameOf uid = some r ↔ e.frame = some r ∧ r.item = some uid := by
  rw [BusEngine.frameOf, Option.filter_eq_some_iff, beq_iff_eq]

section

variable {s : State} {b : Bus} {uid : Nat} {it : Item}

theorem cancelItem_gone (h : (s.bus b).find uid = none) : s.cancelItem b uid = s := by
  unfold State.cancelItem
  rw [h]

variable (found : (s.bus b).find uid = some it)

include found

theorem cancelItem_orphan (orphan : it.orphan = true) : s.cancelItem b uid = s := by
  simp only [State.cancelItem, found, orphan, if_true]

/-- A QUEUED item leaves cancelled, an ERASE that has units done truncated (R161). -/
theorem cancelItem_queued (own : it.orphan = false) (queued : it.state = .queued) : s.cancelItem b uid =
    s.finish b it (({ it with cancelSeen := true } : Item).report
      (if it.kind = .erase ∧ 0 < it.unitsDone then .truncated else .cancelled) .cancelled 0 []) := by
  unfold State.cancelItem
  rw [found]
  dsimp only
  rw [if_neg (by simp [own]), if_pos queued, recordQueued_eq]
  simp only [Bool.and_eq_true, decide_eq_true_eq]
  rfl

/-- A running item is marked, and the READ in flight that serves it is cut short (R93, R162). -/
theorem cancelItem_running (own : it.orphan = false) (running : it.state ≠ .queued) :
    s.cancelItem b uid = s.setBus b ((s.bus b).cancelRunning it) := by
  obtain rfl : it.uid = uid := (find_mem found).2
  have frameOf : ((s.modBus b (·.modItem it.uid Item.cancelMarked)).bus b).frameOf it.uid = (s.bus b).frameOf it.uid := by
    rw [modBus_eq, bus_setBus_same]
    rfl
  unfold State.cancelItem
  rw [found]
  dsimp only
  rw [if_neg (by simp [own]), if_neg running]
  by_cases reads : it.kind = .read ∧ it.state = .active
  · rw [if_pos (by simp [reads])]
    split
    · next r flight =>
      obtain ⟨flight, serves⟩ := frameOf_eq_some.1 (frameOf.symm.trans flight)
      split
      · next more =>
        have cut : r.cancelledFor it = r.endEarly := if_pos ⟨reads.1, reads.2, serves, more⟩
        rw [cancelRunning_frame flight, cut, modBus_eq, modBus_eq, bus_setBus_same, setBus_setBus]
        rfl
      · next all =>
        have kept : r.cancelledFor it = r := if_neg fun ⟨_, _, _, more⟩ => all more
        rw [cancelRunning_kept fun q hq => Option.some.inj (flight.symm.trans hq) ▸ kept]
        rfl
    · next idle =>
      have apart : ∀ q, (s.bus b).frame = some q → q.item ≠ some it.uid := fun q hq serves =>
        Option.some_ne_none q ((frameOf_eq_some.2 ⟨hq, serves⟩).symm.trans (frameOf.symm.trans idle))
      rw [cancelRunning_kept fun q hq => if_neg fun ⟨_, _, serves, _⟩ => apart q hq serves]
      rfl
  · rw [if_neg (by simpa using reads), cancelRunning_kept fun r _ => if_neg fun h => reads ⟨h.1, h.2.1⟩]
    rfl

end

/-- Settles O41: the early end by the phase of the frame (`endEarly_first`), the claim by the place of its item. -/
theorem cancelClaimActsByState : Obligations.CancelClaimActsByState := by
  unfold Obligations.CancelClaimActsByState
  refine ⟨fun _ _ => rfl, fun r => ⟨dataLimit_eq r, endEarly_unchanged, fun read first => ⟨endEarly_unshifted read first,
    endEarly_byte read first, endEarly_pause read first, endEarly_hold read first⟩⟩, fun p b c s oldest => ?_⟩
  intro s1
  have taken : exec (.cancelClaim p b) s = .next (s1.cancelItem b c.item) := by
    rw [exec_cancelClaim oldest, modBus_eq, dropFirstOf_eq_erase p _ c oldest]
  have bus : s1.bus b = { s.bus b with cancels := List.erase (s.bus b).cancels c } := bus_setBus_same _ _ _
  have find : (s1.bus b).find c.item = (s.bus b).find c.item := by
    rw [bus]
    rfl
  rw [taken, ← find]
  refine ⟨fun gone => by rw [cancelItem_gone gone], fun it found => ⟨fun orphan => by rw [cancelItem_orphan found orphan],
    fun own queued => by rw [cancelItem_queued found own queued], fun own running => ?_⟩⟩
  rw [cancelItem_running found own running, bus, setBus_setBus]
  refine ⟨_, rfl, onlyBus_setBus s b _, ?_⟩
  rw [bus_setBus_same]
  refine ⟨rfl, List.map_congr_left fun x _ => if_congr .rfl (cancelMarked_eq x) rfl,
    fun r flight => congrArg (Option.map fun q : FrameRecord => q.cancelledFor it) flight,
    fun idle => congrArg (Option.map fun q : FrameRecord => q.cancelledFor it) idle⟩

end Sys2Proof.Machine
end

section
namespace Sys2Proof.Machine

/-! ### The release of a chip select (R91, R115) -/

section

variable {s : State} {b : Bus} {x : Target}

theorem releaseBus_unclaimed (h : x ∉ s.resetClaims) : s.releaseBus b x = s.idleBus b :=
  if_neg (by simpa [modBus_eq] using h)

theorem releaseBus_claimed (h : x ∈ s.resetClaims) : s.releaseBus b x = (s.idleBus b).settleTargetReset x :=
  if_pos (by simpa [modBus_eq] using h)

theorem frameTo_idleBus (s : State) (x : Target) : (s.idleBus (busOf x)).frameTo x = false := by
  rw [State.frameTo, State.idleBus, modBus_eq, bus_setBus_same]

end

/-! ### READ_FRAME_END -/

section

variable {r : FrameRecord} {it : Item}

theorem readRecord_done (free : r.overtaken = false) (whole : r.earlyEnd = none) :
    r.readRecord it = it.report .done .none it.bytesMoved it.headBytes := by
  simp only [FrameRecord.readRecord, free, whole]
  rfl

theorem readRecord_cut (free : r.overtaken = false) (cut : r.earlyEnd ≠ none) :
    r.readRecord it = it.report .truncated .cancelled it.bytesMoved it.headBytes := by
  rw [FrameRecord.readRecord, if_neg (by simp [free]), if_pos (Option.isSome_iff_ne_none.2 cut)]
  rfl

theorem readRecord_overtaken (h : r.overtaken = true) :
    r.readRecord it = it.report .failed .aborted it.bytesMoved it.headBytes := if_pos h

/-- Once its last data byte has been received the READ leaves with its record, and the bus is free. -/
theorem exec_readFrameEnd {s : State} {b : Bus} (hs : (s.bus b).serving = some (r, it)) (read : r.kind = .read)
    (all : r.dataLimit ≤ it.bytesMoved) :
    exec (.readFrameEnd b) s = .next ((s.finish b it (r.readRecord it)).releaseBus b r.target) := by
  change execReadFrameEnd b s = _
  simp only [execReadFrameEnd, hs]
  exact congrArg _ (if_pos (by simp [read, all]))

end

/-- Settles O47: the claim that waited finds no frame to its target (`frameTo_idleBus`), and the record of the READ is that of
its outcome. -/
theorem frameEndsFreeTheBusAndReadsComplete : Obligations.FrameEndsFreeTheBusAndReadsComplete := by
  unfold Obligations.FrameEndsFreeTheBusAndReadsComplete
  refine ⟨fun x s => ⟨releaseBus_unclaimed, fun claimed => ?_⟩, fun b r it s hs read all => ?_⟩
  · rw [releaseBus_claimed claimed]
    exact exec_targetResetClaim (s := s.idleBus (busOf x)) claimed (frameTo_idleBus s x)
  · rw [exec_readFrameEnd hs read all]
    exact ⟨fun free whole => by rw [readRecord_done free whole], fun free cut => by rw [readRecord_cut free cut],
      fun overtaken => by rw [readRecord_overtaken overtaken]⟩

/-! ### The ends of the frames of a pair -/

section

variable {s : State} {b : Bus} {r : FrameRecord} {it : Item}

theorem exec_writeEnableFrameEnd (flight : (s.bus b).frame = some r) (first : r.pair = some .first) :
    exec (.writeEnableFrameEnd b) s = .next (s.setBus b { s.bus b with
      frame := some { r with pair := some .second, progress := { phase := .deselect, bytes := 0, spent := 0 } } }) := by
  change execWriteEnableFrameEnd b s = _
  simp only [execWriteEnableFrameEnd, flight, first]
  rfl

theorem phaseTicks_deselect (h : r.progress.phase = .deselect) : r.phaseTicks = 4 * (r.framing.divider.toNat + 1) := by
  rw [FrameRecord.phaseTicks, h]
  exact Nat.mul_comm _ _

/-- The state when the second frame of a pair has ended: the item is aborted where a bus reset overtook the pair, and is the
owner of its target, whose record is `busy`, otherwise (R97, R104, R107). -/
def State.pairEnded (s : State) (b : Bus) (r : FrameRecord) (it : Item) (busy : TargetRecord) : State :=
  if r.overtaken then s.finish b it (it.report .failed .aborted it.bytesMoved it.headBytes)
  else (s.setTarget r.target busy).setBus b { s.bus b with
    list := (s.bus b).list.map (fun x => if x.uid = it.uid then { x with state := .ownerBusy } else x) }

theorem pairEnded_free {busy : TargetRecord} (free : r.overtaken = false) : s.pairEnded b r it busy =
    (s.setTarget r.target busy).setBus b { s.bus b with
      list := (s.bus b).list.map (fun x => if x.uid = it.uid then { x with state := .ownerBusy } else x) } :=
  if_neg (by simp [free])

theorem pairEnded_overtaken {busy : TargetRecord} (h : r.overtaken = true) : s.pairEnded b r it busy =
    s.finish b it (it.report .failed .aborted it.bytesMoved it.headBytes) := if_pos h

theorem exec_programPairEnd (hs : (s.bus b).serving = some (r, it)) (program : r.kind = .programPair)
    (second : r.pair = some .second) (all : r.count ≤ it.bytesMoved) : exec (.programPairEnd b) s =
      .next ((s.pairEnded b r it ((s.target r.target).toProgramming it.uid)).releaseBus b r.target) := by
  change execProgramPairEnd b s = _
  simp only [execProgramPairEnd, hs]
  exact congrArg _ (if_pos (by simp [program, second, all]))

theorem exec_erasePairEnd (hs : (s.bus b).serving = some (r, it)) (erase : r.kind = .erasePair)
    (second : r.pair = some .second) : exec (.erasePairEnd b) s =
      .next ((s.pairEnded b r it ((s.target r.target).toErasing it.uid r.address)).releaseBus b r.target) := by
  change execErasePairEnd b s = _
  simp only [execErasePairEnd, hs]
  exact congrArg _ (if_pos (by simp [erase, second]))

end

/-- Settles O48: after the write-enable frame by the frame that follows, after the second frame by `State.pairEnded`. -/
theorem pairEndsStartTheBusyPeriod : Obligations.PairEndsStartTheBusyPeriod := by
  unfold Obligations.PairEndsStartTheBusyPeriod
  refine ⟨fun b r s flight first => ⟨exec_writeEnableFrameEnd flight first, phaseTicks_deselect rfl⟩,
    fun b r it s hs second => ⟨fun program all => ?_, fun erase => ?_⟩⟩
  · rw [exec_programPairEnd hs program second all]
    exact ⟨fun free => by rw [pairEnded_free free]; rfl, fun overtaken => by rw [pairEnded_overtaken overtaken]⟩
  · rw [exec_erasePairEnd hs erase second]
    exact ⟨fun free => by rw [pairEnded_free free]; rfl, fun overtaken => by rw [pairEnded_overtaken overtaken]⟩

end Sys2Proof.Machine
end

section
namespace Sys2Proof.Machine

/-! ### The ends of the maintenance frames -/

/-- The state when a maintenance frame has ended, whose end the Tracker takes as a move to `u`: a bus reset that overtook the frame
leaves the target as it is, and the bus is free in every case (R120). -/
def State.maintained (s : State) (b : Bus) (r : FrameRecord) (u : State) : State :=
  (if r.overtaken then s else u).releaseBus b r.target

section

variable {s u : State} {b : Bus} {r : FrameRecord}

theorem maintained_free (free : r.overtaken = false) : s.maintained b r u = u.releaseBus b r.target := by
  rw [State.maintained, if_neg (by simp [free])]

theorem maintained_unmoved (h : r.overtaken = true ∨ u = s) : s.maintained b r u = s.releaseBus b r.target := by
  rcases h with overtaken | rfl
  · rw [State.maintained, if_pos overtaken]
  · rw [State.maintained, ite_self]

variable (flight : (s.bus b).frame = some r)

include flight

theorem exec_suspendFrameEnd (suspend : r.kind = .suspend) :
    exec (.suspendFrameEnd b) s = .next (s.maintained b r (s.suspendEnd r.target)) := by
  change execSuspendFrameEnd b s = _
  simp only [execSuspendFrameEnd, flight]
  exact congrArg _ (if_pos suspend)

theorem exec_resumeFrameEnd (resume : r.kind = .resume) :
    exec (.resumeFrameEnd b) s = .next (s.maintained b r (s.resumeEnd r.target)) := by
  change execResumeFrameEnd b s = _
  simp only [execResumeFrameEnd, flight]
  exact congrArg _ (if_pos resume)

theorem exec_resetFrameEnd (reset : r.kind = .reset) :
    exec (.resetFrameEnd b) s = .next (s.maintained b r (s.modTarget r.target (·.resetSent))) := by
  change execResetFrameEnd b s = _
  simp only [execResetFrameEnd, flight]
  exact congrArg _ (if_pos reset)

end

/-! ### Suspend and resume -/

section

variable {s : State} {x : Target}

/-- The owner of a target is the item of its bus list that the record designates; without an owner no item changes. -/
theorem modOwner_eq (s : State) (x : Target) (f : Item → Item) : s.modOwner x f = s.setBus (busOf x) { s.bus (busOf x) with
    list := (s.bus (busOf x)).list.map (fun it => if some it.uid = (s.target x).owner then f it else it) } := by
  unfold State.modOwner
  rcases (s.target x).owner with _ | uid
  · simp only [reduceCtorEq, if_false, List.map_id']
    exact (setBus_bus s (busOf x)).symm
  · simp only [Option.some.injEq]
    rfl

theorem suspendEnd_erasing (h : (s.target x).state = .erasing) : s.suspendEnd x =
    (s.modOwner x (fun it => { it with state := .ownerSuspended, suspendCount := it.suspendCount + 1 })).modTarget x
      (·.toSuspending) := if_pos h

theorem suspendEnd_other (h : (s.target x).state ≠ .erasing) : s.suspendEnd x = s := if_neg h

theorem resumeEnd_suspended (h : (s.target x).state = .suspended) : s.resumeEnd x =
    (s.modOwner x (fun it => { it with state := .ownerBusy })).modTarget x (·.toResumed) := if_pos h

theorem resumeEnd_other (h : (s.target x).state ≠ .suspended) : s.resumeEnd x = s := if_neg h

end

/-- Settles O50: by whether the frame was overtaken and the target is in the state that its end moves, the owner by
`modOwner_eq`. -/
theorem suspendAndResumeMoveTheTarget : Obligations.SuspendAndResumeMoveTheTarget := by
  unfold Obligations.SuspendAndResumeMoveTheTarget
  rintro b r s flight rfl
  refine ⟨fun suspend => ?_, fun resume => ?_⟩
  · rw [exec_suspendFrameEnd flight suspend]
    refine ⟨fun free erasing => ?_, fun still => by rw [maintained_unmoved (still.imp_right suspendEnd_other)]⟩
    rw [maintained_free free, suspendEnd_erasing erasing, modOwner_eq]
    rfl
  · rw [exec_resumeFrameEnd flight resume]
    refine ⟨fun free suspended => ?_, fun still => by rw [maintained_unmoved (still.imp_right resumeEnd_other)]⟩
    rw [maintained_free free, resumeEnd_suspended suspended, modOwner_eq]
    rfl

/-! ### The reset sequence and the recovery (R117) -/

section

variable {r : TargetRecord}

theorem resetSent_other (h : r.state ≠ .resetting) : r.resetSent = r := by
  unfold TargetRecord.resetSent
  split
  · next resetting _ => exact absurd resetting h
  · rfl

variable {recovering : Bool} (resetting : r.state = .resetting)

include resetting

theorem resetSent_more {n : Nat} (h : r.pendingReset = some { toSend := n + 2, recovering }) :
    r.resetSent = { r with pendingReset := some { toSend := n + 1, recovering } } := by
  simp only [TargetRecord.resetSent, resetting, h]
  exact if_neg (by omega)

/-- The last frame of the sequence starts the recovery timer. -/
theorem resetSent_last (h : r.pendingReset = some { toSend := 1, recovering }) :
    r.resetSent = { r with
      pendingReset := some { toSend := 0, recovering := true }
      recovery := Timer.start (r.profile.tRR.toNat * 200) } := by
  simp only [TargetRecord.resetSent, resetting, h]
  exact if_pos le_rfl

end

/-- Settles O51: the frames by what is left of the sequence, the recovery as an expiry whose effect is the entry to IDLE
(`expire_marks`). -/
theorem resetFramesAndRecovery : Obligations.ResetFramesAndRecovery := by
  unfold Obligations.ResetFramesAndRecovery
  refine ⟨fun b r s flight reset => ?_, fun x period spent s ready runs =>
    ⟨_, rfl, expire_marks (ready.imp_right Nat.sub_eq_zero_of_le) (remaining_running runs)⟩⟩
  rw [exec_resetFrameEnd flight reset, modTarget_eq]
  refine ⟨fun still => ?_, fun free resetting recovering => ⟨fun two => ?_, fun one => ?_⟩⟩
  · rw [maintained_unmoved (still.imp_right fun h => by rw [resetSent_other h, setTarget_target])]
  · rw [maintained_free free, resetSent_more resetting two]
  · rw [maintained_free free, resetSent_last resetting one]

end Sys2Proof.Machine
end

section
namespace Sys2Proof.Machine

/-! ### The contents of the slots -/

/-- The contents of every slot of a port are in canonical form (R138). -/
def PortUnit.Canonical (u : PortUnit) : Prop := ∀ k, (pick u.slots k).data.wf = true

theorem slotsCanonical_iff (s : State) : SlotsCanonical s ↔ ∀ p, (s.port p).Canonical := Iff.rfl

@[simp] theorem judgeSpace_slots (u : PortUnit) : u.judgeSpace.slots = u.slots := by rw [judgeSpace_rest]

/-- A change of one slot that keeps the form of its contents. -/
theorem canonical_modSlot? {u : PortUnit} {slot : Option SlotIx} {f : Slot → Slot} (canonical : u.Canonical)
    (hf : ∀ k : Slot, k.data.wf = true → (f k).data.wf = true) : (u.modSlot? slot f).Canonical := by
  intro k
  rw [pick_returned]
  split
  · exact hf _ (canonical k)
  · exact canonical k

/-- A returned slot keeps its contents, is cut to the bytes moved, or is emptied (R146, R147). -/
theorem wf_giveBack {k : Slot} {kind : Kind} {outcome : Ending} {moved : Nat} (h : k.data.wf = true) :
    (k.giveBack kind outcome moved).data.wf = true := by
  cases kind with
  | program =>
    rw [Slot.giveBack]
    split
    · exact wf_nil
    · exact h
  | read | erase | status =>
    rw [Slot.giveBack]
    split
    · exact wf_truncate h moved
    · exact h

/-- The slots that stay after a port reset are as they were (R149). -/
theorem canonical_portReset {u : PortUnit} (canonical : u.Canonical) (items : List Item) : (u.portReset items).Canonical := by
  intro k
  rw [PortUnit.portReset, pick_slotsKept]
  split
  · exact canonical k
  · exact wf_nil

/-- Contents change by bytes written, by a cut and by emptying (R138). -/
theorem portMove_canonical {u v : PortUnit} (h : PortMove u v) (canonical : u.Canonical) : v.Canonical := by
  cases h with
  | post slot r => exact canonical_modSlot? canonical fun _ => wf_giveBack
  | drop slot =>
    unfold PortUnit.Canonical PortUnit.dropOrphan
    rw [judgeSpace_slots]
    exact canonical_modSlot? canonical fun _ _ => wf_nil
  | space =>
    unfold PortUnit.Canonical
    rwa [judgeSpace_slots]
  | collect r =>
    unfold PortUnit.Canonical PortUnit.collectFront
    rwa [judgeSpace_slots]
  | accept r => exact canonical_modSlot? (slot := r.slot) (f := (·.commit)) canonical fun _ h => h
  | load k offset data => exact canonical_modSlot? (slot := some k) canonical fun _ h => wf_writeAll h offset data
  | free k => exact canonical_modSlot? (slot := some k) canonical fun _ _ => wf_nil
  | store slot x w => exact canonical_modSlot? canonical fun _ h => wf_write h x w
  | cutLoose items => exact canonical_portReset canonical items
  | device => intro k; rw [PortUnit.reset, pick_replicate]; exact wf_nil
  | link | result | hold | raise | arm | shorten | clear | enable => exact canonical

/-- A slot that no request has committed, where the accounts are in order (R138). -/
theorem PortAccount.uncommitted {own : List Item} {u : PortUnit} {k : SlotIx} (h : PortAccount own u)
    (out : (pick u.slots k).state ≠ .committed) :
    (pick u.slots k).ret = none ∧ ∀ a, (pick u.slots k).valid ≤ a → (pick u.slots k).data.read a = 0 := by
  obtain ⟨returns, named⟩ := h.slots k
  rw [if_neg out] at named
  have unnamed : own.countP (fun it => it.slot == some k) = 0 := (Nat.add_eq_zero_iff.1 named).2
  refine ⟨of_not_not fun ret => out (returns.1 ret), h.clean k fun it hit hk => ?_⟩
  exact absurd (beq_iff_eq.2 hk) (List.countP_eq_zero.1 unnamed it hit)

/-- Settles O58. The form of the contents by the moves of the Port Units; what R138 says of FREE and HELD slots is their part of
the account. -/
theorem stepsKeepSlotsCanonical : Obligations.StepsKeepSlotsCanonical := by
  unfold Obligations.StepsKeepSlotsCanonical
  refine ⟨fun s t canonical h => ?_, fun s p k order => ?_⟩
  · rw [slotsCanonical_iff] at canonical ⊢
    exact step_keeps_ports (fun _ _ => portMove_canonical) h canonical
  · have account := order.ports p
    refine ⟨fun free => ⟨account.free k (.inl free), ?_⟩, fun out => (account.uncommitted out).2⟩
    exact (account.uncommitted (by rw [free]; decide)).1

end Sys2Proof.Machine
end

section
namespace Sys2Proof.Machine

/-! ### Frames that change their own port -/

/-- A frame of port `p` closed with `result`: the other units stand, and the port's is `u`, but for its result and link. -/
structure PortFrameTaken (p : Port) (result : Result) (u : PortUnit) (s t : State) : Prop where
  only : OnlyPort p s t
  port : t.port p = { u with last := result, link := (t.port p).link }

/-- A change of a Port Unit that is the same whatever its link, and leaves at most the link to depend on it. -/
def LinkBlind (f : PortUnit → PortUnit) : Prop :=
  ∀ u l, f { u with link := l } = { f u with link := (f { u with link := l }).link }

/-- A frame of its full length without a reply, whose effect is one on its own Port Unit (R181). -/
theorem plainFrame_port {s : State} {p : Port} {need : Nat} {bytes : List Byte} {act : State → State × Result}
    {result : Result} {f : PortUnit → PortUnit} (blind : LinkBlind f) (hn : need ≤ bytes.length + 1)
    (ha : act (s.inFrame p) = (s.setPort p (f (s.port p).opened), result)) :
    PortFrameTaken p result (f (s.port p)) s (s.plainFrame p need bytes act) := by
  rw [plainFrame_long _ _ _ _ _ hn]
  change PortFrameTaken p result _ s ((act (s.inFrame p)).1.closeFrame p (act (s.inFrame p)).2 need bytes.length [])
  rw [ha, closeFrame_setPort]
  refine ⟨onlyPort_setPort _ _ _, ?_⟩
  rw [port_setPort_same, opened_eq, blind]
  rfl

/-- One that its checks refuse: the result and the link alone. -/
theorem plainFrame_refused {s : State} {p : Port} {need : Nat} {bytes : List Byte} {act : State → State × Result}
    {result : Result} (hn : need ≤ bytes.length + 1) (ha : act (s.inFrame p) = (s.inFrame p, result)) :
    PortFrameTaken p result (s.port p) s (s.plainFrame p need bytes act) :=
  plainFrame_port (f := id) (fun _ _ => rfl) hn ha

theorem inFrame_port (s : State) (p : Port) : (s.inFrame p).port p = (s.port p).opened := port_setPort_same _ _ _

theorem inFrame_slots (s : State) (p : Port) : ((s.inFrame p).port p).slots = (s.port p).slots := by
  rw [inFrame_port, opened_slots]

theorem inFrame_modPort (s : State) (p : Port) (f : PortUnit → PortUnit) :
    (s.inFrame p).modPort p f = s.setPort p (f (s.port p).opened) := by
  rw [modPort_eq, inFrame_port, State.inFrame, setPort_setPort]

theorem linkBlind_modSlot (k : SlotIx) (f : Slot → Slot) : LinkBlind (·.modSlot k f) := fun _ _ => rfl

/-! ### LOAD -/

theorem exec_load (p : Port) (bytes : List Byte) (s : State) :
    exec (.load p bytes) s = .next (s.upstream p (.load p bytes) false (takeLoad p bytes)) := rfl

section

variable {p : Port} {bytes : List Byte} {s : State} {k : SlotIx} (hn : 3 ≤ bytes.length + 1)
include hn

/-- A slot number above 3, or bytes past the end of the slot (R140). -/
theorem takeLoad_badField (h : 3 < (byteAt bytes 0).toNat ∨ 256 < (byteAt bytes 1).toNat + (bytes.drop 2).length) :
    PortFrameTaken p .badField (s.port p) s (takeLoad p bytes s) := by
  refine plainFrame_refused hn ?_
  dsimp only
  split
  · rfl
  · next k hk =>
    have inRange : ¬ 3 < (byteAt bytes 0).toNat := by rw [below_eq_some.1 hk]; omega
    rw [if_pos (h.resolve_left inRange)]

variable (hk : (byteAt bytes 0).toNat = k.val) (room : (byteAt bytes 1).toNat + (bytes.drop 2).length ≤ 256)
include hk room

theorem takeLoad_slotState (h : (pick (s.port p).slots k).state = .committed) :
    PortFrameTaken p .slotState (s.port p) s (takeLoad p bytes s) := by
  refine plainFrame_refused hn ?_
  simp only [below_some hk, inFrame_slots, if_neg (Nat.not_lt.2 room), if_pos h]

theorem takeLoad_ok (h : (pick (s.port p).slots k).state ≠ .committed) :
    PortFrameTaken p .ok ((s.port p).modSlot k (·.load (byteAt bytes 1).toNat (bytes.drop 2))) s (takeLoad p bytes s) := by
  refine plainFrame_port (linkBlind_modSlot _ _) hn ?_
  simp only [below_some hk, inFrame_slots, if_neg (Nat.not_lt.2 room), if_neg h, inFrame_modPort]

end

theorem takeLoad_taken {p : Port} {bytes : List Byte} {s : State} (hn : 3 ≤ bytes.length + 1) :
    ∃ result u, PortFrameTaken p result u s (takeLoad p bytes s) := by
  by_cases bad : 3 < (byteAt bytes 0).toNat ∨ 256 < (byteAt bytes 1).toNat + (bytes.drop 2).length
  · exact ⟨_, _, takeLoad_badField hn bad⟩
  · obtain ⟨slot, room⟩ := not_or.1 bad
    let k : SlotIx := ⟨(byteAt bytes 0).toNat, by omega⟩
    by_cases h : (pick (s.port p).slots k).state = .committed
    · exact ⟨_, _, takeLoad_slotState hn (k := k) rfl (Nat.not_lt.1 room) h⟩
    · exact ⟨_, _, takeLoad_ok hn (k := k) rfl (Nat.not_lt.1 room) h⟩

/-- Settles O16, by the outcome of the frame; the bytes of a loaded slot by `read_writeAll`. -/
theorem loadWritesTheSlot : Obligations.LoadWritesTheSlot := by
  unfold Obligations.LoadWritesTheSlot
  intro p bytes s canonical hears hlen
  have hn : 3 ≤ bytes.length + 1 := Nat.succ_le_succ hlen
  obtain ⟨_, _, taken⟩ := takeLoad_taken (p := p) (s := s) hn
  refine ⟨_, by rw [exec_load, upstream_taken hears], taken.only, fun bad => (takeLoad_badField hn bad).port,
    fun k hk room => ⟨fun committed => (takeLoad_slotState hn hk room committed).port, fun usable => ?_⟩⟩
  exact ⟨_, (takeLoad_ok hn hk room usable).port, rfl, rfl, rfl, read_writeAll (canonical p k) _ _ room⟩

/-! ### RELEASE -/

theorem exec_release (p : Port) (bytes : List Byte) (s : State) :
    exec (.release p bytes) s = .next (s.upstream p (.release p bytes) false (takeRelease p bytes)) := rfl

section

variable {p : Port} {bytes : List Byte} {s : State} {k : SlotIx} (hn : 2 ≤ bytes.length + 1)
include hn

theorem takeRelease_badField (h : 3 < (byteAt bytes 0).toNat) :
    PortFrameTaken p .badField (s.port p) s (takeRelease p bytes s) := by
  refine plainFrame_refused hn ?_
  simp only [below_none h]

variable (hk : (byteAt bytes 0).toNat = k.val)
include hk

theorem takeRelease_slotState (h : (pick (s.port p).slots k).state = .committed) :
    PortFrameTaken p .slotState (s.port p) s (takeRelease p bytes s) := by
  refine plainFrame_refused hn ?_
  simp only [below_some hk, inFrame_slots, if_pos h]

theorem takeRelease_ok (h : (pick (s.port p).slots k).state ≠ .committed) :
    PortFrameTaken p .ok ((s.port p).modSlot k fun _ => .freed) s (takeRelease p bytes s) := by
  refine plainFrame_port (linkBlind_modSlot _ _) hn ?_
  simp only [below_some hk, inFrame_slots, if_neg h, inFrame_modPort]

end

theorem takeRelease_taken {p : Port} {bytes : List Byte} {s : State} (hn : 2 ≤ bytes.length + 1) :
    ∃ result u, PortFrameTaken p result u s (takeRelease p bytes s) := by
  by_cases bad : 3 < (byteAt bytes 0).toNat
  · exact ⟨_, _, takeRelease_badField hn bad⟩
  · let k : SlotIx := ⟨(byteAt bytes 0).toNat, by omega⟩
    by_cases h : (pick (s.port p).slots k).state = .committed
    · exact ⟨_, _, takeRelease_slotState hn (k := k) rfl h⟩
    · exact ⟨_, _, takeRelease_ok hn (k := k) rfl h⟩

/-- Settles O18, by the outcome of the frame. -/
theorem releaseFreesTheSlot : Obligations.ReleaseFreesTheSlot := by
  unfold Obligations.ReleaseFreesTheSlot
  intro p bytes s hears hlen
  have hn : 2 ≤ bytes.length + 1 := Nat.succ_le_succ hlen
  obtain ⟨_, _, taken⟩ := takeRelease_taken (p := p) (s := s) hn
  refine ⟨_, by rw [exec_release, upstream_taken hears], taken.only, fun bad => (takeRelease_badField hn bad).port,
    fun k hk => ⟨fun committed => (takeRelease_slotState hn hk committed).port, fun usable => ?_⟩⟩
  exact ⟨_, (takeRelease_ok hn hk usable).port, rfl, rfl, rfl, read_nil⟩

/-! ### FETCH -/

theorem isFetch_iff (c : Captured) : c.isFetch = true ↔ ∃ result reply, c = .fetch result reply := by
  cases c <;> simp [Captured.isFetch]

theorem exec_fetch (p : Port) (m : Moment) (bytes : List Byte) (s : State) :
    exec (.fetch p m bytes) s = .next (s.upstream p (.fetch p m bytes) false (takeFetch p m bytes)) := rfl

section

variable {p : Port} {bytes : List Byte} {s : State} {k : SlotIx}

/-- Opening the frame does not change what FETCH captures. -/
theorem grabFetch_inFrame : grabFetch p bytes (s.inFrame p) = grabFetch p bytes s := by
  simp only [grabFetch, inFrame_slots]

theorem grabFetch_badField (h : 3 < (byteAt bytes 0).toNat) : grabFetch p bytes s = .fetch .badField [] := by
  simp only [grabFetch, below_none h]

theorem grabFetch_slotState (hk : (byteAt bytes 0).toNat = k.val) (h : (pick (s.port p).slots k).state = .committed) :
    grabFetch p bytes s = .fetch .slotState [] := by
  simp only [grabFetch, below_some hk, if_pos h]

theorem grabFetch_ok (hk : (byteAt bytes 0).toNat = k.val) (h : (pick (s.port p).slots k).state ≠ .committed) :
    grabFetch p bytes s = .fetch .ok
      ((pick (s.port p).slots k).data.bytesFrom (byteAt bytes 1).toNat (pick (s.port p).slots k).valid) := by
  simp only [grabFetch, below_some hk, if_neg h]

end

/-- Settles O17. What is captured is `grabFetch`; the two moments are those of every frame that answers (`captureFrame_holds`,
`replyFrame_shows`). -/
theorem fetchReadsTheSlot : Obligations.FetchReadsTheSlot := by
  unfold Obligations.FetchReadsTheSlot
  refine ⟨isFetch_iff, fun p bytes s hears hlen => ?_⟩
  have hi := hears_ignoring hears
  have hn : 3 ≤ bytes.length + 1 := Nat.succ_le_succ hlen
  refine ⟨grabFetch p bytes s, ?_, grabFetch_badField, fun k hk => ⟨grabFetch_slotState hk, fun usable => ?_⟩,
    fun result reply hf => ?_⟩
  · exact ⟨takeFetch p .capture bytes s, by rw [exec_fetch, upstream_taken hears],
      captureFrame_holds hi hn grabFetch_inFrame⟩
  · exact ⟨_, grabFetch_ok hk usable, byteAt_bytesFrom _ _ _⟩
  · exact ⟨takeFetch p .release bytes s, by rw [exec_fetch, upstream_taken hears],
      replyFrame_shows (shown := .fetch result reply) hi hn grabFetch_inFrame hf⟩

/-! ### The return of a slot (R146, R147) -/

theorem giveBack_failed {k : Slot} {outcome : Ending} {moved : Nat} (h : outcome ≠ .done) :
    k.giveBack .program outcome moved = { k with state := .held, ret := none } := if_neg h

theorem giveBack_filled {k : Slot} {outcome : Ending} {moved : Nat} (h : 0 < moved) :
    k.giveBack .read outcome moved = k.filled moved := if_pos h

theorem asState_eq (back : ReturnState) : back.asState = if back = .held then .held else .free := by cases back <;> rfl

/-- A READ that moved nothing leaves its slot as the request found it (R147). -/
theorem giveBack_restored {k : Slot} {outcome : Ending} {back : ReturnState} (h : k.ret = some back) :
    k.giveBack .read outcome 0 = { k with state := if back = .held then .held else .free, ret := none } := by
  rw [Slot.giveBack, if_neg (Nat.lt_irrefl 0), Slot.restore, h, Option.getD_some, asState_eq]

/-- Settles O19, by the kind of the request, its outcome, and whether a READ moved a byte. -/
theorem slotsReturnByOutcome : Obligations.SlotsReturnByOutcome := by
  unfold Obligations.SlotsReturnByOutcome
  refine fun k outcome moved _ => ⟨fun done => ?_, giveBack_failed, fun moves => ?_, fun back => giveBack_restored⟩
  · subst done
    exact ⟨rfl, rfl, rfl, read_nil⟩
  · rw [giveBack_filled moves]
    exact ⟨rfl, rfl, rfl, read_truncate k.data moved⟩

end Sys2Proof.Machine
end

section
namespace Sys2Proof.Machine

/-! ### SUBMIT -/

theorem exec_submit (p : Port) (bytes : List Byte) (s : State) :
    exec (.submit p bytes) s = .next (s.upstream p (.submit p bytes) false (takeSubmit p bytes)) := rfl

/-! #### The checks in order (R153) -/

section

variable {u : PortUnit} {bytes : List Byte}

theorem submitRoom_iff : u.submitRoom = true ↔ u.ring.length < 8 ∧ u.credits < 16 := by
  simp only [PortUnit.submitRoom, Bool.and_eq_true, decide_eq_true_eq, Config.ringSize, Config.credits]

theorem checkSubmit_full (h : ¬(u.ring.length < 8 ∧ u.credits < 16)) : u.checkSubmit bytes = .error .full := by
  rw [PortUnit.checkSubmit, Bool.eq_false_iff.2 (mt submitRoom_iff.1 h)]
  rfl

variable (room : u.ring.length < 8 ∧ u.credits < 16)
include room

theorem submit_not_full : ¬(!u.submitRoom) = true := by rw [submitRoom_iff.2 room]; exact Bool.false_ne_true

theorem checkSubmit_dupTag (h : byteAt bytes 0 ∈ u.tags) : u.checkSubmit bytes = .error .dupTag := by
  rw [PortUnit.checkSubmit, if_neg (submit_not_full room), if_pos (List.contains_iff_mem.2 h)]

variable (fresh : byteAt bytes 0 ∉ u.tags)
include fresh

theorem checkSubmit_badField (h : Request.ofBytes bytes = none) : u.checkSubmit bytes = .error .badField := by
  rw [PortUnit.checkSubmit, if_neg (submit_not_full room), if_neg (mt List.contains_iff_mem.1 fresh), h]

variable {r : Request} (hr : Request.ofBytes bytes = some r)
include hr

theorem checkSubmit_slotless (h : r.slot = none) : u.checkSubmit bytes = .ok r := by
  simp only [PortUnit.checkSubmit, if_neg (submit_not_full room), if_neg (mt List.contains_iff_mem.1 fresh), hr, h]

theorem checkSubmit_slot {k : SlotIx} (h : r.slot = some k) : u.checkSubmit bytes =
    if (pick u.slots k).accepts r.kind r.length.toNat then .ok r else .error .slotState := by
  simp only [PortUnit.checkSubmit, if_neg (submit_not_full room), if_neg (mt List.contains_iff_mem.1 fresh), hr, h]

end

/-- Only a READ or a PROGRAM names a slot (R38, R153 check 3). -/
theorem request_ofBytes_slot {bytes : List Byte} {r : Request} {k : SlotIx} (hr : Request.ofBytes bytes = some r)
    (hk : r.slot = some k) : r.kind = .read ∨ r.kind = .program := by
  have shape := request_ofBytes_shapeOk hr
  rw [hk] at shape
  cases hkind : r.kind with
  | read => exact .inl rfl
  | program => exact .inr rfl
  | erase | status => simp [hkind, Request.shapeOk] at shape

/-- Which slots a READ and a PROGRAM may commit (R139, R143). -/
theorem accepts_iff {k : Slot} {kind : Kind} {length : Nat} (h : kind = .read ∨ kind = .program) :
    k.accepts kind length = true ↔
      (kind = .read ∧ k.state ≠ .committed) ∨ (kind = .program ∧ k.state = .held ∧ length ≤ k.valid) := by
  rcases h with rfl | rfl
  · cases hs : k.state <;> simp [Slot.accepts, hs]
  · cases hs : k.state <;> simp [Slot.accepts, hs]

/-! #### The outcomes -/

theorem asReturn_eq (x : SlotState) : x.asReturn = if x = .held then .held else .free := by cases x <;> rfl

theorem accept_slotless (u : PortUnit) {r : Request} (h : r.slot = none) :
    u.accept r = { u with ring := u.ring ++ [r], credits := u.credits + 1, tags := u.tags ++ [r.tag] } := by
  rw [PortUnit.accept, h]
  rfl

/-- The acceptance commits the slot (R143). -/
theorem accept_slot (u : PortUnit) {r : Request} {k : SlotIx} (h : r.slot = some k) : u.accept r = { u with
    ring := u.ring ++ [r], credits := u.credits + 1, tags := u.tags ++ [r.tag]
    slots := put u.slots k { pick u.slots k with
      state := .committed, ret := some (if (pick u.slots k).state = .held then .held else .free) } } := by
  rw [PortUnit.accept, h, ← asReturn_eq]
  rfl

theorem linkBlind_accept (r : Request) : LinkBlind (·.accept r) := by
  intro u l
  dsimp only
  cases h : r.slot with
  | none => rw [accept_slotless _ h, accept_slotless _ h]
  | some k => rw [accept_slot _ h, accept_slot _ h]

theorem linkBlind_arm : LinkBlind PortUnit.arm := fun _ _ => rfl

/-- Opening the frame does not change what SUBMIT checks. -/
theorem checkSubmit_inFrame (s : State) (p : Port) (bytes : List Byte) :
    ((s.inFrame p).port p).checkSubmit bytes = (s.port p).checkSubmit bytes := by
  rw [inFrame_port, opened_eq]
  rfl

section

variable {p : Port} {bytes : List Byte} {s : State} (hn : 9 ≤ bytes.length + 1)
include hn

theorem takeSubmit_ok {r : Request} (h : (s.port p).checkSubmit bytes = .ok r) :
    PortFrameTaken p .ok ((s.port p).accept r) s (takeSubmit p bytes s) := by
  refine plainFrame_port (linkBlind_accept r) hn ?_
  simp only [checkSubmit_inFrame, h, inFrame_modPort]

/-- A FULL refusal arms SPACE (R173). -/
theorem takeSubmit_full (h : (s.port p).checkSubmit bytes = .error .full) :
    PortFrameTaken p .full (s.port p).arm s (takeSubmit p bytes s) := by
  refine plainFrame_port linkBlind_arm hn ?_
  simp only [checkSubmit_inFrame, h, inFrame_modPort]

theorem takeSubmit_refused {e : Result} (he : e ≠ .full) (h : (s.port p).checkSubmit bytes = .error e) :
    PortFrameTaken p e (s.port p) s (takeSubmit p bytes s) := by
  refine plainFrame_refused hn ?_
  simp only [checkSubmit_inFrame, h]

theorem takeSubmit_taken : ∃ result u, PortFrameTaken p result u s (takeSubmit p bytes s) := by
  cases h : (s.port p).checkSubmit bytes with
  | ok r => exact ⟨_, _, takeSubmit_ok hn h⟩
  | error e =>
    by_cases he : e = .full
    · exact ⟨_, _, takeSubmit_full hn (he ▸ h)⟩
    · exact ⟨_, _, takeSubmit_refused hn he h⟩

end

/-- Settles O12: each check by its place in `checkSubmit`, and the acceptance by the slot that the descriptor names. -/
theorem submitChecksAndAccepts : Obligations.SubmitChecksAndAccepts := by
  unfold Obligations.SubmitChecksAndAccepts
  intro p bytes s hears hlen
  have hn : 9 ≤ bytes.length + 1 := Nat.succ_le_succ hlen
  obtain ⟨_, _, taken⟩ := takeSubmit_taken (p := p) (s := s) hn
  refine ⟨_, by rw [exec_submit, upstream_taken hears], taken.only, fun full => ?_, fun ring credits => ?_⟩
  · exact (takeSubmit_full hn (checkSubmit_full (by omega))).port
  have room := And.intro ring credits
  refine ⟨fun dup => (takeSubmit_refused hn (by decide) (checkSubmit_dupTag room dup)).port, fun fresh => ⟨fun bad => ?_,
    fun r hr slotless => ?_, fun r k hr hk => ?_⟩⟩
  · exact (takeSubmit_refused hn (by decide) (checkSubmit_badField room fresh bad)).port
  · have accepted := (takeSubmit_ok hn (checkSubmit_slotless room fresh hr slotless)).port
    rwa [accept_slotless _ slotless] at accepted
  · have check := checkSubmit_slot room fresh hr hk
    have fits := accepts_iff (k := pick (s.port p).slots k) (length := r.length.toNat) (request_ofBytes_slot hr hk)
    refine ⟨fun yes => ?_, fun no => ?_⟩
    · have accepted := (takeSubmit_ok hn (check.trans (if_pos (fits.2 yes)))).port
      rwa [accept_slot _ hk] at accepted
    · exact (takeSubmit_refused hn (by decide) (check.trans (if_neg (mt fits.1 no)))).port

end Sys2Proof.Machine
end

section
namespace Sys2Proof.Machine

/-! ### HOLD and UNHOLD (R164) -/

theorem takeHold_taken (p : Port) (bytes : List Byte) (s : State) :
    PortFrameTaken p .ok { s.port p with hold := true } s (takeHold p bytes s) :=
  plainFrame_port (f := fun u => { u with hold := true }) (fun _ _ => rfl) (Nat.le_add_left 1 _)
    (congrArg (·, Result.ok) (inFrame_modPort s p _))

theorem takeUnhold_taken (p : Port) (bytes : List Byte) (s : State) :
    PortFrameTaken p .ok { s.port p with hold := false } s (takeUnhold p bytes s) :=
  plainFrame_port (f := fun u => { u with hold := false }) (fun _ _ => rfl) (Nat.le_add_left 1 _)
    (congrArg (·, Result.ok) (inFrame_modPort s p _))

/-- Settles O10: the effect of each frame is one on its own Port Unit. -/
theorem holdAndUnholdSetAndClearTheFlag : Obligations.HoldAndUnholdSetAndClearTheFlag := by
  unfold Obligations.HoldAndUnholdSetAndClearTheFlag
  refine fun p bytes s hears => ⟨?_, ?_⟩
  · have taken := takeHold_taken p bytes s
    exact ⟨_, exec_frame_taken (c := .hold p bytes) rfl hears rfl, taken.only, taken.port⟩
  · have taken := takeUnhold_taken p bytes s
    exact ⟨_, exec_frame_taken (c := .unhold p bytes) rfl hears rfl, taken.only, taken.port⟩

end Sys2Proof.Machine
end

section
namespace Sys2Proof.Machine

/-! ### What a descriptor is read from (R186) -/

theorem kind_iffs {k : Kind} {w : Nat} (h : w = k.code.toNat) :
    (k = .read ↔ w = 0) ∧ (k = .program ↔ w = 1) ∧ (k = .erase ↔ w = 2) ∧ (k = .status ↔ w = 3) := by
  subst h; cases k <;> decide

theorem slotCode_some (k : SlotIx) : (slotCode (some k)).toNat = k.val := ofNat8_toNat (by omega)

theorem slot_iffs {slot : Option SlotIx} {w : Nat} (h : w = (slotCode slot).toNat) :
    (slot = none ↔ w = 7) ∧ ∀ k, slot = some k ↔ w = k.val := by
  subst h
  cases slot with
  | none => exact ⟨iff_of_true rfl rfl, fun k => iff_of_false nofun (Nat.ne_of_gt (Nat.lt_trans k.isLt (by decide)))⟩
  | some i =>
    rw [slotCode_some]
    exact ⟨iff_of_false nofun (by omega), fun k => by rw [Option.some.injEq, Fin.ext_iff]⟩

/-- Every code below 4 is one of a kind. -/
theorem kind_ofCode_some {c : BitVec 3} : c.toNat < 4 → ∃ k, Kind.ofCode c = some k ∧ k.code.toNat = c.toNat := by
  revert c; decide

theorem kind_ofCode_none {c : BitVec 3} : 4 ≤ c.toNat → Kind.ofCode c = none := by
  revert c; decide

theorem slotOfCode_some {c : BitVec 3} : c.toNat < 4 ∨ c.toNat = 7 →
    ∃ slot, slotOfCode c = some slot ∧ (slotCode slot).toNat = c.toNat := by
  revert c; decide

theorem slotOfCode_none {c : BitVec 3} : 4 ≤ c.toNat ∧ c.toNat ≤ 6 → slotOfCode c = none := by
  revert c; decide

/-- The bytes of a SUBMIT frame after its code spell the descriptor, field by field (R186). -/
structure Request.Spelled (r : Request) (w : List Byte) : Prop where
  tag : r.tag = byteAt w 0
  kind : (byteAt w 1).toNat % 8 = r.kind.code.toNat
  urgent : r.urgent = true ↔ (byteAt w 1).toNat / 8 % 2 = 1
  fence : r.fence = true ↔ (byteAt w 1).toNat / 16 % 2 = 1
  slot : (byteAt w 1).toNat / 32 = (slotCode r.slot).toNat
  address : r.address.toNat = 16777216 * (byteAt w 2).toNat + 65536 * (byteAt w 3).toNat + 256 * (byteAt w 4).toNat +
    (byteAt w 5).toNat
  length : r.length.toNat = 256 * (byteAt w 6).toNat + (byteAt w 7).toNat

/-- The codes of a descriptor are ones that R186 assigns. -/
def RequestCoded (w : List Byte) : Prop :=
  (byteAt w 1).toNat % 8 < 4 ∧ ((byteAt w 1).toNat / 32 < 4 ∨ (byteAt w 1).toNat / 32 = 7)

theorem flags_kind (w : List Byte) : ((byteAt w 1).extractLsb' 0 3).toNat = (byteAt w 1).toNat % 8 := low_toNat _ 3

theorem flags_slot (w : List Byte) : ((byteAt w 1).extractLsb' 5 3).toNat = (byteAt w 1).toNat / 32 := by
  have := (byteAt w 1).isLt
  rw [field_toNat]
  omega

/-- With its codes assigned, a frame spells one descriptor, which is read where its kind, slot and length agree. -/
theorem request_ofBytes_coded {w : List Byte} (coded : RequestCoded w) : ∃ r : Request, r.Spelled w ∧
    Request.ofBytes w = if Request.shapeOk r.kind r.slot r.length.toNat then some r else none := by
  obtain ⟨hk, hs⟩ := coded
  rw [← flags_kind] at hk
  rw [← flags_slot] at hs
  obtain ⟨kind, readKind, kindCode⟩ := kind_ofCode_some hk
  obtain ⟨slot, readSlot, code⟩ := slotOfCode_some hs
  refine ⟨{ tag := byteAt w 0, kind, urgent := (byteAt w 1).getLsbD 3, fence := (byteAt w 1).getLsbD 4, slot,
            address := word32At w 2, length := word16At w 6 }, ?_, ?_⟩
  · exact {
      tag := rfl
      kind := by rw [kindCode, flags_kind]
      urgent := bit_iff _ 3
      fence := bit_iff _ 4
      slot := by rw [code, flags_slot]
      address := word32At_toNat w 2
      length := word16At_toNat w 6 }
  · simp only [Request.ofBytes, readKind, readSlot]

theorem request_ofBytes_uncoded {w : List Byte} (h : ¬ RequestCoded w) : Request.ofBytes w = none := by
  rw [RequestCoded, ← flags_kind, ← flags_slot] at h
  have := ((byteAt w 1).extractLsb' 5 3).isLt
  unfold Request.ofBytes
  by_cases kind : 4 ≤ ((byteAt w 1).extractLsb' 0 3).toNat
  · simp only [kind_ofCode_none kind]
  · simp only [slotOfCode_none (c := (byteAt w 1).extractLsb' 5 3) (by omega)]
    cases Kind.ofCode ((byteAt w 1).extractLsb' 0 3) <;> rfl

/-- What is read is spelled by the bytes. -/
theorem request_ofBytes_spelled {w : List Byte} {r : Request} (h : Request.ofBytes w = some r) : r.Spelled w := by
  by_cases coded : RequestCoded w
  · obtain ⟨q, spelled, read⟩ := request_ofBytes_coded coded
    rw [read, Option.ite_none_right_eq_some] at h
    obtain ⟨_, e⟩ := h
    cases e
    exact spelled
  · rw [request_ofBytes_uncoded coded] at h
    cases h

/-- Which kinds, slots and lengths agree, in the numbers of their codes (R38, R153 check 3). -/
theorem shapeOk_iff (kind : Kind) (slot : Option SlotIx) (n : Nat) : Request.shapeOk kind slot n = true ↔
    (kind.code.toNat ≤ 1 → 1 ≤ n ∧ n ≤ 256) ∧ (kind.code.toNat = 2 → 1 ≤ n ∧ n ≤ 16) ∧ (kind.code.toNat = 3 → n = 0) ∧
      (kind.code.toNat = 1 → (slotCode slot).toNat ≠ 7) ∧ (kind.code.toNat = 0 → (slotCode slot).toNat = 7 → n ≤ 4) ∧
      (2 ≤ kind.code.toNat → (slotCode slot).toNat = 7) := by
  have absent : slot = none ↔ (slotCode slot).toNat = 7 := (slot_iffs rfl).1
  simp only [ne_eq, ← absent]
  cases kind with
  | read => simp [Request.shapeOk, Kind.code, Option.isSome_iff_ne_none, or_iff_not_imp_left]
  | program => simp [Request.shapeOk, Kind.code, Option.isSome_iff_ne_none]
  | erase | status => simp [Request.shapeOk, Kind.code]

/-- The field errors of SUBMIT, in numbers of the bytes (R153 check 3, R186). -/
theorem request_ofBytes_none (w : List Byte) :
    let kind := (byteAt w 1).toNat % 8
    let slot := (byteAt w 1).toNat / 32
    let length := 256 * (byteAt w 6).toNat + (byteAt w 7).toNat
    Request.ofBytes w = none ↔
      (4 ≤ kind ∨ (4 ≤ slot ∧ slot ≤ 6) ∨ (kind ≤ 1 ∧ ¬(1 ≤ length ∧ length ≤ 256)) ∨
        (kind = 2 ∧ ¬(1 ≤ length ∧ length ≤ 16)) ∨ (kind = 3 ∧ length ≠ 0) ∨ (kind = 1 ∧ slot = 7) ∨
        (kind = 0 ∧ slot = 7 ∧ 4 < length) ∨ ((kind = 2 ∨ kind = 3) ∧ slot ≤ 3)) := by
  intro kind slot length
  have slotBound : slot < 8 := by have := (byteAt w 1).isLt; omega
  by_cases coded : RequestCoded w
  · obtain ⟨r, spelled, read⟩ := request_ofBytes_coded coded
    have refused : Request.ofBytes w = none ↔ ¬ Request.shapeOk r.kind r.slot r.length.toNat = true := by
      rw [read, ite_eq_right_iff]
      simp only [reduceCtorEq, imp_false]
    obtain ⟨kindCoded, slotCoded⟩ : kind < 4 ∧ (slot < 4 ∨ slot = 7) := coded
    rw [refused, shapeOk_iff, ← spelled.kind, ← spelled.slot, spelled.length]
    change ¬((kind ≤ 1 → 1 ≤ length ∧ length ≤ 256) ∧ (kind = 2 → 1 ≤ length ∧ length ≤ 16) ∧ (kind = 3 → length = 0) ∧
      (kind = 1 → slot ≠ 7) ∧ (kind = 0 → slot = 7 → length ≤ 4) ∧ (2 ≤ kind → slot = 7)) ↔ _
    clear_value kind slot length
    omega
  · have unassigned : ¬(kind < 4 ∧ (slot < 4 ∨ slot = 7)) := coded
    rw [request_ofBytes_uncoded coded]
    simp only [true_iff]
    clear_value kind slot length
    omega

/-- Settles O11: the field errors are those of the bytes that spell no acceptable descriptor, and the bytes spell the one read. -/
theorem submitFieldErrors : Obligations.SubmitFieldErrors := by
  unfold Obligations.SubmitFieldErrors
  refine fun bytes => ⟨request_ofBytes_none bytes, fun r h => ?_⟩
  have spelled := request_ofBytes_spelled h
  obtain ⟨read, program, erase, status⟩ := kind_iffs spelled.kind
  obtain ⟨absent, present⟩ := slot_iffs spelled.slot
  exact ⟨spelled.tag, read, program, erase, status, spelled.urgent, spelled.fence, absent, present, spelled.address,
    spelled.length⟩

end Sys2Proof.Machine
end

section
namespace Sys2Proof.Machine

/-! ### Frames that answer and change their own port -/

/-- A change of a Port Unit that leaves at most the capture of its link to differ. -/
def LinkStays (f : PortUnit → PortUnit) : Prop := ∀ u, (f u).link = { u.link with captured := (f u).link.captured }

/-- A frame of port `p` that answers, closed with `result` after SDO carried `sdo`; the port's unit is `u` but for that (R181,
R182). -/
structure ReplyFrameTaken (p : Port) (result : Result) (u : PortUnit) (sdo : List Byte) (s t : State) : Prop
    extends PortFrameTaken p result u s t where
  link : (t.port p).link = (s.port p).linkReleased sdo

/-- The close of a frame, after an effect on its own Port Unit. -/
theorem closeFrame_taken {s : State} {p : Port} {result : Result} {request n : Nat} {reply : List Byte}
    {f : PortUnit → PortUnit} (blind : LinkBlind f) (stays : LinkStays f) (hi : (s.port p).link.ignoring = false) :
    ReplyFrameTaken p result (f (s.port p)) ((s.port p).carries request reply n) s
      ((s.setPort p (f (s.port p).opened)).closeFrame p result request n reply) := by
  rw [closeFrame_setPort]
  refine ⟨⟨onlyPort_setPort _ _ _, ?_⟩, ?_⟩
  · rw [port_setPort_same, opened_eq, blind]
    rfl
  · rw [port_setPort_same, rise_link, stays]
    exact rise_linkReleased _ result _ _ _ hi

section

variable {s : State} {p : Port} {request need : Nat} {bytes : List Byte} {mine : Captured → Bool} {grab : State → Captured}
  {act : State → Captured → State × Result} {now shown : Captured} (hi : (s.port p).link.ignoring = false)
  (request_le : request ≤ bytes.length + 1) (hg : grab (s.inFrame p) = now)
  (hf : (s.port p).link.inForce mine now = shown)
include hi request_le hg hf

/-- The release of a frame that answers, clocked whole, whose effect is one on its own Port Unit (R181). -/
theorem replyFrame_port {f : PortUnit → PortUnit} {result : Result} (blind : LinkBlind f) (stays : LinkStays f)
    (hn : need ≤ bytes.length + 1) (ha : act (s.inFrame p) shown = (s.setPort p (f (s.port p).opened), result)) :
    ReplyFrameTaken p result (f (s.port p)) ((s.port p).carries request shown.reply bytes.length) s
      (s.replyFrame p request need bytes mine grab act) := by
  subst hg hf
  rw [replyFrame_eq _ _ _ _ _ _ _ _ request_le]
  dsimp only
  rw [if_neg (Nat.not_lt.2 hn)]
  exact ha ▸ closeFrame_taken blind stays hi

/-- One that ends early: FRAMING, and no effect (R181). -/
theorem replyFrame_short (hn : bytes.length + 1 < need) :
    ReplyFrameTaken p .framing (s.port p) ((s.port p).carries request shown.reply bytes.length) s
      (s.replyFrame p request need bytes mine grab act) := by
  subst hg hf
  rw [replyFrame_eq _ _ _ _ _ _ _ _ request_le]
  dsimp only
  rw [if_pos hn]
  exact closeFrame_taken (f := id) (fun _ _ => rfl) (fun _ => rfl) hi

end

/-! ### COLLECT -/

theorem isCollect_iff (c : Captured) : c.isCollect = true ↔ ∃ r, c = .collect r := by
  cases c <;> simp [Captured.isCollect]

/-- Opening the frame does not change what COLLECT captures. -/
theorem grabCollect_inFrame (s : State) (p : Port) : grabCollect p (s.inFrame p) = .collect (s.port p).queue.head? := by
  rw [grabCollect, inFrame_port, opened_queue]

/-- What the collection of the front record makes of a Port Unit: ERROR and COMPLETE are judged on the records left, and SPACE
last (R159, R171 to R173). -/
theorem collectFront_rest (u : PortUnit) (r : Completion) : u.collectFront r = { u with
    queue := u.queue.tail
    tags := u.tags.filter (fun x => x != r.tag)
    credits := u.credits - 1
    pending := { u.pending with
      error := u.queue.tail.any (fun x => decide (x.outcome ≠ .done))
      complete := decide (u.watermark ≤ u.queue.tail.length)
      space := (u.collectFront r).pending.space }
    armed := (u.collectFront r).armed
    link := (u.collectFront r).link } := judgeSpace_rest _

theorem collectFront_raises {u : PortUnit} {r : Completion}
    (room : u.armed = true ∧ u.ring.length ≤ 6 ∧ u.credits - 1 ≤ 14) :
    (u.collectFront r).pending.space = true ∧ (u.collectFront r).armed = false := by
  rw [PortUnit.collectFront, judgeSpace_raises _ room]
  exact ⟨rfl, rfl⟩

theorem collectFront_waits {u : PortUnit} {r : Completion}
    (full : ¬(u.armed = true ∧ u.ring.length ≤ 6 ∧ u.credits - 1 ≤ 14)) :
    (u.collectFront r).pending.space = u.pending.space ∧ (u.collectFront r).armed = u.armed := by
  rw [PortUnit.collectFront, judgeSpace_waits _ full]
  exact ⟨rfl, rfl⟩

/-- The link has no part in whether SPACE is raised. -/
theorem linkBlind_judgeSpace : LinkBlind PortUnit.judgeSpace := by
  intro u l
  by_cases room : u.armed = true ∧ u.ring.length ≤ 6 ∧ u.credits ≤ 14
  · rw [judgeSpace_raises { u with link := l } room, judgeSpace_raises u room]
    rfl
  · rw [judgeSpace_waits { u with link := l } room, judgeSpace_waits u room]

theorem linkBlind_collectFront (r : Completion) : LinkBlind (·.collectFront r) := fun u l =>
  linkBlind_judgeSpace (PortUnit.judge
    { u with queue := u.queue.tail, tags := u.tags.filter (fun x => x != r.tag), credits := u.credits - 1 }) l

/-- Of the link, a raise of SPACE touches the capture alone (R176). -/
theorem linkStays_judgeSpace : LinkStays PortUnit.judgeSpace := by
  intro u
  unfold PortUnit.judgeSpace
  split <;> rfl

theorem linkStays_collectFront (r : Completion) : LinkStays (·.collectFront r) := fun _ => linkStays_judgeSpace _

theorem takeCollect_release (p : Port) (bytes : List Byte) (s : State) : takeCollect p .release bytes s =
    s.replyFrame p 1 17 bytes Captured.isCollect (grabCollect p) (fun s c => s.endCollect p c) := rfl

section

variable {p : Port} {bytes : List Byte} {s : State} {c : Option Completion} (hi : (s.port p).link.ignoring = false)
  (hc : (s.port p).link.inForce Captured.isCollect (.collect (s.port p).queue.head?) = .collect c)
include hi hc

theorem takeCollect_short (h : bytes.length < 16) :
    ReplyFrameTaken p .framing (s.port p) ((s.port p).carries 1 (collectReply c) bytes.length) s
      (takeCollect p .release bytes s) := by
  rw [takeCollect_release]
  exact replyFrame_short hi (Nat.le_add_left 1 _) (grabCollect_inFrame s p) hc (by omega)

theorem takeCollect_empty (h : 16 ≤ bytes.length) (empty : c = none) :
    ReplyFrameTaken p .ok (s.port p) ((s.port p).carries 1 (collectReply c) bytes.length) s (takeCollect p .release bytes s) := by
  rw [takeCollect_release]
  exact replyFrame_port (f := id) hi (Nat.le_add_left 1 _) (grabCollect_inFrame s p) hc (fun _ _ => rfl) (fun _ => rfl)
    (by omega) (by rw [empty]; rfl)

theorem takeCollect_record (h : 16 ≤ bytes.length) {r : Completion} (record : c = some r) :
    ReplyFrameTaken p .ok ((s.port p).collectFront r) ((s.port p).carries 1 (collectReply c) bytes.length) s
      (takeCollect p .release bytes s) := by
  rw [takeCollect_release]
  refine replyFrame_port hi (Nat.le_add_left 1 _) (grabCollect_inFrame s p) hc (linkBlind_collectFront r)
    (linkStays_collectFront r) (by omega) ?_
  rw [record]
  exact congrArg (·, Result.ok) (inFrame_modPort s p _)

theorem takeCollect_taken : ∃ result u,
    ReplyFrameTaken p result u ((s.port p).carries 1 (collectReply c) bytes.length) s (takeCollect p .release bytes s) := by
  rcases Nat.lt_or_ge bytes.length 16 with short | whole
  · exact ⟨_, _, takeCollect_short hi hc short⟩
  · cases c with
    | none => exact ⟨_, _, takeCollect_empty hi hc whole rfl⟩
    | some r => exact ⟨_, _, takeCollect_record hi hc whole rfl⟩

end

/-- Settles O14. The capture is that of every frame that answers; the release by its length and by what was captured, of which
only a record changes more of the Port Unit than its result and link. -/
theorem collectTakesTheFrontRecord : Obligations.CollectTakesTheFrontRecord := by
  unfold Obligations.CollectTakesTheFrontRecord
  refine ⟨isCollect_iff, fun _ => rfl, fun p bytes s hears => ?_⟩
  have hi := hears_ignoring hears
  refine ⟨⟨_, exec_frame_taken (c := .collect p .capture bytes) rfl hears rfl,
    captureFrame_holds (bytes := bytes) hi (Nat.le_add_left 1 _) (grabCollect_inFrame s p)⟩, fun c hc => ?_⟩
  obtain ⟨_, _, taken⟩ := takeCollect_taken (bytes := bytes) hi hc
  refine ⟨takeCollect p .release bytes s, exec_frame_taken (c := .collect p .release bytes) rfl hears rfl, taken.only,
    taken.link, fun short => (takeCollect_short hi hc short).port,
    fun whole empty => (takeCollect_empty hi hc whole empty).port, fun whole r record => ?_⟩
  have port := (takeCollect_record hi hc whole record).port
  have rest := collectFront_rest (s.port p) r
  have pending : ((takeCollect p .release bytes s).port p).pending = ((s.port p).collectFront r).pending :=
    congrArg (·.pending) port
  have armed : ((takeCollect p .release bytes s).port p).armed = ((s.port p).collectFront r).armed := congrArg (·.armed) port
  rw [pending, armed]
  exact ⟨by rw [port, rest], congrArg (·.pending.error) rest, congrArg (·.pending.complete) rest,
    congrArg (·.pending.fault) rest, congrArg (·.pending.policy) rest, collectFront_raises, collectFront_waits⟩

end Sys2Proof.Machine
end

section
namespace Sys2Proof.Machine

/-! ### ERROR and COMPLETE (R171, R172) -/

/-- ERROR and COMPLETE of a port are pending exactly while their conditions hold. -/
def PortUnit.Judged (u : PortUnit) : Prop := u.pending.error = u.errorHolds ∧ u.pending.complete = u.completeHolds

theorem causesJudged_iff (s : State) : CausesJudged s ↔ ∀ p, (s.port p).Judged := Iff.rfl

theorem judged_judge (u : PortUnit) : u.judge.Judged := ⟨rfl, rfl⟩

/-- The causes that a report clears are neither ERROR nor COMPLETE (R176). -/
theorem judged_put {u : PortUnit} {c : Cause} (judged : u.Judged) (hc : c.reportCleared = true) (on : Bool) :
    PortUnit.Judged { u with pending := u.pending.put c on } := by
  cases c with
  | fault | space | policy => exact judged
  | error | complete => cases hc

theorem judged_judgeSpace {u : PortUnit} (judged : u.Judged) : u.judgeSpace.Judged := by
  rw [judgeSpace_rest]
  exact judged

/-- A slot has no part in the conditions. -/
theorem judged_modSlot? {u : PortUnit} (judged : u.Judged) (slot : Option SlotIx) (f : Slot → Slot) :
    (u.modSlot? slot f).Judged := by
  rw [modSlot?_eq]
  exact judged

/-- Queue and watermark change only where the conditions are judged again, or where a reset makes them false. -/
theorem portMove_judged {u v : PortUnit} (h : PortMove u v) (judged : u.Judged) : v.Judged := by
  cases h with
  | post | enable => exact judged_judge _
  | collect => exact judged_judgeSpace (judged_judge _)
  | drop slot => exact judged_judgeSpace (judged_modSlot? judged slot _)
  | space => exact judged_judgeSpace judged
  | raise c hc | clear c hc => exact judged_put judged hc _
  | arm => exact judged_put (c := .space) judged rfl false
  | accept r => exact judged_modSlot? judged r.slot _
  | store slot => exact judged_modSlot? judged slot _
  | cutLoose | device => exact ⟨rfl, rfl⟩
  | link | result | hold | shorten | load | free => exact judged

/-- Settles O59, by the moves of the Port Units. -/
theorem stepsKeepCausesJudged : Obligations.StepsKeepCausesJudged := by
  unfold Obligations.StepsKeepCausesJudged
  intro s t judged h
  rw [causesJudged_iff] at judged ⊢
  exact step_keeps_ports (fun _ _ => portMove_judged) h judged

end Sys2Proof.Machine
end

section
namespace Sys2Proof.Machine

/-! ### CAUSE ENABLE -/

/-- The enable set that the five lowest bits of a byte name (R185). -/
def CauseSet.ofBits (b : Byte) : CauseSet :=
  { fault := b.getLsbD 0, error := b.getLsbD 1, complete := b.getLsbD 2, space := b.getLsbD 3, policy := b.getLsbD 4 }

/-- A byte names causes alone when its bits 7 to 5 are 0. -/
theorem causeSet_ofByte (b : Byte) : CauseSet.ofByte b = if b.toNat < 32 then some (.ofBits b) else none := by
  have high : b.extractLsb' 5 3 = 0 ↔ b.toNat < 32 := by
    rw [← BitVec.toNat_inj, field_toNat]
    change _ = 0 ↔ _
    omega
  simp only [CauseSet.ofByte, CauseSet.ofBits, high]

/-- The enable set and the watermark replaced, and the causes judged (R175). -/
def PortUnit.enabled (u : PortUnit) (enable : CauseSet) (watermark : Nat) : PortUnit :=
  PortUnit.judge { u with enable, watermark }

theorem linkBlind_enabled (enable : CauseSet) (watermark : Nat) : LinkBlind (·.enabled enable watermark) := fun _ _ => rfl

/-- ERROR does not depend on the watermark. -/
theorem PortUnit.Judged.enabled {u : PortUnit} (judged : u.Judged) (enable : CauseSet) (watermark : Nat) :
    u.enabled enable watermark = { u with
      enable, watermark, pending := { u.pending with complete := decide (watermark ≤ u.queue.length) } } := by
  obtain ⟨error, _⟩ := judged
  dsimp only
  rw [error]
  rfl

section

variable {p : Port} {bytes : List Byte} {s : State} (hn : 3 ≤ bytes.length + 1)
include hn

theorem takeCauseEnable_badField
    (h : 32 ≤ (byteAt bytes 0).toNat ∨ (byteAt bytes 1).toNat = 0 ∨ 16 < (byteAt bytes 1).toNat) :
    PortFrameTaken p .badField (s.port p) s (takeCauseEnable p bytes s) := by
  refine plainFrame_refused hn ?_
  dsimp only
  rw [causeSet_ofByte]
  by_cases named : (byteAt bytes 0).toNat < 32
  · have bounds : ¬(1 ≤ (byteAt bytes 1).toNat && (byteAt bytes 1).toNat ≤ 16) = true := by
      rw [Bool.and_eq_true, decide_eq_true_eq, decide_eq_true_eq]
      omega
    rw [if_pos named]
    exact if_neg bounds
  · rw [if_neg named]

theorem takeCauseEnable_ok (named : (byteAt bytes 0).toNat < 32) (low : 1 ≤ (byteAt bytes 1).toNat)
    (high : (byteAt bytes 1).toNat ≤ 16) :
    PortFrameTaken p .ok ((s.port p).enabled (.ofBits (byteAt bytes 0)) (byteAt bytes 1).toNat) s
      (takeCauseEnable p bytes s) := by
  refine plainFrame_port (linkBlind_enabled _ _) hn ?_
  have bounds : (1 ≤ (byteAt bytes 1).toNat && (byteAt bytes 1).toNat ≤ 16) = true := by
    rw [Bool.and_eq_true, decide_eq_true_eq, decide_eq_true_eq]
    exact ⟨low, high⟩
  dsimp only
  rw [causeSet_ofByte, if_pos named]
  exact (if_pos bounds).trans (congrArg (·, Result.ok) (inFrame_modPort s p _))

end

/-- Settles O21, by whether the bytes name a set and a watermark; judging again leaves ERROR as it was. -/
theorem causeEnableReplacesTheSet : Obligations.CauseEnableReplacesTheSet := by
  unfold Obligations.CauseEnableReplacesTheSet
  intro p bytes s judged hears hlen
  have hn : 3 ≤ bytes.length + 1 := Nat.succ_le_succ hlen
  have only : OnlyPort p s (takeCauseEnable p bytes s) := by
    by_cases h : 32 ≤ (byteAt bytes 0).toNat ∨ (byteAt bytes 1).toNat = 0 ∨ 16 < (byteAt bytes 1).toNat
    · exact (takeCauseEnable_badField hn h).only
    · exact (takeCauseEnable_ok hn (by omega) (by omega) (by omega)).only
  refine ⟨_, exec_frame_taken (c := .causeEnable p bytes) rfl hears rfl, only,
    fun h => (takeCauseEnable_badField hn h).port, fun named low high => ?_⟩
  have port := (takeCauseEnable_ok (p := p) (s := s) hn named low high).port
  rw [((causesJudged_iff s).1 judged p).enabled] at port
  exact port

end Sys2Proof.Machine
end

section
namespace Sys2Proof.Machine

/-! ### Cause sets (R168, R169) -/

theorem has_put (set : CauseSet) (c : Cause) (on : Bool) (d : Cause) :
    (set.put c on).has d = if d = c then on else set.has d := by
  cases c <;> cases d <;> rfl

/-! ### Raises (R169, R170) -/

/-- The capture of a CAUSE that reports the cause learns of the raise (R176). -/
theorem mark_reported (c : Cause) (again : Bool) : (Captured.cause (some c) again).mark c = .cause (some c) true := by
  rw [Captured.mark, decide_eq_true rfl, Bool.or_true]

theorem mark_unreported {c d : Cause} (h : d ≠ c) (again : Bool) :
    (Captured.cause (some d) again).mark c = .cause (some d) again := by
  rw [Captured.mark, decide_eq_false h, Bool.or_false]

/-- A capture that reports no cause learns nothing. -/
theorem mark_other {x : Captured} (c : Cause) (h : ∀ d again, x ≠ .cause (some d) again) : x.mark c = x := by
  unfold Captured.mark
  split
  · next d again => exact absurd rfl (h d again)
  · rfl

theorem raise_marks (u : PortUnit) (c : Cause) : (u.raise c).link.captured = u.link.captured.map (·.mark c) := rfl

theorem raise_captured_unreported {u : PortUnit} {c d : Cause} {again : Bool}
    (h : u.link.captured = some (.cause (some d) again)) (other : d ≠ c) :
    (u.raise c).link.captured = u.link.captured := by
  rw [raise_marks, h, Option.map_some, mark_unreported other]

theorem raise_captured_other {u : PortUnit} (c : Cause) (h : ∀ d again, u.link.captured ≠ some (.cause (some d) again)) :
    (u.raise c).link.captured = u.link.captured := by
  rw [raise_marks]
  cases hx : u.link.captured with
  | none => rfl
  | some x => exact congrArg some (mark_other c fun d again e => h d again (hx.trans (congrArg some e)))

/-! ### The highest cause (R176) -/

/-- A cause of the port is pending and enabled. -/
def PortUnit.Shows (u : PortUnit) (c : Cause) : Prop := u.pending.has c = true ∧ u.enable.has c = true

theorem mem_byPriority (c : Cause) : c ∈ Cause.byPriority := by cases c <;> decide

/-- The codes of the causes rise as their priority falls. -/
theorem byPriority_sorted :
    Cause.byPriority.Pairwise (fun c d => (causeCode (some c)).toNat < (causeCode (some d)).toNat) := by decide

theorem topCause_none (u : PortUnit) : u.topCause = none ↔ ∀ c, ¬ u.Shows c := by
  simp only [PortUnit.topCause, List.find?_eq_none, Bool.and_eq_true]
  exact ⟨fun h c => h c (mem_byPriority c), fun h c _ => h c⟩

theorem topCause_some (u : PortUnit) (c : Cause) : u.topCause = some c ↔
    u.Shows c ∧ ∀ d, (causeCode (some d)).toNat < (causeCode (some c)).toNat → ¬ u.Shows d := by
  have sorted := byPriority_sorted
  simp only [PortUnit.topCause, List.find?_eq_some_iff_append, Bool.not_eq_true', ← Bool.not_eq_true, Bool.and_eq_true]
  refine and_congr_right fun _ => ⟨?_, fun first => ?_⟩
  · rintro ⟨above, below, split, hidden⟩ d higher
    have place := mem_byPriority d
    rw [split] at sorted place
    obtain ⟨_, beneath, _⟩ := List.pairwise_append.1 sorted
    rcases List.mem_append.1 place with h | h
    · exact hidden d h
    rcases List.mem_cons.1 h with rfl | h
    · exact absurd higher (Nat.lt_irrefl _)
    · exact absurd higher (Nat.lt_asymm ((List.pairwise_cons.1 beneath).1 d h))
  · obtain ⟨above, below, split⟩ := List.append_of_mem (mem_byPriority c)
    rw [split] at sorted
    obtain ⟨_, _, order⟩ := List.pairwise_append.1 sorted
    exact ⟨above, below, split, fun d h => first d (order d h c List.mem_cons_self)⟩

/-! ### CAUSE -/

theorem isCause_iff (c : Captured) : c.isCause = true ↔ ∃ reported again, c = .cause reported again := by
  cases c <;> simp [Captured.isCause]

theorem opened_topCause (u : PortUnit) : u.opened.topCause = u.topCause := by
  rw [opened_eq]
  rfl

/-- Opening the frame does not change what CAUSE captures. -/
theorem grabCause_inFrame (s : State) (p : Port) : grabCause p (s.inFrame p) = .cause (s.port p).topCause false := by
  rw [grabCause, inFrame_port, opened_topCause]

/-- A cause leaves the pending set. -/
def PortUnit.cleared (u : PortUnit) (c : Cause) : PortUnit := { u with pending := u.pending.put c false }

/-- The report of FAULT, SPACE or POLICY clears it, unless it was raised after the capture (R176). -/
theorem endCause_clears (s : State) (p : Port) {c : Cause} (h : c = .fault ∨ c = .space ∨ c = .policy) :
    s.endCause p (.cause (some c) false) = (s.modPort p (·.cleared c), .ok) := by
  rcases h with rfl | rfl | rfl <;> rfl

theorem endCause_keeps (s : State) (p : Port) {c : Option Cause} {again : Bool}
    (h : c = none ∨ c = some .error ∨ c = some .complete ∨ again = true) : s.endCause p (.cause c again) = (s, .ok) := by
  rcases h with rfl | rfl | rfl | rfl
  · rfl
  · rfl
  · rfl
  · cases c with
    | none => rfl
    | some x => exact if_neg (by simp)

theorem takeCause_release (p : Port) (bytes : List Byte) (s : State) : takeCause p .release bytes s =
    s.replyFrame p 1 3 bytes Captured.isCause (grabCause p) (fun s c => s.endCause p c) := rfl

section

variable {p : Port} {bytes : List Byte} {s : State} {c : Option Cause} {again : Bool} (hi : (s.port p).link.ignoring = false)
  (hc : (s.port p).link.inForce Captured.isCause (.cause (s.port p).topCause false) = .cause c again)
include hi hc

theorem takeCause_short (h : bytes.length < 2) :
    ReplyFrameTaken p .framing (s.port p) ((s.port p).carries 1 [causeCode c] bytes.length) s
      (takeCause p .release bytes s) := by
  rw [takeCause_release]
  exact replyFrame_short hi (Nat.le_add_left 1 _) (grabCause_inFrame s p) hc (by omega)

theorem takeCause_keeps (h : 2 ≤ bytes.length) (keeps : c = none ∨ c = some .error ∨ c = some .complete ∨ again = true) :
    ReplyFrameTaken p .ok (s.port p) ((s.port p).carries 1 [causeCode c] bytes.length) s
      (takeCause p .release bytes s) := by
  rw [takeCause_release]
  exact replyFrame_port (f := id) hi (Nat.le_add_left 1 _) (grabCause_inFrame s p) hc (fun _ _ => rfl) (fun _ => rfl)
    (by omega) (endCause_keeps _ p keeps)

theorem takeCause_clears (h : 2 ≤ bytes.length) {x : Cause} (reported : c = some x)
    (clears : x = .fault ∨ x = .space ∨ x = .policy) (once : again = false) :
    ReplyFrameTaken p .ok ((s.port p).cleared x) ((s.port p).carries 1 [causeCode c] bytes.length) s
      (takeCause p .release bytes s) := by
  rw [takeCause_release]
  refine replyFrame_port (f := (·.cleared x)) hi (Nat.le_add_left 1 _) (grabCause_inFrame s p) hc (fun _ _ => rfl)
    (fun _ => rfl) (by omega) ?_
  rw [reported, once, endCause_clears _ p clears]
  exact congrArg (·, Result.ok) (inFrame_modPort s p _)

theorem takeCause_taken : ∃ result u,
    ReplyFrameTaken p result u ((s.port p).carries 1 [causeCode c] bytes.length) s (takeCause p .release bytes s) := by
  rcases Nat.lt_or_ge bytes.length 2 with short | whole
  · exact ⟨_, _, takeCause_short hi hc short⟩
  by_cases keeps : c = none ∨ c = some .error ∨ c = some .complete ∨ again = true
  · exact ⟨_, _, takeCause_keeps hi hc whole keeps⟩
  · obtain ⟨none', error, complete, once⟩ : c ≠ none ∧ c ≠ some .error ∧ c ≠ some .complete ∧ ¬again = true := by
      simpa only [not_or] using keeps
    obtain ⟨x, reported⟩ := Option.ne_none_iff_exists'.1 none'
    have clears : x = .fault ∨ x = .space ∨ x = .policy := by
      subst reported
      cases x with
      | fault => exact .inl rfl
      | space => exact .inr (.inl rfl)
      | policy => exact .inr (.inr rfl)
      | error => exact absurd rfl error
      | complete => exact absurd rfl complete
    exact ⟨_, _, takeCause_clears hi hc whole reported clears (Bool.eq_false_iff.2 once)⟩

end

/-- Settles O20. What is captured is the first shown cause of a list in the order of the codes (`topCause_some`); the release by
its length and by what was captured. -/
theorem causeReportsTheHighestCause : Obligations.CauseReportsTheHighestCause := by
  unfold Obligations.CauseReportsTheHighestCause
  refine ⟨⟨isCause_iff, rfl, rfl, rfl, rfl, rfl, rfl, fun set => ⟨⟨rfl, rfl, rfl, rfl, rfl⟩, has_put set⟩⟩,
    fun u c => ⟨rfl, fun d again => raise_captured_unreported, raise_captured_other c⟩,
    fun u c => ⟨topCause_some u c, topCause_none u⟩, fun u c again h => ⟨?_, ?_⟩, fun p bytes s hears => ?_⟩
  · rw [raise_marks, h, Option.map_some, mark_reported]
  · exact (has_put _ _ _ _).trans (if_pos rfl)
  have hi := hears_ignoring hears
  refine ⟨⟨_, exec_frame_taken (c := .cause p .capture bytes) rfl hears rfl,
    captureFrame_holds (bytes := bytes) hi (Nat.le_add_left 1 _) (grabCause_inFrame s p)⟩, fun c again hc => ?_⟩
  obtain ⟨_, _, taken⟩ := takeCause_taken (bytes := bytes) hi hc
  exact ⟨_, exec_frame_taken (c := .cause p .release bytes) rfl hears rfl, taken.only, taken.link,
    fun short => (takeCause_short hi hc short).port,
    fun whole x reported clears once => (takeCause_clears hi hc whole reported clears once).port,
    fun whole keeps => (takeCause_keeps hi hc whole keeps).port⟩

end Sys2Proof.Machine
end

section
namespace Sys2Proof.Machine

/-! ### Flags in a byte -/

theorem flagBit_getLsbD (flag : Bool) {k : Nat} (h : k < 8) (i : Nat) :
    (flagBit flag k).getLsbD i = (flag && decide (i = k)) := by
  cases flag with
  | false => exact BitVec.getLsbD_zero
  | true =>
    change ((1#8) <<< k).getLsbD i = _
    rw [BitVec.getLsbD_shiftLeft, BitVec.getLsbD_one, Bool.eq_iff_iff]
    simp only [Bool.and_eq_true, Bool.not_eq_true', decide_eq_true_eq, decide_eq_false_iff_not, Bool.true_and]
    omega

/-! ### ATTN# and the summary byte (R169, R179) -/

theorem attentionPending_iff (u : PortUnit) :
    u.attentionPending = true ↔ ∃ c, u.pending.has c = true ∧ u.enable.has c = true := by
  rw [PortUnit.attentionPending, Option.isSome_iff_ne_none, Ne, topCause_none, not_forall_not]
  rfl

theorem attn_iff (s : State) (p : Port) : s.attn p = true ↔
    s.resetLow = false ∧ ∃ c, (s.port p).pending.has c = true ∧ (s.port p).enable.has c = true := by
  rw [State.attn, Bool.and_eq_true, Bool.not_eq_true', attentionPending_iff]

/-- The flags of the summary byte. -/
theorem summaryByte_high (u : PortUnit) {i : Nat} (h : 4 ≤ i) : u.summaryByte.getLsbD i =
    ((u.attentionPending && decide (i = 7)) || (!u.queue.isEmpty && decide (i = 6)) || (u.submitRoom && decide (i = 5)) ||
      (u.hold && decide (i = 4))) := by
  have low : u.last.code.getLsbD i = false := BitVec.getLsbD_of_ge _ _ h
  simp only [PortUnit.summaryByte, BitVec.getLsbD_or, BitVec.getLsbD_setWidth, low, Bool.and_false, Bool.or_false,
    flagBit_getLsbD, Nat.reduceLT]

/-- Its low half: the result of the last frame. -/
theorem summaryByte_low (u : PortUnit) : u.summaryByte.toNat % 16 = u.last.code.toNat := by
  have field : u.summaryByte.extractLsb' 0 4 = u.last.code := by
    refine BitVec.eq_of_getLsbD_eq fun i hi => ?_
    have (k : Nat) (h : 4 ≤ k) : decide (i = k) = false := decide_eq_false (by omega)
    simp only [PortUnit.summaryByte, BitVec.getLsbD_extractLsb', BitVec.getLsbD_or, BitVec.getLsbD_setWidth, Nat.zero_add,
      flagBit_getLsbD, Nat.reduceLT, Nat.reduceLeDiff, this, hi, Nat.lt_trans hi, Bool.and_false, Bool.false_or,
      decide_true, Bool.true_and]
  rw [← field]
  exact (low_toNat u.summaryByte 4).symm

/-! ### The bits of a frame (R178) -/

theorem byteOfBits_bit (b7 b6 b5 b4 b3 b2 b1 b0 : Bool) (rest : List Bool) {i : Nat} (h : i < 8) :
    (byteOfBits b7 b6 b5 b4 b3 b2 b1 b0).getLsbD (7 - i) =
      (b7 :: b6 :: b5 :: b4 :: b3 :: b2 :: b1 :: b0 :: rest).getD i false := by
  have bit := BitVec.getMsbD_ofBoolListBE (bs := [b7, b6, b5, b4, b3, b2, b1, b0]) (i := i)
  have within : decide (i < [b7, b6, b5, b4, b3, b2, b1, b0].length) = true := decide_eq_true h
  rw [BitVec.getMsbD_eq_getLsbD, within, Bool.true_and] at bit
  exact bit.trans (List.getD_append _ rest _ _ h).symm

theorem completeBytes_length : ∀ bits : List Bool, (completeBytes bits).length = bits.length / 8
  | _ :: _ :: _ :: _ :: _ :: _ :: _ :: _ :: rest => by
    rw [completeBytes, List.length_cons, completeBytes_length rest]
    exact (Nat.add_div_right rest.length (by decide)).symm
  | [] | [_] | [_, _] | [_, _, _] | [_, _, _, _] | [_, _, _, _, _] | [_, _, _, _, _, _] | [_, _, _, _, _, _, _] => by
    simp [completeBytes]

theorem completeBytes_bit : ∀ (bits : List Bool) (n i : Nat), n < bits.length / 8 → i < 8 →
    (byteAt (completeBytes bits) n).getLsbD (7 - i) = bits.getD (8 * n + i) false
  | b7 :: b6 :: b5 :: b4 :: b3 :: b2 :: b1 :: b0 :: rest, 0, i, _, hi => by
    rw [Nat.mul_zero, Nat.zero_add]
    exact byteOfBits_bit b7 b6 b5 b4 b3 b2 b1 b0 rest hi
  | _ :: _ :: _ :: _ :: _ :: _ :: _ :: _ :: rest, n + 1, i, hn, hi => by
    have shorter : n < rest.length / 8 := by
      simp only [List.length_cons] at hn
      omega
    have place : 8 * (n + 1) + i = 8 * n + i + 8 := by omega
    rw [place]
    exact completeBytes_bit rest n i shorter hi
  | [], _, _, hn, _ | [_], _, _, hn, _ | [_, _], _, _, hn, _ | [_, _, _], _, _, hn, _ | [_, _, _, _], _, _, hn, _
  | [_, _, _, _, _], _, _, hn, _ | [_, _, _, _, _, _], _, _, hn, _ | [_, _, _, _, _, _, _], _, _, hn, _ =>
    absurd hn (by simp)

/-! ### The upstream SDO pin (R178, R179, R182) -/

theorem requestBytes_eq (c : Captured) : c.requestBytes = (match c with
    | .fetch _ _ | .readEntry _ _ => 3
    | .readTarget _ _ => 2
    | .collect _ | .cause _ _ | .summary _ => 1) := by cases c <;> rfl

theorem captured_reply (c : Captured) : c.reply = (match c with
    | .fetch _ reply | .readEntry _ reply | .readTarget _ reply | .summary reply => reply
    | .collect record => collectReply record
    | .cause reported _ => [causeCode reported]) := by cases c <;> rfl

section

variable {l : Link} {c : Captured} {n : Nat}

theorem byteOut_unanswered (none' : l.captured = none) (h : 0 < n) : l.byteOut n = 0 := by
  rw [Link.byteOut, if_neg (by omega), none']

theorem byteOut_request (held : l.captured = some c) (h : 0 < n) (request : n ≤ c.requestBytes) : l.byteOut n = 0 := by
  rw [Link.byteOut, if_neg (by omega), held]
  exact if_pos request

theorem byteOut_reply (held : l.captured = some c) : l.byteOut (c.requestBytes + 1 + n) = byteAt c.reply n := by
  rw [Link.byteOut, if_neg (by omega), held]
  have place : c.requestBytes + 1 + n - c.requestBytes - 1 = n := by omega
  exact (if_neg (by omega)).trans (by rw [place])

end

section

variable {s : State} {p : Port}

theorem upstreamSdo_closed (h : (s.port p).link.isOpen = false) (edges : Nat) : s.upstreamSdo p edges = none := by
  rw [State.upstreamSdo, h, Bool.not_false, Bool.or_true, if_pos rfl]

/-- An open frame drives one byte after another, each from its most significant bit down. -/
theorem upstreamSdo_open (h : (s.port p).link.isOpen = true) (hears : s.hears p) {n i : Nat} (hi : i < 8) :
    s.upstreamSdo p (8 * n + i) = some (((s.port p).link.byteOut n).getLsbD (7 - i)) := by
  obtain ⟨deaf, waits, _⟩ := hears
  have byte : (8 * n + i) / 8 = n := by omega
  have bit : (8 * n + i) % 8 = i := by omega
  rw [State.upstreamSdo, h, deaf, waits, byte, bit]
  rfl

/-- A byte 0x00 keeps SDO low. -/
theorem upstreamSdo_low (h : (s.port p).link.isOpen = true) (hears : s.hears p) {edges : Nat}
    (zero : (s.port p).link.byteOut (edges / 8) = 0) : s.upstreamSdo p edges = some false := by
  have shown := upstreamSdo_open h hears (n := edges / 8) (i := edges % 8) (by omega)
  rw [Nat.div_add_mod, zero] at shown
  exact shown.trans (congrArg some BitVec.getLsbD_zero)

end

end Sys2Proof.Machine
end

section
namespace Sys2Proof.Machine

/-! ### The frame that the first byte picks (R180) -/

theorem mem_frameCodes (code : Byte) : code ∈ frameCodes ↔ code.toNat ∈ [0x10, 0x11, 0x12, 0x13, 0x20, 0x21, 0x22, 0x30,
    0x31, 0x32, 0x33, 0x3F, 0x40, 0x41, 0x50, 0x51, 0x52, 0x58, 0x59, 0x5A, 0x5C, 0x5D] :=
  (List.mem_map_of_injective (fun _ _ => BitVec.eq_of_toNat_eq)).symm

theorem frameOfCode_absent {code : Byte} (h : code ∉ frameCodes) (p : Port) (w : List Byte) :
    frameOfCode p code w = .badcode p code w := by
  rw [mem_frameCodes] at h
  unfold frameOfCode
  split
  case h_23 => rfl
  all_goals
    next is => exact absurd (by rw [is]; decide) h

theorem portOfFrame_frameOfBytes (p : Port) (w : List Byte) : portOfFrame (frameOfBytes p w) = some p := by
  cases w with
  | nil => rfl
  | cons code w =>
    rw [frameOfBytes, frameOfCode]
    split <;> rfl

/-! ### The capture at the last request byte (R182) -/

/-- A capture falls due after so many bytes of the frame of this code, the code not counted. -/
def captureAt (code : Byte) : Option Nat :=
  if code = 0x21 ∨ code = 0x40 then some 2
  else if code = 0x41 then some 1
  else if code = 0x30 ∨ code = 0x31 ∨ code = 0x33 then some 0
  else none

theorem captureAt_eq_some (code : Byte) (n : Nat) : captureAt code = some n ↔
    ((code = 0x21 ∨ code = 0x40) ∧ n = 2) ∨ (code = 0x41 ∧ n = 1) ∨
      ((code = 0x30 ∨ code = 0x31 ∨ code = 0x33) ∧ n = 0) := by
  constructor
  · intro h
    unfold captureAt at h
    split at h
    · next two => exact .inl ⟨two, (Option.some.inj h).symm⟩
    split at h
    · next one => exact .inr (.inl ⟨one, (Option.some.inj h).symm⟩)
    split at h
    · next zero => exact .inr (.inr ⟨zero, (Option.some.inj h).symm⟩)
    · cases h
  · rintro (⟨rfl | rfl, rfl⟩ | ⟨rfl, rfl⟩ | ⟨rfl | rfl | rfl, rfl⟩)
    all_goals rfl

theorem captureOfBytes_due (p : Port) (code : Byte) (w : List Byte) :
    captureOfBytes p (code :: w) ≠ none ↔ captureAt code = some w.length := by
  rw [captureOfBytes]
  split
  case h_7 fetch collect cause summary entry target =>
    refine iff_of_false (fun h => h rfl) fun due => ?_
    rcases (captureAt_eq_some code _).1 due with ⟨rfl | rfl, len⟩ | ⟨rfl, len⟩ | ⟨rfl | rfl | rfl, len⟩
    · exact fetch rfl len
    · exact entry rfl len
    · exact target rfl len
    · exact collect rfl len
    · exact cause rfl len
    · exact summary rfl len
  all_goals
    next is len =>
      refine iff_of_true (Option.some_ne_none _) ?_
      rw [len, captureAt_eq_some]
      simp only [← BitVec.toNat_inj, is]
      decide

theorem portOfFrame_captureOfBytes {p : Port} {w : List Byte} {c : Instr} (h : captureOfBytes p w = some c) :
    portOfFrame c = some p := by
  cases w with
  | nil => cases h
  | cons code w =>
    rw [captureOfBytes] at h
    split at h <;> cases h <;> rfl

/-- Of the beginnings of one frame, at most one has a length at which its capture falls due. -/
theorem captureOfBytes_once {p : Port} {w : List Byte} {m n : Nat} (hm : m ≤ w.length) (hn : n ≤ w.length)
    (due : captureOfBytes p (w.take m) ≠ none) (too : captureOfBytes p (w.take n) ≠ none) : m = n := by
  cases w with
  | nil => exact (Nat.le_zero.1 hm).trans (Nat.le_zero.1 hn).symm
  | cons code w =>
    cases m with
    | zero => exact absurd rfl due
    | succ m =>
      cases n with
      | zero => exact absurd rfl too
      | succ n =>
        rw [List.take_succ_cons, captureOfBytes_due] at due too
        have same : (w.take m).length = (w.take n).length := Option.some.inj (due.symm.trans too)
        rw [List.length_take_of_le (Nat.le_of_succ_le_succ hm), List.length_take_of_le (Nat.le_of_succ_le_succ hn)] at same
        rw [same]

/-! ### A whole frame -/

theorem filterMap_range_single {α : Type} {f : Nat → Option α} {a : α} {m k : Nat} (hm : m < k) (ha : f m = some a)
    (once : ∀ n < k, f n ≠ none → n = m) : (List.range k).filterMap f = [a] := by
  induction k with
  | zero => exact absurd hm (Nat.not_lt_zero m)
  | succ k ih =>
    rw [List.range_succ, List.filterMap_append]
    rcases Nat.lt_succ_iff_lt_or_eq.1 hm with earlier | rfl
    · have last : f k = none := not_not.1 fun h => absurd (once k (Nat.lt_succ_self k) h) (by omega)
      rw [ih earlier fun n hn => once n (by omega), List.filterMap_cons_none last]
      rfl
    · have before : (List.range m).filterMap f = [] := by
        refine List.filterMap_eq_nil_iff.2 fun n hn => not_not.1 fun h => ?_
        have := List.mem_range.1 hn
        exact absurd (once n (by omega) h) (by omega)
      rw [before, List.filterMap_cons_some ha]
      rfl

theorem frameOfBits_captured {p : Port} {bits : List Bool} {n : Nat} {c : Instr}
    (h : captureOfBytes p ((completeBytes bits).take n) = some c) :
    frameOfBits p bits = [.summaryByte p, c, frameOfBytes p (completeBytes bits)] := by
  unfold frameOfBits
  dsimp only
  generalize completeBytes bits = w at h ⊢
  rw [List.take_eq_take_min] at h
  rw [filterMap_range_single (m := min n w.length) (by omega) h]
  · rfl
  · intro k hk due
    exact captureOfBytes_once (by omega) (by omega) due (by rw [h]; exact Option.some_ne_none c)

theorem frameOfBits_uncaptured {p : Port} {bits : List Bool} (h : ∀ n, captureOfBytes p ((completeBytes bits).take n) = none) :
    frameOfBits p bits = [.summaryByte p, frameOfBytes p (completeBytes bits)] := by
  unfold frameOfBits
  dsimp only
  rw [List.filterMap_eq_nil_iff.2 fun n _ => h n]
  rfl

/-! ### The commands of the link (R178 to R180) -/

section

variable {p : Port} {s : State}

/-- The fall finds everything taken that stood ready, and ends the ignoring of an assertion (R178, R179). -/
theorem exec_summaryByte_fall (high : s.resetLow = false) (waits : s.frameWaits p = false) (ready : s.stands = false) :
    exec (.summaryByte p) s = .next (s.setPort p (s.port p).fall) := by
  change execSummaryByte p s = _
  rw [execSummaryByte, high, waits, settle_none ready]
  rfl

theorem takeBadcode_taken {code : Byte} (absent : code ∉ frameCodes) (hi : (s.port p).link.ignoring = false)
    (bytes : List Byte) :
    ReplyFrameTaken p .badCode (s.port p) ((s.port p).frameSummary :: List.replicate bytes.length 0) s
      (takeBadcode p code bytes s) := by
  rw [takeBadcode, if_neg (by rwa [List.contains_iff_mem]), ← sdoBytes_nil _ 1, sdoBytes_carries]
  exact closeFrame_taken (f := id) (fun _ _ => rfl) (fun _ => rfl) hi

end

end Sys2Proof.Machine
end

section
namespace Sys2Proof.Machine

/-! ### The link of a port, whole -/

/-- What SDO drives in an open frame, before and after its capture (R178, R179, R182). -/
theorem upstreamSdo_bits {s : State} {p : Port} (isOpen : (s.port p).link.isOpen = true) (hears : s.hears p) (edges : Nat) :
    (edges < 8 → s.upstreamSdo p edges = some ((s.port p).link.summary.getLsbD (7 - edges))) ∧
    (8 ≤ edges → (s.port p).link.captured = none → s.upstreamSdo p edges = some false) ∧
    ∀ c, (s.port p).link.captured = some c →
      (8 ≤ edges → edges < 8 * (c.requestBytes + 1) → s.upstreamSdo p edges = some false) ∧
      ∀ n i, i < 8 → s.upstreamSdo p (8 * (c.requestBytes + 1 + n) + i) = some ((byteAt c.reply n).getLsbD (7 - i)) := by
  refine ⟨fun early => ?_, fun late none' => ?_, fun c held => ⟨fun late request => ?_, fun n i hi => ?_⟩⟩
  · have first := upstreamSdo_open isOpen hears (n := 0) early
    rwa [Nat.mul_zero, Nat.zero_add] at first
  · exact upstreamSdo_low isOpen hears (byteOut_unanswered none' (by omega))
  · exact upstreamSdo_low isOpen hears (byteOut_request held (by omega) (by omega))
  · rw [upstreamSdo_open isOpen hears hi, byteOut_reply held]

/-- Settles O22: ATTN# and the summary byte from the causes shown, SDO byte by byte, the frame from its first byte and its one
capture, and the commands of the link. -/
theorem attentionTheSummaryByteAndTheLink : Obligations.AttentionTheSummaryByteAndTheLink := by
  unfold Obligations.AttentionTheSummaryByteAndTheLink
  refine ⟨⟨attn_iff, fun u => ⟨?_, ?_, ?_, ?_, ?_, summaryByte_low u⟩⟩,
    ⟨fun bits => ⟨completeBytes_length bits, completeBytes_bit bits⟩,
      fun s p edges => ⟨fun h => upstreamSdo_closed h edges, fun isOpen hears => ?_⟩⟩,
    ⟨fun p w => ?_, mem_frameCodes, fun p w => ⟨rfl, portOfFrame_frameOfBytes p w, fun c => portOfFrame_captureOfBytes⟩,
      fun p code w => ⟨rfl, ?_⟩, fun p bits => ⟨fun n c => frameOfBits_captured, frameOfBits_uncaptured⟩,
      fun p a b => ⟨rfl, rfl, rfl, rfl, rfl, rfl⟩⟩,
    fun p s high waits ready => ?_, fun p code bytes s hears absent => ?_, fun p s hears => ?_⟩
  · rw [summaryByte_high u (by decide), ← attentionPending_iff]
    simp
  · rw [summaryByte_high u (by decide)]
    simp
  · rw [summaryByte_high u (by decide), ← submitRoom_iff]
    simp
  · rw [summaryByte_high u (by decide)]
    simp
  · rw [summaryByte_low]
    cases u.last <;> rfl
  · obtain ⟨early, unanswered, answered⟩ := upstreamSdo_bits isOpen hears edges
    refine ⟨early, unanswered, fun c held => ?_⟩
    obtain ⟨request, reply⟩ := answered c held
    rw [requestBytes_eq] at request
    simp only [requestBytes_eq] at reply
    exact ⟨request, captured_reply c, reply⟩
  · exact ⟨rfl, rfl, rfl, rfl, rfl, rfl, rfl, rfl, rfl, rfl, rfl, rfl, rfl, rfl, rfl, rfl, rfl, rfl, rfl, rfl, rfl, rfl,
      fun code absent => frameOfCode_absent absent p w, rfl⟩
  · rw [captureOfBytes_due, captureAt_eq_some, List.length_eq_zero_iff]
  · refine ⟨_, exec_summaryByte_fall high waits ready, onlyPort_setPort _ _ _, ?_⟩
    rw [port_setPort_same]
    rfl
  · have taken := takeBadcode_taken absent (hears_ignoring hears) bytes
    refine ⟨_, exec_frame_taken (c := .badcode p code bytes) rfl hears rfl, taken.only, taken.port, ?_⟩
    exact congrArg Link.sdo taken.link
  · refine ⟨_, exec_frame_taken (c := .frameWithoutCode p) rfl hears rfl, onlyPort_setPort _ _ _, ?_⟩
    exact port_setPort_same _ _ _

end Sys2Proof.Machine
end

section
namespace Sys2Proof.Machine

/-! ### The SUMMARY reply (R191) -/

section

variable (set : CauseSet)

/-- Bit by bit, a cause set as a byte. -/
theorem causeSet_toByte_bit (i : Nat) : set.toByte.getLsbD i =
    ((set.fault && decide (i = 0)) || (set.error && decide (i = 1)) || (set.complete && decide (i = 2)) ||
      (set.space && decide (i = 3)) || (set.policy && decide (i = 4))) := by
  simp only [CauseSet.toByte, BitVec.getLsbD_or, flagBit_getLsbD, Nat.reduceLT]

theorem causeSet_toByte_has (c : Cause) : set.toByte.getLsbD ((causeCode (some c)).toNat - 1) = set.has c := by
  rw [causeSet_toByte_bit]
  cases c <;> simp [causeCode, CauseSet.has]

/-- The five causes leave the bits 7 to 5 at 0. -/
theorem causeSet_toByte_lt : set.toByte.toNat < 32 := by
  refine Nat.lt_pow_two_of_testBit (n := 5) _ fun i hi => ?_
  have bit := causeSet_toByte_bit set i
  have (k : Nat) (h : k < 5) : decide (i = k) = false := decide_eq_false (by omega)
  simp only [this, Nat.reduceLT, Bool.and_false, Bool.or_false] at bit
  exact bit

end

/-- Byte H0: the port, the authority, and whether they are the same. -/
def summaryPorts (p authority : Port) : Byte :=
  BitVec.ofNat 8 p.val ||| (BitVec.ofNat 8 authority.val <<< 4) ||| flagBit (decide (authority = p)) 7

theorem summaryPorts_toNat (p authority : Port) :
    (summaryPorts p authority).toNat = p.val + 16 * authority.val + (if authority = p then 128 else 0) := by
  have own : (BitVec.ofNat 8 p.val).toNat = p.val := ofNat8_toNat (by omega)
  have code : (BitVec.ofNat 8 authority.val).toNat = authority.val := ofNat8_toNat (by omega)
  have shifted : (BitVec.ofNat 8 authority.val <<< 4).toNat = authority.val * 2 ^ 4 := by
    rw [shift_toNat, code]
    rw [code]
    omega
  rw [summaryPorts, or_toNat 7 (or_toNat 4 own shifted (by omega)) (flagBit_toNat _ (by omega)) (by omega)]
  split
  · next same => rw [decide_eq_true same, Bool.toNat_true]; omega
  · next other => rw [decide_eq_false other, Bool.toNat_false]; omega

/-- Byte H6: the watermark and the armed flag. -/
def summaryWatermark (u : PortUnit) : Byte :=
  ((BitVec.ofNat 8 u.watermark).extractLsb' 0 5).setWidth 8 ||| flagBit u.armed 7

theorem summaryWatermark_toNat (u : PortUnit) :
    (summaryWatermark u).toNat = u.watermark % 32 + (if u.armed then 128 else 0) := by
  have low : (((BitVec.ofNat 8 u.watermark).extractLsb' 0 5).setWidth 8).toNat = u.watermark % 32 := by
    rw [small_toNat _ (by decide), low_toNat, BitVec.toNat_ofNat]
    omega
  rw [summaryWatermark, or_toNat 7 low (flagBit_toNat _ (by omega)) (by omega)]
  cases u.armed <;> rfl

/-- Byte H9: the index at which the last APPLY failed. -/
def summaryFailure (failure : Option EntryIx) : Byte :=
  match failure with
  | some i => BitVec.ofNat 8 i.val
  | none => 0xFF

theorem summaryFailure_toNat (failure : Option EntryIx) : (summaryFailure failure).toNat = (match failure with
    | some i => i.val
    | none => 255) := by
  cases failure with
  | none => rfl
  | some i => exact ofNat8_toNat (by omega)

/-- Byte H22: the last result and the hold flag. -/
def summaryResult (u : PortUnit) : Byte := u.last.code.setWidth 8 ||| flagBit u.hold 4

theorem summaryResult_toNat (u : PortUnit) :
    (summaryResult u).toNat = u.last.code.toNat + (if u.hold then 16 else 0) := by
  have := u.last.code.isLt
  rw [summaryResult, or_toNat 4 (small_toNat u.last.code (by decide)) (flagBit_toNat _ (by omega)) (by omega)]
  cases u.hold <;> rfl

/-- The first byte of a slot: its state. -/
theorem summaryBytes_state (k : Slot) : (byteAt k.summaryBytes 0).toNat = (match k.state with
    | .free => 0
    | .held => 1
    | .committed => 2) := by
  unfold Slot.summaryBytes
  cases k.state <;> rfl

/-- The other two: its valid length. -/
theorem summaryBytes_valid (k : Slot) :
    256 * (byteAt k.summaryBytes 1).toNat + (byteAt k.summaryBytes 2).toNat = k.valid % 65536 := by
  have high : byteAt k.summaryBytes 1 = (BitVec.ofNat 16 k.valid).extractLsb' 8 8 := rfl
  have low : byteAt k.summaryBytes 2 = (BitVec.ofNat 16 k.valid).extractLsb' 0 8 := rfl
  rw [high, low, bytes16_spell, BitVec.toNat_ofNat]

/-- Where the parts of the reply stand. -/
structure SummaryReplied (s : State) (p : Port) (reply : List Byte) : Prop where
  length : reply.length = 23
  ports : byteAt reply 0 = summaryPorts p s.authority
  counts : byteAt reply 1 = BitVec.ofNat 8 (s.port p).ring.length ∧ byteAt reply 2 = BitVec.ofNat 8 (s.port p).credits ∧
    byteAt reply 3 = BitVec.ofNat 8 (s.port p).queue.length
  pending : byteAt reply 4 = (s.port p).pending.toByte
  enable : byteAt reply 5 = (s.port p).enable.toByte
  watermark : byteAt reply 6 = summaryWatermark (s.port p)
  generation : 256 * (byteAt reply 7).toNat + (byteAt reply 8).toNat = s.policy.generation.toNat
  failure : byteAt reply 9 = summaryFailure s.policy.failure
  slots : ∀ k : SlotIx, byteAt reply (10 + 3 * k.val) = byteAt (pick (s.port p).slots k).summaryBytes 0 ∧
    byteAt reply (11 + 3 * k.val) = byteAt (pick (s.port p).slots k).summaryBytes 1 ∧
    byteAt reply (12 + 3 * k.val) = byteAt (pick (s.port p).slots k).summaryBytes 2
  result : byteAt reply 22 = summaryResult (s.port p)

theorem summaryBytes_length (k : Slot) : k.summaryBytes.length = 3 := rfl

theorem bytes16_length (w : BitVec 16) : (bytes16 w).length = 2 := rfl

theorem summaryReply_replied (s : State) (p : Port) : SummaryReplied s p (s.summaryReply p) := by
  unfold State.summaryReply
  constructor
  case slots =>
    intro k
    simp only [List.append_assoc, byteAt_append, bytes16_length, summaryBytes_length, List.length_cons, List.length_nil]
    match k with
    | 0 | 1 | 2 | 3 => exact ⟨rfl, rfl, rfl⟩
  case generation => exact bytes16_spell s.policy.generation
  case counts => exact ⟨rfl, rfl, rfl⟩
  all_goals
    simp only [List.append_assoc, List.length_append, byteAt_append, bytes16_length, summaryBytes_length, List.length_cons,
      List.length_nil, Nat.reduceAdd, Nat.reduceSub, Nat.reduceLT, if_true, if_false]
  all_goals rfl

/-! ### SUMMARY -/

theorem isSummary_iff (c : Captured) : c.isSummary = true ↔ ∃ reply, c = .summary reply := by
  cases c <;> simp [Captured.isSummary]

/-- Opening the frame does not change what SUMMARY captures. -/
theorem grabSummary_inFrame (s : State) (p : Port) : grabSummary p (s.inFrame p) = .summary (s.summaryReply p) := by
  rw [grabSummary, State.summaryReply, inFrame_port, opened_eq]
  rfl

/-- Settles O23: the parts of the reply stand where R191 puts them, and the two moments are those of every frame that answers. -/
theorem summaryReportsThePort : Obligations.SummaryReportsThePort := by
  unfold Obligations.SummaryReportsThePort
  refine ⟨isSummary_iff, fun p bytes s hears => ?_⟩
  have h := summaryReply_replied s p
  have hi := hears_ignoring hears
  obtain ⟨ring, credits, queue⟩ := h.counts
  refine ⟨s.summaryReply p, h.length, ?_, ring, credits, queue, fun c => ⟨?_, ?_⟩, ?_, ?_, ?_, h.generation, ?_,
    fun k => ?_, ?_, ?_, fun shown hf => ?_⟩
  · rw [h.ports, summaryPorts_toNat]
  · rw [h.pending, causeSet_toByte_has]
  · rw [h.enable, causeSet_toByte_has]
  · rw [h.pending]
    exact causeSet_toByte_lt _
  · rw [h.enable]
    exact causeSet_toByte_lt _
  · rw [h.watermark, summaryWatermark_toNat]
  · rw [h.failure]
    exact summaryFailure_toNat _
  · obtain ⟨state, high, low⟩ := h.slots k
    rw [state, high, low]
    exact ⟨summaryBytes_state _, summaryBytes_valid _⟩
  · rw [h.result, summaryResult_toNat]
  · exact ⟨_, exec_frame_taken (c := .summary p .capture bytes) rfl hears rfl,
      captureFrame_holds (bytes := bytes) hi (Nat.le_add_left 1 _) (grabSummary_inFrame s p)⟩
  · exact ⟨_, exec_frame_taken (c := .summary p .release bytes) rfl hears rfl,
      replyFrame_shows (shown := .summary shown) hi (Nat.le_add_left 1 _) (grabSummary_inFrame s p) hf⟩

end Sys2Proof.Machine
end

section
namespace Sys2Proof.Machine

/-! ### A change of every port in turn -/

section

variable (f : Port → PortUnit → PortUnit)

theorem foldl_modPort_rest (ports : List Port) : ∀ s : State,
    ports.foldl (fun s p => s.modPort p (f p)) s = { s with ports := (ports.foldl (fun s p => s.modPort p (f p)) s).ports } := by
  induction ports with
  | nil => exact fun _ => rfl
  | cons p rest ih => exact fun s => ih (s.modPort p (f p))

/-- Each port of the list is changed once. -/
theorem foldl_modPort_port {ports : List Port} (once : ports.Nodup) (q : Port) : ∀ s : State,
    (ports.foldl (fun s p => s.modPort p (f p)) s).port q = if q ∈ ports then f q (s.port q) else s.port q := by
  induction ports with
  | nil => exact fun _ => rfl
  | cons p rest ih =>
    obtain ⟨fresh, once⟩ := List.nodup_cons.1 once
    intro s
    rw [List.foldl_cons, ih once, modPort_eq]
    by_cases same : q = p
    · subst same
      rw [if_neg fresh, if_pos List.mem_cons_self, port_setPort_same]
    · simp only [port_setPort_other _ _ _ _ same, List.mem_cons, same, false_or]

end

/-! ### The rise of RESET# (R178, R184) -/

/-- AUTH is sampled, and each port learns whether its chip select is low. -/
def State.resetReleased (s : State) (auth : BitVec 2) (csLow : BitVec 4) : State :=
  allPorts.foldl (fun s p => s.modPort p (·.releaseReset (csLow.getLsbD p.val)))
    { s with resetLow := false, authority := auth.toFin }

theorem exec_resetRelease {s : State} (low : s.resetLow = true) (auth : BitVec 2) (csLow : BitVec 4) :
    exec (.resetRelease auth csLow) s = .next (s.resetReleased auth csLow) := congrArg _ (if_pos low)

theorem resetReleased_rest (s : State) (auth : BitVec 2) (csLow : BitVec 4) : s.resetReleased auth csLow =
    { s with resetLow := false, authority := auth.toFin, ports := (s.resetReleased auth csLow).ports } :=
  foldl_modPort_rest (fun p => (·.releaseReset (csLow.getLsbD p.val))) allPorts _

theorem resetReleased_port (s : State) (auth : BitVec 2) (csLow : BitVec 4) (p : Port) :
    (s.resetReleased auth csLow).port p = (s.port p).releaseReset (csLow.getLsbD p.val) := by
  have all : p ∈ allPorts := by revert p; decide
  exact (foldl_modPort_port (fun p => (·.releaseReset (csLow.getLsbD p.val))) (by decide) p _).trans (if_pos all)

/-- Settles O5: the rise of RESET# reaches each port once. -/
theorem deviceResetAndItsRelease : Obligations.DeviceResetAndItsRelease := by
  unfold Obligations.DeviceResetAndItsRelease
  refine ⟨fun _ => rfl, fun auth csLow s low => ⟨_, exec_resetRelease low auth csLow, ?_, ?_, resetReleased_port s auth csLow⟩⟩
  · rw [resetReleased_rest]
  · rw [resetReleased_rest]
    rfl

/-! ### Frames of a deaf port (R178) -/

theorem deaf_iff (s : State) (p : Port) : s.deaf p = true ↔ s.resetLow = true ∨ (s.port p).link.ignoring = true := by
  rw [State.deaf, Bool.or_eq_true]

/-- Every frame but the fall of CS# reaches its port by `State.upstream`, whether the port is deaf or not. -/
theorem exec_frame_upstream {c : Instr} {p : Port} (h : portOfFrame c = some p) (clocked : c ≠ .summaryByte p) (s : State) :
    exec c s = .next (s.upstream p c (s.heldBack c) (takeFrame c)) := by
  cases c
  case summaryByte q => exact absurd (congrArg Instr.summaryByte (Option.some.inj h)) clocked
  all_goals cases h
  all_goals rfl

/-- The fall of CS# is not heard while RESET# is low. -/
theorem exec_summaryByte_low (p : Port) {s : State} (low : s.resetLow = true) : exec (.summaryByte p) s = .next s :=
  congrArg _ (if_pos low)

/-- Settles O6: a deaf port ignores all that reaches it by `State.upstream`. -/
theorem framesOfADeafPortAreIgnored : Obligations.FramesOfADeafPortAreIgnored := by
  unfold Obligations.FramesOfADeafPortAreIgnored
  refine ⟨fun p s => deaf_iff s p, fun c p s h => ?_⟩
  have ignored (deaf : s.deaf p = true) (clocked : c ≠ .summaryByte p) : exec c s = .next s := by
    rw [exec_frame_upstream h clocked, upstream_deaf deaf]
  refine ⟨fun low => ?_, fun ignoring => ignored ((deaf_iff s p).2 (.inr ignoring))⟩
  by_cases fall : c = .summaryByte p
  · rw [fall, exec_summaryByte_low p low]
  · exact ignored ((deaf_iff s p).2 (.inl low)) fall

end Sys2Proof.Machine
end

section
namespace Sys2Proof.Machine

/-! ### What an effect leaves of a link -/

/-- The link of a Port Unit is the one that its port had in `s`, but for what a capture holds. -/
def LinkFrom (s : State) (p : Port) (u : PortUnit) : Prop :=
  u.link = { (s.port p).link with captured := u.link.captured }

theorem linkFrom_refl (s : State) : AllPorts (LinkFrom s) s := fun _ => rfl

theorem LinkStays.linkFrom {f : PortUnit → PortUnit} (stays : LinkStays f) {s : State} {p : Port} {u : PortUnit}
    (h : LinkFrom s p u) : LinkFrom s p (f u) := by
  rw [LinkFrom, stays, h]

theorem LinkStays.comp {f g : PortUnit → PortUnit} (hg : LinkStays g) (hf : LinkStays f) : LinkStays (fun u => g (f u)) := by
  intro u
  rw [hg, hf]

theorem linkStays_modSlot? (slot : Option SlotIx) (f : Slot → Slot) : LinkStays (·.modSlot? slot f) := by
  intro u
  cases slot <;> rfl

theorem linkStays_accept (r : Request) : LinkStays (·.accept r) := fun u => linkStays_modSlot? r.slot (·.commit) u

theorem linkStays_post (slot : Option SlotIx) (r : Completion) : LinkStays (·.post slot r) := fun u =>
  linkStays_modSlot? slot (fun k => k.giveBack r.kind r.outcome r.bytesMoved) u

theorem linkStays_dropOrphan (slot : Option SlotIx) : LinkStays (·.dropOrphan slot) :=
  linkStays_judgeSpace.comp (f := fun u => { u.modSlot? slot (fun _ => .freed) with
    credits := (u.modSlot? slot (fun _ => .freed)).credits - 1 }) (linkStays_modSlot? slot _)

theorem linkFrom_kept (s : State) : KeptByPostings (LinkFrom s) where
  post _ _ slot r := (linkStays_post slot r).linkFrom
  drop _ _ slot := (linkStays_dropOrphan slot).linkFrom
  raise _ _ c _ := LinkStays.linkFrom (f := (·.raise c)) fun _ => rfl

/-- An effect of a frame that leaves the links of the ports as they were, but for what a capture holds. -/
def KeepsLinks (act : State → State × Result) : Prop := ∀ s, AllPorts (LinkFrom s) (act s).1

/-- An effect on one Port Unit. -/
theorem linkFrom_modPort {f : PortUnit → PortUnit} {s : State} {p : Port} (stays : LinkStays f) :
    AllPorts (LinkFrom s) (s.modPort p f) := allPorts_modPort (linkFrom_refl s) stays.linkFrom

/-- An effect on none. -/
theorem linkFrom_of_ports {s t : State} (same : t.ports = s.ports) : AllPorts (LinkFrom s) t :=
  allPorts_of_ports (linkFrom_refl s) same

/-! ### The link at the release of a frame without a reply (R178, R179) -/

/-- Without a reply SDO carries 0x00 after the summary byte. -/
theorem carries_nil (u : PortUnit) (request n : Nat) : u.carries request [] n = u.frameSummary :: List.replicate n 0 := by
  rw [← sdoBytes_carries, sdoBytes_nil]

section

variable {s : State} {p : Port} {bytes : List Byte} (hi : (s.port p).link.ignoring = false)
include hi

/-- A frame that ends before any reply: FRAMING, and no effect (R181). -/
theorem framing_taken (request : Nat) : ReplyFrameTaken p .framing (s.port p)
    ((s.port p).frameSummary :: List.replicate bytes.length 0) s
    ((s.openFrame p).closeFrame p .framing request bytes.length []) := by
  rw [← carries_nil _ request]
  exact closeFrame_taken (f := id) (fun _ _ => rfl) (fun _ => rfl) hi

/-- The release closes the link, whatever the length of the frame and its result. -/
theorem plainFrame_link {act : State → State × Result} (keeps : KeepsLinks act) (need : Nat) :
    ((s.plainFrame p need bytes act).port p).link =
      (s.port p).linkReleased ((s.port p).frameSummary :: List.replicate bytes.length 0) := by
  rw [← carries_nil _ need, ← rise_linkReleased _ .framing _ _ _ hi]
  rcases Nat.lt_or_ge (bytes.length + 1) need with short | whole
  · rw [plainFrame_short _ _ _ _ _ short, port_setPort_same]
  · have kept := keeps (s.inFrame p) p
    rw [LinkFrom, inFrame_port] at kept
    rw [plainFrame_long _ _ _ _ _ whole, closeFrame_eq, port_setPort_same]
    change ((((act (s.inFrame p)).1.port p).rise _ _ _ _).link) = _
    rw [rise_link, kept]
    rfl

end

/-- A frame without a reply, in full: its required length, and an effect that leaves the link to its release (R178, R180). -/
def ClosesPlain (p : Port) (need : Nat) (bytes : List Byte) (take : State → State) : Prop :=
  ∃ act, KeepsLinks act ∧ ∀ s, take s = s.plainFrame p need bytes act

/-- One whose effect touches no Port Unit. -/
theorem ClosesPlain.of_ports {p : Port} {need : Nat} {bytes : List Byte} {take : State → State}
    {act : State → State × Result} (is : ∀ s, take s = s.plainFrame p need bytes act)
    (same : ∀ s, (act s).1.ports = s.ports) : ClosesPlain p need bytes take :=
  ⟨act, fun s => linkFrom_of_ports (same s), is⟩

section

variable (p : Port) (bytes : List Byte)

/-! #### The effects on the port of the frame -/

theorem submit_closesPlain : ClosesPlain p 9 bytes (takeSubmit p bytes) := by
  refine ⟨_, fun s => ?_, fun _ => rfl⟩
  split
  · exact linkFrom_modPort (linkStays_accept _)
  · exact linkFrom_modPort fun _ => rfl
  · exact linkFrom_refl s

/-- The ring entry that a CANCEL removes posts its record (R160). -/
theorem linkFrom_cancelEntry (s : State) (r : Request) : AllPorts (LinkFrom s) (s.cancelEntry p r) := by
  have posted : LinkStays (fun u =>
      PortUnit.judgeSpace ({ u with ring := u.ring.filter (fun x => x.tag != r.tag) }.post r.slot r.recordCancelled)) :=
    linkStays_judgeSpace.comp ((linkStays_post r.slot r.recordCancelled).comp
      (f := fun u => { u with ring := u.ring.filter (fun x => x.tag != r.tag) }) fun _ => rfl)
  unfold State.cancelEntry
  dsimp only
  split
  · exact allPorts_of_ports (linkFrom_modPort posted) rfl
  · exact linkFrom_modPort posted

theorem linkFrom_cancelTag (s : State) (tag : Byte) : AllPorts (LinkFrom s) (s.cancelTag p tag) := by
  unfold State.cancelTag
  split
  · exact linkFrom_cancelEntry p s _
  · split
    · exact linkFrom_of_ports rfl
    · exact linkFrom_refl s

theorem cancel_closesPlain : ClosesPlain p 2 bytes (takeCancel p bytes) := by
  refine ⟨_, fun s => ?_, fun _ => rfl⟩
  dsimp only
  split
  · exact linkFrom_refl s
  · split
    · exact linkFrom_of_ports rfl
    · exact linkFrom_cancelTag p s _

theorem hold_closesPlain : ClosesPlain p 1 bytes (takeHold p bytes) :=
  ⟨_, fun _ => linkFrom_modPort (f := fun u => { u with hold := true }) fun _ => rfl, fun _ => rfl⟩

theorem unhold_closesPlain : ClosesPlain p 1 bytes (takeUnhold p bytes) :=
  ⟨_, fun _ => linkFrom_modPort (f := fun u => { u with hold := false }) fun _ => rfl, fun _ => rfl⟩

theorem load_closesPlain : ClosesPlain p 3 bytes (takeLoad p bytes) := by
  refine ⟨_, fun s => ?_, fun _ => rfl⟩
  dsimp only
  split
  · exact linkFrom_refl s
  · split
    · exact linkFrom_refl s
    · split
      · exact linkFrom_refl s
      · exact linkFrom_modPort fun _ => rfl

theorem release_closesPlain : ClosesPlain p 2 bytes (takeRelease p bytes) := by
  refine ⟨_, fun s => ?_, fun _ => rfl⟩
  split
  · exact linkFrom_refl s
  · split
    · exact linkFrom_refl s
    · exact linkFrom_modPort fun _ => rfl

theorem causeEnable_closesPlain : ClosesPlain p 3 bytes (takeCauseEnable p bytes) := by
  refine ⟨_, fun s => ?_, fun _ => rfl⟩
  dsimp only
  split
  · split
    · exact linkFrom_modPort fun _ => rfl
    · exact linkFrom_refl s
  · exact linkFrom_refl s

/-- The cancel claims taken first post and drop; the reset itself clears all of the unit but its link (R160, R165). -/
theorem linkFrom_portReset (s : State) : AllPorts (LinkFrom s) (s.portReset p) := by
  have claims : AllPorts (LinkFrom s) ((s.takeCancels p 0 (fun _ => true)).takeCancels p 1 (fun _ => true)) :=
    allPorts_takeCancels (linkFrom_kept s) (allPorts_takeCancels (linkFrom_kept s) (linkFrom_refl s))
  unfold State.portReset
  dsimp only
  generalize (s.takeCancels p 0 (fun _ => true)).takeCancels p 1 (fun _ => true) = t at claims
  have lists := allPorts_of_ports (allPorts_of_ports claims (portResetBus_ports t p 0)) (portResetBus_ports _ p 1)
  generalize (t.portResetBus p 0).portResetBus p 1 = u at lists
  have reset : LinkStays (·.portReset (u.itemsOf p)) := fun _ => rfl
  have units : AllPorts (LinkFrom s) (u.modPort p (·.portReset (u.itemsOf p))) := allPorts_modPort lists reset.linkFrom
  exact fun q => units q

theorem portReset_closesPlain : ClosesPlain p 1 bytes (takePortReset p bytes) := 
  ⟨fun s => (s.portReset p, .ok), linkFrom_portReset p, fun _ => rfl⟩

/-! #### The effects on the rest of the block -/

theorem stageEntry_closesPlain : ClosesPlain p 14 bytes (takeStageEntry p bytes) := by
  refine .of_ports (fun _ => rfl) fun s => ?_
  split
  · rfl
  · split <;> rfl

theorem copyActive_closesPlain : ClosesPlain p 1 bytes (takeCopyActive p bytes) := by
  refine .of_ports (fun _ => rfl) fun s => ?_
  split <;> rfl

theorem apply_closesPlain : ClosesPlain p 1 bytes (takeApply p bytes) := by
  refine .of_ports (fun _ => rfl) fun s => ?_
  split
  · rfl
  · split <;> rfl

theorem setupTarget_closesPlain : ClosesPlain p 33 bytes (takeSetupTarget p bytes) := by
  refine .of_ports (fun _ => rfl) fun s => ?_
  split
  · rfl
  · split
    · rfl
    · rfl
    · split <;> rfl

theorem removeTarget_closesPlain : ClosesPlain p 2 bytes (takeRemoveTarget p bytes) := by
  refine .of_ports (fun _ => rfl) fun s => ?_
  split
  · rfl
  · split
    · rfl
    · split <;> rfl

theorem resetTarget_closesPlain : ClosesPlain p 2 bytes (takeResetTarget p bytes) := by
  refine .of_ports (fun _ => rfl) fun s => ?_
  split
  · rfl
  · split
    · rfl
    · split
      · rfl
      · rfl
      all_goals rw [sendTargetReset_eq]

theorem sendBusReset_ports (s : State) (b : Bus) : (s.sendBusReset b).ports = s.ports := by
  unfold State.sendBusReset
  split <;> rfl

theorem resetBus_closesPlain : ClosesPlain p 2 bytes (takeResetBus p bytes) := by
  refine .of_ports (fun _ => rfl) fun s => ?_
  split
  · rfl
  · split
    · rfl
    · exact sendBusReset_ports s _

theorem busMode_closesPlain : ClosesPlain p 3 bytes (takeBusMode p bytes) := by
  refine .of_ports (fun _ => rfl) fun s => ?_
  split
  · rfl
  · split
    · split <;> rfl
    · rfl

end

/-- The frames of the code table without a reply (R180). -/
def isReplyless : Instr → Bool
  | .submit _ _ | .cancel _ _ | .hold _ _ | .unhold _ _ | .load _ _ | .release _ _ | .causeEnable _ _ | .portReset _ _
  | .stageEntry _ _ | .copyActive _ _ | .apply _ _ | .setupTarget _ _ | .removeTarget _ _ | .resetTarget _ _
  | .resetBus _ _ | .busMode _ _ => true
  | _ => false

theorem replyless_closesPlain {c : Instr} {p : Port} (h : portOfFrame c = some p) (replyless : isReplyless c = true) :
    ∃ need, requiredLength c = some need ∧ ClosesPlain p need (bytesOf c) (takeFrame c) := by
  cases c
  case submit p bytes => cases h; exact ⟨_, rfl, submit_closesPlain p bytes⟩
  case cancel p bytes => cases h; exact ⟨_, rfl, cancel_closesPlain p bytes⟩
  case hold p bytes => cases h; exact ⟨_, rfl, hold_closesPlain p bytes⟩
  case unhold p bytes => cases h; exact ⟨_, rfl, unhold_closesPlain p bytes⟩
  case load p bytes => cases h; exact ⟨_, rfl, load_closesPlain p bytes⟩
  case release p bytes => cases h; exact ⟨_, rfl, release_closesPlain p bytes⟩
  case causeEnable p bytes => cases h; exact ⟨_, rfl, causeEnable_closesPlain p bytes⟩
  case portReset p bytes => cases h; exact ⟨_, rfl, portReset_closesPlain p bytes⟩
  case stageEntry p bytes => cases h; exact ⟨_, rfl, stageEntry_closesPlain p bytes⟩
  case copyActive p bytes => cases h; exact ⟨_, rfl, copyActive_closesPlain p bytes⟩
  case apply p bytes => cases h; exact ⟨_, rfl, apply_closesPlain p bytes⟩
  case setupTarget p bytes => cases h; exact ⟨_, rfl, setupTarget_closesPlain p bytes⟩
  case removeTarget p bytes => cases h; exact ⟨_, rfl, removeTarget_closesPlain p bytes⟩
  case resetTarget p bytes => cases h; exact ⟨_, rfl, resetTarget_closesPlain p bytes⟩
  case resetBus p bytes => cases h; exact ⟨_, rfl, resetBus_closesPlain p bytes⟩
  case busMode p bytes => cases h; exact ⟨_, rfl, busMode_closesPlain p bytes⟩
  all_goals cases replyless

/-- Settles O9: BADCODE by its release, the frames of the code table by what their effects leave of the link. -/
theorem framesWithoutReplyShiftOutTheSummaryByte : Obligations.FramesWithoutReplyShiftOutTheSummaryByte := by
  unfold Obligations.FramesWithoutReplyShiftOutTheSummaryByte
  intro c p s h hears free kind
  have hi := hears_ignoring hears
  refine ⟨_, exec_frame_taken h hears free, ?_⟩
  by_cases replyless : isReplyless c = true
  · obtain ⟨need, _, act, keeps, is⟩ := replyless_closesPlain h replyless
    rw [is, plainFrame_link hi keeps]
    rfl
  · cases c
    case badcode q code bytes =>
      cases h
      exact (takeBadcode_taken kind hi bytes).link
    all_goals first | exact absurd rfl replyless | exact kind.elim

/-! ### Frames below their required length (R181) -/

/-- A frame that answers, in full: its request and its whole length (R180, R182). -/
def Answers (p : Port) (request need : Nat) (bytes : List Byte) (take : State → State) : Prop :=
  ∃ mine grab act, ∀ s, take s = s.replyFrame p request need bytes mine grab act

section

variable (p : Port) (bytes : List Byte)

theorem fetch_answers : Answers p 3 3 bytes (takeFetch p .release bytes) :=
  ⟨_, _, _, fun _ => by rw [takeFetch]⟩

theorem collect_answers : Answers p 1 17 bytes (takeCollect p .release bytes) :=
  ⟨_, _, _, fun _ => by rw [takeCollect]⟩

theorem cause_answers : Answers p 1 3 bytes (takeCause p .release bytes) :=
  ⟨_, _, _, fun _ => by rw [takeCause]⟩

theorem summary_answers : Answers p 1 1 bytes (takeSummary p .release bytes) :=
  ⟨_, _, _, fun _ => by rw [takeSummary]⟩

theorem readEntry_answers : Answers p 3 3 bytes (takeReadEntry p .release bytes) :=
  ⟨_, _, _, fun _ => by rw [takeReadEntry]⟩

theorem readTarget_answers : Answers p 2 2 bytes (takeReadTarget p .release bytes) :=
  ⟨_, _, _, fun _ => by rw [takeReadTarget]⟩

end

/-- The frames with a required length that answer; three of them by their last byte (R182). -/
theorem released_answers {c : Instr} {p : Port} {need : Nat} (h : portOfFrame c = some p)
    (length : requiredLength c = some need) (answers : isReplyless c = false) :
    ∃ request, Answers p request need (bytesOf c) (takeFrame c) ∧
      ((∃ bytes, c = .fetch p .release bytes ∨ c = .readEntry p .release bytes ∨ c = .readTarget p .release bytes) →
        request = need) := by
  cases c
  case fetch q m bytes =>
    cases h
    cases m <;> cases length
    exact ⟨3, fetch_answers p bytes, fun _ => rfl⟩
  case collect q m bytes =>
    cases h
    cases m <;> cases length
    exact ⟨1, collect_answers p bytes, by simp⟩
  case cause q m bytes =>
    cases h
    cases m <;> cases length
    exact ⟨1, cause_answers p bytes, by simp⟩
  case summary q m bytes =>
    cases h
    cases m <;> cases length
    exact ⟨1, summary_answers p bytes, fun _ => rfl⟩
  case readEntry q m bytes =>
    cases h
    cases m <;> cases length
    exact ⟨3, readEntry_answers p bytes, fun _ => rfl⟩
  case readTarget q m bytes =>
    cases h
    cases m <;> cases length
    exact ⟨2, readTarget_answers p bytes, fun _ => rfl⟩
  all_goals simp [isReplyless, requiredLength] at answers length

/-- An admission holds back no frame below its required length (R33, R165). -/
theorem heldBack_short {c : Instr} {need : Nat} {s : State} (length : requiredLength c = some need)
    (short : (bytesOf c).length + 1 < need) : s.heldBack c = false := by
  rw [Bool.eq_false_iff]
  intro held
  obtain ⟨p, bytes, rfl | rfl | rfl⟩ := heldBack_frames s c held
  · cases length
    simp [bytesOf] at short
  · cases length
    obtain ⟨_, whole, _⟩ := (setupWaits_iff s p bytes).1 held
    simp only [bytesOf] at short
    omega
  · cases length
    obtain ⟨_, whole, _⟩ := (removeWaits_iff s p bytes).1 held
    simp only [bytesOf] at short
    omega

section

variable {p : Port} {need request : Nat} {bytes : List Byte} {take : State → State} {s : State}
  (hi : (s.port p).link.ignoring = false)
include hi

theorem ClosesPlain.framing (h : ClosesPlain p need bytes take) (hn : bytes.length + 1 < need) :
    ReplyFrameTaken p .framing (s.port p) ((s.port p).frameSummary :: List.replicate bytes.length 0) s (take s) := by
  obtain ⟨act, _, is⟩ := h
  rw [is, State.plainFrame]
  rw [if_pos hn]
  exact framing_taken hi need

/-- Before the capture nothing is shifted out as a reply (R182). -/
theorem Answers.unanswered (h : Answers p request need bytes take) (early : bytes.length + 1 < request) :
    ReplyFrameTaken p .framing (s.port p) ((s.port p).frameSummary :: List.replicate bytes.length 0) s (take s) := by
  obtain ⟨mine, grab, act, is⟩ := h
  rw [is, State.replyFrame]
  dsimp only
  rw [if_pos early]
  exact framing_taken hi request

theorem Answers.framing (h : Answers p request need bytes take) (hn : bytes.length + 1 < need) :
    ∃ sdo, ReplyFrameTaken p .framing (s.port p) sdo s (take s) := by
  rcases Nat.lt_or_ge (bytes.length + 1) request with early | captured
  · exact ⟨_, h.unanswered hi early⟩
  · obtain ⟨mine, grab, act, is⟩ := h
    rw [is]
    exact ⟨_, replyFrame_short hi captured rfl rfl hn⟩

end

/-- Settles O7: a frame without a reply and one that answers, each by the branch of its release below its length. -/
theorem shortFramesGiveFraming : Obligations.ShortFramesGiveFraming := by
  unfold Obligations.ShortFramesGiveFraming
  intro c p need s h length short hears
  have hi := hears_ignoring hears
  refine ⟨_, exec_frame_taken h hears (heldBack_short length short), ?_⟩
  have closes {sdo : List Byte} (taken : ReplyFrameTaken p .framing (s.port p) sdo s (takeFrame c s)) :
      OnlyPort p s (takeFrame c s) ∧ (takeFrame c s).port p = { s.port p with
        last := .framing, link := (s.port p).linkReleased ((takeFrame c s).port p).link.sdo } := by
    refine ⟨taken.only, taken.port.trans ?_⟩
    rw [taken.link]
    rfl
  cases kind : isReplyless c with
  | true =>
    obtain ⟨n, hn, plain⟩ := replyless_closesPlain h kind
    cases hn.symm.trans length
    obtain ⟨only, port⟩ := closes (plain.framing hi short)
    exact ⟨only, port, fun _ => congrArg Link.sdo (plain.framing hi short).link⟩
  | false =>
    obtain ⟨request, answers, early⟩ := released_answers h length kind
    obtain ⟨sdo, taken⟩ := answers.framing hi short
    obtain ⟨only, port⟩ := closes taken
    exact ⟨only, port, fun one => congrArg Link.sdo (answers.unanswered hi (early one ▸ short)).link⟩

end Sys2Proof.Machine
end

section
namespace Sys2Proof.Machine

/-! ### The layout of a completion record (R187) -/

/-- Byte 0: valid, cancel-seen, the outcome and the kind. -/
def recordHead (c : Completion) : Byte :=
  flagBit true 7 ||| flagBit c.cancelSeen 6 ||| (c.outcome.code <<< 3) ||| c.kind.code

/-- Byte 10: the index of the region. -/
def recordRegion (region : Option EntryIx) : Byte :=
  match region with
  | some i => flagBit true 7 ||| BitVec.ofNat 8 i.val
  | none => 0

/-- Byte 11: the target, and whether there is a generation. -/
def recordTarget (target : Option Target) (generation : Option (BitVec 16)) : Byte :=
  (match target with
    | some t => flagBit true 7 ||| BitVec.ofNat 8 t.val
    | none => 0) ||| flagBit generation.isSome 6

/-- Byte 14: the suspend total of an ERASE. -/
def recordSuspends (c : Completion) : Byte :=
  match c.kind with
  | .erase => BitVec.ofNat 8 c.suspendTotal
  | .read | .program | .status => 0xFF

/-- Where the fields of the record stand. -/
structure RecordLaidOut (c : Completion) (w : List Byte) : Prop where
  length : w.length = 15
  head : byteAt w 0 = recordHead c
  tag : byteAt w 1 = c.tag
  reason : byteAt w 2 = c.reason.code
  amount : word16At w 3 = c.amount
  headCount : byteAt w 5 = c.headCount
  headField : ∀ i, i < 4 → byteAt w (6 + i) = byteAt c.headField i
  region : byteAt w 10 = recordRegion c.region
  target : byteAt w 11 = recordTarget c.target c.generation
  generation : word16At w 12 = c.generation.getD 0
  suspends : byteAt w 14 = recordSuspends c

/-- The two bytes of a 16-bit field, put together. -/
theorem halves_append (w : BitVec 16) : w.extractLsb' 8 8 ++ w.extractLsb' 0 8 = w := by
  refine BitVec.eq_of_toNat_eq ?_
  rw [append_toNat]
  exact bytes16_spell w

theorem below_four {P : Nat → Prop} (h0 : P 0) (h1 : P 1) (h2 : P 2) (h3 : P 3) : ∀ i, i < 4 → P i
  | 0, _ => h0
  | 1, _ => h1
  | 2, _ => h2
  | 3, _ => h3

/-- The head bytes take four places, used or not. -/
theorem headField_four (c : Completion) : ∃ b0 b1 b2 b3, c.headField = [b0, b1, b2, b3] := by
  unfold Completion.headField
  cases c.kind <;> exact ⟨_, _, _, _, rfl⟩

theorem completion_toBytes (c : Completion) : RecordLaidOut c c.toBytes := by
  obtain ⟨b0, b1, b2, b3, four⟩ := headField_four c
  unfold Completion.toBytes
  constructor
  case amount =>
    exact halves_append c.amount
  case generation =>
    rw [four]
    exact halves_append (c.generation.getD 0)
  case headField =>
    rw [four]
    exact below_four rfl rfl rfl rfl
  all_goals
    rw [four]
    rfl

/-! ### The fields in numbers -/

theorem recordHead_toNat (c : Completion) : (recordHead c).toNat =
    128 + (if c.cancelSeen then 64 else 0) + 8 * c.outcome.code.toNat + c.kind.code.toNat := by
  have kind := kind_code_lt c.kind
  have outcome : c.outcome.code.toNat < 8 := by cases c.outcome <;> decide
  have order : recordHead c = c.kind.code ||| (c.outcome.code <<< 3) ||| flagBit c.cancelSeen 6 ||| flagBit true 7 := by
    unfold recordHead
    ac_rfl
  have seen := flagBit_toNat c.cancelSeen (k := 6) (by omega)
  have valid := flagBit_toNat true (k := 7) (by omega)
  have seen_le := c.cancelSeen.toNat_le
  rw [order, or_toNat 7 (or_toNat 6 (or_toNat 3 rfl (shift_toNat (by omega)) (by omega)) seen (by omega)) valid (by omega)]
  cases c.cancelSeen
  · simp only [Bool.toNat_false, Bool.toNat_true, Bool.false_eq_true, if_false]
    omega
  · simp only [Bool.toNat_true, if_true]
    omega

/-- A number with the valid bit above it. -/
theorem valid_toNat {n : Nat} (h : n < 64) : (BitVec.ofNat 8 n ||| flagBit true 7).toNat = n + 128 :=
  or_toNat 7 (ofNat8_toNat (by omega)) (flagBit_toNat true (by omega)) (by omega)

theorem recordRegion_toNat (i : EntryIx) : (recordRegion (some i)).toNat = 128 + i.val := by
  rw [recordRegion, BitVec.or_comm, valid_toNat (by omega), Nat.add_comm]

theorem recordTarget_toNat (target : Option Target) (generation : Option (BitVec 16)) :
    (recordTarget target generation).toNat =
      (match target with
        | some x => 128 + x.val
        | none => 0) + (if generation = none then 0 else 64) := by
  have flag : (flagBit generation.isSome 6).toNat = if generation = none then 0 else 64 := by
    cases generation <;> rfl
  cases target with
  | none =>
    change (0#8 ||| flagBit generation.isSome 6).toNat = _
    rw [BitVec.zero_or, flag]
    exact (Nat.zero_add _).symm
  | some x =>
    have order : recordTarget (some x) generation =
        BitVec.ofNat 8 x.val ||| flagBit generation.isSome 6 ||| flagBit true 7 := by
      change flagBit true 7 ||| BitVec.ofNat 8 x.val ||| flagBit generation.isSome 6 = _
      ac_rfl
    have known := flagBit_toNat generation.isSome (k := 6) (by omega)
    have known_le := generation.isSome.toNat_le
    rw [flag] at known
    rw [order, or_toNat 7 (or_toNat 6 (ofNat8_toNat (by omega)) (flagBit_toNat _ (by omega)) (by omega))
      (flagBit_toNat true (by omega)) (by omega), ← known, Bool.toNat_true]
    dsimp only
    omega

section

variable {c : Completion}

theorem amount_moved (kind : c.kind = .read ∨ c.kind = .program) (h : c.bytesMoved ≤ 256) :
    c.amount.toNat = c.bytesMoved := by
  have amount : c.amount = BitVec.ofNat 16 c.bytesMoved := by
    rcases kind with kind | kind
    all_goals rw [Completion.amount, kind]
  rw [amount]
  exact Nat.mod_eq_of_lt (by omega)

theorem amount_units (kind : c.kind = .erase) (h : c.unitsDone ≤ 16) : c.amount.toNat = c.unitsDone := by
  rw [Completion.amount, kind]
  exact Nat.mod_eq_of_lt (by omega)

theorem amount_status (kind : c.kind = .status) : c.amount.toNat = 65535 := by
  rw [Completion.amount, kind]
  rfl

/-- A record with head bytes counts and shows them. -/
theorem heads_shown (kind : c.kind = .read ∨ c.kind = .status) : c.headCount = BitVec.ofNat 8 c.headBytes.length ∧
    ∀ i, i < 4 → byteAt c.headField i = byteAt c.headBytes i := by
  unfold Completion.headCount Completion.headField
  rcases kind with kind | kind
  all_goals
    rw [kind]
    exact ⟨rfl, below_four rfl rfl rfl rfl⟩

theorem heads_absent (kind : c.kind = .program ∨ c.kind = .erase) :
    c.headCount = 0xFF ∧ ∀ i, i < 4 → byteAt c.headField i = 0 := by
  unfold Completion.headCount Completion.headField
  rcases kind with kind | kind
  all_goals
    rw [kind]
    exact ⟨rfl, below_four rfl rfl rfl rfl⟩

theorem recordSuspends_erase (kind : c.kind = .erase) (h : c.suspendTotal ≤ 240) :
    (recordSuspends c).toNat = c.suspendTotal := by
  rw [recordSuspends, kind]
  exact ofNat8_toNat (by omega)

theorem recordSuspends_other (kind : c.kind ≠ .erase) : recordSuspends c = 0xFF := by
  unfold recordSuspends
  split
  · contradiction
  all_goals rfl

end

/-- Settles O54: the fields stand where R187 puts them, and each is then read as a number. -/
theorem completionRecordBytes : Obligations.CompletionRecordBytes := by
  unfold Obligations.CompletionRecordBytes
  refine ⟨fun c => ?_, fun i => ?_, rfl⟩
  · have w := completion_toBytes c
    refine ⟨w.length, ?_, w.tag, ?_, fun kind most => ?_, fun kind most => ?_, fun kind => ?_,
      fun kind most => ⟨?_, fun i hi => ?_⟩, fun kind => ⟨?_, fun i hi => ?_⟩, fun i known => ?_, fun unknown => ?_, ?_,
      w.generation, fun kind most => ?_, fun kind => ?_⟩
    · rw [w.head, recordHead_toNat]
      refine congrArg₂ (fun outcome kind => 128 + (if c.cancelSeen then 64 else 0) + 8 * outcome + kind) ?_ ?_
      · cases c.outcome <;> rfl
      · cases c.kind <;> rfl
    · rw [w.reason]
      cases c.reason <;> rfl
    · rw [w.amount, amount_moved kind most]
    · rw [w.amount, amount_units kind most]
    · rw [w.amount, amount_status kind]
    · rw [w.headCount, (heads_shown kind).1, ofNat8_toNat (by omega)]
    · rw [w.headField i hi, (heads_shown kind).2 i hi]
    · rw [w.headCount, (heads_absent kind).1]
      rfl
    · rw [w.headField i hi, (heads_absent kind).2 i hi]
    · rw [w.region, known, recordRegion_toNat]
    · rw [w.region, unknown]
      rfl
    · rw [w.target]
      exact recordTarget_toNat _ _
    · rw [w.suspends, recordSuspends_erase kind most]
    · rw [w.suspends, recordSuspends_other kind]
      rfl
  · rw [collectReply, byteAt]
    exact List.getElem?_getD_replicate_default_eq _ 15 i

end Sys2Proof.Machine
end

section
namespace Sys2Proof.Machine

/-! ### Every command answers, and those that cannot occur (log 2, log 4) -/

/-- Settles O1: on a queue that is not empty, `step` is its second branch. -/
theorem stepRunsTheFrontCommand : Obligations.StepRunsTheFrontCommand := by
  unfold Obligations.StepRunsTheFrontCommand
  exact fun _ _ _ => rfl

/-- No meaning faults or refuses (log 4). -/
theorem exec_answers (c : Instr) (s : State) : ∃ t, exec c s = .next t := by
  cases c
  all_goals exact ⟨_, rfl⟩

section

variable {s : State}

theorem exec_insertion_idle
    (h : ¬ ∃ a, s.admission.current = some a ∧ ∃ it, a.decision = .insert it) : exec .insertion s = .next s := by
  change execInsertion s = _
  unfold execInsertion
  split
  · next it current => exact absurd ⟨_, current, it, rfl⟩ h
  all_goals rfl

theorem exec_completionPost_idle
    (h : ¬ ∃ a, s.admission.current = some a ∧ ∃ slot r, a.decision = .refuse slot r) :
    exec .completionPost s = .next s := by
  change execCompletionPost s = _
  unfold execCompletionPost
  split
  · next slot r current => exact absurd ⟨_, current, slot, r, rfl⟩ h
  all_goals rfl

/-- A code of the table is no BADCODE (R180). -/
theorem exec_badcode_idle {p : Port} {code : Byte} (hears : s.hears p) (known : code ∈ frameCodes) (bytes : List Byte) :
    exec (.badcode p code bytes) s = .next s := by
  rw [exec_frame_taken rfl hears rfl]
  exact congrArg _ (if_pos (List.contains_iff_mem.2 known))

/-! #### Claims -/

theorem exec_busResetClaim_idle {b : Bus} (h : (s.bus b).resets = 0) : exec (.busResetClaim b) s = .next s :=
  congrArg _ (if_pos h)

theorem exec_targetResetClaim_idle {x : Target} (h : x ∉ s.resetClaims) : exec (.targetResetClaim x) s = .next s :=
  congrArg _ (if_neg (by simp [h]))

theorem exec_revocationClaim_idle {b : Bus} (h : (s.bus b).revocations = []) : exec (.revocationClaim b) s = .next s := by
  change execRevocationClaim b s = _
  simp only [execRevocationClaim, h]

theorem exec_cancelClaim_idle {p : Port} {b : Bus} (h : ∀ c ∈ (s.bus b).cancels, c.port ≠ p) :
    exec (.cancelClaim p b) s = .next s := by
  have unsent : (s.bus b).cancels.find? (fun c => decide (c.port = p)) = none :=
    List.find?_eq_none.2 fun c hc => by simpa using h c hc
  change execCancelClaim p b s = _
  simp only [execCancelClaim, unsent]

/-! #### Bytes and ends of frames -/

section

variable {b : Bus} {o : Host.Outcome State Fault Refusal}

/-- An event of a frame in flight is idle on an IDLE bus, and where the frame does not meet what the event needs. -/
theorem carried_idle {P : FrameRecord → Prop} (free : (s.bus b).frame = none → o = .next s)
    (other : ∀ r, (s.bus b).frame = some r → ¬ P r → o = .next s) (h : ¬ ∃ r, (s.bus b).frame = some r ∧ P r) :
    o = .next s := by
  cases flight : (s.bus b).frame with
  | none => exact free flight
  | some r => exact other r flight fun meets => h ⟨r, flight, meets⟩

/-- So is one of the frame in flight and the item that it serves. -/
theorem served_idle {P : FrameRecord → Item → Prop} (free : (s.bus b).serving = none → o = .next s)
    (other : ∀ r it, (s.bus b).serving = some (r, it) → ¬ P r it → o = .next s)
    (h : ¬ ∃ r it, (s.bus b).serving = some (r, it) ∧ P r it) : o = .next s := by
  cases serving : (s.bus b).serving with
  | none => exact free serving
  | some y => exact other y.1 y.2 serving fun meets => h ⟨y.1, y.2, serving, meets⟩

theorem exec_dataByteReceived_idle (sdi : Byte)
    (h : ¬ ∃ r it, (s.bus b).serving = some (r, it) ∧ r.kind = .read ∧ it.bytesMoved < r.dataLimit) :
    exec (.dataByteReceived b sdi) s = .next s :=
  served_idle (o := execDataByteReceived b sdi s) (fun free => by simp only [execDataByteReceived, free])
    (fun r it serves other => by
      simp only [execDataByteReceived, serves]
      exact congrArg _ (if_neg (by simpa using other))) h

theorem exec_dataByteSent_idle
    (h : ¬ ∃ r it, (s.bus b).serving = some (r, it) ∧ r.kind = .programPair ∧ r.pair = some .second ∧ it.bytesMoved < r.count) :
    exec (.dataByteSent b) s = .next s :=
  served_idle (o := execDataByteSent b s) (fun free => by simp only [execDataByteSent, free])
    (fun r it serves other => by
      simp only [execDataByteSent, serves]
      exact congrArg _ (if_neg (by simpa [and_assoc] using other))) h

theorem exec_readFrameEnd_idle
    (h : ¬ ∃ r it, (s.bus b).serving = some (r, it) ∧ r.kind = .read ∧ r.dataLimit ≤ it.bytesMoved) :
    exec (.readFrameEnd b) s = .next s :=
  served_idle (o := execReadFrameEnd b s) (fun free => by simp only [execReadFrameEnd, free])
    (fun r it serves other => by
      simp only [execReadFrameEnd, serves]
      exact congrArg _ (if_neg (by simpa using other))) h

theorem exec_programPairEnd_idle
    (h : ¬ ∃ r it, (s.bus b).serving = some (r, it) ∧ r.kind = .programPair ∧ r.pair = some .second ∧ r.count ≤ it.bytesMoved) :
    exec (.programPairEnd b) s = .next s :=
  served_idle (o := execProgramPairEnd b s) (fun free => by simp only [execProgramPairEnd, free])
    (fun r it serves other => by
      simp only [execProgramPairEnd, serves]
      exact congrArg _ (if_neg (by simpa [and_assoc] using other))) h

theorem exec_erasePairEnd_idle
    (h : ¬ ∃ r it, (s.bus b).serving = some (r, it) ∧ r.kind = .erasePair ∧ r.pair = some .second) :
    exec (.erasePairEnd b) s = .next s :=
  served_idle (o := execErasePairEnd b s) (fun free => by simp only [execErasePairEnd, free])
    (fun r it serves other => by
      simp only [execErasePairEnd, serves]
      exact congrArg _ (if_neg (by simpa using other))) h

theorem exec_writeEnableFrameEnd_idle (h : ¬ ∃ r, (s.bus b).frame = some r ∧ r.pair = some .first) :
    exec (.writeEnableFrameEnd b) s = .next s :=
  carried_idle (o := execWriteEnableFrameEnd b s) (fun free => by simp only [execWriteEnableFrameEnd, free])
    (fun r flight other => by simp only [execWriteEnableFrameEnd, flight, if_neg other]) h

theorem exec_statusFrameEnd_idle (sdi : Byte)
    (h : ¬ ∃ r, (s.bus b).frame = some r ∧ (r.kind = .status ∨ r.kind = .poll)) :
    exec (.statusFrameEnd b sdi) s = .next s :=
  carried_idle (o := execStatusFrameEnd b sdi s) (fun free => by simp only [execStatusFrameEnd, free])
    (fun r flight other => by
      simp only [execStatusFrameEnd, flight]
      exact congrArg _ (if_neg (by simpa using other))) h

theorem exec_suspendFrameEnd_idle (h : ¬ ∃ r, (s.bus b).frame = some r ∧ r.kind = .suspend) :
    exec (.suspendFrameEnd b) s = .next s :=
  carried_idle (o := execSuspendFrameEnd b s) (fun free => by simp only [execSuspendFrameEnd, free])
    (fun r flight other => by simp only [execSuspendFrameEnd, flight, if_neg other]) h

theorem exec_resumeFrameEnd_idle (h : ¬ ∃ r, (s.bus b).frame = some r ∧ r.kind = .resume) :
    exec (.resumeFrameEnd b) s = .next s :=
  carried_idle (o := execResumeFrameEnd b s) (fun free => by simp only [execResumeFrameEnd, free])
    (fun r flight other => by simp only [execResumeFrameEnd, flight, if_neg other]) h

theorem exec_resetFrameEnd_idle (h : ¬ ∃ r, (s.bus b).frame = some r ∧ r.kind = .reset) :
    exec (.resetFrameEnd b) s = .next s :=
  carried_idle (o := execResetFrameEnd b s) (fun free => by simp only [execResetFrameEnd, free])
    (fun r flight other => by simp only [execResetFrameEnd, flight, if_neg other]) h

end

/-! #### Expiries -/

theorem remaining_of_not_running {timer : Timer} (h : ¬ ∃ period spent, timer = .running period spent) :
    timer.remaining = none := by
  cases timer with
  | stopped | expired => rfl
  | running period spent => exact absurd ⟨period, spent, rfl⟩ h

theorem busyLeft_uncounted {r : TargetRecord} (erasing : r.state ≠ .erasing) (suspending : r.state ≠ .suspending) :
    r.busyLeft = none := if_neg (by simp [TargetRecord.counting, erasing, suspending])

end

/-- Settles O3. The queue by the steps of the work lists (`workSteps_pending`), and each event that cannot occur by the guard of
its meaning. -/
theorem everyCommandAnswersAndLeavesTheQueue : Obligations.EveryCommandAnswersAndLeavesTheQueue := by
  unfold Obligations.EveryCommandAnswersAndLeavesTheQueue
  refine ⟨fun c s => ?_, fun s => ?_⟩
  · obtain ⟨t, ht⟩ := exec_answers c s
    exact ⟨t, ht, workSteps_pending (exec_workSteps ht)⟩
  intro idle decides runs
  have expires (x : Target) (timer : TargetRecord → Timer) (act : State → State) (still : ¬ runs (timer (s.target x))) :
      s.expire x (fun r => (timer r).remaining) act = s := expire_idle (remaining_of_not_running still)
  refine ⟨fun _ _ high => congrArg _ (if_neg (by simp [high])), fun untaken => congrArg _ (if_pos (by simp [untaken])),
    exec_insertion_idle, exec_completionPost_idle, fun _ _ bytes hears known => exec_badcode_idle hears known bytes,
    fun b => ?_, fun x => ?_⟩
  · exact ⟨exec_busResetClaim_idle, exec_revocationClaim_idle, fun _ => exec_cancelClaim_idle, exec_dataByteReceived_idle,
      exec_dataByteSent_idle, exec_readFrameEnd_idle, exec_programPairEnd_idle, exec_erasePairEnd_idle,
      exec_writeEnableFrameEnd_idle, exec_statusFrameEnd_idle, exec_suspendFrameEnd_idle, exec_resumeFrameEnd_idle,
      exec_resetFrameEnd_idle⟩
  · exact ⟨exec_targetResetClaim_idle, fun still => congrArg _ (expires x (·.poll) _ still),
      fun still => congrArg _ (expires x (·.program) _ still), fun still => congrArg _ (expires x (·.holdOff) _ still),
      fun still => congrArg _ (expires x (·.latency) _ still), fun still => congrArg _ (expires x (·.held) _ still),
      fun still => congrArg _ (expires x (·.recovery) _ still),
      fun erasing suspending => congrArg _ (expire_idle (busyLeft_uncounted erasing suspending))⟩

end Sys2Proof.Machine
end
